-- ==== Sys2Proof/Word.lean ====
section
/-! DEFINITION. The word types of huffman_encoder. Only what the spec treats as bits is a bit vector. -/

namespace Sys2Proof

/-- A host-visible register or window word, `REG_W` = 32 bits (R15); also a count or weight, `COUNT_W` = 32 bits (R12). -/
abbrev Word := BitVec 32

/-- One byte of the input or output stream, `CHUNK_W` = 8 bits (R8). -/
abbrev Byte := BitVec 8

/-- The 9-bit symbol field of a node or of a header leaf token, `SYM_W` = 9 (R9). It can hold 0 to 511. -/
abbrev SymField := BitVec 9

/-- A node index, `NODE_IDX_W` = 10 bits (R13). -/
abbrev NodeIdx := BitVec 10

/-- A symbol: a literal byte 0 to 255 or the end-of-stream symbol 256 (R9, R19). It indexes the 257-entry tables. -/
abbrev Symbol := Fin 257

end Sys2Proof
end

