-- ==== Sys2Proof/Config.lean ====
section
/-! DEFINITION. The implementation parameters of huffman_encoder (R8 to R15, R38, R39) and the free values: opaque
constants with no body, for what the spec leaves open. -/

namespace Sys2Proof

/-- `EOF_SYM` = 256 (R9). -/
abbrev Config.eofSym : Nat := 256

/-- `NODE_CAP` = 513: the capacity of the node arena (R13). -/
abbrev Config.nodeCap : Nat := 513

/-- `PQ_CAP` = 257: the capacity of the priority queue (R13). -/
abbrev Config.pqCap : Nat := 257

/-- The greatest sequence number the queue pushes, 512 (R13, R152, R154). -/
abbrev Config.seqMax : Nat := 512

/-- `IN_MAX` = 2^32 - 1: the greatest length in bytes of a bound input (R15). -/
abbrev Config.inMax : Nat := 4294967295

/-- `2^COUNT_W - 2`: the most bytes one COUNT counts (R12, R142). -/
abbrev Config.countMax : Word := 4294967294

/-- The constant the ID register reads (R38). -/
abbrev Config.idValue : Word := 0x48554646

/-- The constant the VERSION register reads, MAJOR 1 and MINOR 0 (R39). -/
abbrev Config.versionValue : Word := 0x00010000

/-- `MAGIC_TAG`, the reset value of TAG: the spec gives no value and a model takes it as an argument (R11, D3).
No body: nothing proved here rests on a value of it. -/
opaque Config.magicTag : Word

/-- FREE VALUE. What the `n`-th unspecified host read returns (R55: a read, while BUSY = 1, of a register other than ID,
VERSION, STATUS, TAG and IRQ_EN, or of a window word). No body. -/
opaque Config.freeRead : Nat → Word

/-- FREE VALUE. How many bytes of the running command's final output the `n`-th observation of `OUT` while BUSY = 1
shows (R80, R279, item 17 of 93_implementation_defined.md). No body. -/
opaque Config.freePrefix : Nat → Nat

end Sys2Proof
end

