-- ==== Sys2Proof/Syntax.lean ====
section
/-! DEFINITION. The instructions of huffman_encoder: one constructor per row of spec/opcode_table.json. The core has no
instruction stream (R3, R21): its instructions are the words the host writes to CTRL (R91, R92) and the tokens the core
reads from a compressed stream (R95 to R97). -/

namespace Sys2Proof

/-- One constructor per row of the opcode table. -/
inductive Instr where
  /-- CTRL 0x0: clear DONE, ERR and ERRCODE (R223). -/
  | ack
  /-- CTRL 0x1: the whole compression pipeline (R224). -/
  | compress
  /-- CTRL 0x2: the whole decompression pipeline (R225). -/
  | decompress
  /-- CTRL 0x3: frequency count (R140). -/
  | count
  /-- CTRL 0x4: build the tree from the counts (R156). -/
  | build
  /-- CTRL 0x5: generate the code table (R170). -/
  | gen
  /-- CTRL 0x6: write the 32-bit tag (R180). -/
  | wtag
  /-- CTRL 0x7: write the preorder header (R181). -/
  | whdr
  /-- CTRL 0x8: encode the input (R200). -/
  | enc
  /-- CTRL 0x9: read and check the tag (R183). -/
  | rtag
  /-- CTRL 0xA: read the header (R184). -/
  | rhdr
  /-- CTRL 0xB: decode the body (R203). -/
  | dec
  /-- CTRL 0xC: set the input position to 0 (R131). -/
  | rewind
  /-- CTRL 0xD: pad the output to a byte (R132). -/
  | close
  /-- CTRL 0xE: empty the output (R133). -/
  | outclr
  /-- CTRL 0xF: the reserved OP (R226). -/
  | illegalOp
  /-- A CTRL word whose bits 31:4 are not all 0, with whatever OP (R226); decoded before OP (R92). -/
  | illegalRsv (rsv : BitVec 28) (op : BitVec 4)
  /-- The tag field of a compressed stream: 32 bits (R95). -/
  | tag (t : Word)
  /-- Header token INTERNAL: the bit 0 (R96). -/
  | hdrInternal
  /-- Header token LEAF: the bit 1 and a 9-bit symbol field (R97); payloads 257 to 511 are reserved (R99). -/
  | hdrLeaf (sym : SymField)
  deriving DecidableEq, Repr

end Sys2Proof
end

