-- ==== Sys2Proof/WellFormed.lean ====
section
/-! DEFINITION. Which instructions are well formed: the fields that the opcode table constrains. -/

namespace Sys2Proof

/-- The one constraint the table puts on a field: the row "ILLEGAL (RSV not 0)" matches only when bits 31:4 are not all
0 (R92, R93). Every 9-bit payload of a leaf token is well formed as a token: the reserved payloads 257 to 511 are read
and raise HEADER_SYMBOL_RANGE (R99, R187). -/
def Instr.wellFormed : Instr → Bool
  | .illegalRsv rsv _ => rsv != 0
  | .ack | .compress | .decompress | .count | .build | .gen | .wtag | .whdr | .enc | .rtag | .rhdr | .dec
  | .rewind | .close | .outclr | .illegalOp | .tag _ | .hdrInternal | .hdrLeaf _ => true

end Sys2Proof
end

