-- ==== Sys2Proof/Decode.lean ====
section
/-! DEFINITION. Decoding and encoding. A bit sequence is a `List Bool` in transmission order, the first bit sent first
(R16). A CTRL word is read as its 32 bits, bit 31 first; the fields of a compressed stream are sent most significant bit
first (R69). -/

namespace Sys2Proof

/-! ### Bit order -/

/-- The `n` low bits of `v`, the most significant first: the order of `writeBits(n, v)` (R69, R125). -/
def msbBits : Nat → Nat → List Bool
  | 0, _ => []
  | n + 1, v => v.testBit n :: msbBits n v

/-- The number a bit sequence denotes, the first bit the most significant (R69). -/
def bitsVal (bits : List Bool) : Nat :=
  bits.foldl (fun v b => 2 * v + b.toNat) 0

/-! ### Decoding -/

/-- Where the bits of an instruction come from; it selects the format (R90). -/
inductive Port where
  /-- A word the host writes to CTRL (R91). -/
  | ctrl
  /-- The 32-bit tag field of a compressed stream, read by RTAG (R95). -/
  | tagField
  /-- A header token of a compressed stream, read by `read_node` (R96, R97). -/
  | header
  deriving DecidableEq, Repr

/-- Why a bit sequence holds no instruction. -/
inductive Reject where
  /-- Fewer than 32 bits for a CTRL word: every register access is a whole word (R62, R73). -/
  | shortWord
  /-- Fewer than 32 bits for the tag field (R183). -/
  | shortTag
  /-- No bit left for a marker (R185). -/
  | noMarker
  /-- A leaf marker with fewer than 9 bits after it (R185). -/
  | shortPayload
  deriving DecidableEq, Repr

/-- What the decoder answers: an instruction and the bits after it, or a named rejection. -/
inductive Decoded where
  | instr (i : Instr) (rest : List Bool)
  | reject (r : Reject)
  deriving DecidableEq, Repr

/-- The opcode map of a CTRL word: bits 31:4 are read first, then OP (R92, R93). Every word has a meaning. -/
def decodeCtrl (w : Word) : Instr :=
  if w.extractLsb' 4 28 ≠ 0 then .illegalRsv (w.extractLsb' 4 28) (w.extractLsb' 0 4)
  else
    match (w.extractLsb' 0 4).toNat with
    | 0 => .ack
    | 1 => .compress
    | 2 => .decompress
    | 3 => .count
    | 4 => .build
    | 5 => .gen
    | 6 => .wtag
    | 7 => .whdr
    | 8 => .enc
    | 9 => .rtag
    | 10 => .rhdr
    | 11 => .dec
    | 12 => .rewind
    | 13 => .close
    | 14 => .outclr
    | _ => .illegalOp

/-- One header token: `0` is INTERNAL, `1` and 9 bits is LEAF (R96 to R98). -/
def decodeToken : List Bool → Decoded
  | [] => .reject .noMarker
  | false :: rest => .instr .hdrInternal rest
  | true :: rest =>
    if 9 ≤ rest.length then .instr (.hdrLeaf (BitVec.ofNat 9 (bitsVal (rest.take 9)))) (rest.drop 9)
    else .reject .shortPayload

/-- The tag field: any 32 bits (R95). -/
def decodeTag (bits : List Bool) : Decoded :=
  if 32 ≤ bits.length then .instr (.tag (BitVec.ofNat 32 (bitsVal (bits.take 32)))) (bits.drop 32)
  else .reject .shortTag

/-- The decoder, total on any bits. -/
def decode (port : Port) (bits : List Bool) : Decoded :=
  match port with
  | .ctrl =>
    if 32 ≤ bits.length then .instr (decodeCtrl (BitVec.ofNat 32 (bitsVal (bits.take 32)))) (bits.drop 32)
    else .reject .shortWord
  | .tagField => decodeTag bits
  | .header => decodeToken bits

/-! ### Encoding -/

/-- The CTRL word of a command (R91, R92); a stream token has none. -/
def encodeCtrl : Instr → Option Word
  | .ack => some 0x0#32
  | .compress => some 0x1#32
  | .decompress => some 0x2#32
  | .count => some 0x3#32
  | .build => some 0x4#32
  | .gen => some 0x5#32
  | .wtag => some 0x6#32
  | .whdr => some 0x7#32
  | .enc => some 0x8#32
  | .rtag => some 0x9#32
  | .rhdr => some 0xA#32
  | .dec => some 0xB#32
  | .rewind => some 0xC#32
  | .close => some 0xD#32
  | .outclr => some 0xE#32
  | .illegalOp => some 0xF#32
  | .illegalRsv rsv op => some (rsv ++ op)
  | .tag _ => none
  | .hdrInternal => none
  | .hdrLeaf _ => none

/-- The port an instruction is read from. -/
def Instr.port : Instr → Port
  | .tag _ => .tagField
  | .hdrInternal | .hdrLeaf _ => .header
  | .ack | .compress | .decompress | .count | .build | .gen | .wtag | .whdr | .enc | .rtag | .rhdr | .dec
  | .rewind | .close | .outclr | .illegalOp | .illegalRsv _ _ => .ctrl

/-- The bits of an instruction in transmission order: the tag field (R95), a header token (R96, R97), or the 32 bits of
a CTRL word, bit 31 first. -/
def encode (i : Instr) : List Bool :=
  match i with
  | .tag t => msbBits 32 t.toNat
  | .hdrInternal => [false]
  | .hdrLeaf sym => true :: msbBits 9 sym.toNat
  | .ack | .compress | .decompress | .count | .build | .gen | .wtag | .whdr | .enc | .rtag | .rhdr | .dec
  | .rewind | .close | .outclr | .illegalOp | .illegalRsv _ _ => msbBits 32 ((encodeCtrl i).getD 0).toNat

/-! ### The opcode table's numbering of bits -/

/-- The bits of a table row in transmission order, its bit 0 the last bit sent: a header token of 1 bit (INTERNAL) comes
in one whole byte, a token of 10 bits (LEAF) in two, a CTRL word in four. `none` where the row's bits do not fit. -/
def tableBits (nbits w : Nat) : Option (Port × List Bool) :=
  if nbits = 32 then
    if w < 2 ^ 32 then some (.ctrl, msbBits 32 w) else none
  else if nbits ≤ 8 then
    if w < 2 then some (.header, msbBits 1 w) else none
  else if nbits ≤ 16 then
    if w < 2 ^ 10 then some (.header, msbBits 10 w) else none
  else none

/-- The instruction the decoder reads from a table word. A word of 32 bits is read as a CTRL word: the TAG row, which is
32 free bits in the stream, is reached through `decode .tagField` only. -/
def decodeTableWord (nbits w : Nat) : Option Instr :=
  match tableBits nbits w with
  | none => none
  | some (port, bits) =>
    match decode port bits with
    | .instr i _ => some i
    | .reject _ => none

end Sys2Proof
end

