-- ==== Sys2Proof/Machine/State.lean ====
section
/-! DEFINITION. The state of huffman_encoder as plain data (10_state.md), the host agent's pending actions, the reset
state (R58, R270), and the reasons a step can stop. -/

namespace Sys2Proof.Machine

/-! ### Why a step stops -/

/-- The faults. Each is a condition the spec calls unreachable or leaves without a step; stopping there is SAFE: it can
make a true claim unprovable, never a false one provable. -/
inductive Fault where
  /-- Raised by a host access that is not 4 bytes wide or not at a multiple of 4: the spec gives it no step (R62). Safe. -/
  | accessNotAdmitted
  /-- Raised by a host binding longer than `IN_MAX` bytes: the spec gives it no step (R63). Safe. -/
  | bindTooLong
  /-- Raised by a stream token executed while the core is at no line that reads it: tokens are read by RTAG and RHDR
  only (R183, R185). Safe. -/
  | tokenNotAwaited
  /-- Raised by BUILD on a queue push when full or past the last sequence number (R154, R268). Unreachable, safe. -/
  | pqOverflow
  /-- Raised by BUILD on a queue pop when empty (R154, R268). Unreachable, safe. -/
  | pqUnderflow
  /-- Raised by BUILD on a node allocation beyond 513 (R161, R268). Unreachable, safe. -/
  | arenaOverflow
  /-- Raised by GEN, WHDR, DEC and RHDR on an index outside the arena (R81). Unreachable, safe. -/
  | nodeIndexRange
  /-- Raised by GEN and DEC on a leaf whose symbol field is above 256 (R81). Unreachable, safe. -/
  | symbolIndexRange
  /-- Raised by DEC on a decode step from a leaf cursor (R205, R268). Unreachable, safe. -/
  | leafCursor
  deriving DecidableEq, Repr

/-- The refusals. -/
inductive Refusal where
  /-- Raised by a dispatch arm whose instruction has no meaning yet; no arm does. Safe. -/
  | notModelled (mnemonic : String)
  deriving DecidableEq, Repr

/-! ### The error codes -/

/-- The errors a command raises (R241). MALFORMED_INPUT is never raised (R250). -/
inductive ErrorCode where
  | badHeaderTag
  | truncatedHeader
  | truncatedStream
  | emptyInput
  | unencodableSymbol
  | malformedInput
  | countOverflow
  | headerOverflow
  | headerSymbolRange
  | degenerateTree
  | illegalSequence
  | illegalOpcode
  deriving DecidableEq, Repr

/-! ### The sequencer -/

/-- A frame of the header-read stack: an internal node whose subtrees are being read, with its left child once that is
read (R28, R185). -/
structure Frame where
  node : NodeIdx
  left : Option NodeIdx
  deriving DecidableEq, Repr

/-- A line of a command's pseudocode, or several that together change at most one thing STATUS shows: what the sequencer
performs in one step (R21, R220; log entry 11). The commands' bodies are lists of lines; a loop is a line that puts itself
back. -/
inductive Line where
  /-- OUTCLR body (R133). -/
  | clearOutput
  /-- `rewind()` (R123). -/
  | rewindInput
  /-- `close()` (R127). -/
  | closeOutput
  /-- `raise E`, where the read before it may show in STATUS (R17, R221). -/
  | raise (e : ErrorCode)
  /-- `tree_valid <- 0` (R156, R184). -/
  | clearTreeValid
  /-- `codes_valid <- 0` (R156, R184). -/
  | clearCodesValid
  /-- COUNT: clear every entry, `total <- 0` (R140). -/
  | countClear
  /-- COUNT: one pass of the loop, with the internal `total` (R140). -/
  | countByte (total : Word)
  /-- COUNT: `freq[256] <- 1` (R140, R143). -/
  | countEof
  /-- BUILD: clear the arena and the queue, list the counted symbols, check for an empty table (R156). -/
  | buildClear
  /-- BUILD: one leaf (R156, R158). -/
  | buildLeaf (s : Symbol)
  /-- BUILD: one pass of the merge loop (R156, R159). -/
  | buildMerge
  /-- BUILD: the final pop and `tree_valid <- 1` (R156). -/
  | buildRoot
  /-- GEN: the check and the clearing of the table (R170). -/
  | genStart
  /-- GEN: `walk(i, L, p)` (R170). -/
  | genWalk (i : NodeIdx) (len : Nat) (path : Nat)
  /-- GEN: `codes_valid <- 1` (R170). -/
  | genEnd
  /-- WTAG: `writeBits(32, tag)` (R180). -/
  | writeTag
  /-- WHDR: the check (R181). -/
  | hdrStart
  /-- WHDR: `emit(i)` (R181). -/
  | hdrEmit (i : NodeIdx)
  /-- WHDR: `writeBits(9, sym)` of a leaf (R181). -/
  | hdrSymbol (v : SymField)
  /-- RTAG: the read and the comparison (R183). -/
  | readTag
  /-- RHDR: clear the arena and the root (R184). -/
  | rhdrClear
  /-- RHDR: one `read_node()` from its marker read on, with the header-read stack, innermost frame first (R28, R185). -/
  | readNode (stack : List Frame)
  /-- RHDR: `root <- r` and the degenerate check (R184, R189). -/
  | rhdrRoot (r : NodeIdx)
  /-- ENC: the check (R200). -/
  | encStart
  /-- ENC: the read of a byte (R200). -/
  | encByte
  /-- ENC: the check and the code of the byte read (R200, R201). -/
  | encChunk (b : Byte)
  /-- ENC: the code of symbol 256 (R202). -/
  | encEof
  /-- DEC: the check, `dec_count <- 0`, `cursor <- root` (R203). -/
  | decStart
  /-- DEC: one pass of the loop (R203, R205, R206). -/
  | decBit
  deriving DecidableEq, Repr

/-- The sequencer: IDLE, or RUNNING the command `op` with the lines still to perform, the current one first (R21). The
traversal stacks are part of it (R28): that of GEN and WHDR is the `genWalk` and `hdrEmit` lines not yet performed, that
of RHDR is in its `readNode` line. -/
inductive Phase where
  | idle
  | running (op : BitVec 4) (todo : List Line)
  deriving DecidableEq, Repr

/-! ### The memories -/

/-- One record of the node arena (R25). -/
structure Node where
  isLeaf : Bool
  sym : SymField
  weight : Word
  left : NodeIdx
  right : NodeIdx
  deriving DecidableEq, Repr

/-- The cleared record, 0 in every field (R25). -/
def Node.zero : Node := { isLeaf := false, sym := 0, weight := 0, left := 0, right := 0 }

/-- An entry of the priority queue (R27). -/
structure PqEntry where
  weight : Word
  seq : BitVec 10
  idx : NodeIdx
  deriving DecidableEq, Repr

/-! ### The host agent -/

/-- An action of the host (R20). -/
inductive HostAction where
  /-- `MemRead(off, size)` (R61). -/
  | read (off : BitVec 16) (size : Nat)
  /-- `MemWrite(off, size, v)` (R61). -/
  | write (off : BitVec 16) (size : Nat) (v : Word)
  /-- Bind the input (R63). -/
  | bind (bytes : List Byte)
  /-- Observe the output (R64). -/
  | observe
  /-- The reset input (R270). -/
  | reset
  deriving DecidableEq, Repr

/-- A pending host action and when it lands (R77: one total order of host and core steps). `lag = none`: once BUSY = 0,
as a host that waits does (R106, R276). `lag = some n`: `n` core steps after the host's action before it, or at once
when the core is idle. -/
structure HostEvent where
  lag : Option Nat
  act : HostAction
  deriving DecidableEq, Repr

/-! ### The state -/

/-- The state of the machine: the core's (R21 to R36) and the host agent's pending actions. `busy` is `phase` not IDLE
(R21), and `irq` has no storage (R36): see Flags.lean. -/
structure State where
  /-- The sequencer (R21). -/
  phase : Phase
  /-- The frequency table (R23). -/
  freq : Vector Word 257
  /-- The code lengths (R24). -/
  codelen : Vector (BitVec 9) 257
  /-- The code patterns, right-aligned (R24). -/
  codebits : Vector (BitVec 256) 257
  /-- How many nodes are allocated (R25). -/
  nodeCount : BitVec 10
  /-- The node arena (R25). -/
  node : Vector Node 513
  /-- The root's index (R26). -/
  root : NodeIdx
  /-- The priority queue, in push order (R27). -/
  pq : List PqEntry
  /-- The sequence counter (R27). -/
  seqCtr : BitVec 10
  /-- The decode cursor (R29). -/
  cursor : NodeIdx
  /-- `IN`, the bound input (R30). -/
  input : List Byte
  /-- `in_pos`, a bit position (R30). -/
  inPos : Nat
  /-- `OUT`, the whole bytes delivered (R31). -/
  output : List Byte
  /-- The partial byte (R31). -/
  outAcc : BitVec 8
  /-- How many bits the partial byte holds (R31). -/
  outNbits : BitVec 3
  /-- The arena holds a complete tree (R32). -/
  treeValid : Bool
  /-- The code table is of the tree in the arena (R32). -/
  codesValid : Bool
  /-- The last command completed without error (R33). -/
  done : Bool
  /-- The last command raised an error (R33). -/
  err : Bool
  /-- Which error (R33). -/
  errcode : BitVec 4
  /-- The bytes the last DEC wrote, modulo 2^32 (R34). -/
  decCount : Word
  /-- The TAG register (R35). -/
  tag : Word
  /-- The interrupt enable (R35). -/
  irqEn : Bool
  /-- The host's pending actions, the next one first (the model's own field). -/
  host : List HostEvent
  /-- What the host's last `MemRead` returned (the model's own field). -/
  rdata : Word
  /-- What the host's last observation of `OUT` showed (the model's own field). -/
  outSeen : List Byte
  /-- How many free values have been drawn (the model's own field). -/
  draws : Nat
  deriving DecidableEq, Repr

/-- The state after reset and at power-on (R58, R270), with no host action pending. -/
def State.reset : State where
  phase := .idle
  freq := Vector.replicate 257 0
  codelen := Vector.replicate 257 0
  codebits := Vector.replicate 257 0
  nodeCount := 0
  node := Vector.replicate 513 Node.zero
  root := 0
  pq := []
  seqCtr := 0
  cursor := 0
  input := []
  inPos := 0
  output := []
  outAcc := 0
  outNbits := 0
  treeValid := false
  codesValid := false
  done := false
  err := false
  errcode := 0
  decCount := 0
  tag := Config.magicTag
  irqEn := false
  host := []
  rdata := 0
  outSeen := []
  draws := 0

end Sys2Proof.Machine
end

