-- ==== Sys2Proof/Machine/Flags.lean ====
section
/-! DEFINITION. The flags of huffman_encoder: the derived STATUS bits, the STATUS word and the interrupt level. -/

namespace Sys2Proof.Machine

/-- `busy` is 1 exactly while `phase` is RUNNING (R21, R33). -/
def State.busy (s : State) : Bool :=
  match s.phase with
  | .idle => false
  | .running _ _ => true

/-- `irq = irq_en AND (done OR err)`, a level with no storage (R36, R258). -/
def State.irq (s : State) : Bool := s.irqEn && (s.done || s.err)

/-- STATUS.IN_END: `in_pos = 8 * |IN|` (R41). -/
def State.inEnd (s : State) : Bool := s.inPos == 8 * s.input.length

/-- STATUS.OUT_PARTIAL: `out_nbits != 0` (R41). -/
def State.outPartial (s : State) : Bool := s.outNbits != 0

/-- A flag at bit `k` of a register word. -/
def flagAt (b : Bool) (k : Nat) : Word := if b then BitVec.twoPow 32 k else 0

/-- The STATUS word, bits 31:8 reading 0 (R41). -/
def State.status (s : State) : Word :=
  flagAt s.busy 0 ||| flagAt s.done 1 ||| flagAt s.err 2 ||| flagAt s.treeValid 3 |||
    flagAt s.codesValid 4 ||| flagAt s.inEnd 5 ||| flagAt s.outPartial 6 ||| flagAt s.irq 7

/-- The number of an error (R241). -/
def ErrorCode.code : ErrorCode → BitVec 4
  | .badHeaderTag => 1
  | .truncatedHeader => 2
  | .truncatedStream => 3
  | .emptyInput => 4
  | .unencodableSymbol => 5
  | .malformedInput => 6
  | .countOverflow => 7
  | .headerOverflow => 8
  | .headerSymbolRange => 9
  | .degenerateTree => 10
  | .illegalSequence => 11
  | .illegalOpcode => 12

end Sys2Proof.Machine
end

