-- ==== Sys2Proof/Machine/Operands.lean ====
section
/-! DEFINITION. Where a command's operands come from: the bits of the input, the entries of the tables, the symbols BUILD
gives leaves, and the register map through which the host reads all of it. -/

namespace Sys2Proof.Machine

/-! ### Symbols -/

/-- The symbol of a literal byte (R8). -/
def byteSymbol (b : Byte) : Symbol := ⟨b.toNat, by omega⟩

/-- The end-of-stream symbol (R9). -/
def eofSymbol : Symbol := ⟨Config.eofSym, by decide⟩

/-- The symbol a 9-bit field names, `none` for 257 to 511 (R99). -/
def fieldSymbol (v : SymField) : Option Symbol := if h : v.toNat < 257 then some ⟨v.toNat, h⟩ else none

/-- The 9-bit field of a symbol (R97). -/
def symbolField (s : Symbol) : SymField := BitVec.ofNat 9 s.val

/-- Every symbol in ascending order: `for s in 0..256` (R16). -/
def allSymbols : List Symbol := List.finRange 257

/-! ### The input bits -/

/-- Bit `k` of a byte sequence: the most significant bit of each byte comes first (R68). -/
def bitAt (bytes : List Byte) (k : Nat) : Bool := ((bytes[k / 8]?).getD 0).getLsbD (7 - k % 8)

/-- The `n` bits from position `p` (R68). -/
def bitsFrom (bytes : List Byte) (p n : Nat) : List Bool := (List.range' p n).map (bitAt bytes)

/-- How many bits of the input are left to read (R121). -/
def State.bitsLeft (s : State) : Nat := 8 * s.input.length - s.inPos

/-! ### The tables -/

/-- The arena record at an index, `none` outside 0 to 512 (R25). -/
def State.nodeAt (s : State) (i : NodeIdx) : Option Node := s.node[i.toNat]?

/-- The bits of a symbol's code in sending order: the `codelen` low bits of `codebits`, the most significant first
(R24, R126). -/
def State.codeOf (s : State) (x : Symbol) : List Bool := msbBits s.codelen[x].toNat s.codebits[x].toNat

/-! ### The symbols BUILD gives leaves -/

/-- The symbols with a non-zero count, ascending (R156). -/
def countedSymbols (freq : Vector Word 257) : List Symbol := allSymbols.filter fun x => freq[x] != 0

/-- The least symbol with count 0 (R157). -/
def fillerSymbol (freq : Vector Word 257) : Option Symbol := allSymbols.find? fun x => freq[x] == 0

/-- Insert a symbol in ascending order (R156). -/
def insertAscending (x : Symbol) : List Symbol → List Symbol
  | [] => [x]
  | y :: ys => if x ≤ y then x :: y :: ys else y :: insertAscending x ys

/-- The symbols BUILD gives leaves: the counted ones, with the filler when there is exactly one (R156, R157). -/
def leafSymbols (freq : Vector Word 257) : List Symbol :=
  match countedSymbols freq with
  | [x] =>
    match fillerSymbol freq with
    | some f => insertAscending f [x]
    | none => [x]
  | xs => xs

/-! ### The register map -/

/-- A field of a NODE window record (R54). -/
inductive NodeField where
  | word0
  | weight
  | left
  | right
  deriving DecidableEq, Repr

/-- What a register offset names (R37). -/
inductive Reg where
  | id
  | version
  | ctrl
  | status
  | errcode
  | tag
  | irqEn
  | decCount
  | nodeCount
  | root
  | outBitlen
  | inPos
  | inLen
  | freqWord (s : Symbol)
  | codelenWord (s : Symbol)
  | codebitsWord (s : Symbol) (w : Fin 8)
  | nodeWord (i : Fin 513) (f : NodeField)
  | unmapped
  deriving DecidableEq, Repr

/-- The NODE field at word `k` of a record (R54). -/
def nodeField (k : Nat) : NodeField :=
  match k with
  | 0 => .word0
  | 1 => .weight
  | 2 => .left
  | _ => .right

/-- The window a register word offset of 0x1000 and above falls in (R51 to R54, R65, R66). -/
def windowAt (off : Nat) : Reg :=
  if h : 0x1000 ≤ off ∧ off < 0x1404 then .freqWord ⟨(off - 0x1000) / 4, by omega⟩
  else if h : 0x2000 ≤ off ∧ off < 0x2404 then .codelenWord ⟨(off - 0x2000) / 4, by omega⟩
  else if h : 0x4000 ≤ off ∧ off < 0x6020 then
    .codebitsWord ⟨(off - 0x4000) / 32, by omega⟩ ⟨(off - 0x4000) % 32 / 4, by omega⟩
  else if h : 0x8000 ≤ off ∧ off < 0xA010 then
    .nodeWord ⟨(off - 0x8000) / 16, by omega⟩ (nodeField ((off - 0x8000) % 16 / 4))
  else .unmapped

/-- The register map (R37, R65); every other offset is unmapped (R66). -/
def regAt (off : Nat) : Reg :=
  if off = 0x000 then .id
  else if off = 0x004 then .version
  else if off = 0x008 then .ctrl
  else if off = 0x00C then .status
  else if off = 0x010 then .errcode
  else if off = 0x014 then .tag
  else if off = 0x018 then .irqEn
  else if off = 0x01C then .decCount
  else if off = 0x020 then .nodeCount
  else if off = 0x024 then .root
  else if off = 0x028 then .outBitlen
  else if off = 0x02C then .inPos
  else if off = 0x030 then .inLen
  else windowAt off

/-- One word of the NODE window; all four words of an unallocated record read 0 (R54). -/
def State.nodeWord (s : State) (i : Fin 513) (f : NodeField) : Word :=
  if i.val < s.nodeCount.toNat then
    match f with
    | .word0 => flagAt s.node[i].isLeaf 31 ||| s.node[i].sym.setWidth 32
    | .weight => s.node[i].weight
    | .left => s.node[i].left.setWidth 32
    | .right => s.node[i].right.setWidth 32
  else 0

/-- What a register or window word holds (R38 to R54); reserved bits and unmapped offsets read 0 (R66, R67). -/
def State.regValue (s : State) : Reg → Word
  | .id => Config.idValue
  | .version => Config.versionValue
  | .ctrl => 0
  | .status => s.status
  | .errcode => s.errcode.setWidth 32
  | .tag => s.tag
  | .irqEn => flagAt s.irqEn 0
  | .decCount => s.decCount
  | .nodeCount => s.nodeCount.setWidth 32
  | .root => s.root.setWidth 32
  | .outBitlen => BitVec.ofNat 32 (8 * s.output.length + s.outNbits.toNat)
  | .inPos => BitVec.ofNat 32 s.inPos
  | .inLen => BitVec.ofNat 32 s.input.length
  | .freqWord x => s.freq[x]
  | .codelenWord x => s.codelen[x].setWidth 32
  | .codebitsWord x w => s.codebits[x].extractLsb' (32 * w.val) 32
  | .nodeWord i f => s.nodeWord i f
  | .unmapped => 0

/-- The registers whose value a host read returns also while BUSY = 1; an unmapped offset reads 0 then too (R55, R66). -/
def Reg.definedWhileBusy : Reg → Bool
  | .id | .version | .status | .tag | .irqEn | .unmapped => true
  | .ctrl | .errcode | .decCount | .nodeCount | .root | .outBitlen | .inPos | .inLen
  | .freqWord _ | .codelenWord _ | .codebitsWord _ _ | .nodeWord _ _ => false

end Sys2Proof.Machine
end

