-- ==== Sys2Proof/Machine/Ops.lean ====
section
/-! DEFINITION. The named operations every command is written over: the bitstream units, the node arena, the priority
queue, and the command framing with its error abort. -/

namespace Sys2Proof.Machine

/-! ### bitstream_unpack -/

/-- `readBits(n)`: the value, or `none` for the `EOF` sentinel, which consumes the bits left (R121, R122). -/
def readBits (n : Nat) (s : State) : Option Nat × State :=
  if s.inPos + n > 8 * s.input.length then (none, { s with inPos := 8 * s.input.length })
  else (some (bitsVal (bitsFrom s.input s.inPos n)), { s with inPos := s.inPos + n })

/-- `rewind()` (R123). -/
def rewind (s : State) : State := { s with inPos := 0 }

/-! ### bitstream_pack -/

/-- `putBit(b)` (R124). -/
def putBit (b : Bool) (s : State) : State :=
  let acc := BitVec.ofNat 8 (2 * s.outAcc.toNat + b.toNat)
  if s.outNbits.toNat + 1 = 8 then { s with output := s.output ++ [acc], outAcc := 0, outNbits := 0 }
  else { s with outAcc := acc, outNbits := BitVec.ofNat 3 (s.outNbits.toNat + 1) }

/-- Bits in sending order, one `putBit` each. -/
def putBits (bits : List Bool) (s : State) : State := bits.foldl (fun s b => putBit b s) s

/-- `writeBits(n, v)`, the most significant bit first (R125). -/
def writeBits (n v : Nat) (s : State) : State := putBits (msbBits n v) s

/-- `writeCode(s)` (R126). Its callers check that the code is there (R201, R202). -/
def writeCode (x : Symbol) (s : State) : State := putBits (s.codeOf x) s

/-- `putBit(0)` while `out_nbits != 0`, at most `k` times (R127). -/
def padBits : Nat → State → State
  | 0, s => s
  | k + 1, s => if s.outNbits = 0 then s else padBits k (putBit false s)

/-- `close()`: at most 7 zero bits are needed (R127). -/
def close (s : State) : State := padBits 7 s

/-- `OUT <- []; out_acc <- 0; out_nbits <- 0` (R133). -/
def clearOut (s : State) : State := { s with output := [], outAcc := 0, outNbits := 0 }

/-! ### The node arena and the tables -/

/-- Empty the arena: `node_count <- 0` and every record 0 (R156, R184). -/
def clearArena (s : State) : State :=
  { s with nodeCount := 0, node := Vector.replicate 513 Node.zero }

/-- Write a record at an index (R25); an index outside the arena faults (R81). -/
def setNode (i : NodeIdx) (n : Node) (s : State) (k : State → Host.Outcome State Fault Refusal) :
    Host.Outcome State Fault Refusal :=
  if h : i.toNat < 513 then k { s with node := s.node.set i.toNat n h } else .fault .nodeIndexRange

/-- `node_count <- node_count + 1` (R156, R185). -/
def allocate (s : State) : State := { s with nodeCount := s.nodeCount + 1 }

/-- Clear the code table (R170). -/
def clearCodes (s : State) : State :=
  { s with codelen := Vector.replicate 257 0, codebits := Vector.replicate 257 0 }

/-- Record a code of `len` bits with value `path` for a symbol (R170, R171). -/
def setCode (x : Symbol) (len path : Nat) (s : State) : State :=
  { s with codelen := s.codelen.set x (BitVec.ofNat 9 len), codebits := s.codebits.set x (BitVec.ofNat 256 path) }

/-! ### priority_queue_arb -/

/-- The key order `<lex` on (weight, seq) (R16, R150). -/
def PqEntry.before (a b : PqEntry) : Bool :=
  a.weight.toNat < b.weight.toNat || (a.weight.toNat == b.weight.toNat && a.seq.toNat < b.seq.toNat)

/-- The entry whose key is least (R153). -/
def pqLeast : List PqEntry → Option PqEntry
  | [] => none
  | e :: es =>
    match pqLeast es with
    | none => some e
    | some m => if m.before e then some m else some e

/-- `pq_clear()` (R151). -/
def pqClear (s : State) : State := { s with pq := [], seqCtr := 0 }

/-- `pq_push(w, i)` (R152); pushing when full or past the last sequence number faults (R154, R268). -/
def pqPush (w : Word) (i : NodeIdx) (s : State) (k : State → Host.Outcome State Fault Refusal) :
    Host.Outcome State Fault Refusal :=
  if s.pq.length < Config.pqCap ∧ s.seqCtr.toNat ≤ Config.seqMax then
    k { s with pq := s.pq ++ [{ weight := w, seq := s.seqCtr, idx := i }], seqCtr := s.seqCtr + 1 }
  else .fault .pqOverflow

/-- `pq_pop()` (R153); popping when empty faults (R154, R268). -/
def pqPop (s : State) (k : PqEntry → State → Host.Outcome State Fault Refusal) :
    Host.Outcome State Fault Refusal :=
  match pqLeast s.pq with
  | none => .fault .pqUnderflow
  | some e => k e { s with pq := s.pq.erase e }

/-! ### The command framing -/

/-- Command start: the last command's record is cleared, BUSY is set, the body's first line is current (R220). -/
def startCommand (op : BitVec 4) (body : List Line) (s : State) : State :=
  { s with done := false, err := false, errcode := 0, phase := .running op body }

/-- Command end without error (R221). -/
def endCommand (s : State) : State := { s with done := true, phase := .idle }

/-- TAKING AN ERROR, the core's only exception (R221, R240): no later line runs, ERR and ERRCODE record it, the sequencer
goes to IDLE, and everything written stays written (R244, R260). -/
def raiseError (e : ErrorCode) (s : State) : State :=
  { s with err := true, errcode := e.code, phase := .idle }

/-- THE HOST'S ACKNOWLEDGE, what stands where a return from an exception would: nothing is resumed (R223, R261). -/
def acknowledge (s : State) : State := { s with done := false, err := false, errcode := 0 }

/-- A reserved or illegal command word: no body runs, BUSY is not set (R226). -/
def illegalWord (s : State) : State := raiseError .illegalOpcode { s with done := false }

/-- The running command at the lines `todo`. -/
def resume (op : BitVec 4) (todo : List Line) (s : State) : State := { s with phase := .running op todo }

/-- Go on to the lines `todo` of the running command; with none left its end is the next step (R221). -/
def proceed (op : BitVec 4) (todo : List Line) (s : State) : Host.Outcome State Fault Refusal :=
  .next (resume op todo s)

/-- `raise E` in a line that changes nothing else that STATUS shows (R17, R221). -/
def abort (e : ErrorCode) (s : State) : Host.Outcome State Fault Refusal := .next (raiseError e s)

end Sys2Proof.Machine
end

