-- ==== Sys2Proof/Machine/Bitstream.lean ====
section
/-! DEFINITION. The bitstream units' lines: the bodies of REWIND, CLOSE and OUTCLR (40_bitstream.md). -/

namespace Sys2Proof.Machine

/-- `rewind()` (R123, R131). -/
def lineRewind (op : BitVec 4) (rest : List Line) (s : State) : Host.Outcome State Fault Refusal :=
  proceed op rest (rewind s)

/-- `close()` (R127, R132). -/
def lineClose (op : BitVec 4) (rest : List Line) (s : State) : Host.Outcome State Fault Refusal :=
  proceed op rest (close s)

/-- The OUTCLR body (R133). -/
def lineClearOutput (op : BitVec 4) (rest : List Line) (s : State) : Host.Outcome State Fault Refusal :=
  proceed op rest (clearOut s)

/-- REWIND (R131). -/
def rewindBody : List Line := [.rewindInput]

/-- CLOSE (R132). -/
def closeBody : List Line := [.closeOutput]

/-- OUTCLR (R133). -/
def outclrBody : List Line := [.clearOutput]

end Sys2Proof.Machine
end

