-- ==== Sys2Proof/Machine/Counter.lean ====
section
/-! DEFINITION. The frequency counter: the lines of COUNT (41_frequency_counter.md). -/

namespace Sys2Proof.Machine

/-- `for s in 0..256: freq[s] <- 0; total <- 0` (R140). -/
def lineCountClear (op : BitVec 4) (rest : List Line) (s : State) : Host.Outcome State Fault Refusal :=
  proceed op (.countByte 0 :: rest) { s with freq := Vector.replicate 257 0 }

/-- Add 1 to a symbol's count (R141). -/
def bumpFreq (x : Symbol) (s : State) : State := { s with freq := s.freq.set x (s.freq[x] + 1) }

/-- One pass of the loop: read a chunk, end at `EOF`, check the total, count (R140, R142, R145). -/
def lineCountByte (total : Word) (op : BitVec 4) (rest : List Line) (s : State) : Host.Outcome State Fault Refusal :=
  match readBits 8 s with
  | (none, s') => proceed op rest s'
  | (some v, s') =>
    if total = Config.countMax then proceed op (.raise .countOverflow :: rest) s'
    else proceed op (.countByte (total + 1) :: rest) (bumpFreq (byteSymbol (BitVec.ofNat 8 v)) s')

/-- `freq[256] <- 1` (R140, R143). -/
def lineCountEof (op : BitVec 4) (rest : List Line) (s : State) : Host.Outcome State Fault Refusal :=
  proceed op rest { s with freq := s.freq.set eofSymbol 1 }

/-- COUNT (R140). -/
def countBody : List Line := [.countClear, .countEof]

end Sys2Proof.Machine
end

