-- ==== Sys2Proof/Machine/CodeTable.lean ====
section
/-! DEFINITION. The code-table generator: the lines of GEN (43_code_table.md). -/

namespace Sys2Proof.Machine

/-- Use the record at an index; an index outside the arena faults (R81). -/
def withNode (i : NodeIdx) (s : State) (k : Node → Host.Outcome State Fault Refusal) :
    Host.Outcome State Fault Refusal :=
  match s.nodeAt i with
  | none => .fault .nodeIndexRange
  | some n => k n

/-- Use the symbol a leaf's field names; a field above 256 faults (R81). -/
def withSymbol (v : SymField) (k : Symbol → Host.Outcome State Fault Refusal) :
    Host.Outcome State Fault Refusal :=
  match fieldSymbol v with
  | none => .fault .symbolIndexRange
  | some x => k x

/-- The check, then the cleared table, then the walk from the root; a root that is a leaf gets the code `0` (R170, R172,
R227). -/
def lineGenStart (op : BitVec 4) (rest : List Line) (s : State) : Host.Outcome State Fault Refusal :=
  if s.treeValid then
    let s' := clearCodes { s with codesValid := false }
    withNode s.root s' fun n =>
      if n.isLeaf then withSymbol n.sym fun x => proceed op (.genEnd :: rest) (setCode x 1 0 s')
      else proceed op (.genWalk s.root 0 0 :: .genEnd :: rest) s'
  else abort .illegalSequence s

/-- `walk(i, L, p)`: a leaf gets its path as its code, an internal node walks its left and then its right subtree (R170,
R171, R174). -/
def lineGenWalk (i : NodeIdx) (len path : Nat) (op : BitVec 4) (rest : List Line) (s : State) :
    Host.Outcome State Fault Refusal :=
  withNode i s fun n =>
    if n.isLeaf then withSymbol n.sym fun x => proceed op rest (setCode x len path s)
    else proceed op (.genWalk n.left (len + 1) (2 * path) :: .genWalk n.right (len + 1) (2 * path + 1) :: rest) s

/-- `codes_valid <- 1` (R170). -/
def lineGenEnd (op : BitVec 4) (rest : List Line) (s : State) : Host.Outcome State Fault Refusal :=
  proceed op rest { s with codesValid := true }

/-- GEN (R170). -/
def genBody : List Line := [.genStart]

end Sys2Proof.Machine
end

