-- ==== Sys2Proof/Machine/HeaderCodec.lean ====
section
/-! DEFINITION. The tag and header codec: the lines of WTAG, WHDR, RTAG and RHDR, and the meanings of the stream tokens
those lines read (44_header_codec.md). -/

namespace Sys2Proof.Machine

/-! ### Write side -/

/-- `writeBits(32, tag)` (R180). -/
def lineWriteTag (op : BitVec 4) (rest : List Line) (s : State) : Host.Outcome State Fault Refusal :=
  proceed op rest (writeBits 32 s.tag.toNat s)

/-- The check of WHDR, raised before any bit is written (R181, R227). -/
def lineHdrStart (op : BitVec 4) (rest : List Line) (s : State) : Host.Outcome State Fault Refusal :=
  if s.treeValid then proceed op (.hdrEmit s.root :: rest) s else abort .illegalSequence s

/-- `emit(i)`: a node before its children, the left subtree before the right (R181, R182). -/
def lineHdrEmit (i : NodeIdx) (op : BitVec 4) (rest : List Line) (s : State) : Host.Outcome State Fault Refusal :=
  withNode i s fun n =>
    if n.isLeaf then proceed op (.hdrSymbol n.sym :: rest) (writeBits 1 1 s)
    else proceed op (.hdrEmit n.left :: .hdrEmit n.right :: rest) (writeBits 1 0 s)

/-- `writeBits(9, sym)` of a leaf (R181). -/
def lineHdrSymbol (v : SymField) (op : BitVec 4) (rest : List Line) (s : State) : Host.Outcome State Fault Refusal :=
  proceed op rest (writeBits 9 v.toNat s)

/-- WTAG (R180). -/
def wtagBody : List Line := [.writeTag]

/-- WHDR (R181). -/
def whdrBody : List Line := [.hdrStart]

/-! ### Read side: the tokens -/

/-- The tag field, read by RTAG: 32 bits consumed, then the comparison (R95, R183). -/
def execTag (t : Word) (s : State) : Host.Outcome State Fault Refusal :=
  match s.phase with
  | .running op (.readTag :: rest) =>
    let s' := { s with inPos := s.inPos + 32 }
    if t ≠ s.tag then proceed op (.raise .badHeaderTag :: rest) s' else proceed op rest s'
  | _ => .fault .tokenNotAwaited

/-- The marker of a node: one bit consumed, the arena check, the allocation (R185, R188). The node's index goes to `k`. -/
def enterNode (op : BitVec 4) (rest : List Line) (s : State) (k : NodeIdx → State → Host.Outcome State Fault Refusal) :
    Host.Outcome State Fault Refusal :=
  let s' := { s with inPos := s.inPos + 1 }
  if s.nodeCount.toNat = Config.nodeCap then proceed op (.raise .headerOverflow :: rest) s' else k s.nodeCount (allocate s')

/-- A node read from a header carries weight 0 (R185, R186). -/
def headerNode (l r : NodeIdx) : Node := { isLeaf := false, sym := 0, weight := 0, left := l, right := r }

/-- A leaf read from a header (R185, R186). -/
def headerLeaf (sym : SymField) : Node := { isLeaf := true, sym := sym, weight := 0, left := 0, right := 0 }

/-- `return i` from `read_node`: an internal node whose left subtree this was waits for its right one; one whose right
subtree this was is written and returns in turn; the outermost return ends the read (R184, R185). -/
def returnNode (op : BitVec 4) (rest : List Line) (i : NodeIdx) (stack : List Frame) (s : State) :
    Host.Outcome State Fault Refusal :=
  match stack with
  | [] => proceed op (.rhdrRoot i :: rest) s
  | { node := n, left := none } :: below => proceed op (.readNode ({ node := n, left := some i } :: below) :: rest) s
  | { node := n, left := some l } :: below =>
    setNode n (headerNode l i) s fun s' => returnNode op rest n below s'

/-- Header token INTERNAL, read by `read_node`: the node is allocated, and its left subtree is read next (R96, R185). -/
def execHdrInternal (s : State) : Host.Outcome State Fault Refusal :=
  match s.phase with
  | .running op (.readNode stack :: rest) =>
    enterNode op rest s fun i s' => proceed op (.readNode ({ node := i, left := none } :: stack) :: rest) s'
  | _ => .fault .tokenNotAwaited

/-- Header token LEAF, read by `read_node`: the node is allocated, the 9-bit payload read and checked, the leaf written
and returned (R97, R185, R187). -/
def execHdrLeaf (sym : SymField) (s : State) : Host.Outcome State Fault Refusal :=
  match s.phase with
  | .running op (.readNode stack :: rest) =>
    enterNode op rest s fun i s₁ =>
      let s₂ := { s₁ with inPos := s₁.inPos + 9 }
      if sym.toNat > Config.eofSym then proceed op (.raise .headerSymbolRange :: rest) s₂
      else setNode i (headerLeaf sym) s₂ fun s₃ => returnNode op rest i stack s₃
  | _ => .fault .tokenNotAwaited

/-! ### Read side: the lines that read the tokens -/

/-- What the tag read delivers: the tag field at `in_pos` (R183). -/
def tagAt (s : State) : Decoded := decode .tagField (bitsFrom s.input s.inPos (min 32 s.bitsLeft))

/-- What the marker read and, for a leaf, the payload read deliver: the header token at `in_pos` (R185). -/
def tokenAt (s : State) : Decoded := decode .header (bitsFrom s.input s.inPos (min 10 s.bitsLeft))

/-- RTAG: fewer than 32 bits are consumed and raise BAD_HEADER_TAG (R183). -/
def lineReadTag (op : BitVec 4) (rest : List Line) (s : State) : Host.Outcome State Fault Refusal :=
  match tagAt s with
  | .instr (.tag t) _ => execTag t s
  | .instr _ _ | .reject _ => proceed op (.raise .badHeaderTag :: rest) { s with inPos := 8 * s.input.length }

/-- Clear the arena and the root (R184). -/
def lineRhdrClear (op : BitVec 4) (rest : List Line) (s : State) : Host.Outcome State Fault Refusal :=
  proceed op (.readNode [] :: rest) { clearArena s with root := 0 }

/-- One `read_node()` call: the token at `in_pos`. An input that ends at the marker or inside a leaf's payload raises
TRUNCATED_HEADER with the bits left consumed; in the second case the marker was read, so the arena check came first and
the node is allocated (R185, R188, R192, R257). -/
def lineReadNode (op : BitVec 4) (rest : List Line) (s : State) : Host.Outcome State Fault Refusal :=
  match tokenAt s with
  | .instr .hdrInternal _ => execHdrInternal s
  | .instr (.hdrLeaf sym) _ => execHdrLeaf sym s
  | .reject .shortPayload =>
    enterNode op rest s fun _ s' =>
      proceed op (.raise .truncatedHeader :: rest) { s' with inPos := 8 * s.input.length }
  | .instr _ _ | .reject _ => proceed op (.raise .truncatedHeader :: rest) { s with inPos := 8 * s.input.length }

/-- `root <- r`, the degenerate check, `tree_valid <- 1` (R184, R189). -/
def lineRhdrRoot (r : NodeIdx) (op : BitVec 4) (rest : List Line) (s : State) : Host.Outcome State Fault Refusal :=
  let s' := { s with root := r }
  withNode r s' fun n =>
    if n.isLeaf then abort .degenerateTree s' else proceed op rest { s' with treeValid := true }

/-- RTAG (R183). -/
def rtagBody : List Line := [.readTag]

/-- RHDR (R184). -/
def rhdrBody : List Line := [.clearTreeValid, .clearCodesValid, .rhdrClear]

end Sys2Proof.Machine
end

