-- ==== Sys2Proof/Machine/StreamCodec.lean ====
section
/-! DEFINITION. The stream codec: the lines of ENC and DEC (45_stream_codec.md). -/

namespace Sys2Proof.Machine

/-! ### Encode -/

/-- The check of ENC, before any read (R200, R227). -/
def lineEncStart (op : BitVec 4) (rest : List Line) (s : State) : Host.Outcome State Fault Refusal :=
  if s.codesValid then proceed op (.encByte :: .encEof :: .closeOutput :: rest) s else abort .illegalSequence s

/-- Write a symbol's code, or raise UNENCODABLE_SYMBOL before any of its bits when it has none (R201, R202). -/
def encodeSymbol (x : Symbol) (op : BitVec 4) (todo : List Line) (s : State) : Host.Outcome State Fault Refusal :=
  if s.codelen[x] = 0 then abort .unencodableSymbol s else proceed op todo (writeCode x s)

/-- The read of one pass of the loop (R200). -/
def lineEncByte (op : BitVec 4) (rest : List Line) (s : State) : Host.Outcome State Fault Refusal :=
  match readBits 8 s with
  | (none, s') => proceed op rest s'
  | (some v, s') => proceed op (.encChunk (BitVec.ofNat 8 v) :: rest) s'

/-- The rest of one pass of the loop (R200, R201). -/
def lineEncChunk (b : Byte) (op : BitVec 4) (rest : List Line) (s : State) : Host.Outcome State Fault Refusal :=
  encodeSymbol (byteSymbol b) op (.encByte :: rest) s

/-- The code of symbol 256, once, at the end (R200, R202). -/
def lineEncEof (op : BitVec 4) (rest : List Line) (s : State) : Host.Outcome State Fault Refusal :=
  encodeSymbol eofSymbol op rest s

/-- ENC (R200). -/
def encBody : List Line := [.encStart]

/-! ### Decode -/

/-- The check of DEC, `dec_count <- 0`, `cursor <- root` (R203, R227). -/
def lineDecStart (op : BitVec 4) (rest : List Line) (s : State) : Host.Outcome State Fault Refusal :=
  if s.treeValid then proceed op (.decBit :: rest) { s with decCount := 0, cursor := s.root }
  else abort .illegalSequence s

/-- At a leaf: stop at symbol 256, else write the literal byte, count it and go back to the root (R204, R206). -/
def decodeLeaf (x : Symbol) (op : BitVec 4) (rest : List Line) (s : State) : Host.Outcome State Fault Refusal :=
  if x = eofSymbol then proceed op rest s
  else
    let s' := writeBits 8 x.val s
    proceed op (.decBit :: rest) { s' with decCount := s'.decCount + 1, cursor := s'.root }

/-- One pass of the loop: one bit, one move of the cursor, and what is at the node it reaches (R203, R205, R207); a step
from a leaf faults (R268). -/
def lineDecBit (op : BitVec 4) (rest : List Line) (s : State) : Host.Outcome State Fault Refusal :=
  match readBits 1 s with
  | (none, s') => proceed op (.raise .truncatedStream :: rest) s'
  | (some b, s') =>
    withNode s'.cursor s' fun n =>
      if n.isLeaf then .fault .leafCursor
      else
        let c := if b = 0 then n.left else n.right
        let s'' := { s' with cursor := c }
        withNode c s'' fun m =>
          if m.isLeaf then withSymbol m.sym fun x => decodeLeaf x op rest s''
          else proceed op (.decBit :: rest) s''

/-- DEC (R203). -/
def decBody : List Line := [.decStart]

end Sys2Proof.Machine
end

