-- ==== Sys2Proof/Machine/TreeBuilder.lean ====
section
/-! DEFINITION. The tree builder: the lines of BUILD (42_tree_builder.md). -/

namespace Sys2Proof.Machine

/-- Clear the arena and the queue, list the symbols that get leaves, and refuse an empty table before any push
(R156, R157, R163). -/
def lineBuildClear (op : BitVec 4) (rest : List Line) (s : State) : Host.Outcome State Fault Refusal :=
  let s' := pqClear (clearArena s)
  match leafSymbols s.freq with
  | [] => abort .emptyInput s'
  | xs => proceed op (xs.map .buildLeaf ++ .buildMerge :: rest) s'

/-- Create a record at the next free index and push it on the queue with its weight (R156); beyond 513 records it faults
(R161, R268). -/
def addNode (n : Node) (op : BitVec 4) (todo : List Line) (s : State) : Host.Outcome State Fault Refusal :=
  if s.nodeCount.toNat < Config.nodeCap then
    setNode s.nodeCount n s fun s' => pqPush n.weight s.nodeCount (allocate s') (proceed op todo)
  else .fault .arenaOverflow

/-- The leaf of a symbol (R25, R156). -/
def leafNode (x : Symbol) (weight : Word) : Node :=
  { isLeaf := true, sym := symbolField x, weight := weight, left := 0, right := 0 }

/-- An internal node (R25, R156). -/
def internalNode (weight : Word) (left right : NodeIdx) : Node :=
  { isLeaf := false, sym := 0, weight := weight, left := left, right := right }

/-- One leaf (R156, R158). -/
def lineBuildLeaf (x : Symbol) (op : BitVec 4) (rest : List Line) (s : State) : Host.Outcome State Fault Refusal :=
  addNode (leafNode x s.freq[x]) op rest s

/-- One pass of the merge loop: the first entry popped becomes the left child (R156, R159). -/
def lineBuildMerge (op : BitVec 4) (rest : List Line) (s : State) : Host.Outcome State Fault Refusal :=
  if 1 < s.pq.length then
    pqPop s fun a s₁ =>
      pqPop s₁ fun b s₂ =>
        addNode (internalNode (a.weight + b.weight) a.idx b.idx) op (.buildMerge :: rest) s₂
  else proceed op (.buildRoot :: rest) s

/-- The final pop, `root <- r`, `tree_valid <- 1` (R156). -/
def lineBuildRoot (op : BitVec 4) (rest : List Line) (s : State) : Host.Outcome State Fault Refusal :=
  pqPop s fun e s' => proceed op rest { s' with root := e.idx, treeValid := true }

/-- BUILD (R156). -/
def buildBody : List Line := [.clearTreeValid, .clearCodesValid, .buildClear]

end Sys2Proof.Machine
end

