-- ==== Sys2Proof/Machine/Sequencer.lean ====
section
/-! DEFINITION. The sequencer: one step of the core, the run of a command, and what a CTRL write of a command does. -/

namespace Sys2Proof.Machine

/-- `tree_valid <- 0` (R156, R184). -/
def lineClearTreeValid (op : BitVec 4) (rest : List Line) (s : State) : Host.Outcome State Fault Refusal :=
  proceed op rest { s with treeValid := false }

/-- `codes_valid <- 0` (R156, R184). -/
def lineClearCodesValid (op : BitVec 4) (rest : List Line) (s : State) : Host.Outcome State Fault Refusal :=
  proceed op rest { s with codesValid := false }

/-- Perform one line of the running command `op`, `rest` being the lines after it (R21, R220). -/
def performLine (l : Line) (op : BitVec 4) (rest : List Line) (s : State) : Host.Outcome State Fault Refusal :=
  match l with
  | .clearOutput => lineClearOutput op rest s
  | .rewindInput => lineRewind op rest s
  | .closeOutput => lineClose op rest s
  | .raise e => abort e s
  | .clearTreeValid => lineClearTreeValid op rest s
  | .clearCodesValid => lineClearCodesValid op rest s
  | .countClear => lineCountClear op rest s
  | .countByte total => lineCountByte total op rest s
  | .countEof => lineCountEof op rest s
  | .buildClear => lineBuildClear op rest s
  | .buildLeaf x => lineBuildLeaf x op rest s
  | .buildMerge => lineBuildMerge op rest s
  | .buildRoot => lineBuildRoot op rest s
  | .genStart => lineGenStart op rest s
  | .genWalk i len path => lineGenWalk i len path op rest s
  | .genEnd => lineGenEnd op rest s
  | .writeTag => lineWriteTag op rest s
  | .hdrStart => lineHdrStart op rest s
  | .hdrEmit i => lineHdrEmit i op rest s
  | .hdrSymbol v => lineHdrSymbol v op rest s
  | .readTag => lineReadTag op rest s
  | .rhdrClear => lineRhdrClear op rest s
  | .readNode _ => lineReadNode op rest s
  | .rhdrRoot r => lineRhdrRoot r op rest s
  | .encStart => lineEncStart op rest s
  | .encByte => lineEncByte op rest s
  | .encChunk b => lineEncChunk b op rest s
  | .encEof => lineEncEof op rest s
  | .decStart => lineDecStart op rest s
  | .decBit => lineDecBit op rest s

/-- One step of the core: the current line; while idle it waits (R267), and a command with no line left ends (R221). -/
def coreStep (s : State) : Host.Outcome State Fault Refusal :=
  match s.phase with
  | .idle => .next s
  | .running _ [] => .next (endCommand s)
  | .running op (l :: rest) => performLine l op rest s

/-- At most `n` steps of the core, fewer when the command ends. -/
def coreRun : Nat → State → Host.Outcome State Fault Refusal
  | 0, s => .next s
  | n + 1, s =>
    match s.phase with
    | .idle => .next s
    | .running _ _ =>
      match coreStep s with
      | .next s' => coreRun n s'
      | .fault f => .fault f
      | .refused r => .refused r

/-- A bound on the steps of any command: a step per input bit and a fixed number for the tables (R282). -/
def stepBound (s : State) : Nat := 8 * s.input.length + 4096

/-- A host action is due to land while the command runs: the next one has a lag (R77, R281). -/
def State.attended (s : State) : Bool :=
  match s.host with
  | [] => false
  | e :: _ => e.lag.isSome

/-- A CTRL write of a command: without effect while BUSY = 1 (R222); otherwise the command starts (R220) and runs. How
many core steps it takes is unspecified and shows only through host actions that land in between (R281): where one is
due the command is started and its steps are the machine's next steps, and where none is it runs to its end here. -/
def runCommand (op : BitVec 4) (body : List Line) (s : State) : Host.Outcome State Fault Refusal :=
  if s.busy then .next s
  else
    let s' := startCommand op body s
    if s.attended then .next s' else coreRun (stepBound s') s'

end Sys2Proof.Machine
end

