-- ==== Sys2Proof/Machine/Commands.lean ====
section
/-! DEFINITION. The meanings of the CTRL words: the two that take effect in the host's write step, and the commands
(46_control_commands.md and the command files it names). -/

namespace Sys2Proof.Machine

/-! ### Words that take effect in the write step -/

/-- ACK (R223); without effect while BUSY = 1 (R222). -/
def execAck (s : State) : Host.Outcome State Fault Refusal := if s.busy then .next s else .next (acknowledge s)

/-- The reserved OP 0xF (R226); without effect while BUSY = 1 (R222). -/
def execIllegalOp (s : State) : Host.Outcome State Fault Refusal := if s.busy then .next s else .next (illegalWord s)

/-- A word with reserved bits set, whatever they and OP are (R226); without effect while BUSY = 1 (R222). -/
def execIllegalRsv (_rsv : BitVec 28) (_op : BitVec 4) (s : State) : Host.Outcome State Fault Refusal :=
  if s.busy then .next s else .next (illegalWord s)

/-! ### Commands -/

/-- The lines of COMPRESS, the stages' bodies one after another (R224). -/
def compressBody : List Line :=
  outclrBody ++ rewindBody ++ countBody ++ rewindBody ++ buildBody ++ genBody ++ wtagBody ++ whdrBody ++ encBody

/-- The lines of DECOMPRESS (R225). -/
def decompressBody : List Line :=
  outclrBody ++ rewindBody ++ rtagBody ++ rhdrBody ++ decBody ++ closeBody

/-- COMPRESS (R224). -/
def execCompress (s : State) : Host.Outcome State Fault Refusal := runCommand 0x1 compressBody s

/-- DECOMPRESS (R225). -/
def execDecompress (s : State) : Host.Outcome State Fault Refusal := runCommand 0x2 decompressBody s

/-- COUNT (R140). -/
def execCount (s : State) : Host.Outcome State Fault Refusal := runCommand 0x3 countBody s

/-- BUILD (R156). -/
def execBuild (s : State) : Host.Outcome State Fault Refusal := runCommand 0x4 buildBody s

/-- GEN (R170). -/
def execGen (s : State) : Host.Outcome State Fault Refusal := runCommand 0x5 genBody s

/-- WTAG (R180). -/
def execWtag (s : State) : Host.Outcome State Fault Refusal := runCommand 0x6 wtagBody s

/-- WHDR (R181). -/
def execWhdr (s : State) : Host.Outcome State Fault Refusal := runCommand 0x7 whdrBody s

/-- ENC (R200). -/
def execEnc (s : State) : Host.Outcome State Fault Refusal := runCommand 0x8 encBody s

/-- RTAG (R183). -/
def execRtag (s : State) : Host.Outcome State Fault Refusal := runCommand 0x9 rtagBody s

/-- RHDR (R184). -/
def execRhdr (s : State) : Host.Outcome State Fault Refusal := runCommand 0xA rhdrBody s

/-- DEC (R203). -/
def execDec (s : State) : Host.Outcome State Fault Refusal := runCommand 0xB decBody s

/-- REWIND (R131). -/
def execRewind (s : State) : Host.Outcome State Fault Refusal := runCommand 0xC rewindBody s

/-- CLOSE (R132). -/
def execClose (s : State) : Host.Outcome State Fault Refusal := runCommand 0xD closeBody s

/-- OUTCLR (R133). -/
def execOutclr (s : State) : Host.Outcome State Fault Refusal := runCommand 0xE outclrBody s

end Sys2Proof.Machine
end

