-- ==== Sys2Proof/Machine/Dispatch.lean ====
section
/-! DEFINITION. What each instruction does: one arm per constructor of Instr. -/

namespace Sys2Proof.Machine

def exec (i : Instr) (s : State) : Host.Outcome State Fault Refusal :=
  match i with
  | .ack => Sys2Proof.Machine.execAck s
  | .compress => Sys2Proof.Machine.execCompress s
  | .decompress => Sys2Proof.Machine.execDecompress s
  | .count => Sys2Proof.Machine.execCount s
  | .build => Sys2Proof.Machine.execBuild s
  | .gen => Sys2Proof.Machine.execGen s
  | .wtag => Sys2Proof.Machine.execWtag s
  | .whdr => Sys2Proof.Machine.execWhdr s
  | .enc => Sys2Proof.Machine.execEnc s
  | .rtag => Sys2Proof.Machine.execRtag s
  | .rhdr => Sys2Proof.Machine.execRhdr s
  | .dec => Sys2Proof.Machine.execDec s
  | .rewind => Sys2Proof.Machine.execRewind s
  | .close => Sys2Proof.Machine.execClose s
  | .outclr => Sys2Proof.Machine.execOutclr s
  | .illegalOp => Sys2Proof.Machine.execIllegalOp s
  | .illegalRsv rsv op => Sys2Proof.Machine.execIllegalRsv rsv op s
  | .tag t => Sys2Proof.Machine.execTag t s
  | .hdrInternal => Sys2Proof.Machine.execHdrInternal s
  | .hdrLeaf sym => Sys2Proof.Machine.execHdrLeaf sym s

end Sys2Proof.Machine
end

