-- ==== Sys2Proof/Machine/HostPort.lean ====
section
/-! DEFINITION. The host agent: register accesses, the binding, the observation of the output, reset, and when a pending
action lands (20_memory.md, 70_reset_and_hazards.md). -/

namespace Sys2Proof.Machine

/-- Only 4-byte accesses at a multiple of 4 are admitted (R62). -/
def admitted (off : BitVec 16) (size : Nat) : Bool := size == 4 && off.toNat % 4 == 0

/-- `MemRead`: the value goes to `rdata`. While BUSY = 1 a register that is not defined then delivers a free value (R55);
a read changes nothing else (R67, R76). -/
def hostRead (off : BitVec 16) (size : Nat) (s : State) : Host.Outcome State Fault Refusal :=
  if admitted off size then
    let r := regAt off.toNat
    if s.busy && !r.definedWhileBusy then .next { s with rdata := Config.freeRead s.draws, draws := s.draws + 1 }
    else .next { s with rdata := s.regValue r }
  else .fault .accessNotAdmitted

/-- A write to TAG: ignored while BUSY = 1 (R43, R277). -/
def writeTagReg (v : Word) (s : State) : State := if s.busy then s else { s with tag := v }

/-- A write to IRQ_EN: bit 0, at any time (R44, R277). -/
def writeIrqEn (v : Word) (s : State) : State := { s with irqEn := v.getLsbD 0 }

/-- `MemWrite`: CTRL takes the word as an instruction (R220, R222), TAG and IRQ_EN store it, nothing else has an effect
(R66, R67). -/
def hostWrite (off : BitVec 16) (size : Nat) (v : Word) (s : State) : Host.Outcome State Fault Refusal :=
  if admitted off size then
    match regAt off.toNat with
    | .ctrl => exec (decodeCtrl v) s
    | .tag => .next (writeTagReg v s)
    | .irqEn => .next (writeIrqEn v s)
    | .id | .version | .status | .errcode | .decCount | .nodeCount | .root | .outBitlen | .inPos | .inLen
    | .freqWord _ | .codelenWord _ | .codebitsWord _ _ | .nodeWord _ _ | .unmapped => .next s
  else .fault .accessNotAdmitted

/-- `bind(bytes)` (R63). -/
def hostBind (bytes : List Byte) (s : State) : Host.Outcome State Fault Refusal :=
  if bytes.length ≤ Config.inMax then .next { s with input := bytes, inPos := 0 } else .fault .bindTooLong

/-- `OUT` as the running command will leave it (R80). -/
def finalOutput (s : State) : List Byte :=
  match coreRun (stepBound s) s with
  | .next s' => s'.output
  | .fault _ => s.output
  | .refused _ => s.output

/-- The host observes `OUT` (R64): while BUSY = 1 it sees some prefix of the command's final output (R80, R279). -/
def hostObserve (s : State) : Host.Outcome State Fault Refusal :=
  if s.busy then
    .next { s with outSeen := (finalOutput s).take (Config.freePrefix s.draws), draws := s.draws + 1 }
  else .next { s with outSeen := s.output }

/-- The reset input, in every state: the core's state takes its reset values (R270, R271); the host agent is no part of
the core and keeps its own. -/
def hostReset (s : State) : Host.Outcome State Fault Refusal :=
  .next { State.reset with host := s.host, rdata := s.rdata, outSeen := s.outSeen, draws := s.draws }

/-- One action of the host. -/
def hostAct (a : HostAction) (s : State) : Host.Outcome State Fault Refusal :=
  match a with
  | .read off size => hostRead off size s
  | .write off size v => hostWrite off size v s
  | .bind bytes => hostBind bytes s
  | .observe => hostObserve s
  | .reset => hostReset s

/-- The binding has a step only while BUSY = 0 (R63). -/
def HostAction.mayLandBusy : HostAction → Bool
  | .bind _ => false
  | .read _ _ | .write _ _ _ | .observe | .reset => true

/-- The next host action lands now: always while the core is idle, and while it runs when its lag has passed. -/
def HostEvent.due (e : HostEvent) (s : State) : Bool := !s.busy || (e.lag == some 0 && e.act.mayLandBusy)

/-- One core step nearer to the action. -/
def HostEvent.nearer (e : HostEvent) : HostEvent := { e with lag := e.lag.map (· - 1) }

end Sys2Proof.Machine
end

