-- ==== Sys2Proof/Machine/Step.lean ====
section
/-! DEFINITION. One step of the machine, and where an instruction is placed so that the next step runs it. -/

namespace Sys2Proof.Machine

/-- One step: the host action that is due, or else one step of the core (R20, R77). With the core idle and no host action
pending nothing happens: the core waits for a CTRL write (R267, R272). -/
def step (s : State) : Host.Outcome State Fault Refusal :=
  match s.host with
  | [] => coreStep s
  | e :: rest =>
    if e.due s then hostAct e.act { s with host := rest }
    else coreStep { s with host := e.nearer :: rest }

/-- The bytes of an input that begins with the given bits, the last byte filled with zeros (R68). -/
def bytesOf (bits : List Bool) : List Byte :=
  (List.range ((bits.length + 7) / 8)).map fun k =>
    BitVec.ofNat 8 (bitsVal ((List.range 8).map fun j => (bits[8 * k + j]?).getD false))

/-- Place an instruction where the next step takes it. A CTRL word becomes the host's next action, with the core idle. A
header token becomes the bound input, with the core at the marker read of RHDR and no host action pending. -/
def State.withFetchWord (s : State) (nbits w : Nat) : State :=
  match tableBits nbits w with
  | none => s
  | some (.ctrl, _) =>
    { s with phase := .idle, host := { lag := none, act := .write 0x008 4 (BitVec.ofNat 32 w) } :: s.host }
  | some (_, bits) =>
    { s with phase := .running 0xA [.readNode []], input := bytesOf bits, inPos := 0, host := [] }

end Sys2Proof.Machine
end

