-- ==== Sys2Proof/Safety.lean ====
section
/-! DEFINITION. The terms the claims about huffman_encoder use: a quiet machine, the bits written, the tree an arena
holds and what its header, codes and decoding are, and the invariants (R59). -/

namespace Sys2Proof.Machine

/-! ### Before and after a command -/

/-- The core is idle and no host action is due to land during the next command: a CTRL write runs to its end (R281). -/
def State.quiet (s : State) : Prop := s.phase = .idle ∧ s.attended = false

/-- The record of a command that ended without error (R220, R221). -/
def State.succeeded (s : State) : State := { s with done := true, err := false, errcode := 0 }

/-- The record of a command that raised an error (R220, R221, R242). -/
def State.failed (e : ErrorCode) (s : State) : State := { s with done := false, err := true, errcode := e.code }

/-- The input position moved (R30). -/
def State.atPos (s : State) (p : Nat) : State := { s with inPos := p }

/-- The decode cursor moved (R29). -/
def State.withCursor (s : State) (c : NodeIdx) : State := { s with cursor := c }

/-- The OP and the body of a command that runs (R92, R220). -/
def commandOf : Instr → Option (BitVec 4 × List Line)
  | .compress => some (0x1, compressBody)
  | .decompress => some (0x2, decompressBody)
  | .count => some (0x3, countBody)
  | .build => some (0x4, buildBody)
  | .gen => some (0x5, genBody)
  | .wtag => some (0x6, wtagBody)
  | .whdr => some (0x7, whdrBody)
  | .enc => some (0x8, encBody)
  | .rtag => some (0x9, rtagBody)
  | .rhdr => some (0xA, rhdrBody)
  | .dec => some (0xB, decBody)
  | .rewind => some (0xC, rewindBody)
  | .close => some (0xD, closeBody)
  | .outclr => some (0xE, outclrBody)
  | .ack | .illegalOp | .illegalRsv _ _ | .tag _ | .hdrInternal | .hdrLeaf _ => none

/-! ### The streams -/

/-- The bits of a byte sequence in stream order (R68, R70). -/
def byteBits (bytes : List Byte) : List Bool := bytes.flatMap fun b => msbBits 8 b.toNat

/-- The bits written since the output was last emptied, in the order written (R48, R70). -/
def State.outBits (s : State) : List Bool := byteBits s.output ++ msbBits s.outNbits.toNat s.outAcc.toNat

/-- The unread bits of the input (R30). -/
def State.inBits (s : State) : List Bool := (byteBits s.input).drop s.inPos

/-- `s` with the output of `t`: what a command that only writes bits changes, its record apart. -/
def State.withOutput (s t : State) : State :=
  { s with output := t.output, outAcc := t.outAcc, outNbits := t.outNbits }

/-- How many 8-bit chunks are left to read (R141). -/
def State.chunkCount (s : State) : Nat := (8 * s.input.length - s.inPos) / 8

/-- The `k`-th unread chunk, as a symbol (R141, R146). -/
def State.chunk (s : State) (k : Nat) : Symbol :=
  byteSymbol (BitVec.ofNat 8 (bitsVal (bitsFrom s.input (s.inPos + 8 * k) 8)))

/-- The unread chunks in input order (R141, R146, R201). -/
def State.chunks (s : State) : List Symbol := (List.range s.chunkCount).map s.chunk

/-- The table a completed COUNT leaves: the occurrences of each literal, and 1 for symbol 256 (R141, R143). -/
def State.counts (s : State) : Vector Word 257 :=
  Vector.ofFn fun x => if x = eofSymbol then 1 else BitVec.ofNat 32 (s.chunks.count x)

/-- The code table has a code for a symbol (R24, R201). -/
def State.hasCode (s : State) (x : Symbol) : Prop := s.codelen[x] ≠ 0

/-- The literal bytes of a symbol sequence as bits (R204). -/
def literalBits (xs : List Symbol) : List Bool := xs.flatMap fun x => msbBits 8 x.val

/-! ### Trees -/

/-- An arena with these records from index 0 and every other record 0. -/
def arenaOf (nodes : List Node) : Vector Node 513 := Vector.ofFn fun k => (nodes[k.val]?).getD Node.zero

/-- A prefix-code tree (R19): a leaf with its symbol, or an internal node with its left and right children. -/
inductive Tree where
  | leaf (x : Symbol)
  | node (l r : Tree)
  deriving DecidableEq, Repr

/-- The number of nodes. -/
def Tree.size : Tree → Nat
  | .leaf _ => 1
  | .node l r => l.size + r.size + 1

/-- The symbols at the leaves, left to right. -/
def Tree.leaves : Tree → List Symbol
  | .leaf x => [x]
  | .node l r => l.leaves ++ r.leaves

/-- The root has children. -/
def Tree.isNode : Tree → Bool
  | .leaf _ => false
  | .node _ _ => true

/-- The preorder header of a tree as tokens (R96 to R98). -/
def Tree.tokens : Tree → List Instr
  | .leaf x => [.hdrLeaf (symbolField x)]
  | .node l r => .hdrInternal :: (l.tokens ++ r.tokens)

/-- The preorder header of a tree as bits (R94, R98). -/
def Tree.headerBits (t : Tree) : List Bool := t.tokens.flatMap encode

/-- The records `read_node()` writes for a tree whose root gets index `n`: a node gets its index before its children, the
left subtree before the right, and every weight is 0 (R185, R186). -/
def Tree.records : Tree → Nat → List Node
  | .leaf x, _ => [headerLeaf (symbolField x)]
  | .node l r, n =>
    headerNode (BitVec.ofNat 10 (n + 1)) (BitVec.ofNat 10 (n + 1 + l.size)) ::
      (l.records (n + 1) ++ r.records (n + 1 + l.size))

/-- The arena RHDR leaves (R184, R185). -/
def headerArena (t : Tree) : Vector Node 513 := arenaOf (t.records 0)

/-- Every leaf with its root-to-leaf path, left to right: `false` for a step left, `true` for a step right (R101). -/
def Tree.paths : Tree → List (Symbol × List Bool)
  | .leaf x => [(x, [])]
  | .node l r =>
    (l.paths.map fun p => (p.1, false :: p.2)) ++ (r.paths.map fun p => (p.1, true :: p.2))

/-- The codes GEN records in the order it records them: the paths, or the code `0` for a root that is a leaf (R171, R172). -/
def Tree.codes : Tree → List (Symbol × List Bool)
  | .leaf x => [(x, [false])]
  | .node l r => (Tree.node l r).paths

/-- The lengths a list of codes leaves in a cleared table, a later code of a symbol replacing an earlier one (R170, R174). -/
def codeLengths (codes : List (Symbol × List Bool)) : Vector (BitVec 9) 257 :=
  codes.foldl (fun v c => v.set c.1 (BitVec.ofNat 9 c.2.length)) (Vector.replicate 257 0)

/-- The patterns a list of codes leaves in a cleared table (R170, R174). -/
def codePatterns (codes : List (Symbol × List Bool)) : Vector (BitVec 256) 257 :=
  codes.foldl (fun v c => v.set c.1 (BitVec.ofNat 256 (bitsVal c.2))) (Vector.replicate 257 0)

/-- The walk from the root along exactly these bits: the symbol of the leaf it ends at, `none` when it ends at an
internal node or passes a leaf (R205, R206). -/
def Tree.walk : Tree → List Bool → Option Symbol
  | .leaf x, [] => some x
  | .leaf _, _ :: _ => none
  | .node _ _, [] => none
  | .node l _, false :: bs => l.walk bs
  | .node _ r, true :: bs => r.walk bs

/-- The walk from the root along exactly these bits ends at an internal node. -/
def Tree.walkOpen : Tree → List Bool → Bool
  | .leaf _, _ => false
  | .node _ _, [] => true
  | .node l _, false :: bs => l.walkOpen bs
  | .node _ r, true :: bs => r.walkOpen bs

/-- The bits are the paths of these symbols one after another (R102, R203). -/
inductive Tree.Spells (t : Tree) : List Bool → List Symbol → Prop where
  | nil : Tree.Spells t [] []
  | cons {p bits : List Bool} {x : Symbol} {xs : List Symbol} (hp : t.walk p = some x) (h : Tree.Spells t bits xs) :
      Tree.Spells t (p ++ bits) (x :: xs)

/-- The arena holds a tree at an index, made of the nodes `is` in preorder (R25). -/
inductive State.Holds (s : State) : NodeIdx → Tree → List NodeIdx → Prop where
  | leaf {i : NodeIdx} {n : Node} {x : Symbol} (hn : s.nodeAt i = some n) (hl : n.isLeaf = true)
      (hx : n.sym = symbolField x) : State.Holds s i (.leaf x) [i]
  | node {i : NodeIdx} {n : Node} {l r : Tree} {is js : List NodeIdx} (hn : s.nodeAt i = some n)
      (hl : n.isLeaf = false) (left : State.Holds s n.left l is) (right : State.Holds s n.right r js) :
      State.Holds s i (.node l r) (i :: (is ++ js))

/-! ### The tree BUILD makes -/

/-- An entry goes after those that are not heavier and before those that are: among equal weights the one pushed earlier
is served first, and every entry in the queue was pushed earlier (R150, R153). -/
def insertByWeight (w : Word) (i : NodeIdx) : List (Word × NodeIdx) → List (Word × NodeIdx)
  | [] => [(w, i)]
  | (v, j) :: rest => if v.toNat ≤ w.toNat then (v, j) :: insertByWeight w i rest else (w, i) :: (v, j) :: rest

/-- The records BUILD creates for its leaves (R158, R160). -/
def buildLeaves (freq : Vector Word 257) : List Node := (leafSymbols freq).map fun x => leafNode x freq[x]

/-- The leaves with their weights in serving order (R153, R158). -/
def leafQueue : Nat → List Node → List (Word × NodeIdx) → List (Word × NodeIdx)
  | _, [], queue => queue
  | k, n :: ns, queue => leafQueue (k + 1) ns (insertByWeight n.weight (BitVec.ofNat 10 k) queue)

/-- The merges: the two entries served first become the left and the right child of a new record with the sum of their
weights, which joins the queue (R159, R160). At most `k` merges. -/
def mergeNodes : Nat → List Node → List (Word × NodeIdx) → List Node
  | k + 1, nodes, (v, a) :: (w, b) :: rest =>
    mergeNodes k (nodes ++ [internalNode (v + w) a b]) (insertByWeight (v + w) (BitVec.ofNat 10 nodes.length) rest)
  | _, nodes, _ => nodes

/-- The records of the arena BUILD leaves, by index (R156, R160). -/
def builtNodes (freq : Vector Word 257) : List Node :=
  mergeNodes (leafSymbols freq).length (buildLeaves freq) (leafQueue 0 (buildLeaves freq) [])

/-! ### What commands leave -/

/-- The state BUILD leaves, its record apart (R156, R158 to R161). -/
def State.built (s : State) : State :=
  { s with
    codesValid := false
    treeValid := true
    node := arenaOf (builtNodes s.freq)
    nodeCount := BitVec.ofNat 10 (2 * (leafSymbols s.freq).length - 1)
    root := BitVec.ofNat 10 (2 * (leafSymbols s.freq).length - 2)
    pq := []
    seqCtr := BitVec.ofNat 10 (2 * (leafSymbols s.freq).length - 1) }

/-- `s` with the code table of a tree (R170). -/
def State.withCodes (s : State) (t : Tree) : State :=
  { s with codelen := codeLengths t.codes, codebits := codePatterns t.codes, codesValid := true }

/-- `s` with the tree of a header read from `n` bits (R184, R185). -/
def State.withTree (s : State) (t : Tree) (n : Nat) : State :=
  { s with
    codesValid := false
    root := 0
    node := headerArena t
    nodeCount := BitVec.ofNat 10 t.size
    treeValid := true
    inPos := s.inPos + n }

/-- RHDR ends in the error with number `e`, with `c` nodes allocated and the input read to `p`: no tree is valid, the root is
0, the records are as far as written, and nothing else is changed (R192). -/
def State.RhdrFails (s : State) (e : BitVec 4) (c p : Nat) : Prop :=
  ∃ u, exec .rhdr s = .next u ∧
    u = { s with
      treeValid := false, codesValid := false, root := 0, node := u.node, nodeCount := BitVec.ofNat 10 c, inPos := p
      done := false, err := true, errcode := e }

/-- The state COMPRESS leaves, its record apart, when BUILD makes the tree `t` (R224). -/
def State.compressed (s : State) (t : Tree) : State :=
  let s₁ := ({ (clearOut s).atPos 0 with freq := (s.atPos 0).counts } : State).built.withCodes t
  close ((putBits (msbBits 32 s.tag.toNat ++ t.headerBits ++ (s₁.chunks.flatMap s₁.codeOf ++ s₁.codeOf eofSymbol)) s₁).atPos
    (8 * s.input.length))

/-! ### What a command may write -/

/-- The pieces of the core's state that commands write, the record and the sequencer apart (R228). -/
inductive Piece where
  | output
  | position
  | freq
  | codes
  | codesValid
  | arena
  | treeValid
  | queue
  | decoder
  deriving DecidableEq, Repr

/-- Two states agree on a piece. -/
def Piece.same (s t : State) : Piece → Prop
  | .output => t.output = s.output ∧ t.outAcc = s.outAcc ∧ t.outNbits = s.outNbits
  | .position => t.inPos = s.inPos
  | .freq => t.freq = s.freq
  | .codes => t.codelen = s.codelen ∧ t.codebits = s.codebits
  | .codesValid => t.codesValid = s.codesValid
  | .arena => t.node = s.node ∧ t.nodeCount = s.nodeCount ∧ t.root = s.root
  | .treeValid => t.treeValid = s.treeValid
  | .queue => t.pq = s.pq ∧ t.seqCtr = s.seqCtr
  | .decoder => t.cursor = s.cursor ∧ t.decCount = s.decCount

/-- The pieces an instruction may write (the table of R228); the stream tokens are read inside RTAG and RHDR. -/
def Instr.writes : Instr → List Piece
  | .ack | .illegalOp | .illegalRsv _ _ => []
  | .compress => [.output, .position, .freq, .codes, .codesValid, .arena, .treeValid, .queue]
  | .decompress => [.output, .position, .codesValid, .arena, .treeValid, .decoder]
  | .count => [.freq, .position]
  | .build => [.arena, .treeValid, .codesValid, .queue]
  | .gen => [.codes, .codesValid]
  | .wtag | .whdr | .close | .outclr => [.output]
  | .enc => [.position, .output]
  | .rtag | .rewind | .tag _ => [.position]
  | .rhdr => [.position, .arena, .treeValid, .codesValid]
  | .dec => [.position, .output, .decoder]
  | .hdrInternal | .hdrLeaf _ => [.position, .arena]

/-! ### Invariants -/

/-- The indices of the first `n` records. -/
def indices (n : Nat) : List NodeIdx := (List.range n).map (BitVec.ofNat 10)

/-- The invariants of the tables and the streams (R31, R32, R59): a valid tree is a full binary tree with an internal
root over exactly the allocated nodes, and valid codes are that tree's; the queue is empty; positions, lengths and the
partial byte are in range. -/
structure State.Sound (s : State) : Prop where
  codes : s.codesValid = true → s.treeValid = true
  tree : s.treeValid = true → ∃ t is, s.Holds s.root t is ∧ t.isNode = true ∧ is.Perm (indices s.nodeCount.toNat) ∧
    s.nodeCount.toNat ≤ 513 ∧ (s.codesValid = true → s.codelen = codeLengths t.codes ∧ s.codebits = codePatterns t.codes)
  queue : s.pq = []
  position : s.inPos ≤ 8 * s.input.length
  bound : s.input.length ≤ Config.inMax
  lengths : ∀ x : Symbol, (s.codelen[x]).toNat ≤ 256
  partialByte : s.outAcc.toNat < 2 ^ s.outNbits.toNat

/-- The invariants that hold while the core is idle (R59). -/
structure State.Settled (s : State) : Prop where
  sound : s.Sound
  one : ¬(s.done = true ∧ s.err = true)
  code : s.err = false → s.errcode = 0

/-- The invariant of every step: an idle core is settled, and a running one is on the way of a command that a settled
core started (R59, R220, R221). -/
def State.Inv (s : State) : Prop :=
  (s.busy = false ∧ s.Settled) ∨
    (s.busy = true ∧ ∃ (s₀ : State) (i : Instr) (op : BitVec 4) (body : List Line) (k : Nat),
      s₀.phase = .idle ∧ s₀.Settled ∧ commandOf i = some (op, body) ∧ coreRun k (startCommand op body s₀) = .next s)

end Sys2Proof.Machine
end

