-- ==== Sys2Proof/Certificates/Slice0/Obligations.lean ====
section
/-! DEFINITION. The statements for the provers. Each docstring names the rule of spec/ it formalises; a clause that rests on
a choice of the model names the entry of notes/assumptions/ that makes it. -/

section

open Sys2Proof Sys2Proof.Machine

/-! ### Encoding -/

/-- Words written out from the opcode map (R92, R93), the tag field of R95 and the token examples of R96 and R97. -/
def Obligations.SpecWordsDecode : Prop :=
  decode .ctrl (List.replicate 28 false ++ [false, false, false, false]) = .instr .ack [] ∧
  decode .ctrl (List.replicate 28 false ++ [false, false, false, true]) = .instr .compress [] ∧
  decode .ctrl (List.replicate 28 false ++ [true, false, true, true]) = .instr .dec [] ∧
  decode .ctrl (List.replicate 28 false ++ [true, true, true, true]) = .instr .illegalOp [] ∧
  decode .ctrl (true :: List.replicate 30 false ++ [true]) = .instr (.illegalRsv 0x8000000 1) [] ∧
  decode .tagField
    [true, true, true, true, true, false, true, false, true, true, false, false, true, true, true, false,
     true, false, false, false, false, false, true, false, false, false, false, false, false, false, false, true] =
    .instr (.tag 0xFACE8201) [] ∧
  decode .header [false] = .instr .hdrInternal [] ∧
  decode .header [true, false, false, true, false, false, false, false, false, true] = .instr (.hdrLeaf 0x41) [] ∧
  decode .header [true, true, false, false, false, false, false, false, false, false] = .instr (.hdrLeaf 256) []

/-- Decoding an encoded well-formed instruction, whatever bits follow it, gives the instruction and those bits (R91 to
R97, and R98's "prefix-free" for the tokens). -/
def Obligations.DecodeEncode : Prop :=
  ∀ i : Instr, i.wellFormed = true → ∀ more : List Bool, decode i.port (encode i ++ more) = .instr i more

/-- Every 32-bit word is the CTRL word of the well-formed instruction it decodes to: the map of R92 and R93 drops no
bit. -/
def Obligations.EncodeDecodeCtrl : Prop :=
  ∀ w : Word, encodeCtrl (decodeCtrl w) = some w ∧ (decodeCtrl w).wellFormed = true

/-- R226: an illegal word runs no body and sets the record to ILLEGAL_OPCODE, and nothing else changes. -/
def Obligations.IllegalCtrlWord : Prop :=
  ∀ s : State, s.busy = false →
    (∀ v : Word, v.extractLsb' 4 28 ≠ 0 ∨ v.extractLsb' 0 4 = 0xF →
      hostWrite 0x008 4 v s = .next { s with done := false, err := true, errcode := 12 }) ∧
    exec .illegalOp s = .next { s with done := false, err := true, errcode := 12 } ∧
    ∀ rsv op, exec (.illegalRsv rsv op) s = .next { s with done := false, err := true, errcode := 12 }

/-! ### Steps and commands -/

/-- With the core idle, the step of a host whose next action writes CTRL is the meaning of the word it writes (R220, R61),
and so is the step after an instruction is placed. That the host's actions stand in the state is the model's form (log
entries 5 and 13). -/
def Obligations.StepRunsCtrlWord : Prop :=
  (∀ (s : State) (e : HostEvent) (rest : List HostEvent) (v : Word), s.host = e :: rest → s.busy = false →
    e.act = .write 0x008 4 v → step s = exec (decodeCtrl v) { s with host := rest }) ∧
  ∀ (s : State) (v : Word), step (s.withFetchWord 32 v.toNat) = exec (decodeCtrl v) { s with phase := .idle }

/-- While RHDR or RTAG is at the line that reads a token, the step of the core is the meaning of the token the unread
input starts with, whether no host action is pending or one that is not due yet (R183, R185). That one token is one
step is the model's choice (log entry 7). -/
def Obligations.StepRunsToken : Prop :=
  ∀ (s : State) (op : BitVec 4) (rest : List Line) (i : Instr) (more : List Bool), s.inBits = encode i ++ more →
    ((∃ stack, s.phase = .running op (.readNode stack :: rest)) ∧ (i = .hdrInternal ∨ ∃ v, i = .hdrLeaf v)) ∨
      (s.phase = .running op (.readTag :: rest) ∧ ∃ t, i = .tag t) →
    (s.host = [] → step s = exec i s) ∧
    ∀ e es, s.host = e :: es → e.due s = false → step s = exec i { s with host := e.nearer :: es }

/-- R223: ACK clears DONE, ERR and ERRCODE in the write step, and nothing else; so IRQ becomes 0. -/
def Obligations.AckResult : Prop :=
  ∀ s : State, s.busy = false → ∃ t, exec .ack s = .next t ∧ t = { s with done := false, err := false, errcode := 0 } ∧
    t.irq = false

/-- R220: the start of a command clears the last record, sets BUSY and the first line. Shown where a host action may land
during the command; where none may, the model runs the whole command in this step (log entry 4). -/
def Obligations.CommandStart : Prop :=
  ∀ (i : Instr) (op : BitVec 4) (body : List Line), commandOf i = some (op, body) →
    encodeCtrl i = some (op.setWidth 32) ∧
    ∀ s : State, s.busy = false → s.attended = true →
      exec i s = .next { s with done := false, err := false, errcode := 0, phase := .running op body }

/-- R282, which the spec marks as its own derivation, and R221: from every settled state every command ends, with DONE or ERR, and leaves a settled state. -/
def Obligations.CommandsComplete : Prop :=
  ∀ (i : Instr) (op : BitVec 4) (body : List Line), commandOf i = some (op, body) →
    ∀ s : State, s.quiet → s.Settled →
      ∃ t, exec i s = .next t ∧ t.phase = .idle ∧ t.Settled ∧ t.done = !t.err

/-- R281: a command takes a finite number of steps, and here single steps reach the state that the command's whole run gives.
R281 gives no bound: `stepBound` is log entry 21, and that exec runs the whole command is log entry 4. -/
def Obligations.StepsReachTheEnd : Prop :=
  ∀ (i : Instr) (op : BitVec 4) (body : List Line), commandOf i = some (op, body) →
    ∀ s : State, s.phase = .idle → s.host = [] → s.Settled →
      ∃ k, k ≤ stepBound s ∧ ∃ t, exec i s = .next t ∧ Sys2Proof.core.run k (startCommand op body s) = .next t

/-! ### Invariants -/

/-- Every step keeps the invariant: an idle core is settled (R59), a running one is on the way of a command that a settled
core started (R220, R221). -/
def Obligations.InvariantKept : Prop := ∀ s t : State, s.Inv → step s = .next t → t.Inv

/-- The invariant holds after reset (R58, R59). -/
def Obligations.InvariantAtReset : Prop := State.reset.Inv

/-- What holds whenever `busy = 0`: the sentence of R59, which the spec marks as derived from R32, R156, R176 and R184. -/
def Obligations.IdleInvariants : Prop :=
  ∀ s : State, s.Inv → s.busy = false →
    ¬(s.done = true ∧ s.err = true) ∧ (s.err = false → s.errcode = 0) ∧
    (s.codesValid = true → s.treeValid = true) ∧
    (s.treeValid = true →
      (∃ n, s.nodeAt s.root = some n ∧ n.isLeaf = false) ∧ 3 ≤ s.nodeCount.toNat ∧ s.nodeCount.toNat ≤ 513 ∧
      ∃ t is, s.Holds s.root t is ∧ is.Perm (indices s.nodeCount.toNat)) ∧
    s.pq.length = 0 ∧ s.outNbits.toNat ≤ 7 ∧ s.inPos ≤ 8 * s.input.length ∧ ∀ x : Symbol, (s.codelen[x]).toNat ≤ 256

/-- R268, R81, both marked by the spec as derived: no step of a machine that keeps the invariant faults but for a host access or binding that the spec gives no
step (R62, R63), and none is refused. -/
def Obligations.NoInternalFault : Prop :=
  ∀ s : State, s.Inv → (∀ f, step s = .fault f → f = .accessNotAdmitted ∨ f = .bindTooLong) ∧ ∀ r, step s ≠ .refused r

/-! ### Reset -/

/-- R58: the values of the core's state after reset. -/
def Obligations.ResetState : Prop :=
  State.reset.phase = .idle ∧ (∀ x : Symbol, State.reset.freq[x] = 0) ∧
  (∀ x : Symbol, State.reset.codelen[x] = 0 ∧ State.reset.codebits[x] = 0) ∧
  State.reset.nodeCount = 0 ∧ (∀ i : Fin 513, State.reset.node[i] = Node.zero) ∧
  State.reset.root = 0 ∧ State.reset.cursor = 0 ∧ State.reset.pq = [] ∧ State.reset.seqCtr = 0 ∧
  State.reset.input = [] ∧ State.reset.inPos = 0 ∧
  State.reset.output = [] ∧ State.reset.outAcc = 0 ∧ State.reset.outNbits = 0 ∧
  State.reset.treeValid = false ∧ State.reset.codesValid = false ∧
  State.reset.busy = false ∧ State.reset.done = false ∧ State.reset.err = false ∧ State.reset.errcode = 0 ∧
  State.reset.decCount = 0 ∧ State.reset.tag = Config.magicTag ∧
  State.reset.irqEn = false ∧ State.reset.irq = false ∧ State.reset.status = 0x00000020

/-- R270, R271: the reset input has a step in every state, also while a command runs, and then no line of the command runs.
The host agent's own fields are kept: it is no part of the core (log entry 14). -/
def Obligations.ResetEvent : Prop :=
  ∀ (s : State) (e : HostEvent) (rest : List HostEvent), s.host = e :: rest → e.act = .reset →
    s.busy = false ∨ e.lag = some 0 →
    step s = .next { State.reset with host := rest, rdata := s.rdata, outSeen := s.outSeen, draws := s.draws }

/-- What the host reads after reset, at every word offset; the core waits in IDLE: the sentence of R272, which the spec marks as
derived from R38 to R58. That no host action is pending in State.reset, so that a step changes nothing, is the model's choice
(log entries 13 and 20). -/
def Obligations.ResetReads : Prop :=
  (∀ off : BitVec 16, off.toNat % 4 = 0 → hostRead off 4 State.reset = .next { State.reset with
    rdata :=
      if off = 0x000 then 0x48554646
      else if off = 0x004 then 0x00010000
      else if off = 0x00C then 0x00000020
      else if off = 0x014 then Config.magicTag
      else 0 }) ∧
  State.reset.phase = .idle ∧ State.reset.irqEn = false ∧ step State.reset = .next State.reset

/-! ### The register map -/

/-- R41: the STATUS bits, read at any time; a write to STATUS is ignored. -/
def Obligations.StatusBits : Prop :=
  ∀ s : State,
    s.status.getLsbD 0 = s.busy ∧ s.status.getLsbD 1 = s.done ∧ s.status.getLsbD 2 = s.err ∧
    s.status.getLsbD 3 = s.treeValid ∧ s.status.getLsbD 4 = s.codesValid ∧
    s.status.getLsbD 5 = decide (s.inPos = 8 * s.input.length) ∧ s.status.getLsbD 6 = decide (s.outNbits.toNat ≠ 0) ∧
    s.status.getLsbD 7 = s.irq ∧ (∀ k, 8 ≤ k → s.status.getLsbD k = false) ∧
    hostRead 0x00C 4 s = .next { s with rdata := s.status } ∧ (∀ v, hostWrite 0x00C 4 v s = .next s) ∧
    State.reset.status = 0x00000020

/-- R38, R39, R45 to R50: the read-only registers, those of R45 to R50 of an idle core (R55), and their values after reset; a
write changes nothing. -/
def Obligations.RegisterReads : Prop :=
  (∀ s : State, hostRead 0x000 4 s = .next { s with rdata := 0x48554646 } ∧
    hostRead 0x004 4 s = .next { s with rdata := 0x00010000 }) ∧
  (∀ s : State, s.busy = false →
    hostRead 0x010 4 s = .next { s with rdata := s.errcode.setWidth 32 } ∧
    hostRead 0x01C 4 s = .next { s with rdata := s.decCount } ∧
    hostRead 0x020 4 s = .next { s with rdata := s.nodeCount.setWidth 32 } ∧
    hostRead 0x024 4 s = .next { s with rdata := s.root.setWidth 32 } ∧
    hostRead 0x028 4 s = .next { s with rdata := BitVec.ofNat 32 ((8 * s.output.length + s.outNbits.toNat) % 2 ^ 32) } ∧
    hostRead 0x02C 4 s = .next { s with rdata := BitVec.ofNat 32 (s.inPos % 2 ^ 32) } ∧
    hostRead 0x030 4 s = .next { s with rdata := BitVec.ofNat 32 s.input.length }) ∧
  (∀ off ∈ [0x000, 0x004, 0x010, 0x01C, 0x020, 0x024, 0x028, 0x02C, 0x030#16], ∀ (v : Word) (s : State),
    hostWrite off 4 v s = .next s) ∧
  ∀ off ∈ [0x010, 0x01C, 0x020, 0x024, 0x028, 0x02C, 0x030#16],
    hostRead off 4 State.reset = .next { State.reset with rdata := 0 }

/-- R51 to R54: the windows of an idle core (R55), word by word; a record that is not allocated reads 0; a write changes
nothing; every word reads 0 after reset. -/
def Obligations.WindowReads : Prop :=
  (∀ off : BitVec 16, off.toNat % 4 = 0 → 0x1000 ≤ off.toNat →
    (∀ (v : Word) (s : State), hostWrite off 4 v s = .next s) ∧
    hostRead off 4 State.reset = .next { State.reset with rdata := 0 }) ∧
  ∀ s : State, s.busy = false →
    (∀ x : Symbol,
      hostRead (BitVec.ofNat 16 (0x1000 + 4 * x.val)) 4 s = .next { s with rdata := s.freq[x] } ∧
      hostRead (BitVec.ofNat 16 (0x2000 + 4 * x.val)) 4 s = .next { s with rdata := s.codelen[x].setWidth 32 } ∧
      ∀ w : Fin 8, hostRead (BitVec.ofNat 16 (0x4000 + 32 * x.val + 4 * w.val)) 4 s =
        .next { s with rdata := s.codebits[x].extractLsb' (32 * w.val) 32 }) ∧
    ∀ i : Fin 513,
      (i.val < s.nodeCount.toNat →
        hostRead (BitVec.ofNat 16 (0x8000 + 16 * i.val)) 4 s =
          .next { s with rdata := BitVec.ofBool s.node[i].isLeaf ++ 0#22 ++ s.node[i].sym } ∧
        hostRead (BitVec.ofNat 16 (0x8004 + 16 * i.val)) 4 s = .next { s with rdata := s.node[i].weight } ∧
        hostRead (BitVec.ofNat 16 (0x8008 + 16 * i.val)) 4 s = .next { s with rdata := s.node[i].left.setWidth 32 } ∧
        hostRead (BitVec.ofNat 16 (0x800C + 16 * i.val)) 4 s = .next { s with rdata := s.node[i].right.setWidth 32 }) ∧
      (s.nodeCount.toNat ≤ i.val → ∀ k : Fin 4,
        hostRead (BitVec.ofNat 16 (0x8000 + 16 * i.val + 4 * k.val)) 4 s = .next { s with rdata := 0 })

/-- R66: a word offset outside the map reads 0 and ignores writes. R67, R76: no read changes the core. -/
def Obligations.UnmappedOffsets : Prop :=
  (∀ (s : State) (off : BitVec 16) (v : Word), off.toNat % 4 = 0 →
    ¬(off.toNat < 0x034 ∨ (0x1000 ≤ off.toNat ∧ off.toNat < 0x1404) ∨ (0x2000 ≤ off.toNat ∧ off.toNat < 0x2404) ∨
      (0x4000 ≤ off.toNat ∧ off.toNat < 0x6020) ∨ (0x8000 ≤ off.toNat ∧ off.toNat < 0xA010)) →
    hostRead off 4 s = .next { s with rdata := 0 } ∧ hostWrite off 4 v s = .next s) ∧
  ∀ (s t : State) (off : BitVec 16) (size : Nat), hostRead off size s = .next t →
    t = { s with rdata := t.rdata, draws := t.draws }

/-- R55: while BUSY = 1 five registers read their current values; any other mapped word reads a value the spec leaves
unspecified, here a free value drawn afresh (log entry 6). CTRL is among these by log entry 15: R55 does not list it,
while R40 gives its read as 0. -/
def Obligations.ReadsWhileBusy : Prop :=
  ∀ s : State, s.busy = true →
    hostRead 0x000 4 s = .next { s with rdata := 0x48554646 } ∧
    hostRead 0x004 4 s = .next { s with rdata := 0x00010000 } ∧
    hostRead 0x00C 4 s = .next { s with rdata := s.status } ∧
    hostRead 0x014 4 s = .next { s with rdata := s.tag } ∧
    hostRead 0x018 4 s = .next { s with rdata := if s.irqEn then 1 else 0 } ∧
    ∀ off : BitVec 16, off.toNat % 4 = 0 →
      off.toNat ∈ [0x008, 0x010, 0x01C, 0x020, 0x024, 0x028, 0x02C, 0x030] ∨
        (0x1000 ≤ off.toNat ∧ off.toNat < 0x1404) ∨ (0x2000 ≤ off.toNat ∧ off.toNat < 0x2404) ∨
        (0x4000 ≤ off.toNat ∧ off.toNat < 0x6020) ∨ (0x8000 ≤ off.toNat ∧ off.toNat < 0xA010) →
      hostRead off 4 s = .next { s with rdata := Config.freeRead s.draws, draws := s.draws + 1 }

/-- R43, R44: TAG and IRQ_EN store what is written, TAG only while `busy = 0`. R222, R277: while `busy = 1` a CTRL write has
no effect, and a write to any other offset never has one. -/
def Obligations.RegisterWrites : Prop :=
  (∀ (s : State) (v : Word),
    hostWrite 0x014 4 v s = .next (if s.busy then s else { s with tag := v }) ∧
    hostRead 0x014 4 s = .next { s with rdata := s.tag } ∧
    hostWrite 0x018 4 v s = .next { s with irqEn := v.getLsbD 0 } ∧
    hostRead 0x018 4 s = .next { s with rdata := if s.irqEn then 1 else 0 } ∧
    (s.busy = true → hostWrite 0x008 4 v s = .next s) ∧
    ∀ off : BitVec 16, off.toNat % 4 = 0 → off ≠ 0x008 → off ≠ 0x014 → off ≠ 0x018 → hostWrite off 4 v s = .next s) ∧
  State.reset.tag = Config.magicTag ∧ State.reset.irqEn = false

/-- R62: only accesses of 4 bytes at a multiple of 4 are admitted; for any other the host has no step, which the model says
by a fault (log entry 9). -/
def Obligations.AccessAdmitted : Prop :=
  ∀ (s : State) (off : BitVec 16) (size : Nat) (v : Word),
    (¬(size = 4 ∧ off.toNat % 4 = 0) →
      hostRead off size s = .fault .accessNotAdmitted ∧ hostWrite off size v s = .fault .accessNotAdmitted) ∧
    (size = 4 → off.toNat % 4 = 0 → (∃ t, hostRead off size s = .next t) ∧
      (off ≠ 0x008 → ∃ t, hostWrite off size v s = .next t))

/-- R63: binding sets the input and the position; it has a step only while `busy = 0` and for at most `IN_MAX` bytes; the
core never writes the input. The longer binding is a fault (log entry 9), and a binding that is pending while a command runs
stays pending until it ends (log entry 19): both are the model's choice. -/
def Obligations.InputBinding : Prop :=
  (∀ (s : State) (e : HostEvent) (rest : List HostEvent) (bytes : List Byte), s.host = e :: rest → e.act = .bind bytes →
    (s.busy = false → bytes.length ≤ 2 ^ 32 - 1 → step s = .next { s with input := bytes, inPos := 0, host := rest }) ∧
    (s.busy = false → ¬bytes.length ≤ 2 ^ 32 - 1 → step s = .fault .bindTooLong) ∧
    (s.busy = true → step s = coreStep { s with host := e.nearer :: rest })) ∧
  (∀ (i : Instr) (s t : State), exec i s = .next t → t.input = s.input) ∧
  ∀ s t : State, coreStep s = .next t → t.input = s.input

/-- R64: an idle core shows `OUT`. R80, R279: while a command runs the host sees a prefix of what the command will leave;
how long a prefix is a free value (log entry 6). -/
def Obligations.OutputObservation : Prop :=
  (∀ s : State, s.busy = false → hostObserve s = .next { s with outSeen := s.output }) ∧
  ∀ s : State, s.Inv → s.busy = true → ∃ t, coreRun (stepBound s) s = .next t ∧ t.phase = .idle ∧
    ∃ u, hostObserve s = .next u ∧ u = { s with outSeen := u.outSeen, draws := s.draws + 1 } ∧ u.outSeen <+: t.output

/-! ### The interrupt -/

/-- R258: the level, and each event that clears it. R259: the step that clears BUSY raises it, and so does the write of an
illegal word. -/
def Obligations.IrqLevel : Prop :=
  (∀ s : State, s.irq = (s.irqEn && (s.done || s.err)) ∧ s.status.getLsbD 7 = s.irq) ∧
  (∀ s t : State, s.busy = false → exec .ack s = .next t → t.irq = false) ∧
  (∀ (s : State) (op : BitVec 4) (body : List Line), (startCommand op body s).irq = false) ∧
  (∀ (s t : State) (v : Word), v.getLsbD 0 = false → hostWrite 0x018 4 v s = .next t → t.irq = false) ∧
  (∀ s t : State, hostAct .reset s = .next t → t.irq = false) ∧
  (∀ s t : State, s.Inv → s.busy = true → s.irqEn = true → coreStep s = .next t → t.busy = false → t.irq = true) ∧
  ∀ (s t : State) (v : Word), s.busy = false → s.irqEn = true → v.extractLsb' 4 28 ≠ 0 ∨ v.extractLsb' 0 4 = 0xF →
    hostWrite 0x008 4 v s = .next t → t.irq = true

/-- R79: what the host may change during a command, IRQ_EN, has no influence on any step of the core; nor has what the host
agent holds. -/
def Obligations.HostInvisible : Prop :=
  ∀ (s t : State) (q : Bool) (host : List HostEvent) (rdata : Word) (seen : List Byte) (draws : Nat),
    coreStep s = .next t →
    coreStep { s with irqEn := q, host := host, rdata := rdata, outSeen := seen, draws := draws } =
      .next { t with irqEn := q, host := host, rdata := rdata, outSeen := seen, draws := draws }

/-! ### Frames -/

/-- The table of R228: an instruction that ends in a next state changes, of the tables, streams and flags, only the pieces
its row names, and never TAG, the input, IRQ_EN or the host agent. ACK and the illegal words leave the sequencer too. -/
def Obligations.CommandFrame : Prop :=
  ∀ (i : Instr) (s t : State), exec i s = .next t →
    (∀ p : Piece, p ∉ Machine.Instr.writes i → p.same s t) ∧
    t.tag = s.tag ∧ t.input = s.input ∧ t.irqEn = s.irqEn ∧ t.host = s.host ∧ t.rdata = s.rdata ∧
    t.outSeen = s.outSeen ∧ t.draws = s.draws ∧ (i.port = .ctrl → commandOf i = none → t.phase = s.phase)

/-! ### The bitstream units -/

/-- R131, R133: REWIND and OUTCLR, with the STATUS bit each rule names; R132: CLOSE. -/
def Obligations.StreamCommands : Prop :=
  ∀ s : State, s.quiet →
    (∃ t, exec .rewind s = .next t ∧ t = { s with inPos := 0, done := true, err := false, errcode := 0 } ∧
      t.status.getLsbD 5 = decide (s.input.length = 0)) ∧
    (∃ t, exec .outclr s = .next t ∧
      t = { s with output := [], outAcc := 0, outNbits := 0, done := true, err := false, errcode := 0 } ∧
      t.status.getLsbD 6 = false) ∧
    ∃ t, exec .close s = .next t ∧ t.status.getLsbD 6 = false ∧
      t = { s with output := t.output, outAcc := t.outAcc, outNbits := 0, done := true, err := false, errcode := 0 } ∧
      t.outBits = s.outBits ++ List.replicate ((8 - s.outNbits.toNat) % 8) false ∧
      (s.outNbits = 0 → t.output = s.output ∧ t.outAcc = s.outAcc)

/-- The sentence of R129, which the spec marks as derived from R124 and R127: each `putBit` adds 1 to the number of bits written, `close()` adds `(8 - out_nbits) mod 8`, and after a `close()`
`OUT` holds the least number of bytes that the written bits fit in. R70, R124: the bits come out in the order written, and
nothing but the output changes. -/
def Obligations.BitAccounting : Prop :=
  (∀ (b : Bool) (s : State), 8 * (putBit b s).output.length + (putBit b s).outNbits.toNat =
    8 * s.output.length + s.outNbits.toNat + 1) ∧
  (∀ s : State, 8 * (close s).output.length + (close s).outNbits.toNat =
    8 * s.output.length + s.outNbits.toNat + (8 - s.outNbits.toNat) % 8) ∧
  ∀ (bits : List Bool) (s : State),
    (close (putBits bits (clearOut s))).output.length = (bits.length + 7) / 8 ∧
    putBits bits s = s.withOutput (putBits bits s) ∧
    ∀ k, k < 8 * (putBits bits (clearOut s)).output.length → some (bitAt (putBits bits (clearOut s)).output k) = bits[k]?

/-- R121, R68: the value `readBits(n)` returns, its bits being those of the input from `in_pos` on, and where it leaves
`in_pos`; too few bits give `EOF` and are consumed. -/
def Obligations.ReadBits : Prop :=
  ∀ (n : Nat) (s : State),
    (8 * s.input.length < s.inPos + n → readBits n s = (none, { s with inPos := 8 * s.input.length })) ∧
    (s.inPos + n ≤ 8 * s.input.length → ∃ v, readBits n s = (some v, { s with inPos := s.inPos + n }) ∧ v < 2 ^ n ∧
      ∀ j, j < n → v.testBit (n - 1 - j) =
        ((s.input[(s.inPos + j) / 8]?).getD 0).getLsbD (7 - (s.inPos + j) % 8))

/-! ### COUNT -/

/-- The sentence of R141, which the spec marks as derived from R140: a completed COUNT leaves in `freq[v]` the number of 8-bit chunks equal to `v`, and 1 for symbol 256 (R143); it
consumes the input (R144) and changes nothing else (R147). -/
def Obligations.CountResult : Prop :=
  ∀ s : State, s.quiet → s.inPos ≤ 8 * s.input.length → (8 * s.input.length - s.inPos) / 8 ≤ 2 ^ 32 - 2 →
    ∃ t, exec .count s = .next t ∧
      t = { s with freq := t.freq, inPos := 8 * s.input.length, done := true, err := false, errcode := 0 } ∧
      t.freq[eofSymbol] = 1 ∧
      ∀ v : Symbol, v.val < 256 → (t.freq[v]).toNat =
        ((List.range ((8 * s.input.length - s.inPos) / 8)).filter fun k =>
          bitsVal (bitsFrom s.input (s.inPos + 8 * k) 8) == v.val).length

/-- R251, R142: more than `2^32 - 2` chunks, which an input of at most `2^32 - 1` bytes holds only whole, raise
COUNT_OVERFLOW after exactly `2^32 - 2` were counted, with `freq[256] = 0` (R142); COMPRESS raises it too, with no byte written
(R224). -/
def Obligations.CountOverflow : Prop :=
  ∀ s : State, s.quiet → s.input.length ≤ 2 ^ 32 - 1 → s.inPos ≤ 8 * s.input.length →
    2 ^ 32 - 2 < (8 * s.input.length - s.inPos) / 8 →
    s.inPos = 0 ∧ s.input.length = 2 ^ 32 - 1 ∧
    (∃ t, exec .count s = .next t ∧
      t = { s with freq := t.freq, inPos := 8 * (2 ^ 32 - 1), done := false, err := true, errcode := 7 } ∧
      t.freq[eofSymbol] = 0 ∧
      ∀ v : Symbol, v.val < 256 → (t.freq[v]).toNat =
        ((List.range (2 ^ 32 - 2)).filter fun k => bitsVal (bitsFrom s.input (8 * k) 8) == v.val).length) ∧
    ∃ t, exec .compress s = .next t ∧ t.err = true ∧ t.errcode = 7 ∧ t.output = [] ∧ t.outNbits = 0

/-! ### BUILD -/

/-- R156 to R158: the symbols that get leaves come in ascending order; they are the counted ones and, when exactly one is
counted, the least uncounted one. -/
def Obligations.LeafOrder : Prop :=
  ∀ freq : Vector Word 257,
    (leafSymbols freq).Pairwise (· < ·) ∧ (∀ x : Symbol, freq[x] ≠ 0 → x ∈ leafSymbols freq) ∧
    (∀ x : Symbol, x ∈ leafSymbols freq → freq[x] = 0 →
      (∃ y : Symbol, ∀ z : Symbol, freq[z] ≠ 0 ↔ z = y) ∧ ∀ z : Symbol, z < x → freq[z] ≠ 0) ∧
    ((leafSymbols freq = []) ↔ ∀ x : Symbol, freq[x] = 0) ∧ (leafSymbols freq).length ≠ 1

/-- R153, R150: `pq_pop()` serves and removes the entry whose (weight, seq) is least; among equal weights the one pushed
earliest. -/
def Obligations.PopServesLeast : Prop :=
  ∀ s : State, s.pq ≠ [] → s.pq.Pairwise (fun a b => a.seq ≠ b.seq) →
    ∃ e, e ∈ s.pq ∧
      (∀ f, f ∈ s.pq → f ≠ e →
        e.weight.toNat < f.weight.toNat ∨ (e.weight = f.weight ∧ e.seq.toNat < f.seq.toNat)) ∧
      ∀ k, pqPop s k = k e { s with pq := s.pq.erase e }

/-- R156, R158 to R160: BUILD on a table with a non-zero count completes and leaves the arena whose records are the leaves in
ascending order and then the merges, each of the two entries served first. -/
def Obligations.BuildResult : Prop :=
  ∀ s : State, s.quiet → (∃ x : Symbol, s.freq[x] ≠ 0) → exec .build s = .next s.built.succeeded

/-- R160, and R161, which the spec marks as derived from R156: with `n` leaves, records 0 to `n - 1` are the leaves in order, records `n` to `2n - 2` are internal with
children of smaller indices, the rest are 0, `node_count = 2n - 1`, `root = 2n - 2`, and the arena holds one tree made of
exactly these records, whose leaves are those symbols. -/
def Obligations.BuildTree : Prop :=
  ∀ s : State, (∃ x : Symbol, s.freq[x] ≠ 0) → ∃ n, n = (leafSymbols s.freq).length ∧ 2 ≤ n ∧ n ≤ 257 ∧
    s.built.nodeCount.toNat = 2 * n - 1 ∧ s.built.root.toNat = 2 * n - 2 ∧
    (∀ (j : Fin 513) (x : Symbol), (leafSymbols s.freq)[j.val]? = some x → s.built.node[j] = leafNode x s.freq[x]) ∧
    (∀ j : Fin 513, n ≤ j.val → j.val < 2 * n - 1 → s.built.node[j].isLeaf = false ∧ s.built.node[j].sym = 0 ∧
      s.built.node[j].left.toNat < j.val ∧ s.built.node[j].right.toNat < j.val) ∧
    (∀ j : Fin 513, 2 * n - 1 ≤ j.val → s.built.node[j] = Node.zero) ∧
    ∃ t is, s.built.Holds s.built.root t is ∧ is.Perm (indices (2 * n - 1)) ∧ t.leaves.Perm (leafSymbols s.freq)

/-- The sentence of R162, which the spec marks as derived from R156 and R142: where the counts sum to at most `2^32 - 1`, as they do after a completed COUNT, no addition wraps: the weight of
every record is the sum of the counts of the leaves below it, and the root's is the sum of all counts. The second clause is
about `State.counts`, the table a completed COUNT leaves by CountResult. -/
def Obligations.BuildWeights : Prop :=
  (∀ s : State, ((allSymbols.map fun x => (s.freq[x]).toNat).sum ≤ 2 ^ 32 - 1) → (∃ x : Symbol, s.freq[x] ≠ 0) →
    (∀ i t is n, i.toNat < s.built.nodeCount.toNat → s.built.Holds i t is → s.built.nodeAt i = some n →
      n.weight.toNat = (t.leaves.map fun x => (s.freq[x]).toNat).sum) ∧
    ∃ n, s.built.nodeAt s.built.root = some n ∧ n.weight.toNat = (allSymbols.map fun x => (s.freq[x]).toNat).sum) ∧
  ∀ s : State, s.inPos ≤ 8 * s.input.length → s.chunkCount ≤ 2 ^ 32 - 2 →
    (allSymbols.map fun x => (s.counts[x]).toNat).sum ≤ 2 ^ 32 - 1

/-- R163: BUILD on an all-zero table raises EMPTY_INPUT after the arena, the flags and the queue were cleared; the table is
all zero after reset. -/
def Obligations.EmptyTable : Prop :=
  (∀ s : State, s.quiet → (∀ x : Symbol, s.freq[x] = 0) → exec .build s = .next { s with
    treeValid := false, codesValid := false, nodeCount := 0, node := Vector.replicate 513 Node.zero, pq := [], seqCtr := 0,
    done := false, err := true, errcode := 4 }) ∧
  ∀ x : Symbol, State.reset.freq[x] = 0

/-! ### GEN -/

/-- R170: GEN leaves the code table of the tree in the arena. -/
def Obligations.GenResult : Prop :=
  ∀ (s : State) (t : Machine.Tree) (is : List NodeIdx), s.quiet → s.treeValid = true → s.Holds s.root t is → t.size ≤ 513 →
    exec .gen s = .next (s.withCodes t).succeeded

/-- R171: a leaf's code is its root-to-leaf path. R174: of several leaves with one symbol the rightmost wins. R173: a symbol
with no leaf has no code. The spec marks R175 and R176 as derived. R176: no code is longer than 256 bits, nor than the number of the other leaves. R175: with
distinct symbols no code is a prefix of another. -/
def Obligations.GenCodes : Prop :=
  ∀ (s : State) (t : Machine.Tree), t.isNode = true → t.size ≤ 513 →
    (∀ x : Symbol, (s.withCodes t).codeOf x = ((t.paths.reverse.find? fun c => c.1 == x).map Prod.snd).getD [] ∧
      ((s.withCodes t).codelen[x]).toNat = ((s.withCodes t).codeOf x).length ∧
      (x ∈ t.leaves → 1 ≤ ((s.withCodes t).codelen[x]).toNat ∧ ((s.withCodes t).codelen[x]).toNat ≤ 256 ∧
        ((s.withCodes t).codelen[x]).toNat ≤ t.leaves.length - 1) ∧
      (x ∉ t.leaves → (s.withCodes t).codelen[x] = 0 ∧ (s.withCodes t).codebits[x] = 0)) ∧
    (t.leaves.Nodup → ∀ x y : Symbol, x ∈ t.leaves → y ∈ t.leaves →
      (s.withCodes t).codeOf x <+: (s.withCodes t).codeOf y → x = y)

/-- R255: GEN, WHDR and DEC with TREE_VALID = 0, and ENC with CODES_VALID = 0, raise ILLEGAL_SEQUENCE before anything else
is written. -/
def Obligations.IllegalSequence : Prop :=
  ∀ s : State, s.quiet →
    (s.treeValid = false → ∀ i ∈ [Instr.gen, .whdr, .dec],
      exec i s = .next { s with done := false, err := true, errcode := 11 }) ∧
    (s.codesValid = false → exec .enc s = .next { s with done := false, err := true, errcode := 11 })

/-! ### The tag and the header -/

/-- R180: WTAG writes the 32 bits of TAG. R72, which the spec marks as derived from R69 and R70: at a byte boundary these are its four bytes, the most significant first. -/
def Obligations.WtagResult : Prop :=
  ∀ s : State, s.quiet → ∃ t, exec .wtag s = .next t ∧
    t = { s with output := t.output, outAcc := t.outAcc, outNbits := s.outNbits, done := true, err := false, errcode := 0 } ∧
    t.outBits = s.outBits ++ msbBits 32 s.tag.toNat ∧
    (s.outNbits = 0 → t.output = s.output ++
      [s.tag.extractLsb' 24 8, s.tag.extractLsb' 16 8, s.tag.extractLsb' 8 8, s.tag.extractLsb' 0 8])

/-- R181, R182: WHDR writes the preorder header of the tree in the arena, `11n - 1` bits for `n` leaves (the number is R98's
derivation). -/
def Obligations.WhdrResult : Prop :=
  ∀ (s : State) (t : Machine.Tree) (is : List NodeIdx), s.quiet → s.treeValid = true → s.Holds s.root t is → t.size ≤ 513 →
    exec .whdr s = .next (putBits t.headerBits s).succeeded ∧
    (putBits t.headerBits s).outBits = s.outBits ++ t.headerBits ∧ t.headerBits.length = 11 * t.leaves.length - 1

/-- R98: the header is self-describing and prefix-free, and a header of `n` leaves has `11n - 1` bits,
which R98 marks as derived. -/
def Obligations.HeaderGrammar : Prop :=
  (∀ x : Symbol, (Machine.Tree.leaf x).headerBits = true :: msbBits 9 x.val) ∧
  (∀ l r : Machine.Tree, (Machine.Tree.node l r).headerBits = false :: (l.headerBits ++ r.headerBits)) ∧
  (∀ t : Machine.Tree, t.headerBits.length = 11 * t.leaves.length - 1) ∧
  ∀ (t u : Machine.Tree) (a b : List Bool), t.headerBits ++ a = u.headerBits ++ b → t = u ∧ a = b

/-- R183: RTAG consumes the tag field and compares it; a mismatch, or fewer than 32 bits, which are consumed, raises
BAD_HEADER_TAG. -/
def Obligations.RtagResult : Prop :=
  ∀ s : State, s.quiet →
    (∀ (v : Word) (more : List Bool), s.inBits = msbBits 32 v.toNat ++ more →
      (v = s.tag → exec .rtag s = .next { s with inPos := s.inPos + 32, done := true, err := false, errcode := 0 }) ∧
      (v ≠ s.tag → exec .rtag s = .next { s with inPos := s.inPos + 32, done := false, err := true, errcode := 1 })) ∧
    (s.inBits.length < 32 →
      exec .rtag s = .next { s with inPos := 8 * s.input.length, done := false, err := true, errcode := 1 })

/-- R184 to R186, R190: RHDR on an input that begins with the header of a tree of at least 2 leaves and at most 513 nodes,
whatever its symbols, consumes that header and leaves the tree, the root at index 0 and the nodes in preorder. -/
def Obligations.RhdrResult : Prop :=
  ∀ (s : State) (t : Machine.Tree) (more : List Bool), s.quiet → s.inBits = t.headerBits ++ more → t.isNode = true → t.size ≤ 513 →
    exec .rhdr s = .next (s.withTree t t.headerBits.length).succeeded ∧
    (s.withTree t t.headerBits.length).Holds 0 t (indices t.size) ∧
    ∀ j : Fin 513, (s.withTree t t.headerBits.length).node[j].weight = 0

/-- R192, which the spec marks as derived from R184 and R185: where the input begins with no admissible header, RHDR ends in an
error of R246, R252, R253 or R254 and leaves no valid tree. R189: a single-leaf header raises DEGENERATE_TREE. R246: an input
that is a proper beginning of a header raises TRUNCATED_HEADER with the input consumed. After whole tokens that do not
complete a header: an input that ends there raises TRUNCATED_HEADER, also with 513 nodes read (R188, R257), and so does one
that ends inside a leaf's payload, its node allocated (R185); a 514th marker raises HEADER_OVERFLOW, the bit read and nothing
allocated (R188); a payload above 256 raises HEADER_SYMBOL_RANGE, its 10 bits read and its node allocated (R187). -/
def Obligations.RhdrFailure : Prop :=
  ∀ s : State, s.quiet → s.inPos ≤ 8 * s.input.length →
    ((¬∃ (t : Machine.Tree) (more : List Bool), s.inBits = t.headerBits ++ more ∧ t.isNode = true ∧ t.size ≤ 513) →
      ∃ e c p, e ∈ [2, 8, 9, 10#4] ∧ c ≤ 513 ∧ s.inPos ≤ p ∧ p ≤ 8 * s.input.length ∧ s.RhdrFails e c p) ∧
    (∀ (x : Symbol) (more : List Bool), s.inBits = (Machine.Tree.leaf x).headerBits ++ more →
      s.RhdrFails 10 1 (s.inPos + 10)) ∧
    (∀ (t : Machine.Tree) (q : List Bool), t.headerBits = s.inBits ++ q → q ≠ [] → t.size ≤ 513 →
      ∃ c, s.RhdrFails 2 c (8 * s.input.length)) ∧
    ∀ (t : Machine.Tree) (ts us : List Instr) (more : List Bool), t.tokens = ts ++ us → us ≠ [] → ts.length ≤ 513 →
      s.inBits = ts.flatMap encode ++ more →
      (more = [] → s.RhdrFails 2 ts.length (8 * s.input.length)) ∧
      (ts.length < 513 → ∀ bits, more = true :: bits → bits.length < 9 →
        s.RhdrFails 2 (ts.length + 1) (8 * s.input.length)) ∧
      (ts.length = 513 → more ≠ [] → s.RhdrFails 8 513 (s.inPos + (ts.flatMap encode).length + 1)) ∧
      (ts.length < 513 → ∀ (v : SymField) (bits : List Bool), more = true :: (msbBits 9 v.toNat ++ bits) → 256 < v.toNat →
        s.RhdrFails 9 (ts.length + 1) (s.inPos + (ts.flatMap encode).length + 10))

/-- The sentence of R191, which the spec marks as derived from R181 and R185: WHDR then RHDR on the bits it wrote gives a tree of the same shape with the same symbols, and RHDR consumes
exactly those bits, for every tree BUILD makes. -/
def Obligations.HeaderRoundTrip : Prop :=
  ∀ s : State, s.quiet → (∃ x : Symbol, s.freq[x] ≠ 0) → ∃ b, exec .build s = .next b ∧
    ∃ (t : Machine.Tree) (is : List NodeIdx) (bits : List Bool) (w : State), b.Holds b.root t is ∧ exec .whdr b = .next w ∧
      w.err = false ∧ w.outBits = b.outBits ++ bits ∧
      ∀ (u : State) (more : List Bool), u.quiet → u.inBits = bits ++ more →
        ∃ (v : State) (js : List NodeIdx), exec .rhdr u = .next v ∧ v.err = false ∧ v.treeValid = true ∧
          v.inPos = u.inPos + bits.length ∧ v.Holds v.root t js

/-! ### The stream tokens -/

/-- R183: the tag field, where RTAG's line awaits it, is consumed and compared; on a mismatch the next step raises
BAD_HEADER_TAG, and that the read and the error are two steps is log entry 11. R183, R185: no other line reads the tag, and
none but `read_node`'s a header token, so a token executed at any other line or on an idle core stops (the model's form, log
entry 8). -/
def Obligations.TagToken : Prop :=
  (∀ (s : State) (op : BitVec 4) (rest : List Line) (v : Word), s.phase = .running op (.readTag :: rest) →
    (v = s.tag → exec (.tag v) s = .next { s with inPos := s.inPos + 32, phase := .running op rest }) ∧
    (v ≠ s.tag → ∃ u, exec (.tag v) s = .next u ∧
      u = { s with inPos := s.inPos + 32, phase := .running op (.raise .badHeaderTag :: rest) } ∧
      coreStep u = .next { s with inPos := s.inPos + 32, err := true, errcode := 1, phase := .idle })) ∧
  ∀ s : State,
    ((¬∃ op rest, s.phase = .running op (.readTag :: rest)) → ∀ v, exec (.tag v) s = .fault .tokenNotAwaited) ∧
    ((¬∃ op stack rest, s.phase = .running op (.readNode stack :: rest)) →
      exec .hdrInternal s = .fault .tokenNotAwaited ∧ ∀ v, exec (.hdrLeaf v) s = .fault .tokenNotAwaited)

/-- R185: an INTERNAL marker takes the next index and waits for its left subtree. R188: with 513 nodes it raises
HEADER_OVERFLOW, the bit read and nothing allocated; the error is a step of its own (log entry 11). -/
def Obligations.InternalToken : Prop :=
  ∀ (s : State) (op : BitVec 4) (stack : List Frame) (rest : List Line),
    s.phase = .running op (.readNode stack :: rest) →
    (s.nodeCount.toNat < 513 → exec .hdrInternal s = .next { s with
      inPos := s.inPos + 1
      nodeCount := s.nodeCount + 1
      phase := .running op (.readNode ({ node := s.nodeCount, left := none } :: stack) :: rest) }) ∧
    (s.nodeCount.toNat = 513 → ∃ u, exec .hdrInternal s = .next u ∧
      u = { s with inPos := s.inPos + 1, phase := .running op (.raise .headerOverflow :: rest) } ∧
      coreStep u = .next { s with inPos := s.inPos + 1, err := true, errcode := 8, phase := .idle })

/-- R185, R187, R188: a LEAF token takes the next index, writes the leaf there, with weight 0, and returns that index to the
innermost frame. A return to no frame ends the read; one to a frame without its left child makes it that child, and the right
subtree is read next; one to a frame with its left child writes that internal node and returns its index to the frame below.
So only the leaf and the nodes of the frames so closed are written. A payload above 256 raises HEADER_SYMBOL_RANGE with the
10 bits read and the node allocated but not written; with 513 nodes HEADER_OVERFLOW comes first. An error is a step of its own
(log entry 11). -/
def Obligations.LeafToken : Prop :=
  (∀ (s : State) (op : BitVec 4) (stack : List Frame) (rest : List Line) (v : SymField),
    s.phase = .running op (.readNode stack :: rest) →
    (∀ room : s.nodeCount.toNat < 513, v.toNat ≤ 256 →
      exec (.hdrLeaf v) s = returnNode op rest s.nodeCount stack { s with
        inPos := s.inPos + 10
        nodeCount := s.nodeCount + 1
        node := s.node.set s.nodeCount.toNat { isLeaf := true, sym := v, weight := 0, left := 0, right := 0 } room } ∧
      ((∀ f ∈ stack, f.node.toNat < s.nodeCount.toNat) →
        ∃ t, exec (.hdrLeaf v) s = .next t ∧
          t = { s with inPos := s.inPos + 10, nodeCount := s.nodeCount + 1, node := t.node, phase := t.phase } ∧
          t.nodeAt s.nodeCount = some { isLeaf := true, sym := v, weight := 0, left := 0, right := 0 } ∧
          ∀ j, j ≠ s.nodeCount → (∀ f ∈ stack.takeWhile (fun f => f.left.isSome), f.node ≠ j) → t.nodeAt j = s.nodeAt j)) ∧
    (s.nodeCount.toNat < 513 → 256 < v.toNat → ∃ u, exec (.hdrLeaf v) s = .next u ∧
      u = { s with
        inPos := s.inPos + 10, nodeCount := s.nodeCount + 1, phase := .running op (.raise .headerSymbolRange :: rest) } ∧
      coreStep u = .next { s with
        inPos := s.inPos + 10, nodeCount := s.nodeCount + 1, err := true, errcode := 9, phase := .idle }) ∧
    (s.nodeCount.toNat = 513 → ∃ u, exec (.hdrLeaf v) s = .next u ∧
      u = { s with inPos := s.inPos + 1, phase := .running op (.raise .headerOverflow :: rest) } ∧
      coreStep u = .next { s with inPos := s.inPos + 1, err := true, errcode := 8, phase := .idle })) ∧
  ∀ (s : State) (op : BitVec 4) (rest : List Line) (i n : NodeIdx) (below : List Frame),
    returnNode op rest i [] s = .next { s with phase := .running op (.rhdrRoot i :: rest) } ∧
    returnNode op rest i ({ node := n, left := none } :: below) s =
      .next { s with phase := .running op (.readNode ({ node := n, left := some i } :: below) :: rest) } ∧
    ∀ (l : NodeIdx) (hn : n.toNat < 513), returnNode op rest i ({ node := n, left := some l } :: below) s =
      returnNode op rest n below { s with
        node := s.node.set n.toNat { isLeaf := false, sym := 0, weight := 0, left := l, right := i } hn }

/-! ### The body -/

/-- R200, R202, R100: ENC writes the code of every chunk in input order, then the code of symbol 256 once, then pads to a
byte with 0 bits; the input is consumed and nothing else changes. -/
def Obligations.EncResult : Prop :=
  ∀ s : State, s.quiet → s.codesValid = true → (∀ x, x ∈ s.chunks → s.hasCode x) → s.hasCode eofSymbol →
    ∃ t, exec .enc s = .next t ∧
      t = { s with
        output := t.output, outAcc := t.outAcc, outNbits := 0, inPos := 8 * s.input.length
        done := true, err := false, errcode := 0 } ∧
      ∃ pad, pad < 8 ∧
        t.outBits = s.outBits ++ s.chunks.flatMap s.codeOf ++ s.codeOf eofSymbol ++ List.replicate pad false

/-- R201: the first chunk with no code raises UNENCODABLE_SYMBOL, the codes before it written and none of its bits. R202: so
does symbol 256 with no code, all chunks written and nothing padded. -/
def Obligations.EncUnencodable : Prop :=
  ∀ s : State, s.quiet → s.codesValid = true →
    (∀ xs x ys, s.chunks = xs ++ x :: ys → (∀ y, y ∈ xs → s.hasCode y) → ¬s.hasCode x →
      exec .enc s = .next (((putBits (xs.flatMap s.codeOf) s).atPos (s.inPos + 8 * (xs.length + 1))).failed
        .unencodableSymbol)) ∧
    ((∀ x, x ∈ s.chunks → s.hasCode x) → ¬s.hasCode eofSymbol →
      exec .enc s = .next (((putBits (s.chunks.flatMap s.codeOf) s).atPos (8 * s.input.length)).failed
        .unencodableSymbol))

/-- R203 to R206, R208: on bits that spell literal symbols and then symbol 256 in the tree, DEC writes those literals, counts
them, stops just after the code of symbol 256, and reads nothing after it. -/
def Obligations.DecResult : Prop :=
  ∀ (s : State) (t : Machine.Tree) (is : List NodeIdx) (bits p more : List Bool) (xs : List Symbol), s.quiet → s.treeValid = true →
    s.Holds s.root t is → t.isNode = true → t.Spells bits xs → eofSymbol ∉ xs → t.walk p = some eofSymbol →
    s.inBits = bits ++ (p ++ more) →
    ∃ u, exec .dec s = .next u ∧
      u = { s with
        output := u.output, outAcc := u.outAcc, outNbits := s.outNbits, inPos := s.inPos + bits.length + p.length
        decCount := BitVec.ofNat 32 xs.length, cursor := u.cursor, done := true, err := false, errcode := 0 } ∧
      u.outBits = s.outBits ++ literalBits xs ∧
      ∃ n, u.nodeAt u.cursor = some n ∧ n.isLeaf = true ∧ n.sym = 256

/-- R207, R204: where the input ends before a code of symbol 256 is complete, DEC raises TRUNCATED_STREAM with the literals
decoded so far written and counted. -/
def Obligations.DecTruncated : Prop :=
  ∀ (s : State) (t : Machine.Tree) (is : List NodeIdx) (bits q : List Bool) (xs : List Symbol), s.quiet → s.treeValid = true →
    s.Holds s.root t is → t.isNode = true → t.Spells bits xs → eofSymbol ∉ xs → t.walkOpen q = true →
    s.inBits = bits ++ q →
    ∃ u, exec .dec s = .next u ∧
      u = { s with
        output := u.output, outAcc := u.outAcc, outNbits := s.outNbits, inPos := 8 * s.input.length
        decCount := BitVec.ofNat 32 xs.length, cursor := u.cursor, done := false, err := true, errcode := 3 } ∧
      u.outBits = s.outBits ++ literalBits xs

/-! ### The pipelines -/

/-- R224 and R94, with R103's padding and R224's error list, which the spec marks as derived: COMPRESS of at most `2^32 - 2` bytes completes; the output is the tag, the header of the tree BUILD makes
of the counts, the codes of the input bytes in order and of symbol 256, and fewer than 8 zero bits. -/
def Obligations.CompressResult : Prop :=
  ∀ s : State, s.quiet → s.input.length ≤ 2 ^ 32 - 2 →
    ∃ t is, t.isNode = true ∧ t.leaves.Perm (leafSymbols (s.atPos 0).counts) ∧
      ({ s with freq := (s.atPos 0).counts } : State).built.Holds
        ({ s with freq := (s.atPos 0).counts } : State).built.root t is ∧
      exec .compress s = .next (s.compressed t).succeeded ∧
      (s.compressed t).treeValid = true ∧ (s.compressed t).codesValid = true ∧ (s.compressed t).outNbits = 0 ∧
      (s.compressed t).inPos = 8 * s.input.length ∧
      ∃ pad, pad < 8 ∧ byteBits (s.compressed t).output = msbBits 32 s.tag.toNat ++ t.headerBits ++
        (s.input.map byteSymbol).flatMap (s.withCodes t).codeOf ++ (s.withCodes t).codeOf eofSymbol ++
        List.replicate pad false

/-- R225: DECOMPRESS of a tag, a header, literal codes and the code of symbol 256 completes with those literals as its output,
whatever follows. Its errors: a wrong or short tag raises BAD_HEADER_TAG with an empty output (R245); with the expected tag, an
error RHDR raises at the bits after it ends DECOMPRESS with an empty output, and so does an error DEC raises at the bits after
the header, with the literals so far as output (R244); DEC raises only TRUNCATED_STREAM there, where the input ends before a
code of symbol 256 is complete. -/
def Obligations.DecompressResult : Prop :=
  ∀ s : State, s.quiet →
    (∀ (t : Machine.Tree) (bits p more : List Bool) (xs : List Symbol), t.isNode = true → t.size ≤ 513 → t.Spells bits xs →
      eofSymbol ∉ xs → t.walk p = some eofSymbol →
      byteBits s.input = msbBits 32 s.tag.toNat ++ (t.headerBits ++ (bits ++ (p ++ more))) →
      ∃ u, exec .decompress s = .next u ∧
        u = { s with
          output := u.output, outAcc := 0, outNbits := 0
          inPos := 32 + t.headerBits.length + bits.length + p.length
          codesValid := false, treeValid := true, root := 0, node := headerArena t, nodeCount := BitVec.ofNat 10 t.size
          decCount := BitVec.ofNat 32 xs.length, cursor := u.cursor, done := true, err := false, errcode := 0 } ∧
        u.output.map byteSymbol = xs) ∧
    ((byteBits s.input).take 32 ≠ msbBits 32 s.tag.toNat →
      exec .decompress s = .next ((clearOut s).atPos (min 32 (8 * s.input.length)) |>.failed .badHeaderTag)) ∧
    ((byteBits s.input).take 32 = msbBits 32 s.tag.toNat →
      ∃ b, exec .rhdr ((clearOut s).atPos 32) = .next b ∧
        (b.err = true → exec .decompress s = .next b ∧ b.errcode ∈ [2, 8, 9, 10#4] ∧ b.output = [] ∧ b.outNbits = 0) ∧
        (b.err = false → ∃ c, exec .dec b = .next c ∧ (c.err = true → exec .decompress s = .next c ∧ c.errcode = 3))) ∧
    ∀ (t : Machine.Tree) (bits q : List Bool) (xs : List Symbol), t.isNode = true → t.size ≤ 513 → t.Spells bits xs →
      eofSymbol ∉ xs → t.walkOpen q = true →
      byteBits s.input = msbBits 32 s.tag.toNat ++ (t.headerBits ++ (bits ++ q)) →
      ∃ u, exec .decompress s = .next u ∧
        u = { s with
          output := u.output, outAcc := 0, outNbits := 0, inPos := 8 * s.input.length
          codesValid := false, treeValid := true, root := 0, node := headerArena t, nodeCount := BitVec.ofNat 10 t.size
          decCount := BitVec.ofNat 32 xs.length, cursor := u.cursor, done := false, err := true, errcode := 3 } ∧
        u.output.map byteSymbol = xs

/-- The sentence of R210, which the spec marks as derived from R200, R203, R191 and R175: DECOMPRESS of what COMPRESS wrote, with
the same tag, gives the input back. -/
def Obligations.RoundTrip : Prop :=
  ∀ s : State, s.quiet → s.input.length ≤ 2 ^ 32 - 2 →
    ∃ c, exec .compress s = .next c ∧ c.done = true ∧ c.err = false ∧
      ∀ u : State, u.quiet → u.input = c.output → u.tag = s.tag →
        ∃ d, exec .decompress u = .next d ∧ d.done = true ∧ d.err = false ∧ d.output = s.input ∧ d.outNbits = 0 ∧
          d.decCount = BitVec.ofNat 32 (s.input.length % 2 ^ 32)

end
end

