-- ==== Sys2Proof/Laws/Bits.lean ====
section
/-! SUPPORT. Laws of bit sequences: `msbBits` and `bitsVal` undo each other, and the bits of a byte sequence. -/

namespace Sys2Proof.Machine

@[simp] theorem msbBits_length (n v : Nat) : (msbBits n v).length = n := by
  induction n with
  | zero => rfl
  | succ n ih => simp [msbBits, ih]

@[simp] theorem msbBits_zero (v : Nat) : msbBits 0 v = [] := rfl

theorem bitsVal_append_bit (xs : List Bool) (b : Bool) : bitsVal (xs ++ [b]) = 2 * bitsVal xs + b.toNat := by
  simp [bitsVal, List.foldl_append]

theorem bitsVal_foldl (xs : List Bool) (a : Nat) :
    xs.foldl (fun v b => 2 * v + b.toNat) a = a * 2 ^ xs.length + bitsVal xs := by
  induction xs generalizing a with
  | nil => simp [bitsVal]
  | cons x xs ih =>
    have h := ih (2 * 0 + x.toNat)
    simp only [bitsVal, List.foldl_cons, List.length_cons] at *
    rw [ih, h]; ring

theorem bitsVal_cons (b : Bool) (xs : List Bool) : bitsVal (b :: xs) = b.toNat * 2 ^ xs.length + bitsVal xs := by
  have := bitsVal_foldl xs (2 * 0 + b.toNat)
  simpa [bitsVal] using this

theorem bitsVal_lt (xs : List Bool) : bitsVal xs < 2 ^ xs.length := by
  induction xs with
  | nil => simp [bitsVal]
  | cons b xs ih =>
    rw [bitsVal_cons, List.length_cons, pow_succ]
    cases b
    · simp; omega
    · simp; omega

theorem bitsVal_msbBits (n v : Nat) : bitsVal (msbBits n v) = v % 2 ^ n := by
  induction n with
  | zero => simp [msbBits, bitsVal, Nat.mod_one]
  | succ n ih =>
    rw [msbBits, bitsVal_cons, ih, msbBits_length, Nat.mod_pow_succ, Nat.testBit_eq_decide_div_mod_eq]
    rcases Nat.mod_two_eq_zero_or_one (v / 2 ^ n) with h | h
    · simp [h]
    · simp [h]; ring

theorem msbBits_succ (n v : Nat) : msbBits (n + 1) v = msbBits n (v / 2) ++ [v.testBit 0] := by
  induction n with
  | zero => rfl
  | succ n ih => rw [msbBits, ih, msbBits, List.cons_append, Nat.testBit_div_two]

theorem msbBits_mod {m n : Nat} (h : n ≤ m) (v : Nat) : msbBits n (v % 2 ^ m) = msbBits n v := by
  induction n with
  | zero => rfl
  | succ n ih => rw [msbBits, msbBits, ih (by omega), Nat.testBit_mod_two_pow]; simp; omega

theorem msbBits_push (n v : Nat) (b : Bool) : msbBits (n + 1) (2 * v + b.toNat) = msbBits n v ++ [b] := by
  have h1 : (2 * v + b.toNat) / 2 = v := by cases b <;> simp; omega
  have h2 : (2 * v + b.toNat).testBit 0 = b := by
    rw [Nat.testBit_zero]; cases b <;> simp
  rw [msbBits_succ, h1, h2]

theorem msbBits_bitsVal (xs : List Bool) : msbBits xs.length (bitsVal xs) = xs := by
  induction xs using List.reverseRecOn with
  | nil => rfl
  | append_singleton xs b ih =>
    rw [bitsVal_append_bit, List.length_append, List.length_singleton, msbBits_push, ih]

theorem msbBits_inj {n a b : Nat} (ha : a < 2 ^ n) (hb : b < 2 ^ n) (h : msbBits n a = msbBits n b) : a = b := by
  have := congrArg bitsVal h
  rwa [bitsVal_msbBits, bitsVal_msbBits, Nat.mod_eq_of_lt ha, Nat.mod_eq_of_lt hb] at this

theorem msbBits_getElem (n v k : Nat) (h : k < n) :
    (msbBits n v)[k]'(by simpa using h) = v.testBit (n - 1 - k) := by
  induction n generalizing k with
  | zero => omega
  | succ n ih =>
    cases k with
    | zero => simp [msbBits]
    | succ k => simp only [msbBits, List.getElem_cons_succ]; rw [ih k (by omega)]; congr 1; omega

/-! ### Byte sequences as bits -/

@[simp] theorem byteBits_nil : byteBits [] = [] := rfl

theorem byteBits_cons (x : Byte) (xs : List Byte) : byteBits (x :: xs) = msbBits 8 x.toNat ++ byteBits xs := by
  simp [byteBits]

theorem byteBits_append (xs ys : List Byte) : byteBits (xs ++ ys) = byteBits xs ++ byteBits ys := by
  simp [byteBits]

@[simp] theorem byteBits_length (xs : List Byte) : (byteBits xs).length = 8 * xs.length := by
  induction xs with
  | nil => rfl
  | cons x xs ih => simp [byteBits_cons, ih]; omega

/-- A byte sequence is determined by its bits. -/
theorem byteBits_inj {xs ys : List Byte} (h : byteBits xs = byteBits ys) : xs = ys := by
  induction xs generalizing ys with
  | nil =>
    cases ys with
    | nil => rfl
    | cons y ys => have := congrArg List.length h; simp at this
  | cons x xs ih =>
    cases ys with
    | nil => have := congrArg List.length h; simp at this
    | cons y ys =>
      rw [byteBits_cons, byteBits_cons] at h
      obtain ⟨h1, h2⟩ := List.append_inj h (by simp)
      rw [ih h2, BitVec.eq_of_toNat_eq (msbBits_inj x.isLt y.isLt h1)]

/-- Bit `k` of a byte sequence (R68). -/
theorem bitAt_eq (xs : List Byte) (k : Nat) (h : k < 8 * xs.length) :
    bitAt xs k = (byteBits xs)[k]'(by simpa using h) := by
  induction xs generalizing k with
  | nil => simp at h
  | cons x xs ih =>
    have h' : k < 8 * xs.length + 8 := by simpa [Nat.mul_add] using h
    simp only [byteBits_cons]
    by_cases hk : k < 8
    · rw [List.getElem_append_left (by simpa using hk), msbBits_getElem 8 _ _ hk]
      have h1 : k / 8 = 0 := by omega
      have h2 : k % 8 = k := by omega
      simp [bitAt, h1, h2, BitVec.getLsbD]
    · rw [List.getElem_append_right (by simp; omega)]
      have hrec := ih (k - 8) (by omega)
      simp only [msbBits_length]
      rw [← hrec]
      have h1 : k / 8 = (k - 8) / 8 + 1 := by omega
      have h2 : k % 8 = (k - 8) % 8 := by omega
      simp [bitAt, h1, h2]

@[simp] theorem bitsFrom_length (xs : List Byte) (p n : Nat) : (bitsFrom xs p n).length = n := by simp [bitsFrom]

/-- The `n` bits from a position are a segment of the byte sequence's bits (R68). -/
theorem bitsFrom_eq (xs : List Byte) (p n : Nat) (h : p + n ≤ 8 * xs.length) :
    bitsFrom xs p n = ((byteBits xs).drop p).take n := by
  apply List.ext_getElem
  · simp; omega
  · intro k h1 h2
    simp only [bitsFrom_length] at h1
    simp only [bitsFrom, List.getElem_map, List.getElem_range', List.getElem_take, List.getElem_drop]
    rw [bitAt_eq _ _ (by omega)]
    simp

theorem bitsFrom_append (xs : List Byte) (p m n : Nat) :
    bitsFrom xs p (m + n) = bitsFrom xs p m ++ bitsFrom xs (p + m) n := by
  simp only [bitsFrom, ← List.map_append, List.range'_append_1]

end Sys2Proof.Machine
end

