-- ==== Sys2Proof/Laws/State.lean ====
section
/-! SUPPORT. One lemma per field for each update of the state: what the update leaves there. -/

namespace Sys2Proof.Machine

/-! The input position moved (R30). -/

@[simp] theorem atPos_phase (s : State) (p : Nat) :
    (s.atPos p).phase = s.phase := rfl
@[simp] theorem atPos_freq (s : State) (p : Nat) :
    (s.atPos p).freq = s.freq := rfl
@[simp] theorem atPos_codelen (s : State) (p : Nat) :
    (s.atPos p).codelen = s.codelen := rfl
@[simp] theorem atPos_codebits (s : State) (p : Nat) :
    (s.atPos p).codebits = s.codebits := rfl
@[simp] theorem atPos_nodeCount (s : State) (p : Nat) :
    (s.atPos p).nodeCount = s.nodeCount := rfl
@[simp] theorem atPos_node (s : State) (p : Nat) :
    (s.atPos p).node = s.node := rfl
@[simp] theorem atPos_root (s : State) (p : Nat) :
    (s.atPos p).root = s.root := rfl
@[simp] theorem atPos_pq (s : State) (p : Nat) :
    (s.atPos p).pq = s.pq := rfl
@[simp] theorem atPos_seqCtr (s : State) (p : Nat) :
    (s.atPos p).seqCtr = s.seqCtr := rfl
@[simp] theorem atPos_cursor (s : State) (p : Nat) :
    (s.atPos p).cursor = s.cursor := rfl
@[simp] theorem atPos_input (s : State) (p : Nat) :
    (s.atPos p).input = s.input := rfl
@[simp] theorem atPos_inPos (s : State) (p : Nat) :
    (s.atPos p).inPos = p := rfl
@[simp] theorem atPos_output (s : State) (p : Nat) :
    (s.atPos p).output = s.output := rfl
@[simp] theorem atPos_outAcc (s : State) (p : Nat) :
    (s.atPos p).outAcc = s.outAcc := rfl
@[simp] theorem atPos_outNbits (s : State) (p : Nat) :
    (s.atPos p).outNbits = s.outNbits := rfl
@[simp] theorem atPos_treeValid (s : State) (p : Nat) :
    (s.atPos p).treeValid = s.treeValid := rfl
@[simp] theorem atPos_codesValid (s : State) (p : Nat) :
    (s.atPos p).codesValid = s.codesValid := rfl
@[simp] theorem atPos_done (s : State) (p : Nat) :
    (s.atPos p).done = s.done := rfl
@[simp] theorem atPos_err (s : State) (p : Nat) :
    (s.atPos p).err = s.err := rfl
@[simp] theorem atPos_errcode (s : State) (p : Nat) :
    (s.atPos p).errcode = s.errcode := rfl
@[simp] theorem atPos_decCount (s : State) (p : Nat) :
    (s.atPos p).decCount = s.decCount := rfl
@[simp] theorem atPos_tag (s : State) (p : Nat) :
    (s.atPos p).tag = s.tag := rfl
@[simp] theorem atPos_irqEn (s : State) (p : Nat) :
    (s.atPos p).irqEn = s.irqEn := rfl
@[simp] theorem atPos_host (s : State) (p : Nat) :
    (s.atPos p).host = s.host := rfl
@[simp] theorem atPos_rdata (s : State) (p : Nat) :
    (s.atPos p).rdata = s.rdata := rfl
@[simp] theorem atPos_outSeen (s : State) (p : Nat) :
    (s.atPos p).outSeen = s.outSeen := rfl
@[simp] theorem atPos_draws (s : State) (p : Nat) :
    (s.atPos p).draws = s.draws := rfl

/-! The cursor moved (R29). -/

@[simp] theorem withCursor_phase (s : State) (c : NodeIdx) :
    (s.withCursor c).phase = s.phase := rfl
@[simp] theorem withCursor_freq (s : State) (c : NodeIdx) :
    (s.withCursor c).freq = s.freq := rfl
@[simp] theorem withCursor_codelen (s : State) (c : NodeIdx) :
    (s.withCursor c).codelen = s.codelen := rfl
@[simp] theorem withCursor_codebits (s : State) (c : NodeIdx) :
    (s.withCursor c).codebits = s.codebits := rfl
@[simp] theorem withCursor_nodeCount (s : State) (c : NodeIdx) :
    (s.withCursor c).nodeCount = s.nodeCount := rfl
@[simp] theorem withCursor_node (s : State) (c : NodeIdx) :
    (s.withCursor c).node = s.node := rfl
@[simp] theorem withCursor_root (s : State) (c : NodeIdx) :
    (s.withCursor c).root = s.root := rfl
@[simp] theorem withCursor_pq (s : State) (c : NodeIdx) :
    (s.withCursor c).pq = s.pq := rfl
@[simp] theorem withCursor_seqCtr (s : State) (c : NodeIdx) :
    (s.withCursor c).seqCtr = s.seqCtr := rfl
@[simp] theorem withCursor_cursor (s : State) (c : NodeIdx) :
    (s.withCursor c).cursor = c := rfl
@[simp] theorem withCursor_input (s : State) (c : NodeIdx) :
    (s.withCursor c).input = s.input := rfl
@[simp] theorem withCursor_inPos (s : State) (c : NodeIdx) :
    (s.withCursor c).inPos = s.inPos := rfl
@[simp] theorem withCursor_output (s : State) (c : NodeIdx) :
    (s.withCursor c).output = s.output := rfl
@[simp] theorem withCursor_outAcc (s : State) (c : NodeIdx) :
    (s.withCursor c).outAcc = s.outAcc := rfl
@[simp] theorem withCursor_outNbits (s : State) (c : NodeIdx) :
    (s.withCursor c).outNbits = s.outNbits := rfl
@[simp] theorem withCursor_treeValid (s : State) (c : NodeIdx) :
    (s.withCursor c).treeValid = s.treeValid := rfl
@[simp] theorem withCursor_codesValid (s : State) (c : NodeIdx) :
    (s.withCursor c).codesValid = s.codesValid := rfl
@[simp] theorem withCursor_done (s : State) (c : NodeIdx) :
    (s.withCursor c).done = s.done := rfl
@[simp] theorem withCursor_err (s : State) (c : NodeIdx) :
    (s.withCursor c).err = s.err := rfl
@[simp] theorem withCursor_errcode (s : State) (c : NodeIdx) :
    (s.withCursor c).errcode = s.errcode := rfl
@[simp] theorem withCursor_decCount (s : State) (c : NodeIdx) :
    (s.withCursor c).decCount = s.decCount := rfl
@[simp] theorem withCursor_tag (s : State) (c : NodeIdx) :
    (s.withCursor c).tag = s.tag := rfl
@[simp] theorem withCursor_irqEn (s : State) (c : NodeIdx) :
    (s.withCursor c).irqEn = s.irqEn := rfl
@[simp] theorem withCursor_host (s : State) (c : NodeIdx) :
    (s.withCursor c).host = s.host := rfl
@[simp] theorem withCursor_rdata (s : State) (c : NodeIdx) :
    (s.withCursor c).rdata = s.rdata := rfl
@[simp] theorem withCursor_outSeen (s : State) (c : NodeIdx) :
    (s.withCursor c).outSeen = s.outSeen := rfl
@[simp] theorem withCursor_draws (s : State) (c : NodeIdx) :
    (s.withCursor c).draws = s.draws := rfl

/-! OUTCLR (R133). -/

@[simp] theorem clearOut_phase (s : State) :
    (clearOut s).phase = s.phase := rfl
@[simp] theorem clearOut_freq (s : State) :
    (clearOut s).freq = s.freq := rfl
@[simp] theorem clearOut_codelen (s : State) :
    (clearOut s).codelen = s.codelen := rfl
@[simp] theorem clearOut_codebits (s : State) :
    (clearOut s).codebits = s.codebits := rfl
@[simp] theorem clearOut_nodeCount (s : State) :
    (clearOut s).nodeCount = s.nodeCount := rfl
@[simp] theorem clearOut_node (s : State) :
    (clearOut s).node = s.node := rfl
@[simp] theorem clearOut_root (s : State) :
    (clearOut s).root = s.root := rfl
@[simp] theorem clearOut_pq (s : State) :
    (clearOut s).pq = s.pq := rfl
@[simp] theorem clearOut_seqCtr (s : State) :
    (clearOut s).seqCtr = s.seqCtr := rfl
@[simp] theorem clearOut_cursor (s : State) :
    (clearOut s).cursor = s.cursor := rfl
@[simp] theorem clearOut_input (s : State) :
    (clearOut s).input = s.input := rfl
@[simp] theorem clearOut_inPos (s : State) :
    (clearOut s).inPos = s.inPos := rfl
@[simp] theorem clearOut_output (s : State) :
    (clearOut s).output = [] := rfl
@[simp] theorem clearOut_outAcc (s : State) :
    (clearOut s).outAcc = 0 := rfl
@[simp] theorem clearOut_outNbits (s : State) :
    (clearOut s).outNbits = 0 := rfl
@[simp] theorem clearOut_treeValid (s : State) :
    (clearOut s).treeValid = s.treeValid := rfl
@[simp] theorem clearOut_codesValid (s : State) :
    (clearOut s).codesValid = s.codesValid := rfl
@[simp] theorem clearOut_done (s : State) :
    (clearOut s).done = s.done := rfl
@[simp] theorem clearOut_err (s : State) :
    (clearOut s).err = s.err := rfl
@[simp] theorem clearOut_errcode (s : State) :
    (clearOut s).errcode = s.errcode := rfl
@[simp] theorem clearOut_decCount (s : State) :
    (clearOut s).decCount = s.decCount := rfl
@[simp] theorem clearOut_tag (s : State) :
    (clearOut s).tag = s.tag := rfl
@[simp] theorem clearOut_irqEn (s : State) :
    (clearOut s).irqEn = s.irqEn := rfl
@[simp] theorem clearOut_host (s : State) :
    (clearOut s).host = s.host := rfl
@[simp] theorem clearOut_rdata (s : State) :
    (clearOut s).rdata = s.rdata := rfl
@[simp] theorem clearOut_outSeen (s : State) :
    (clearOut s).outSeen = s.outSeen := rfl
@[simp] theorem clearOut_draws (s : State) :
    (clearOut s).draws = s.draws := rfl

/-! The cleared arena (R156, R184). -/

@[simp] theorem clearArena_phase (s : State) :
    (clearArena s).phase = s.phase := rfl
@[simp] theorem clearArena_freq (s : State) :
    (clearArena s).freq = s.freq := rfl
@[simp] theorem clearArena_codelen (s : State) :
    (clearArena s).codelen = s.codelen := rfl
@[simp] theorem clearArena_codebits (s : State) :
    (clearArena s).codebits = s.codebits := rfl
@[simp] theorem clearArena_nodeCount (s : State) :
    (clearArena s).nodeCount = 0 := rfl
@[simp] theorem clearArena_node (s : State) :
    (clearArena s).node = Vector.replicate 513 Node.zero := rfl
@[simp] theorem clearArena_root (s : State) :
    (clearArena s).root = s.root := rfl
@[simp] theorem clearArena_pq (s : State) :
    (clearArena s).pq = s.pq := rfl
@[simp] theorem clearArena_seqCtr (s : State) :
    (clearArena s).seqCtr = s.seqCtr := rfl
@[simp] theorem clearArena_cursor (s : State) :
    (clearArena s).cursor = s.cursor := rfl
@[simp] theorem clearArena_input (s : State) :
    (clearArena s).input = s.input := rfl
@[simp] theorem clearArena_inPos (s : State) :
    (clearArena s).inPos = s.inPos := rfl
@[simp] theorem clearArena_output (s : State) :
    (clearArena s).output = s.output := rfl
@[simp] theorem clearArena_outAcc (s : State) :
    (clearArena s).outAcc = s.outAcc := rfl
@[simp] theorem clearArena_outNbits (s : State) :
    (clearArena s).outNbits = s.outNbits := rfl
@[simp] theorem clearArena_treeValid (s : State) :
    (clearArena s).treeValid = s.treeValid := rfl
@[simp] theorem clearArena_codesValid (s : State) :
    (clearArena s).codesValid = s.codesValid := rfl
@[simp] theorem clearArena_done (s : State) :
    (clearArena s).done = s.done := rfl
@[simp] theorem clearArena_err (s : State) :
    (clearArena s).err = s.err := rfl
@[simp] theorem clearArena_errcode (s : State) :
    (clearArena s).errcode = s.errcode := rfl
@[simp] theorem clearArena_decCount (s : State) :
    (clearArena s).decCount = s.decCount := rfl
@[simp] theorem clearArena_tag (s : State) :
    (clearArena s).tag = s.tag := rfl
@[simp] theorem clearArena_irqEn (s : State) :
    (clearArena s).irqEn = s.irqEn := rfl
@[simp] theorem clearArena_host (s : State) :
    (clearArena s).host = s.host := rfl
@[simp] theorem clearArena_rdata (s : State) :
    (clearArena s).rdata = s.rdata := rfl
@[simp] theorem clearArena_outSeen (s : State) :
    (clearArena s).outSeen = s.outSeen := rfl
@[simp] theorem clearArena_draws (s : State) :
    (clearArena s).draws = s.draws := rfl

/-! The cleared code table (R170). -/

@[simp] theorem clearCodes_phase (s : State) :
    (clearCodes s).phase = s.phase := rfl
@[simp] theorem clearCodes_freq (s : State) :
    (clearCodes s).freq = s.freq := rfl
@[simp] theorem clearCodes_codelen (s : State) :
    (clearCodes s).codelen = Vector.replicate 257 0 := rfl
@[simp] theorem clearCodes_codebits (s : State) :
    (clearCodes s).codebits = Vector.replicate 257 0 := rfl
@[simp] theorem clearCodes_nodeCount (s : State) :
    (clearCodes s).nodeCount = s.nodeCount := rfl
@[simp] theorem clearCodes_node (s : State) :
    (clearCodes s).node = s.node := rfl
@[simp] theorem clearCodes_root (s : State) :
    (clearCodes s).root = s.root := rfl
@[simp] theorem clearCodes_pq (s : State) :
    (clearCodes s).pq = s.pq := rfl
@[simp] theorem clearCodes_seqCtr (s : State) :
    (clearCodes s).seqCtr = s.seqCtr := rfl
@[simp] theorem clearCodes_cursor (s : State) :
    (clearCodes s).cursor = s.cursor := rfl
@[simp] theorem clearCodes_input (s : State) :
    (clearCodes s).input = s.input := rfl
@[simp] theorem clearCodes_inPos (s : State) :
    (clearCodes s).inPos = s.inPos := rfl
@[simp] theorem clearCodes_output (s : State) :
    (clearCodes s).output = s.output := rfl
@[simp] theorem clearCodes_outAcc (s : State) :
    (clearCodes s).outAcc = s.outAcc := rfl
@[simp] theorem clearCodes_outNbits (s : State) :
    (clearCodes s).outNbits = s.outNbits := rfl
@[simp] theorem clearCodes_treeValid (s : State) :
    (clearCodes s).treeValid = s.treeValid := rfl
@[simp] theorem clearCodes_codesValid (s : State) :
    (clearCodes s).codesValid = s.codesValid := rfl
@[simp] theorem clearCodes_done (s : State) :
    (clearCodes s).done = s.done := rfl
@[simp] theorem clearCodes_err (s : State) :
    (clearCodes s).err = s.err := rfl
@[simp] theorem clearCodes_errcode (s : State) :
    (clearCodes s).errcode = s.errcode := rfl
@[simp] theorem clearCodes_decCount (s : State) :
    (clearCodes s).decCount = s.decCount := rfl
@[simp] theorem clearCodes_tag (s : State) :
    (clearCodes s).tag = s.tag := rfl
@[simp] theorem clearCodes_irqEn (s : State) :
    (clearCodes s).irqEn = s.irqEn := rfl
@[simp] theorem clearCodes_host (s : State) :
    (clearCodes s).host = s.host := rfl
@[simp] theorem clearCodes_rdata (s : State) :
    (clearCodes s).rdata = s.rdata := rfl
@[simp] theorem clearCodes_outSeen (s : State) :
    (clearCodes s).outSeen = s.outSeen := rfl
@[simp] theorem clearCodes_draws (s : State) :
    (clearCodes s).draws = s.draws := rfl

/-! Command start (R220). -/

@[simp] theorem startCommand_phase (op : BitVec 4) (body : List Line) (s : State) :
    (startCommand op body s).phase = .running op body := rfl
@[simp] theorem startCommand_freq (op : BitVec 4) (body : List Line) (s : State) :
    (startCommand op body s).freq = s.freq := rfl
@[simp] theorem startCommand_codelen (op : BitVec 4) (body : List Line) (s : State) :
    (startCommand op body s).codelen = s.codelen := rfl
@[simp] theorem startCommand_codebits (op : BitVec 4) (body : List Line) (s : State) :
    (startCommand op body s).codebits = s.codebits := rfl
@[simp] theorem startCommand_nodeCount (op : BitVec 4) (body : List Line) (s : State) :
    (startCommand op body s).nodeCount = s.nodeCount := rfl
@[simp] theorem startCommand_node (op : BitVec 4) (body : List Line) (s : State) :
    (startCommand op body s).node = s.node := rfl
@[simp] theorem startCommand_root (op : BitVec 4) (body : List Line) (s : State) :
    (startCommand op body s).root = s.root := rfl
@[simp] theorem startCommand_pq (op : BitVec 4) (body : List Line) (s : State) :
    (startCommand op body s).pq = s.pq := rfl
@[simp] theorem startCommand_seqCtr (op : BitVec 4) (body : List Line) (s : State) :
    (startCommand op body s).seqCtr = s.seqCtr := rfl
@[simp] theorem startCommand_cursor (op : BitVec 4) (body : List Line) (s : State) :
    (startCommand op body s).cursor = s.cursor := rfl
@[simp] theorem startCommand_input (op : BitVec 4) (body : List Line) (s : State) :
    (startCommand op body s).input = s.input := rfl
@[simp] theorem startCommand_inPos (op : BitVec 4) (body : List Line) (s : State) :
    (startCommand op body s).inPos = s.inPos := rfl
@[simp] theorem startCommand_output (op : BitVec 4) (body : List Line) (s : State) :
    (startCommand op body s).output = s.output := rfl
@[simp] theorem startCommand_outAcc (op : BitVec 4) (body : List Line) (s : State) :
    (startCommand op body s).outAcc = s.outAcc := rfl
@[simp] theorem startCommand_outNbits (op : BitVec 4) (body : List Line) (s : State) :
    (startCommand op body s).outNbits = s.outNbits := rfl
@[simp] theorem startCommand_treeValid (op : BitVec 4) (body : List Line) (s : State) :
    (startCommand op body s).treeValid = s.treeValid := rfl
@[simp] theorem startCommand_codesValid (op : BitVec 4) (body : List Line) (s : State) :
    (startCommand op body s).codesValid = s.codesValid := rfl
@[simp] theorem startCommand_done (op : BitVec 4) (body : List Line) (s : State) :
    (startCommand op body s).done = false := rfl
@[simp] theorem startCommand_err (op : BitVec 4) (body : List Line) (s : State) :
    (startCommand op body s).err = false := rfl
@[simp] theorem startCommand_errcode (op : BitVec 4) (body : List Line) (s : State) :
    (startCommand op body s).errcode = 0 := rfl
@[simp] theorem startCommand_decCount (op : BitVec 4) (body : List Line) (s : State) :
    (startCommand op body s).decCount = s.decCount := rfl
@[simp] theorem startCommand_tag (op : BitVec 4) (body : List Line) (s : State) :
    (startCommand op body s).tag = s.tag := rfl
@[simp] theorem startCommand_irqEn (op : BitVec 4) (body : List Line) (s : State) :
    (startCommand op body s).irqEn = s.irqEn := rfl
@[simp] theorem startCommand_host (op : BitVec 4) (body : List Line) (s : State) :
    (startCommand op body s).host = s.host := rfl
@[simp] theorem startCommand_rdata (op : BitVec 4) (body : List Line) (s : State) :
    (startCommand op body s).rdata = s.rdata := rfl
@[simp] theorem startCommand_outSeen (op : BitVec 4) (body : List Line) (s : State) :
    (startCommand op body s).outSeen = s.outSeen := rfl
@[simp] theorem startCommand_draws (op : BitVec 4) (body : List Line) (s : State) :
    (startCommand op body s).draws = s.draws := rfl

/-! Command end (R221). -/

@[simp] theorem endCommand_phase (s : State) :
    (endCommand s).phase = .idle := rfl
@[simp] theorem endCommand_freq (s : State) :
    (endCommand s).freq = s.freq := rfl
@[simp] theorem endCommand_codelen (s : State) :
    (endCommand s).codelen = s.codelen := rfl
@[simp] theorem endCommand_codebits (s : State) :
    (endCommand s).codebits = s.codebits := rfl
@[simp] theorem endCommand_nodeCount (s : State) :
    (endCommand s).nodeCount = s.nodeCount := rfl
@[simp] theorem endCommand_node (s : State) :
    (endCommand s).node = s.node := rfl
@[simp] theorem endCommand_root (s : State) :
    (endCommand s).root = s.root := rfl
@[simp] theorem endCommand_pq (s : State) :
    (endCommand s).pq = s.pq := rfl
@[simp] theorem endCommand_seqCtr (s : State) :
    (endCommand s).seqCtr = s.seqCtr := rfl
@[simp] theorem endCommand_cursor (s : State) :
    (endCommand s).cursor = s.cursor := rfl
@[simp] theorem endCommand_input (s : State) :
    (endCommand s).input = s.input := rfl
@[simp] theorem endCommand_inPos (s : State) :
    (endCommand s).inPos = s.inPos := rfl
@[simp] theorem endCommand_output (s : State) :
    (endCommand s).output = s.output := rfl
@[simp] theorem endCommand_outAcc (s : State) :
    (endCommand s).outAcc = s.outAcc := rfl
@[simp] theorem endCommand_outNbits (s : State) :
    (endCommand s).outNbits = s.outNbits := rfl
@[simp] theorem endCommand_treeValid (s : State) :
    (endCommand s).treeValid = s.treeValid := rfl
@[simp] theorem endCommand_codesValid (s : State) :
    (endCommand s).codesValid = s.codesValid := rfl
@[simp] theorem endCommand_done (s : State) :
    (endCommand s).done = true := rfl
@[simp] theorem endCommand_err (s : State) :
    (endCommand s).err = s.err := rfl
@[simp] theorem endCommand_errcode (s : State) :
    (endCommand s).errcode = s.errcode := rfl
@[simp] theorem endCommand_decCount (s : State) :
    (endCommand s).decCount = s.decCount := rfl
@[simp] theorem endCommand_tag (s : State) :
    (endCommand s).tag = s.tag := rfl
@[simp] theorem endCommand_irqEn (s : State) :
    (endCommand s).irqEn = s.irqEn := rfl
@[simp] theorem endCommand_host (s : State) :
    (endCommand s).host = s.host := rfl
@[simp] theorem endCommand_rdata (s : State) :
    (endCommand s).rdata = s.rdata := rfl
@[simp] theorem endCommand_outSeen (s : State) :
    (endCommand s).outSeen = s.outSeen := rfl
@[simp] theorem endCommand_draws (s : State) :
    (endCommand s).draws = s.draws := rfl

/-! An error taken (R221, R240). -/

@[simp] theorem raiseError_phase (e : ErrorCode) (s : State) :
    (raiseError e s).phase = .idle := rfl
@[simp] theorem raiseError_freq (e : ErrorCode) (s : State) :
    (raiseError e s).freq = s.freq := rfl
@[simp] theorem raiseError_codelen (e : ErrorCode) (s : State) :
    (raiseError e s).codelen = s.codelen := rfl
@[simp] theorem raiseError_codebits (e : ErrorCode) (s : State) :
    (raiseError e s).codebits = s.codebits := rfl
@[simp] theorem raiseError_nodeCount (e : ErrorCode) (s : State) :
    (raiseError e s).nodeCount = s.nodeCount := rfl
@[simp] theorem raiseError_node (e : ErrorCode) (s : State) :
    (raiseError e s).node = s.node := rfl
@[simp] theorem raiseError_root (e : ErrorCode) (s : State) :
    (raiseError e s).root = s.root := rfl
@[simp] theorem raiseError_pq (e : ErrorCode) (s : State) :
    (raiseError e s).pq = s.pq := rfl
@[simp] theorem raiseError_seqCtr (e : ErrorCode) (s : State) :
    (raiseError e s).seqCtr = s.seqCtr := rfl
@[simp] theorem raiseError_cursor (e : ErrorCode) (s : State) :
    (raiseError e s).cursor = s.cursor := rfl
@[simp] theorem raiseError_input (e : ErrorCode) (s : State) :
    (raiseError e s).input = s.input := rfl
@[simp] theorem raiseError_inPos (e : ErrorCode) (s : State) :
    (raiseError e s).inPos = s.inPos := rfl
@[simp] theorem raiseError_output (e : ErrorCode) (s : State) :
    (raiseError e s).output = s.output := rfl
@[simp] theorem raiseError_outAcc (e : ErrorCode) (s : State) :
    (raiseError e s).outAcc = s.outAcc := rfl
@[simp] theorem raiseError_outNbits (e : ErrorCode) (s : State) :
    (raiseError e s).outNbits = s.outNbits := rfl
@[simp] theorem raiseError_treeValid (e : ErrorCode) (s : State) :
    (raiseError e s).treeValid = s.treeValid := rfl
@[simp] theorem raiseError_codesValid (e : ErrorCode) (s : State) :
    (raiseError e s).codesValid = s.codesValid := rfl
@[simp] theorem raiseError_done (e : ErrorCode) (s : State) :
    (raiseError e s).done = s.done := rfl
@[simp] theorem raiseError_err (e : ErrorCode) (s : State) :
    (raiseError e s).err = true := rfl
@[simp] theorem raiseError_errcode (e : ErrorCode) (s : State) :
    (raiseError e s).errcode = e.code := rfl
@[simp] theorem raiseError_decCount (e : ErrorCode) (s : State) :
    (raiseError e s).decCount = s.decCount := rfl
@[simp] theorem raiseError_tag (e : ErrorCode) (s : State) :
    (raiseError e s).tag = s.tag := rfl
@[simp] theorem raiseError_irqEn (e : ErrorCode) (s : State) :
    (raiseError e s).irqEn = s.irqEn := rfl
@[simp] theorem raiseError_host (e : ErrorCode) (s : State) :
    (raiseError e s).host = s.host := rfl
@[simp] theorem raiseError_rdata (e : ErrorCode) (s : State) :
    (raiseError e s).rdata = s.rdata := rfl
@[simp] theorem raiseError_outSeen (e : ErrorCode) (s : State) :
    (raiseError e s).outSeen = s.outSeen := rfl
@[simp] theorem raiseError_draws (e : ErrorCode) (s : State) :
    (raiseError e s).draws = s.draws := rfl

/-! The acknowledge (R223). -/

@[simp] theorem acknowledge_phase (s : State) :
    (acknowledge s).phase = s.phase := rfl
@[simp] theorem acknowledge_freq (s : State) :
    (acknowledge s).freq = s.freq := rfl
@[simp] theorem acknowledge_codelen (s : State) :
    (acknowledge s).codelen = s.codelen := rfl
@[simp] theorem acknowledge_codebits (s : State) :
    (acknowledge s).codebits = s.codebits := rfl
@[simp] theorem acknowledge_nodeCount (s : State) :
    (acknowledge s).nodeCount = s.nodeCount := rfl
@[simp] theorem acknowledge_node (s : State) :
    (acknowledge s).node = s.node := rfl
@[simp] theorem acknowledge_root (s : State) :
    (acknowledge s).root = s.root := rfl
@[simp] theorem acknowledge_pq (s : State) :
    (acknowledge s).pq = s.pq := rfl
@[simp] theorem acknowledge_seqCtr (s : State) :
    (acknowledge s).seqCtr = s.seqCtr := rfl
@[simp] theorem acknowledge_cursor (s : State) :
    (acknowledge s).cursor = s.cursor := rfl
@[simp] theorem acknowledge_input (s : State) :
    (acknowledge s).input = s.input := rfl
@[simp] theorem acknowledge_inPos (s : State) :
    (acknowledge s).inPos = s.inPos := rfl
@[simp] theorem acknowledge_output (s : State) :
    (acknowledge s).output = s.output := rfl
@[simp] theorem acknowledge_outAcc (s : State) :
    (acknowledge s).outAcc = s.outAcc := rfl
@[simp] theorem acknowledge_outNbits (s : State) :
    (acknowledge s).outNbits = s.outNbits := rfl
@[simp] theorem acknowledge_treeValid (s : State) :
    (acknowledge s).treeValid = s.treeValid := rfl
@[simp] theorem acknowledge_codesValid (s : State) :
    (acknowledge s).codesValid = s.codesValid := rfl
@[simp] theorem acknowledge_done (s : State) :
    (acknowledge s).done = false := rfl
@[simp] theorem acknowledge_err (s : State) :
    (acknowledge s).err = false := rfl
@[simp] theorem acknowledge_errcode (s : State) :
    (acknowledge s).errcode = 0 := rfl
@[simp] theorem acknowledge_decCount (s : State) :
    (acknowledge s).decCount = s.decCount := rfl
@[simp] theorem acknowledge_tag (s : State) :
    (acknowledge s).tag = s.tag := rfl
@[simp] theorem acknowledge_irqEn (s : State) :
    (acknowledge s).irqEn = s.irqEn := rfl
@[simp] theorem acknowledge_host (s : State) :
    (acknowledge s).host = s.host := rfl
@[simp] theorem acknowledge_rdata (s : State) :
    (acknowledge s).rdata = s.rdata := rfl
@[simp] theorem acknowledge_outSeen (s : State) :
    (acknowledge s).outSeen = s.outSeen := rfl
@[simp] theorem acknowledge_draws (s : State) :
    (acknowledge s).draws = s.draws := rfl

/-! The record of a command that ended (R221). -/

@[simp] theorem succeeded_phase (s : State) :
    s.succeeded.phase = s.phase := rfl
@[simp] theorem succeeded_freq (s : State) :
    s.succeeded.freq = s.freq := rfl
@[simp] theorem succeeded_codelen (s : State) :
    s.succeeded.codelen = s.codelen := rfl
@[simp] theorem succeeded_codebits (s : State) :
    s.succeeded.codebits = s.codebits := rfl
@[simp] theorem succeeded_nodeCount (s : State) :
    s.succeeded.nodeCount = s.nodeCount := rfl
@[simp] theorem succeeded_node (s : State) :
    s.succeeded.node = s.node := rfl
@[simp] theorem succeeded_root (s : State) :
    s.succeeded.root = s.root := rfl
@[simp] theorem succeeded_pq (s : State) :
    s.succeeded.pq = s.pq := rfl
@[simp] theorem succeeded_seqCtr (s : State) :
    s.succeeded.seqCtr = s.seqCtr := rfl
@[simp] theorem succeeded_cursor (s : State) :
    s.succeeded.cursor = s.cursor := rfl
@[simp] theorem succeeded_input (s : State) :
    s.succeeded.input = s.input := rfl
@[simp] theorem succeeded_inPos (s : State) :
    s.succeeded.inPos = s.inPos := rfl
@[simp] theorem succeeded_output (s : State) :
    s.succeeded.output = s.output := rfl
@[simp] theorem succeeded_outAcc (s : State) :
    s.succeeded.outAcc = s.outAcc := rfl
@[simp] theorem succeeded_outNbits (s : State) :
    s.succeeded.outNbits = s.outNbits := rfl
@[simp] theorem succeeded_treeValid (s : State) :
    s.succeeded.treeValid = s.treeValid := rfl
@[simp] theorem succeeded_codesValid (s : State) :
    s.succeeded.codesValid = s.codesValid := rfl
@[simp] theorem succeeded_done (s : State) :
    s.succeeded.done = true := rfl
@[simp] theorem succeeded_err (s : State) :
    s.succeeded.err = false := rfl
@[simp] theorem succeeded_errcode (s : State) :
    s.succeeded.errcode = 0 := rfl
@[simp] theorem succeeded_decCount (s : State) :
    s.succeeded.decCount = s.decCount := rfl
@[simp] theorem succeeded_tag (s : State) :
    s.succeeded.tag = s.tag := rfl
@[simp] theorem succeeded_irqEn (s : State) :
    s.succeeded.irqEn = s.irqEn := rfl
@[simp] theorem succeeded_host (s : State) :
    s.succeeded.host = s.host := rfl
@[simp] theorem succeeded_rdata (s : State) :
    s.succeeded.rdata = s.rdata := rfl
@[simp] theorem succeeded_outSeen (s : State) :
    s.succeeded.outSeen = s.outSeen := rfl
@[simp] theorem succeeded_draws (s : State) :
    s.succeeded.draws = s.draws := rfl

/-! The record of a command that raised an error (R221). -/

@[simp] theorem failed_phase (e : ErrorCode) (s : State) :
    (s.failed e).phase = s.phase := rfl
@[simp] theorem failed_freq (e : ErrorCode) (s : State) :
    (s.failed e).freq = s.freq := rfl
@[simp] theorem failed_codelen (e : ErrorCode) (s : State) :
    (s.failed e).codelen = s.codelen := rfl
@[simp] theorem failed_codebits (e : ErrorCode) (s : State) :
    (s.failed e).codebits = s.codebits := rfl
@[simp] theorem failed_nodeCount (e : ErrorCode) (s : State) :
    (s.failed e).nodeCount = s.nodeCount := rfl
@[simp] theorem failed_node (e : ErrorCode) (s : State) :
    (s.failed e).node = s.node := rfl
@[simp] theorem failed_root (e : ErrorCode) (s : State) :
    (s.failed e).root = s.root := rfl
@[simp] theorem failed_pq (e : ErrorCode) (s : State) :
    (s.failed e).pq = s.pq := rfl
@[simp] theorem failed_seqCtr (e : ErrorCode) (s : State) :
    (s.failed e).seqCtr = s.seqCtr := rfl
@[simp] theorem failed_cursor (e : ErrorCode) (s : State) :
    (s.failed e).cursor = s.cursor := rfl
@[simp] theorem failed_input (e : ErrorCode) (s : State) :
    (s.failed e).input = s.input := rfl
@[simp] theorem failed_inPos (e : ErrorCode) (s : State) :
    (s.failed e).inPos = s.inPos := rfl
@[simp] theorem failed_output (e : ErrorCode) (s : State) :
    (s.failed e).output = s.output := rfl
@[simp] theorem failed_outAcc (e : ErrorCode) (s : State) :
    (s.failed e).outAcc = s.outAcc := rfl
@[simp] theorem failed_outNbits (e : ErrorCode) (s : State) :
    (s.failed e).outNbits = s.outNbits := rfl
@[simp] theorem failed_treeValid (e : ErrorCode) (s : State) :
    (s.failed e).treeValid = s.treeValid := rfl
@[simp] theorem failed_codesValid (e : ErrorCode) (s : State) :
    (s.failed e).codesValid = s.codesValid := rfl
@[simp] theorem failed_done (e : ErrorCode) (s : State) :
    (s.failed e).done = false := rfl
@[simp] theorem failed_err (e : ErrorCode) (s : State) :
    (s.failed e).err = true := rfl
@[simp] theorem failed_errcode (e : ErrorCode) (s : State) :
    (s.failed e).errcode = e.code := rfl
@[simp] theorem failed_decCount (e : ErrorCode) (s : State) :
    (s.failed e).decCount = s.decCount := rfl
@[simp] theorem failed_tag (e : ErrorCode) (s : State) :
    (s.failed e).tag = s.tag := rfl
@[simp] theorem failed_irqEn (e : ErrorCode) (s : State) :
    (s.failed e).irqEn = s.irqEn := rfl
@[simp] theorem failed_host (e : ErrorCode) (s : State) :
    (s.failed e).host = s.host := rfl
@[simp] theorem failed_rdata (e : ErrorCode) (s : State) :
    (s.failed e).rdata = s.rdata := rfl
@[simp] theorem failed_outSeen (e : ErrorCode) (s : State) :
    (s.failed e).outSeen = s.outSeen := rfl
@[simp] theorem failed_draws (e : ErrorCode) (s : State) :
    (s.failed e).draws = s.draws := rfl

/-! BUILD (R156). -/

@[simp] theorem built_phase (s : State) :
    s.built.phase = s.phase := rfl
@[simp] theorem built_freq (s : State) :
    s.built.freq = s.freq := rfl
@[simp] theorem built_codelen (s : State) :
    s.built.codelen = s.codelen := rfl
@[simp] theorem built_codebits (s : State) :
    s.built.codebits = s.codebits := rfl
@[simp] theorem built_nodeCount (s : State) :
    s.built.nodeCount = BitVec.ofNat 10 (2 * (leafSymbols s.freq).length - 1) := rfl
@[simp] theorem built_node (s : State) :
    s.built.node = arenaOf (builtNodes s.freq) := rfl
@[simp] theorem built_root (s : State) :
    s.built.root = BitVec.ofNat 10 (2 * (leafSymbols s.freq).length - 2) := rfl
@[simp] theorem built_pq (s : State) :
    s.built.pq = [] := rfl
@[simp] theorem built_seqCtr (s : State) :
    s.built.seqCtr = BitVec.ofNat 10 (2 * (leafSymbols s.freq).length - 1) := rfl
@[simp] theorem built_cursor (s : State) :
    s.built.cursor = s.cursor := rfl
@[simp] theorem built_input (s : State) :
    s.built.input = s.input := rfl
@[simp] theorem built_inPos (s : State) :
    s.built.inPos = s.inPos := rfl
@[simp] theorem built_output (s : State) :
    s.built.output = s.output := rfl
@[simp] theorem built_outAcc (s : State) :
    s.built.outAcc = s.outAcc := rfl
@[simp] theorem built_outNbits (s : State) :
    s.built.outNbits = s.outNbits := rfl
@[simp] theorem built_treeValid (s : State) :
    s.built.treeValid = true := rfl
@[simp] theorem built_codesValid (s : State) :
    s.built.codesValid = false := rfl
@[simp] theorem built_done (s : State) :
    s.built.done = s.done := rfl
@[simp] theorem built_err (s : State) :
    s.built.err = s.err := rfl
@[simp] theorem built_errcode (s : State) :
    s.built.errcode = s.errcode := rfl
@[simp] theorem built_decCount (s : State) :
    s.built.decCount = s.decCount := rfl
@[simp] theorem built_tag (s : State) :
    s.built.tag = s.tag := rfl
@[simp] theorem built_irqEn (s : State) :
    s.built.irqEn = s.irqEn := rfl
@[simp] theorem built_host (s : State) :
    s.built.host = s.host := rfl
@[simp] theorem built_rdata (s : State) :
    s.built.rdata = s.rdata := rfl
@[simp] theorem built_outSeen (s : State) :
    s.built.outSeen = s.outSeen := rfl
@[simp] theorem built_draws (s : State) :
    s.built.draws = s.draws := rfl

/-! GEN (R170). -/

@[simp] theorem withCodes_phase (s : State) (t : Tree) :
    (s.withCodes t).phase = s.phase := rfl
@[simp] theorem withCodes_freq (s : State) (t : Tree) :
    (s.withCodes t).freq = s.freq := rfl
@[simp] theorem withCodes_codelen (s : State) (t : Tree) :
    (s.withCodes t).codelen = codeLengths t.codes := rfl
@[simp] theorem withCodes_codebits (s : State) (t : Tree) :
    (s.withCodes t).codebits = codePatterns t.codes := rfl
@[simp] theorem withCodes_nodeCount (s : State) (t : Tree) :
    (s.withCodes t).nodeCount = s.nodeCount := rfl
@[simp] theorem withCodes_node (s : State) (t : Tree) :
    (s.withCodes t).node = s.node := rfl
@[simp] theorem withCodes_root (s : State) (t : Tree) :
    (s.withCodes t).root = s.root := rfl
@[simp] theorem withCodes_pq (s : State) (t : Tree) :
    (s.withCodes t).pq = s.pq := rfl
@[simp] theorem withCodes_seqCtr (s : State) (t : Tree) :
    (s.withCodes t).seqCtr = s.seqCtr := rfl
@[simp] theorem withCodes_cursor (s : State) (t : Tree) :
    (s.withCodes t).cursor = s.cursor := rfl
@[simp] theorem withCodes_input (s : State) (t : Tree) :
    (s.withCodes t).input = s.input := rfl
@[simp] theorem withCodes_inPos (s : State) (t : Tree) :
    (s.withCodes t).inPos = s.inPos := rfl
@[simp] theorem withCodes_output (s : State) (t : Tree) :
    (s.withCodes t).output = s.output := rfl
@[simp] theorem withCodes_outAcc (s : State) (t : Tree) :
    (s.withCodes t).outAcc = s.outAcc := rfl
@[simp] theorem withCodes_outNbits (s : State) (t : Tree) :
    (s.withCodes t).outNbits = s.outNbits := rfl
@[simp] theorem withCodes_treeValid (s : State) (t : Tree) :
    (s.withCodes t).treeValid = s.treeValid := rfl
@[simp] theorem withCodes_codesValid (s : State) (t : Tree) :
    (s.withCodes t).codesValid = true := rfl
@[simp] theorem withCodes_done (s : State) (t : Tree) :
    (s.withCodes t).done = s.done := rfl
@[simp] theorem withCodes_err (s : State) (t : Tree) :
    (s.withCodes t).err = s.err := rfl
@[simp] theorem withCodes_errcode (s : State) (t : Tree) :
    (s.withCodes t).errcode = s.errcode := rfl
@[simp] theorem withCodes_decCount (s : State) (t : Tree) :
    (s.withCodes t).decCount = s.decCount := rfl
@[simp] theorem withCodes_tag (s : State) (t : Tree) :
    (s.withCodes t).tag = s.tag := rfl
@[simp] theorem withCodes_irqEn (s : State) (t : Tree) :
    (s.withCodes t).irqEn = s.irqEn := rfl
@[simp] theorem withCodes_host (s : State) (t : Tree) :
    (s.withCodes t).host = s.host := rfl
@[simp] theorem withCodes_rdata (s : State) (t : Tree) :
    (s.withCodes t).rdata = s.rdata := rfl
@[simp] theorem withCodes_outSeen (s : State) (t : Tree) :
    (s.withCodes t).outSeen = s.outSeen := rfl
@[simp] theorem withCodes_draws (s : State) (t : Tree) :
    (s.withCodes t).draws = s.draws := rfl

/-! RHDR (R184). -/

@[simp] theorem withTree_phase (s : State) (t : Tree) (n : Nat) :
    (s.withTree t n).phase = s.phase := rfl
@[simp] theorem withTree_freq (s : State) (t : Tree) (n : Nat) :
    (s.withTree t n).freq = s.freq := rfl
@[simp] theorem withTree_codelen (s : State) (t : Tree) (n : Nat) :
    (s.withTree t n).codelen = s.codelen := rfl
@[simp] theorem withTree_codebits (s : State) (t : Tree) (n : Nat) :
    (s.withTree t n).codebits = s.codebits := rfl
@[simp] theorem withTree_nodeCount (s : State) (t : Tree) (n : Nat) :
    (s.withTree t n).nodeCount = BitVec.ofNat 10 t.size := rfl
@[simp] theorem withTree_node (s : State) (t : Tree) (n : Nat) :
    (s.withTree t n).node = headerArena t := rfl
@[simp] theorem withTree_root (s : State) (t : Tree) (n : Nat) :
    (s.withTree t n).root = 0 := rfl
@[simp] theorem withTree_pq (s : State) (t : Tree) (n : Nat) :
    (s.withTree t n).pq = s.pq := rfl
@[simp] theorem withTree_seqCtr (s : State) (t : Tree) (n : Nat) :
    (s.withTree t n).seqCtr = s.seqCtr := rfl
@[simp] theorem withTree_cursor (s : State) (t : Tree) (n : Nat) :
    (s.withTree t n).cursor = s.cursor := rfl
@[simp] theorem withTree_input (s : State) (t : Tree) (n : Nat) :
    (s.withTree t n).input = s.input := rfl
@[simp] theorem withTree_inPos (s : State) (t : Tree) (n : Nat) :
    (s.withTree t n).inPos = s.inPos + n := rfl
@[simp] theorem withTree_output (s : State) (t : Tree) (n : Nat) :
    (s.withTree t n).output = s.output := rfl
@[simp] theorem withTree_outAcc (s : State) (t : Tree) (n : Nat) :
    (s.withTree t n).outAcc = s.outAcc := rfl
@[simp] theorem withTree_outNbits (s : State) (t : Tree) (n : Nat) :
    (s.withTree t n).outNbits = s.outNbits := rfl
@[simp] theorem withTree_treeValid (s : State) (t : Tree) (n : Nat) :
    (s.withTree t n).treeValid = true := rfl
@[simp] theorem withTree_codesValid (s : State) (t : Tree) (n : Nat) :
    (s.withTree t n).codesValid = false := rfl
@[simp] theorem withTree_done (s : State) (t : Tree) (n : Nat) :
    (s.withTree t n).done = s.done := rfl
@[simp] theorem withTree_err (s : State) (t : Tree) (n : Nat) :
    (s.withTree t n).err = s.err := rfl
@[simp] theorem withTree_errcode (s : State) (t : Tree) (n : Nat) :
    (s.withTree t n).errcode = s.errcode := rfl
@[simp] theorem withTree_decCount (s : State) (t : Tree) (n : Nat) :
    (s.withTree t n).decCount = s.decCount := rfl
@[simp] theorem withTree_tag (s : State) (t : Tree) (n : Nat) :
    (s.withTree t n).tag = s.tag := rfl
@[simp] theorem withTree_irqEn (s : State) (t : Tree) (n : Nat) :
    (s.withTree t n).irqEn = s.irqEn := rfl
@[simp] theorem withTree_host (s : State) (t : Tree) (n : Nat) :
    (s.withTree t n).host = s.host := rfl
@[simp] theorem withTree_rdata (s : State) (t : Tree) (n : Nat) :
    (s.withTree t n).rdata = s.rdata := rfl
@[simp] theorem withTree_outSeen (s : State) (t : Tree) (n : Nat) :
    (s.withTree t n).outSeen = s.outSeen := rfl
@[simp] theorem withTree_draws (s : State) (t : Tree) (n : Nat) :
    (s.withTree t n).draws = s.draws := rfl

/-! Going on to the next line (R221). -/

@[simp] theorem resume_phase (op : BitVec 4) (todo : List Line) (s : State) :
    (resume op todo s).phase = .running op todo := rfl
@[simp] theorem resume_freq (op : BitVec 4) (todo : List Line) (s : State) :
    (resume op todo s).freq = s.freq := rfl
@[simp] theorem resume_codelen (op : BitVec 4) (todo : List Line) (s : State) :
    (resume op todo s).codelen = s.codelen := rfl
@[simp] theorem resume_codebits (op : BitVec 4) (todo : List Line) (s : State) :
    (resume op todo s).codebits = s.codebits := rfl
@[simp] theorem resume_nodeCount (op : BitVec 4) (todo : List Line) (s : State) :
    (resume op todo s).nodeCount = s.nodeCount := rfl
@[simp] theorem resume_node (op : BitVec 4) (todo : List Line) (s : State) :
    (resume op todo s).node = s.node := rfl
@[simp] theorem resume_root (op : BitVec 4) (todo : List Line) (s : State) :
    (resume op todo s).root = s.root := rfl
@[simp] theorem resume_pq (op : BitVec 4) (todo : List Line) (s : State) :
    (resume op todo s).pq = s.pq := rfl
@[simp] theorem resume_seqCtr (op : BitVec 4) (todo : List Line) (s : State) :
    (resume op todo s).seqCtr = s.seqCtr := rfl
@[simp] theorem resume_cursor (op : BitVec 4) (todo : List Line) (s : State) :
    (resume op todo s).cursor = s.cursor := rfl
@[simp] theorem resume_input (op : BitVec 4) (todo : List Line) (s : State) :
    (resume op todo s).input = s.input := rfl
@[simp] theorem resume_inPos (op : BitVec 4) (todo : List Line) (s : State) :
    (resume op todo s).inPos = s.inPos := rfl
@[simp] theorem resume_output (op : BitVec 4) (todo : List Line) (s : State) :
    (resume op todo s).output = s.output := rfl
@[simp] theorem resume_outAcc (op : BitVec 4) (todo : List Line) (s : State) :
    (resume op todo s).outAcc = s.outAcc := rfl
@[simp] theorem resume_outNbits (op : BitVec 4) (todo : List Line) (s : State) :
    (resume op todo s).outNbits = s.outNbits := rfl
@[simp] theorem resume_treeValid (op : BitVec 4) (todo : List Line) (s : State) :
    (resume op todo s).treeValid = s.treeValid := rfl
@[simp] theorem resume_codesValid (op : BitVec 4) (todo : List Line) (s : State) :
    (resume op todo s).codesValid = s.codesValid := rfl
@[simp] theorem resume_done (op : BitVec 4) (todo : List Line) (s : State) :
    (resume op todo s).done = s.done := rfl
@[simp] theorem resume_err (op : BitVec 4) (todo : List Line) (s : State) :
    (resume op todo s).err = s.err := rfl
@[simp] theorem resume_errcode (op : BitVec 4) (todo : List Line) (s : State) :
    (resume op todo s).errcode = s.errcode := rfl
@[simp] theorem resume_decCount (op : BitVec 4) (todo : List Line) (s : State) :
    (resume op todo s).decCount = s.decCount := rfl
@[simp] theorem resume_tag (op : BitVec 4) (todo : List Line) (s : State) :
    (resume op todo s).tag = s.tag := rfl
@[simp] theorem resume_irqEn (op : BitVec 4) (todo : List Line) (s : State) :
    (resume op todo s).irqEn = s.irqEn := rfl
@[simp] theorem resume_host (op : BitVec 4) (todo : List Line) (s : State) :
    (resume op todo s).host = s.host := rfl
@[simp] theorem resume_rdata (op : BitVec 4) (todo : List Line) (s : State) :
    (resume op todo s).rdata = s.rdata := rfl
@[simp] theorem resume_outSeen (op : BitVec 4) (todo : List Line) (s : State) :
    (resume op todo s).outSeen = s.outSeen := rfl
@[simp] theorem resume_draws (op : BitVec 4) (todo : List Line) (s : State) :
    (resume op todo s).draws = s.draws := rfl

end Sys2Proof.Machine
end

