-- ==== Sys2Proof/Laws/Bitstream.lean ====
section
/-! SUPPORT. Laws of the bitstream units: what the write primitives add to the bits written, what they leave alone, and
what `readBits` delivers. -/

namespace Sys2Proof.Machine

/-! ### Writing -/

/-- `putBit` adds one bit (R124, R129). -/
theorem putBit_outBits (b : Bool) (s : State) : (putBit b s).outBits = s.outBits ++ [b] := by
  have hn := s.outNbits.isLt
  have key : ∀ n, n + 1 ≤ 8 →
      msbBits (n + 1) ((2 * s.outAcc.toNat + b.toNat) % 256) = msbBits n s.outAcc.toNat ++ [b] := by
    intro n hn
    rw [show 256 = 2 ^ 8 by rfl, msbBits_mod hn, msbBits_push]
  unfold putBit
  split
  · rename_i h
    have := key s.outNbits.toNat (by omega)
    rw [h] at this
    simp [State.outBits, byteBits_append, byteBits_cons, this]
  · rename_i h
    have h3 : (s.outNbits.toNat + 1) % 8 = s.outNbits.toNat + 1 := by omega
    have := key s.outNbits.toNat (by omega)
    simp [State.outBits, h3, this]

/-- `putBit` changes only the output (R124). -/
theorem putBit_frame (b : Bool) (s : State) : putBit b s = s.withOutput (putBit b s) := by
  unfold putBit; split <;> rfl

theorem putBits_cons (b : Bool) (bits : List Bool) (s : State) : putBits (b :: bits) s = putBits bits (putBit b s) := rfl

theorem putBits_append (xs ys : List Bool) (s : State) : putBits (xs ++ ys) s = putBits ys (putBits xs s) := by
  simp [putBits, List.foldl_append]

/-- Writing bits adds exactly them, in order (R125, R126). -/
theorem putBits_outBits (bits : List Bool) (s : State) : (putBits bits s).outBits = s.outBits ++ bits := by
  induction bits generalizing s with
  | nil => simp [putBits]
  | cons b bits ih => rw [putBits_cons, ih, putBit_outBits]; simp

theorem putBits_frame (bits : List Bool) (s : State) : putBits bits s = s.withOutput (putBits bits s) := by
  induction bits generalizing s with
  | nil => rfl
  | cons b bits ih => rw [putBits_cons, ih, putBit_frame]; rfl

/-! What writing bits leaves alone. -/

@[simp] theorem putBits_phase (bits : List Bool) (s : State) : (putBits bits s).phase = s.phase := by
  rw [putBits_frame]; rfl
@[simp] theorem putBits_freq (bits : List Bool) (s : State) : (putBits bits s).freq = s.freq := by
  rw [putBits_frame]; rfl
@[simp] theorem putBits_codelen (bits : List Bool) (s : State) : (putBits bits s).codelen = s.codelen := by
  rw [putBits_frame]; rfl
@[simp] theorem putBits_codebits (bits : List Bool) (s : State) : (putBits bits s).codebits = s.codebits := by
  rw [putBits_frame]; rfl
@[simp] theorem putBits_nodeCount (bits : List Bool) (s : State) : (putBits bits s).nodeCount = s.nodeCount := by
  rw [putBits_frame]; rfl
@[simp] theorem putBits_node (bits : List Bool) (s : State) : (putBits bits s).node = s.node := by
  rw [putBits_frame]; rfl
@[simp] theorem putBits_root (bits : List Bool) (s : State) : (putBits bits s).root = s.root := by
  rw [putBits_frame]; rfl
@[simp] theorem putBits_pq (bits : List Bool) (s : State) : (putBits bits s).pq = s.pq := by
  rw [putBits_frame]; rfl
@[simp] theorem putBits_seqCtr (bits : List Bool) (s : State) : (putBits bits s).seqCtr = s.seqCtr := by
  rw [putBits_frame]; rfl
@[simp] theorem putBits_cursor (bits : List Bool) (s : State) : (putBits bits s).cursor = s.cursor := by
  rw [putBits_frame]; rfl
@[simp] theorem putBits_input (bits : List Bool) (s : State) : (putBits bits s).input = s.input := by
  rw [putBits_frame]; rfl
@[simp] theorem putBits_inPos (bits : List Bool) (s : State) : (putBits bits s).inPos = s.inPos := by
  rw [putBits_frame]; rfl
@[simp] theorem putBits_treeValid (bits : List Bool) (s : State) : (putBits bits s).treeValid = s.treeValid := by
  rw [putBits_frame]; rfl
@[simp] theorem putBits_codesValid (bits : List Bool) (s : State) : (putBits bits s).codesValid = s.codesValid := by
  rw [putBits_frame]; rfl
@[simp] theorem putBits_done (bits : List Bool) (s : State) : (putBits bits s).done = s.done := by
  rw [putBits_frame]; rfl
@[simp] theorem putBits_err (bits : List Bool) (s : State) : (putBits bits s).err = s.err := by
  rw [putBits_frame]; rfl
@[simp] theorem putBits_errcode (bits : List Bool) (s : State) : (putBits bits s).errcode = s.errcode := by
  rw [putBits_frame]; rfl
@[simp] theorem putBits_decCount (bits : List Bool) (s : State) : (putBits bits s).decCount = s.decCount := by
  rw [putBits_frame]; rfl
@[simp] theorem putBits_tag (bits : List Bool) (s : State) : (putBits bits s).tag = s.tag := by
  rw [putBits_frame]; rfl
@[simp] theorem putBits_irqEn (bits : List Bool) (s : State) : (putBits bits s).irqEn = s.irqEn := by
  rw [putBits_frame]; rfl
@[simp] theorem putBits_host (bits : List Bool) (s : State) : (putBits bits s).host = s.host := by
  rw [putBits_frame]; rfl
@[simp] theorem putBits_rdata (bits : List Bool) (s : State) : (putBits bits s).rdata = s.rdata := by
  rw [putBits_frame]; rfl
@[simp] theorem putBits_outSeen (bits : List Bool) (s : State) : (putBits bits s).outSeen = s.outSeen := by
  rw [putBits_frame]; rfl
@[simp] theorem putBits_draws (bits : List Bool) (s : State) : (putBits bits s).draws = s.draws := by
  rw [putBits_frame]; rfl

/-- The padding of `close()` (R127). -/
theorem padBits_eq (k : Nat) (s : State) (h : s.outNbits = 0 ∨ 8 - s.outNbits.toNat ≤ k) :
    padBits k s = putBits (List.replicate ((8 - s.outNbits.toNat) % 8) false) s := by
  induction k generalizing s with
  | zero =>
    have := s.outNbits.isLt
    rcases h with h | h
    · simp [padBits, h, putBits]
    · omega
  | succ k ih =>
    by_cases h0 : s.outNbits = 0
    · simp [padBits, h0, putBits]
    · have hlt := s.outNbits.isLt
      have hne : s.outNbits.toNat ≠ 0 := fun e => h0 (BitVec.eq_of_toNat_eq (by simpa using e))
      rw [padBits, if_neg h0]
      by_cases h7 : s.outNbits.toNat + 1 = 8
      · have hz : (putBit false s).outNbits = 0 := by unfold putBit; simp [h7]
        rw [ih _ (.inl hz), hz]
        have : (8 - s.outNbits.toNat) % 8 = 1 := by omega
        rw [this]; rfl
      · have hz : (putBit false s).outNbits.toNat = s.outNbits.toNat + 1 := by
          unfold putBit
          simp only [h7, if_false, BitVec.toNat_ofNat]
          omega
        have hk : 8 - s.outNbits.toNat ≤ k + 1 := h.resolve_left h0
        rw [ih _ (.inr (by rw [hz]; omega)), hz]
        have h8 : (8 - s.outNbits.toNat) % 8 = (8 - (s.outNbits.toNat + 1)) % 8 + 1 := by omega
        rw [h8, List.replicate_succ, putBits_cons]

/-- `close()` adds 0 to 7 zero bits (R71, R127). -/
theorem close_eq (s : State) : close s = putBits (List.replicate ((8 - s.outNbits.toNat) % 8) false) s := by
  refine padBits_eq 7 s ?_
  by_cases h : s.outNbits.toNat = 0
  · exact .inl (BitVec.eq_of_toNat_eq (by simpa using h))
  · exact .inr (by omega)

theorem outBits_length (s : State) : s.outBits.length = 8 * s.output.length + s.outNbits.toNat := by
  simp [State.outBits]

/-- The bits written determine how many are pending (R31). -/
theorem outNbits_eq (s : State) : s.outNbits.toNat = s.outBits.length % 8 := by
  have := s.outNbits.isLt
  rw [outBits_length]; omega

/-- After `close()` every bit written is in `OUT` (R127). -/
theorem close_outNbits (s : State) : (close s).outNbits = 0 := by
  apply BitVec.eq_of_toNat_eq
  rw [outNbits_eq, close_eq, putBits_outBits, List.length_append, List.length_replicate, outBits_length]
  have := s.outNbits.isLt
  simp; omega

theorem outBits_aligned (s : State) (h : s.outNbits = 0) : s.outBits = byteBits s.output := by
  simp [State.outBits, h]

theorem close_frame (s : State) : close s = s.withOutput (close s) := by
  rw [close_eq]; exact putBits_frame _ _

/-- The bits above the pending ones are 0 (R31). -/
def accOk (s : State) : Prop := s.outAcc.toNat < 2 ^ s.outNbits.toNat

theorem putBit_accOk (b : Bool) (s : State) (h : accOk s) : accOk (putBit b s) := by
  have hn := s.outNbits.isLt
  unfold accOk putBit at *
  split
  · simp
  · rename_i h7
    have h3 : (s.outNbits.toNat + 1) % 8 = s.outNbits.toNat + 1 := by omega
    simp only [BitVec.toNat_ofNat, h3, show 2 ^ 3 = 8 by rfl, pow_succ]
    refine lt_of_le_of_lt (Nat.mod_le _ _) ?_
    cases b
    · simp; omega
    · simp; omega

theorem putBits_accOk (bits : List Bool) (s : State) (h : accOk s) : accOk (putBits bits s) := by
  induction bits generalizing s with
  | nil => exact h
  | cons b bits ih => exact ih _ (putBit_accOk b s h)

/-! ### Reading -/

theorem inBits_length (s : State) : s.inBits.length = s.bitsLeft := by simp [State.inBits, State.bitsLeft]

/-- `readBits` when enough bits are left (R121). -/
theorem readBits_some (n : Nat) (s : State) (h : s.inPos + n ≤ 8 * s.input.length) :
    readBits n s = (some (bitsVal (s.inBits.take n)), { s with inPos := s.inPos + n }) := by
  rw [readBits, if_neg (by omega), bitsFrom_eq _ _ _ h]; rfl

/-- `readBits` when too few bits are left (R122). -/
theorem readBits_none (n : Nat) (s : State) (h : 8 * s.input.length < s.inPos + n) :
    readBits n s = (none, { s with inPos := 8 * s.input.length }) := by
  rw [readBits, if_pos h]

/-- Going on by `n` bits drops them from the unread bits. -/
theorem inBits_advance (s : State) (n : Nat) : ({ s with inPos := s.inPos + n } : State).inBits = s.inBits.drop n := by
  simp [State.inBits]

end Sys2Proof.Machine
end

