-- ==== Sys2Proof/Laws/Run.lean ====
section
/-! SUPPORT. Laws of the sequencer: a run of core steps, and how a command's run is put together from its stages. -/

namespace Sys2Proof.Machine

/-- `k` core steps lead from `s` to `t`, a command running at each. -/
def Steps : Nat → State → State → Prop
  | 0, s, t => s = t
  | k + 1, s, t => ∃ s', s.phase ≠ .idle ∧ coreStep s = .next s' ∧ Steps k s' t

theorem Steps.refl (s : State) : Steps 0 s s := rfl

theorem coreStep_line {op : BitVec 4} {l : Line} {rest : List Line} {s : State} (hp : s.phase = .running op (l :: rest)) :
    coreStep s = performLine l op rest s := by simp only [coreStep, hp]

theorem Steps.cons {op : BitVec 4} {l : Line} {rest : List Line} {s s' t : State} {k : Nat}
    (hp : s.phase = .running op (l :: rest)) (hl : performLine l op rest s = .next s') (h : Steps k s' t) :
    Steps (k + 1) s t := ⟨s', by rw [hp]; exact Phase.noConfusion, (coreStep_line hp).trans hl, h⟩

/-- The end of a run, spelled otherwise. -/
theorem Steps.to {k : Nat} {s t u : State} (h : Steps k s t) (e : t = u) : Steps k s u := e ▸ h

theorem Steps.one {op : BitVec 4} {l : Line} {rest : List Line} {s s' : State}
    (hp : s.phase = .running op (l :: rest)) (hl : performLine l op rest s = .next s') : Steps 1 s s' :=
  Steps.cons hp hl (Steps.refl _)

theorem Steps.trans {j k : Nat} {s t u : State} (h₁ : Steps j s t) (h₂ : Steps k t u) : Steps (j + k) s u := by
  induction j generalizing s with
  | zero => cases h₁; simpa using h₂
  | succ j ih =>
    obtain ⟨s', hp, hl, h⟩ := h₁
    rw [Nat.add_right_comm]
    exact ⟨s', hp, hl, ih h⟩

theorem coreRun_idle (n : Nat) (s : State) (h : s.phase = .idle) : coreRun n s = .next s := by
  cases n <;> simp [coreRun, h]

/-- One step of a run, and the rest of it. -/
theorem coreRun_succ {s s' : State} (hp : s.phase ≠ .idle) (hl : coreStep s = .next s') (n : Nat) :
    coreRun (n + 1) s = coreRun n s' := by
  rw [coreRun]
  split
  · contradiction
  · rw [hl]

theorem coreRun_steps {k : Nat} {s t : State} (h : Steps k s t) (n : Nat) : coreRun (k + n) s = coreRun n t := by
  induction k generalizing s with
  | zero => cases h; simp
  | succ k ih =>
    obtain ⟨s', hp, hl, h⟩ := h
    rw [Nat.add_right_comm, coreRun_succ hp hl]
    exact ih h

theorem coreRun_steps_idle {k n : Nat} {s t : State} (h : Steps k s t) (hk : k ≤ n) (ht : t.phase = .idle) :
    coreRun n s = .next t := by
  obtain ⟨m, rfl⟩ := Nat.exists_eq_add_of_le hk
  rw [coreRun_steps h, coreRun_idle _ _ ht]

theorem State.quiet.busy {s : State} (h : s.quiet) : s.busy = false := by simp [State.busy, h.1]

/-- A CTRL write to a quiet machine whose command's steps lead to its end answers that end (R220, R221). -/
theorem runCommand_of_steps {op : BitVec 4} {body : List Line} {s t : State} {k : Nat} (hq : s.quiet)
    (h : Steps k (startCommand op body s) t) (hk : k ≤ stepBound s) (ht : t.phase = .idle) :
    runCommand op body s = .next t := by
  rw [runCommand, hq.busy]
  simp only [Bool.false_eq_true, if_false, hq.2]
  exact coreRun_steps_idle h hk ht

theorem runCommand_busy {op : BitVec 4} {body : List Line} {s : State} (h : s.busy = true) :
    runCommand op body s = .next s := by simp [runCommand, h]

/-- Going on does not depend on the phase left. -/
@[simp] theorem resume_setPhase (op : BitVec 4) (todo : List Line) (s : State) (p : Phase) :
    resume op todo { s with phase := p } = resume op todo s := rfl

@[simp] theorem resume_resume (op : BitVec 4) (ls todo : List Line) (s : State) :
    resume op todo (resume op ls s) = resume op todo s := rfl

theorem resume_cons_phase (op : BitVec 4) (l : Line) (ls : List Line) (s : State) :
    (resume op (l :: ls) s).phase = .running op (l :: ls) := rfl

/-- A command with no line left ends in a step of its own (R221). -/
theorem end_step (op : BitVec 4) (s : State) : Steps 1 (resume op [] s) (endCommand s) := ⟨_, Phase.noConfusion, rfl, rfl⟩

/-- The line `raise E` (R221). -/
theorem raise_step (op : BitVec 4) (rest : List Line) (e : ErrorCode) (s : State) :
    Steps 1 (resume op (.raise e :: rest) s) (raiseError e s) := Steps.one rfl rfl

/-- The first two lines of BUILD and RHDR (R156, R184). -/
theorem clearFlags_steps (op : BitVec 4) (rest : List Line) (s : State) :
    Steps 2 (resume op (.clearTreeValid :: .clearCodesValid :: rest) s)
      (resume op rest { s with treeValid := false, codesValid := false }) := Steps.cons rfl rfl (Steps.one rfl rfl)

theorem startCommand_eq (op : BitVec 4) (l : Line) (ls : List Line) (s : State) :
    startCommand op (l :: ls) s = resume op (l :: ls) { s with done := false, err := false, errcode := 0 } := rfl

end Sys2Proof.Machine
end

