-- ==== Sys2Proof/Laws/Trees.lean ====
section
/-! SUPPORT. Laws of trees: sizes, headers and codes as pure facts, and when an arena goes on holding a tree. -/

namespace Sys2Proof.Machine

/-! ### Sizes -/

theorem Tree.leaves_length_pos (t : Tree) : 0 < t.leaves.length := by
  induction t with
  | leaf x => simp [Tree.leaves]
  | node l r ihl ihr => simp only [Tree.leaves, List.length_append]; omega

/-- A full binary tree with `n` leaves has `2n - 1` nodes (R13, R161). -/
theorem Tree.size_eq (t : Tree) : t.size + 1 = 2 * t.leaves.length := by
  induction t with
  | leaf x => rfl
  | node l r ihl ihr => simp only [Tree.size, Tree.leaves, List.length_append]; omega

theorem Tree.size_pos (t : Tree) : 0 < t.size := by cases t <;> simp [Tree.size]

/-- The symbols of the paths are the leaves. -/
theorem Tree.paths_map_fst (t : Tree) : t.paths.map Prod.fst = t.leaves := by
  induction t with
  | leaf x => rfl
  | node l r ihl ihr =>
    have e : ∀ (b : Bool) (ps : List (Symbol × List Bool)),
        (ps.map fun p => (p.1, b :: p.2)).map Prod.fst = ps.map Prod.fst := fun b ps => by simp
    rw [Tree.paths, List.map_append, e, e, ihl, ihr, Tree.leaves]

/-- A leaf's depth is at most the number of internal nodes (R176). -/
theorem Tree.path_length_le (t : Tree) : ∀ c ∈ t.paths, 2 * c.2.length + 1 ≤ t.size := by
  induction t with
  | leaf x => simp [Tree.paths, Tree.size]
  | node l r ihl ihr =>
    intro c hc
    have hl := l.size_pos
    have hr := r.size_pos
    simp only [Tree.paths, List.mem_append, List.mem_map] at hc
    rcases hc with ⟨d, hd, rfl⟩ | ⟨d, hd, rfl⟩
    · have := ihl d hd; simp [Tree.size]; omega
    · have := ihr d hd; simp [Tree.size]; omega

/-! ### Headers -/

theorem Tree.headerBits_leaf (x : Symbol) : (Tree.leaf x).headerBits = true :: msbBits 9 x.val := by
  have : x.val < 512 := by omega
  simp [Tree.headerBits, Tree.tokens, encode, symbolField, Nat.mod_eq_of_lt this]

theorem Tree.headerBits_node (l r : Tree) :
    (Tree.node l r).headerBits = false :: (l.headerBits ++ r.headerBits) := by
  simp [Tree.headerBits, Tree.tokens, encode]

/-- A header with `n` leaves has `11n - 1` bits (R98). -/
theorem Tree.headerBits_length (t : Tree) : t.headerBits.length + 1 = 11 * t.leaves.length := by
  induction t with
  | leaf x => simp [Tree.headerBits_leaf, Tree.leaves]
  | node l r ihl ihr => simp only [Tree.headerBits_node, Tree.leaves, List.length_cons, List.length_append]; omega

/-- A header tells where it ends (R98). -/
theorem Tree.headerBits_prefix (t : Tree) : ∀ (u : Tree) (a b : List Bool), t.headerBits ++ a = u.headerBits ++ b →
    t = u ∧ a = b := by
  induction t with
  | leaf x =>
    intro u a b h
    cases u with
    | leaf y =>
      rw [headerBits_leaf, headerBits_leaf, List.cons_append, List.cons_append, List.cons.injEq] at h
      obtain ⟨h1, h2⟩ := List.append_inj h.2 (by simp)
      have := msbBits_inj (by have := x.isLt; omega) (by have := y.isLt; omega) h1
      exact ⟨by rw [Fin.ext this], h2⟩
    | node l r =>
      rw [headerBits_leaf, headerBits_node, List.cons_append, List.cons_append, List.cons.injEq] at h
      cases h.1
  | node l r ihl ihr =>
    intro u a b h
    cases u with
    | leaf y =>
      rw [headerBits_leaf, headerBits_node, List.cons_append, List.cons_append, List.cons.injEq] at h
      cases h.1
    | node l' r' =>
      rw [headerBits_node, headerBits_node, List.cons_append, List.cons_append, List.cons.injEq, List.append_assoc,
        List.append_assoc] at h
      obtain ⟨rfl, h2⟩ := ihl _ _ _ h.2
      obtain ⟨rfl, h3⟩ := ihr _ _ _ h2
      exact ⟨rfl, h3⟩

/-! ### Walks -/

/-- A walk along a leaf's path ends at that leaf (R102, R205). -/
theorem Tree.walk_path (t : Tree) : ∀ c ∈ t.paths, t.walk c.2 = some c.1 := by
  induction t with
  | leaf x => simp [Tree.paths, Tree.walk]
  | node l r ihl ihr =>
    intro c hc
    simp only [Tree.paths, List.mem_append, List.mem_map] at hc
    rcases hc with ⟨d, hd, rfl⟩ | ⟨d, hd, rfl⟩
    · exact ihl d hd
    · exact ihr d hd

/-- Where a walk ends at a leaf, no longer and no shorter walk along the same bits does (R102, R175). -/
theorem Tree.walk_prefix (t : Tree) (p q : List Bool) (x y : Symbol) (hp : t.walk p = some x)
    (hpq : t.walk (p ++ q) = some y) : q = [] := by
  induction t generalizing p with
  | leaf z =>
    cases p with
    | nil => cases q with
      | nil => rfl
      | cons b q => simp [Tree.walk] at hpq
    | cons b p => simp [Tree.walk] at hp
  | node l r ihl ihr =>
    cases p with
    | nil => simp [Tree.walk] at hp
    | cons b p =>
      cases b
      · exact ihl p hp hpq
      · exact ihr p hp hpq

/-- Along any bits a walk meets a leaf or ends inside the tree (R205, R207). -/
theorem Tree.walk_total (t : Tree) (bits : List Bool) :
    t.walkOpen bits = true ∨ ∃ p x more, bits = p ++ more ∧ t.walk p = some x := by
  induction t generalizing bits with
  | leaf x => exact .inr ⟨[], x, bits, rfl, rfl⟩
  | node l r ihl ihr =>
    cases bits with
    | nil => exact .inl rfl
    | cons b bits =>
      cases b with
      | false =>
        rcases ihl bits with h | ⟨p, x, more, rfl, hp⟩
        · exact .inl h
        · exact .inr ⟨false :: p, x, more, rfl, hp⟩
      | true =>
        rcases ihr bits with h | ⟨p, x, more, rfl, hp⟩
        · exact .inl h
        · exact .inr ⟨true :: p, x, more, rfl, hp⟩

/-- Any bits are the paths of literals, and then the path of symbol 256 or bits that end inside the tree (R203, R207). -/
theorem Tree.spells_total {t : Tree} (ht : t.isNode = true) (n : Nat) : ∀ bits : List Bool, bits.length ≤ n →
    ∃ xs b r, bits = b ++ r ∧ t.Spells b xs ∧ eofSymbol ∉ xs ∧
      (t.walkOpen r = true ∨ ∃ p more, r = p ++ more ∧ t.walk p = some eofSymbol) := by
  induction n with
  | zero =>
    intro bits hb
    have : bits = [] := List.length_eq_zero_iff.mp (by omega)
    subst this
    cases t with
    | leaf x => simp [Tree.isNode] at ht
    | node l r => exact ⟨[], [], [], rfl, .nil, by simp, .inl rfl⟩
  | succ n ih =>
    intro bits hb
    rcases t.walk_total bits with h | ⟨p, x, more, rfl, hp⟩
    · exact ⟨[], [], bits, rfl, .nil, by simp, .inl h⟩
    · by_cases hx : x = eofSymbol
      · exact ⟨[], [], p ++ more, rfl, .nil, by simp, .inr ⟨p, more, rfl, hx ▸ hp⟩⟩
      · have hp0 : p ≠ [] := by
          intro e
          subst e
          cases t with
          | leaf y => simp [Tree.isNode] at ht
          | node l r => simp [Tree.walk] at hp
        have := List.length_pos_iff.mpr hp0
        obtain ⟨xs, b, r, rfl, h1, h2, h3⟩ := ih more (by rw [List.length_append] at hb; omega)
        exact ⟨x :: xs, p ++ b, r, by simp, .cons hp h1, by simp [h2, Ne.symm hx], h3⟩

/-- Every leaf has a path. -/
theorem Tree.path_of_leaf {t : Tree} {x : Symbol} (h : x ∈ t.leaves) : ∃ p, (x, p) ∈ t.paths := by
  rw [← t.paths_map_fst, List.mem_map] at h
  obtain ⟨⟨y, p⟩, hp, rfl⟩ := h
  exact ⟨p, hp⟩

/-! ### Trees in the arena -/

theorem nodeAt_congr {s s' : State} (h : s'.node = s.node) (i : NodeIdx) : s'.nodeAt i = s.nodeAt i := by
  simp [State.nodeAt, h]

/-- An arena goes on holding a tree while the records of its nodes stay as they are. -/
theorem State.Holds.mono {s s' : State} {i : NodeIdx} {t : Tree} {is : List NodeIdx} (h : s.Holds i t is)
    (hs : ∀ j ∈ is, s'.nodeAt j = s.nodeAt j) : s'.Holds i t is := by
  induction h with
  | leaf hn hl hx => exact .leaf (by rw [hs _ (by simp)]; exact hn) hl hx
  | node hn hl _ _ ihl ihr =>
    exact .node (by rw [hs _ (by simp)]; exact hn) hl
      (ihl fun j hj => hs j (by simp [hj])) (ihr fun j hj => hs j (by simp [hj]))

theorem State.Holds.congr {s s' : State} {i : NodeIdx} {t : Tree} {is : List NodeIdx} (h : s.Holds i t is)
    (hs : s'.node = s.node) : s'.Holds i t is := h.mono fun j _ => nodeAt_congr hs j

theorem State.Holds.length {s : State} {i : NodeIdx} {t : Tree} {is : List NodeIdx} (h : s.Holds i t is) :
    is.length = t.size := by
  induction h with
  | leaf => rfl
  | node _ _ _ _ ihl ihr => simp [Tree.size, ihl, ihr]

theorem State.Holds.leaf_inv {s : State} {i : NodeIdx} {x : Symbol} {is : List NodeIdx} (h : s.Holds i (.leaf x) is) :
    ∃ n, s.nodeAt i = some n ∧ n.isLeaf = true ∧ n.sym = symbolField x ∧ is = [i] := by
  cases h with | leaf hn hl hx => exact ⟨_, hn, hl, hx, rfl⟩

theorem State.Holds.node_inv {s : State} {i : NodeIdx} {l r : Tree} {is : List NodeIdx}
    (h : s.Holds i (.node l r) is) :
    ∃ n js ks, s.nodeAt i = some n ∧ n.isLeaf = false ∧ s.Holds n.left l js ∧ s.Holds n.right r ks ∧
      is = i :: (js ++ ks) := by
  cases h with | node hn hl left right => exact ⟨_, _, _, hn, hl, left, right, rfl⟩

theorem fieldSymbol_symbolField (x : Symbol) : fieldSymbol (symbolField x) = some x := by
  have h : x.val % 512 = x.val := Nat.mod_eq_of_lt (by omega)
  simp [fieldSymbol, symbolField, h]

theorem symbolField_toNat (x : Symbol) : (symbolField x).toNat = x.val := by
  simp [symbolField]; omega

theorem symbolField_inj {x y : Symbol} (h : symbolField x = symbolField y) : x = y := by
  have := congrArg BitVec.toNat h
  rw [symbolField_toNat, symbolField_toNat] at this
  exact Fin.ext this

/-- What an arena index holds as a tree is determined by the arena. -/
theorem State.Holds.unique {s : State} {i : NodeIdx} {t t' : Tree} {is is' : List NodeIdx} (h : s.Holds i t is)
    (h' : s.Holds i t' is') : t = t' ∧ is = is' := by
  induction h generalizing t' is' with
  | leaf hn hl hx =>
    cases h' with
    | leaf hn' hl' hx' =>
      rw [hn] at hn'; cases hn'
      rw [hx] at hx'
      exact ⟨by rw [symbolField_inj hx'], rfl⟩
    | node hn' hl' => rw [hn] at hn'; cases hn'; simp [hl] at hl'
  | node hn hl _ _ ihl ihr =>
    cases h' with
    | leaf hn' hl' => rw [hn] at hn'; cases hn'; simp [hl] at hl'
    | node hn' hl' left' right' =>
      rw [hn] at hn'; cases hn'
      obtain ⟨rfl, rfl⟩ := ihl left'
      obtain ⟨rfl, rfl⟩ := ihr right'
      exact ⟨rfl, rfl⟩

end Sys2Proof.Machine
end

