-- ==== Sys2Proof/Laws/Build.lean ====
section
/-! SUPPORT. Laws of the tree builder: the queue serves its entries in the order of `insertByWeight`, and BUILD leaves the
records of `builtNodes`. -/

namespace Sys2Proof.Machine

/-! ### The queue's order -/

theorem before_iff (a b : PqEntry) : a.before b = true ↔
    a.weight.toNat < b.weight.toNat ∨ a.weight.toNat = b.weight.toNat ∧ a.seq.toNat < b.seq.toNat := by
  simp [PqEntry.before]

theorem before_irrefl (a : PqEntry) : a.before a = false := by
  rw [Bool.eq_false_iff, ne_eq, before_iff]; omega

/-- The entry served is one of the queue's, and none comes before it (R153). -/
theorem pqLeast_spec (es : List PqEntry) (m : PqEntry) (h : pqLeast es = some m) :
    m ∈ es ∧ ∀ e ∈ es, e.before m = false := by
  induction es generalizing m with
  | nil => cases h
  | cons e es ih =>
    rw [pqLeast] at h
    cases hp : pqLeast es with
    | none =>
      rw [hp] at h
      cases es with
      | nil =>
        simp only [Option.some.injEq] at h
        subst h
        simp [before_irrefl]
      | cons f fs =>
        rw [pqLeast] at hp
        split at hp
        · cases hp
        · split at hp <;> cases hp
    | some n =>
      rw [hp] at h
      obtain ⟨h1, h2⟩ := ih n hp
      simp only at h
      split at h
      · rename_i hb
        simp only [Option.some.injEq] at h
        subst h
        refine ⟨by simp [h1], fun f hf => ?_⟩
        rcases List.mem_cons.mp hf with rfl | hf
        · rw [Bool.eq_false_iff, ne_eq, before_iff]
          rw [before_iff] at hb
          omega
        · exact h2 f hf
      · rename_i hb
        simp only [Option.some.injEq] at h
        subst h
        refine ⟨by simp, fun f hf => ?_⟩
        rcases List.mem_cons.mp hf with rfl | hf
        · exact before_irrefl _
        · have := h2 f hf
          rw [Bool.eq_false_iff, ne_eq, before_iff] at this ⊢
          rw [before_iff] at hb
          omega

theorem pqLeast_none (es : List PqEntry) : pqLeast es = none ↔ es = [] := by
  cases es with
  | nil => simp [pqLeast]
  | cons e es =>
    simp only [pqLeast, reduceCtorEq, iff_false]
    split
    · simp
    · split <;> simp

/-- The entry served is the first one in key order, whatever order the queue stores them in (R150, R153). -/
theorem pqLeast_sorted {h : PqEntry} {t es : List PqEntry} (hp : (h :: t).Perm es)
    (hs : (h :: t).Pairwise fun a b => a.before b = true) : pqLeast es = some h := by
  cases hl : pqLeast es with
  | none =>
    rw [pqLeast_none] at hl
    subst hl
    exact absurd hp.length_eq (by simp)
  | some m =>
    obtain ⟨hm, hle⟩ := pqLeast_spec es m hl
    have hm' := hp.symm.subset hm
    rcases List.mem_cons.mp hm' with rfl | hm'
    · rfl
    · have h1 := (List.pairwise_cons.mp hs).1 m hm'
      have h2 := hle h (hp.subset (by simp))
      rw [h1] at h2
      cases h2

/-- Insert an entry before those that are heavier. -/
def insertEntry (e : PqEntry) : List PqEntry → List PqEntry
  | [] => [e]
  | f :: fs => if f.weight.toNat ≤ e.weight.toNat then f :: insertEntry e fs else e :: f :: fs

theorem insertEntry_perm (e : PqEntry) (fs : List PqEntry) : (insertEntry e fs).Perm (e :: fs) := by
  induction fs with
  | nil => rfl
  | cons f fs ih =>
    rw [insertEntry]
    split
    · exact (List.Perm.cons f ih).trans (List.Perm.swap e f fs)
    · rfl

theorem insertEntry_sorted (e : PqEntry) (fs : List PqEntry) (hs : fs.Pairwise fun a b => a.before b = true)
    (hq : ∀ f ∈ fs, f.seq.toNat < e.seq.toNat) : (insertEntry e fs).Pairwise fun a b => a.before b = true := by
  induction fs with
  | nil => simp [insertEntry]
  | cons f fs ih =>
    obtain ⟨h1, h2⟩ := List.pairwise_cons.mp hs
    have hf := hq f (by simp)
    rw [insertEntry]
    split
    · rename_i hle
      refine List.pairwise_cons.mpr ⟨fun g hg => ?_, ih h2 fun g hg => hq g (by simp [hg])⟩
      rcases List.mem_cons.mp ((insertEntry_perm e fs).subset hg) with rfl | hg
      · rw [before_iff]; omega
      · exact h1 g hg
    · rename_i hlt
      refine List.pairwise_cons.mpr ⟨fun g hg => ?_, hs⟩
      rw [before_iff]
      rcases List.mem_cons.mp hg with rfl | hg
      · omega
      · have := h1 g hg
        rw [before_iff] at this
        omega

theorem insertEntry_map (e : PqEntry) (fs : List PqEntry) :
    (insertEntry e fs).map (fun e => (e.weight, e.idx)) =
      insertByWeight e.weight e.idx (fs.map fun e => (e.weight, e.idx)) := by
  induction fs with
  | nil => rfl
  | cons f fs ih =>
    rw [insertEntry, List.map_cons, insertByWeight]
    split
    · rw [List.map_cons, ih]
    · rfl

/-! ### The arena and the queue during BUILD -/

theorem setIfInBounds_lt {α : Type} {n : Nat} (v : Vector α n) (i : Nat) (x : α) (h : i < n) :
    v.setIfInBounds i x = v.set i x h := by
  apply Vector.ext
  intro k hk
  rw [Vector.getElem_setIfInBounds, Vector.getElem_set]

theorem arenaOf_append (nodes : List Node) (n : Node) (h : nodes.length < 513) :
    (arenaOf nodes).setIfInBounds nodes.length n = arenaOf (nodes ++ [n]) := by
  apply Vector.ext
  intro k hk
  rw [setIfInBounds_lt _ _ _ h, Vector.getElem_set]
  simp only [arenaOf, Vector.getElem_ofFn]
  by_cases e : nodes.length = k
  · subst e; simp
  · rw [if_neg e, List.getElem?_append]
    split
    · rfl
    · rw [List.getElem?_eq_none (by omega), List.getElem?_eq_none (by simp; omega)]

/-- The queue of `s` serves `queue` in order, and its arena holds `nodes`. -/
structure Serves (s : State) (nodes : List Node) (queue : List (Word × NodeIdx)) : Prop where
  arena : s.node = arenaOf nodes
  count : s.nodeCount = BitVec.ofNat 10 nodes.length
  seq : s.seqCtr = BitVec.ofNat 10 nodes.length
  entries : ∃ es : List PqEntry, es.Perm s.pq ∧ (es.Pairwise fun a b => a.before b = true) ∧
    (∀ e ∈ es, e.seq.toNat < nodes.length) ∧ es.map (fun e => (e.weight, e.idx)) = queue

theorem Serves.length {s : State} {nodes : List Node} {queue : List (Word × NodeIdx)} (h : Serves s nodes queue) :
    s.pq.length = queue.length := by
  obtain ⟨es, hp, -, -, hm⟩ := h.entries
  rw [← hp.length_eq, ← hm, List.length_map]

/-- `s` with one more record, pushed on the queue (R152, R156). -/
def pushNode (n : Node) (s : State) : State :=
  { s with
    node := s.node.setIfInBounds s.nodeCount.toNat n
    nodeCount := s.nodeCount + 1
    pq := s.pq ++ [{ weight := n.weight, seq := s.seqCtr, idx := s.nodeCount }]
    seqCtr := s.seqCtr + 1 }

theorem pqPush_room {s : State} (h : s.pq.length < Config.pqCap ∧ s.seqCtr.toNat ≤ Config.seqMax) (w : Word)
    (i : NodeIdx) (k : State → Host.Outcome State Fault Refusal) :
    pqPush w i s k = k { s with pq := s.pq ++ [{ weight := w, seq := s.seqCtr, idx := i }], seqCtr := s.seqCtr + 1 } := by
  rw [pqPush, if_pos h]

theorem addNode_next {s : State} {nodes : List Node} {queue : List (Word × NodeIdx)} (h : Serves s nodes queue)
    (hn : nodes.length < 513) (hq : queue.length < 257) (n : Node) (op : BitVec 4) (todo : List Line) :
    addNode n op todo s = .next (resume op todo (pushNode n s)) := by
  have hc : s.nodeCount.toNat = nodes.length := by rw [h.count, BitVec.toNat_ofNat]; omega
  have hs : s.seqCtr.toNat = nodes.length := by rw [h.seq, BitVec.toNat_ofNat]; omega
  have hl := h.length
  have h1 : s.nodeCount.toNat < 513 := by omega
  have h2 : s.pq.length < Config.pqCap ∧ s.seqCtr.toNat ≤ Config.seqMax := by
    simp only [Config.pqCap, Config.seqMax]; omega
  rw [addNode, if_pos (by simpa [Config.nodeCap] using h1), setNode, dif_pos h1]
  refine (pqPush_room (s := allocate { s with node := s.node.set s.nodeCount.toNat n h1 }) h2 _ _ _).trans ?_
  rw [proceed, pushNode, setIfInBounds_lt _ _ _ h1]
  rfl

theorem Serves.push {s : State} {nodes : List Node} {queue : List (Word × NodeIdx)} (h : Serves s nodes queue)
    (hn : nodes.length < 513) (n : Node) :
    Serves (pushNode n s) (nodes ++ [n]) (insertByWeight n.weight (BitVec.ofNat 10 nodes.length) queue) := by
  have hc : s.nodeCount.toNat = nodes.length := by rw [h.count, BitVec.toNat_ofNat]; omega
  have hs : s.seqCtr.toNat = nodes.length := by rw [h.seq, BitVec.toNat_ofNat]; omega
  obtain ⟨es, hp, hsort, hseq, hm⟩ := h.entries
  refine ⟨?_, ?_, ?_, insertEntry { weight := n.weight, seq := s.seqCtr, idx := s.nodeCount } es, ?_, ?_, ?_, ?_⟩
  · show s.node.setIfInBounds s.nodeCount.toNat n = _
    rw [h.arena, hc]
    exact arenaOf_append nodes n hn
  · simp only [pushNode, h.count, List.length_append, List.length_singleton, BitVec.ofNat_add]; rfl
  · simp only [pushNode, h.seq, List.length_append, List.length_singleton, BitVec.ofNat_add]; rfl
  · exact (insertEntry_perm _ es).trans (((List.perm_append_singleton _ _).symm).trans (hp.append_right _))
  · exact insertEntry_sorted _ es hsort fun f hf => by rw [hs]; exact hseq f hf
  · intro e he
    rw [List.length_append, List.length_singleton]
    rcases List.mem_cons.mp ((insertEntry_perm _ es).subset he) with rfl | he
    · simp only [hs]; omega
    · have := hseq e he; omega
  · rw [insertEntry_map, hm, h.count]

/-- `s` without a queue entry. -/
def popped (s : State) (e : PqEntry) : State := { s with pq := s.pq.erase e }

/-- The first entry to serve is popped (R153). -/
theorem Serves.pop {s : State} {nodes : List Node} {w : Word} {i : NodeIdx} {queue : List (Word × NodeIdx)}
    (h : Serves s nodes ((w, i) :: queue)) : ∃ e : PqEntry, e.weight = w ∧ e.idx = i ∧
      (∀ k, pqPop s k = k e (popped s e)) ∧ Serves (popped s e) nodes queue := by
  obtain ⟨es, hp, hsort, hseq, hm⟩ := h.entries
  cases es with
  | nil => cases hm
  | cons e es =>
    simp only [List.map_cons, List.cons.injEq, Prod.mk.injEq] at hm
    refine ⟨e, hm.1.1, hm.1.2, fun k => by rw [pqPop, pqLeast_sorted hp hsort]; rfl, h.arena, h.count, h.seq, es, ?_,
      (List.pairwise_cons.mp hsort).2, fun f hf => hseq f (by simp [hf]), hm.2⟩
    have := hp.erase e
    rwa [List.erase_cons_head] at this

theorem Serves.resume {s : State} {nodes : List Node} {queue : List (Word × NodeIdx)} (h : Serves s nodes queue)
    (op : BitVec 4) (l : Line) (ls : List Line) : Serves (resume op (l :: ls) s) nodes queue :=
  ⟨h.arena, h.count, h.seq, h.entries⟩

theorem insertByWeight_length (w : Word) (i : NodeIdx) (queue : List (Word × NodeIdx)) :
    (insertByWeight w i queue).length = queue.length + 1 := by
  induction queue with
  | nil => rfl
  | cons p queue ih =>
    rw [insertByWeight]
    split
    · simp [ih]
    · rfl

theorem insertByWeight_mem (w : Word) (i : NodeIdx) (queue : List (Word × NodeIdx)) (p : Word × NodeIdx) :
    p ∈ insertByWeight w i queue ↔ p = (w, i) ∨ p ∈ queue := by
  induction queue with
  | nil => simp [insertByWeight]
  | cons q queue ih =>
    rw [insertByWeight]
    split
    · rw [List.mem_cons, ih, List.mem_cons]; tauto
    · rw [List.mem_cons]

theorem leafQueue_length (ns : List Node) (k : Nat) (queue : List (Word × NodeIdx)) :
    (leafQueue k ns queue).length = queue.length + ns.length := by
  induction ns generalizing k queue with
  | nil => rfl
  | cons n ns ih => rw [leafQueue, ih, insertByWeight_length, List.length_cons]; omega

/-! ### The lines of BUILD -/

/-- `s` with the arena and the queue of `t`. -/
def State.withQueue (s t : State) : State :=
  { s with node := t.node, nodeCount := t.nodeCount, pq := t.pq, seqCtr := t.seqCtr }

theorem pushNode_resume (n : Node) (op : BitVec 4) (l : Line) (ls : List Line) (s : State) :
    pushNode n (resume op (l :: ls) s) = resume op (l :: ls) (pushNode n s) := rfl

/-- One leaf (R156, R158). -/
theorem buildLeaf_step (op : BitVec 4) (rest : List Line) {s : State} {nodes : List Node}
    {queue : List (Word × NodeIdx)} (h : Serves s nodes queue) (hn : nodes.length < 513) (hq : queue.length < 257)
    (x : Symbol) : Steps 1 (resume op (.buildLeaf x :: rest) s) (resume op rest (pushNode (leafNode x s.freq[x]) s)) := by
  have := addNode_next (h.resume op (.buildLeaf x) rest) hn hq (leafNode x s.freq[x]) op rest
  rw [pushNode_resume, resume_resume] at this
  exact Steps.one rfl this

/-- All leaves (R156, R158). -/
theorem buildLeaf_steps (op : BitVec 4) (rest : List Line) (xs : List Symbol) :
    ∀ (s : State) (nodes : List Node) (queue : List (Word × NodeIdx)), Serves s nodes queue →
      nodes.length + xs.length ≤ 513 → queue.length + xs.length ≤ 257 →
      ∃ t, Steps xs.length (resume op (xs.map .buildLeaf ++ rest) s) (resume op rest (s.withQueue t)) ∧
        Serves (s.withQueue t) (nodes ++ xs.map fun x => leafNode x s.freq[x])
          (leafQueue nodes.length (xs.map fun x => leafNode x s.freq[x]) queue) := by
  induction xs with
  | nil => intro s nodes queue h _ _; exact ⟨s, Steps.refl _, by rw [show s.withQueue s = s from rfl]; simpa [leafQueue] using h⟩
  | cons x xs ih =>
    intro s nodes queue h hn hq
    rw [List.length_cons] at hn hq
    have h₁ := buildLeaf_step op (xs.map .buildLeaf ++ rest) h (by omega) (by omega) x
    obtain ⟨t, h₂, hs⟩ := ih (pushNode (leafNode x s.freq[x]) s) _ _ (h.push (by omega) (leafNode x s.freq[x]))
      (by simp; omega) (by rw [insertByWeight_length]; omega)
    refine ⟨t, ?_, ?_⟩
    · rw [List.length_cons, Nat.add_comm]
      exact h₁.trans h₂
    · rw [List.append_assoc, List.length_append] at hs
      exact hs

theorem pqPop_resume (op : BitVec 4) (l : Line) (ls : List Line) (s : State)
    (k : PqEntry → State → Host.Outcome State Fault Refusal) :
    pqPop (resume op (l :: ls) s) k = pqPop s fun e s' => k e (resume op (l :: ls) s') := by
  rw [pqPop, pqPop]; rfl

/-- One merge (R159, R160). -/
theorem buildMerge_step (op : BitVec 4) (rest : List Line) {s : State} {nodes : List Node} {v w : Word}
    {a b : NodeIdx} {queue : List (Word × NodeIdx)} (h : Serves s nodes ((v, a) :: (w, b) :: queue))
    (hn : nodes.length < 513) (hq : queue.length < 257) :
    ∃ t, Steps 1 (resume op (.buildMerge :: rest) s) (resume op (.buildMerge :: rest) (s.withQueue t)) ∧
      Serves (s.withQueue t) (nodes ++ [internalNode (v + w) a b])
        (insertByWeight (v + w) (BitVec.ofNat 10 nodes.length) queue) := by
  obtain ⟨e, he1, he2, hpe, hse⟩ := h.pop
  obtain ⟨f, hf1, hf2, hpf, hsf⟩ := hse.pop
  have hadd := addNode_next (hsf.resume op .buildMerge rest) hn hq (internalNode (v + w) a b) op (.buildMerge :: rest)
  rw [pushNode_resume, resume_resume] at hadd
  refine ⟨pushNode (internalNode (v + w) a b) (popped (popped s e) f), Steps.one rfl ?_, hsf.push hn _⟩
  have hl := h.length
  simp only [List.length_cons] at hl
  simp only [performLine, lineBuildMerge]
  rw [if_pos (show 1 < (resume op (.buildMerge :: rest) s).pq.length from (by omega : 1 < s.pq.length)),
    pqPop_resume, hpe, pqPop_resume, hpf, he1, he2, hf1, hf2, hadd]
  rfl

/-- The merge loop (R156, R159 to R161). -/
theorem buildMerge_steps (op : BitVec 4) (rest : List Line) (k : Nat) :
    ∀ (s : State) (nodes : List Node) (queue : List (Word × NodeIdx)), Serves s nodes queue → queue.length ≤ k →
      nodes.length + queue.length ≤ 514 → queue.length ≤ 257 →
      (∃ w, (w, BitVec.ofNat 10 (nodes.length - 1)) ∈ queue) →
      ∃ t w, Steps queue.length (resume op (.buildMerge :: rest) s) (resume op (.buildRoot :: rest) (s.withQueue t)) ∧
        Serves (s.withQueue t) (mergeNodes k nodes queue)
          [(w, BitVec.ofNat 10 ((mergeNodes k nodes queue).length - 1))] ∧
        (mergeNodes k nodes queue).length + 1 = nodes.length + queue.length := by
  induction k with
  | zero => intro s nodes queue _ hk _ _ hm; obtain ⟨w, hw⟩ := hm; cases queue with
    | nil => cases hw
    | cons => simp at hk
  | succ k ih =>
    intro s nodes queue h hk hc hq hm
    have hl := h.length
    match queue, h, hk, hc, hq, hm, hl with
    | [], _, _, _, _, hm, _ => obtain ⟨w, hw⟩ := hm; cases hw
    | [(v, a)], h, _, _, _, hm, hl =>
      obtain ⟨w, hw⟩ := hm
      simp only [List.mem_singleton, Prod.mk.injEq] at hw
      refine ⟨s, v, Steps.one rfl ?_, by rw [← hw.2] at h; exact h, rfl⟩
      simp only [List.length_cons, List.length_nil] at hl
      simp only [performLine, lineBuildMerge]
      rw [if_neg (show ¬1 < (resume op (.buildMerge :: rest) s).pq.length from (by omega : ¬1 < s.pq.length))]
      rfl
    | (v, a) :: (w, b) :: queue, h, hk, hc, hq, _, _ =>
      simp only [List.length_cons] at hk hc hq
      obtain ⟨t, h₁, hs⟩ := buildMerge_step op rest h (by omega) (by omega)
      obtain ⟨u, w', h₂, hu, hlen⟩ := ih (s.withQueue t) _ _ hs (by rw [insertByWeight_length]; omega)
        (by rw [insertByWeight_length]; simp; omega) (by rw [insertByWeight_length]; omega)
        ⟨v + w, by rw [insertByWeight_mem]; simp⟩
      refine ⟨u, w', ?_, hu, ?_⟩
      · have := h₁.trans h₂
        rw [insertByWeight_length] at this
        rw [List.length_cons, List.length_cons, Nat.add_comm]
        exact this
      · rw [mergeNodes, hlen, insertByWeight_length]; simp; omega

/-- The final pop (R156). -/
theorem buildRoot_step (op : BitVec 4) (rest : List Line) {s : State} {nodes : List Node} {w : Word} {i : NodeIdx}
    (h : Serves s nodes [(w, i)]) : Steps 1 (resume op (.buildRoot :: rest) s)
      (resume op rest { s with pq := [], root := i, treeValid := true }) := by
  obtain ⟨e, he1, he2, hpe, hse⟩ := h.pop
  have hl := hse.length
  rw [List.length_nil, List.length_eq_zero_iff] at hl
  refine Steps.one rfl ?_
  simp only [performLine, lineBuildRoot]
  rw [pqPop_resume, hpe, he2, ← hl]
  simp only [proceed]
  exact congrArg _ (resume_setPhase op rest { popped s e with root := i, treeValid := true } _)

/-! ### Which symbols get leaves -/

theorem countedSymbols_length (freq : Vector Word 257) : (countedSymbols freq).length ≤ 257 := by
  have := List.length_filter_le (fun x => freq[x] != 0) allSymbols
  rwa [show allSymbols.length = 257 from List.length_finRange] at this

theorem insertAscending_perm (x : Symbol) (ys : List Symbol) : (insertAscending x ys).Perm (x :: ys) := by
  induction ys with
  | nil => rfl
  | cons y ys ih =>
    rw [insertAscending]
    split
    · rfl
    · exact (List.Perm.cons y ih).trans (List.Perm.swap x y ys)

/-- A single counted symbol leaves another one for the filler (R157). -/
theorem fillerSymbol_isSome {freq : Vector Word 257} {x : Symbol} (h : countedSymbols freq = [x]) :
    ∃ f, fillerSymbol freq = some f ∧ f ≠ x := by
  have hx : ∀ y : Symbol, y ≠ x → freq[y] = 0 := by
    intro y hy
    by_contra hne
    have : y ∈ countedSymbols freq := by
      rw [countedSymbols, List.mem_filter]
      exact ⟨List.mem_finRange y, by simpa using hne⟩
    rw [h, List.mem_singleton] at this
    exact hy this
  cases hf : fillerSymbol freq with
  | none =>
    rw [fillerSymbol, List.find?_eq_none] at hf
    have h0 := hf 0 (List.mem_finRange 0)
    have h1 := hf 1 (List.mem_finRange 1)
    by_cases e : x = 0
    · exact absurd (by simpa using hx 1 (by rw [e]; decide)) h1
    · exact absurd (by simpa using hx 0 (Ne.symm e)) h0
  | some f =>
    refine ⟨f, rfl, fun e => ?_⟩
    have hf0 := List.find?_some hf
    have hx0 : x ∈ countedSymbols freq := by rw [h]; simp
    rw [countedSymbols, List.mem_filter] at hx0
    rw [e] at hf0
    simp only [beq_iff_eq] at hf0
    simp [hf0] at hx0

/-- The symbols that get leaves: the counted ones, or the single counted one and the filler (R157, R158). -/
theorem leafSymbols_cases (freq : Vector Word 257) :
    (∃ x f, countedSymbols freq = [x] ∧ fillerSymbol freq = some f ∧ f ≠ x ∧
      leafSymbols freq = insertAscending f [x]) ∨
    ((countedSymbols freq).length ≠ 1 ∧ leafSymbols freq = countedSymbols freq) := by
  cases hc : countedSymbols freq with
  | nil => exact .inr ⟨by simp, by rw [leafSymbols, hc]⟩
  | cons x xs =>
    cases xs with
    | nil =>
      obtain ⟨f, hf, hne⟩ := fillerSymbol_isSome hc
      exact .inl ⟨x, f, rfl, hf, hne, by rw [leafSymbols, hc]; simp only [hf]⟩
    | cons y ys => exact .inr ⟨by simp, by rw [leafSymbols, hc]⟩

/-- BUILD gives leaves to no symbol or to at least two (R157, R161). -/
theorem leafSymbols_two {freq : Vector Word 257} (h : leafSymbols freq ≠ []) : 2 ≤ (leafSymbols freq).length := by
  rcases leafSymbols_cases freq with ⟨x, f, -, -, -, e⟩ | ⟨hl, e⟩
  · rw [e, (insertAscending_perm _ _).length_eq]; simp
  · rw [e] at h ⊢
    have := List.length_pos_iff.mpr h
    omega

theorem leafSymbols_length (freq : Vector Word 257) : (leafSymbols freq).length ≤ 257 := by
  rcases leafSymbols_cases freq with ⟨x, f, -, -, -, e⟩ | ⟨-, e⟩
  · rw [e, (insertAscending_perm _ _).length_eq]; simp
  · rw [e]; exact countedSymbols_length freq

/-! ### The whole body -/

theorem leafQueue_mem (ns : List Node) (k : Nat) (queue : List (Word × NodeIdx)) (hns : ns ≠ []) :
    ∃ w, (w, BitVec.ofNat 10 (k + ns.length - 1)) ∈ leafQueue k ns queue := by
  have keep : ∀ (ms : List Node) (j : Nat) (q : List (Word × NodeIdx)) (p : Word × NodeIdx), p ∈ q →
      p ∈ leafQueue j ms q := by
    intro ms
    induction ms with
    | nil => intro j q p hp; exact hp
    | cons m ms ih => intro j q p hp; exact ih _ _ _ ((insertByWeight_mem _ _ _ _).mpr (.inr hp))
  induction ns generalizing k queue with
  | nil => exact absurd rfl hns
  | cons n ns ih =>
    cases ns with
    | nil => exact ⟨n.weight, keep [] (k + 1) _ _ ((insertByWeight_mem _ _ _ _).mpr (.inl (by simp)))⟩
    | cons m ms =>
      obtain ⟨w, hw⟩ := ih (k + 1) (insertByWeight n.weight (BitVec.ofNat 10 k) queue) (by simp)
      refine ⟨w, ?_⟩
      rw [leafQueue]
      simp only [List.length_cons] at hw ⊢
      rw [show k + (ms.length + 1 + 1) - 1 = k + 1 + (ms.length + 1) - 1 by omega]
      exact hw

theorem arenaOf_nil : arenaOf [] = Vector.replicate 513 Node.zero := by
  apply Vector.ext
  intro k hk
  simp [arenaOf]

/-- The whole body of BUILD on a table that is not empty (R156 to R161). -/
theorem build_steps (op : BitVec 4) (rest : List Line) {s : State} (hx : leafSymbols s.freq ≠ []) :
    Steps (2 * (leafSymbols s.freq).length + 4) (resume op (buildBody ++ rest) s) (resume op rest s.built) ∧
      (builtNodes s.freq).length = 2 * (leafSymbols s.freq).length - 1 := by
  have h2 := leafSymbols_two hx
  have h257 := leafSymbols_length s.freq
  have hb : (buildLeaves s.freq).length = (leafSymbols s.freq).length := List.length_map _
  generalize hs₁ : pqClear (clearArena { s with treeValid := false, codesValid := false }) = s₁
  have h₁ : Steps 3 (resume op (buildBody ++ rest) s)
      (resume op ((leafSymbols s.freq).map .buildLeaf ++ .buildMerge :: rest) s₁) := by
    refine (clearFlags_steps op (.buildClear :: rest) s).trans (Steps.one rfl ?_)
    simp only [performLine, lineBuildClear]
    rw [show (resume op (.buildClear :: rest) { s with treeValid := false, codesValid := false }).freq = s.freq from rfl]
    split
    · contradiction
    · rename_i xs _
      rw [← hs₁]
      exact congrArg Host.Outcome.next
        (resume_setPhase op _ (pqClear (clearArena { s with treeValid := false, codesValid := false })) _)
  have hserve : Serves s₁ [] [] := by
    subst hs₁
    exact ⟨arenaOf_nil.symm, rfl, rfl, [], List.Perm.refl _, List.Pairwise.nil, by simp, rfl⟩
  have hfreq : s₁.freq = s.freq := by subst hs₁; rfl
  obtain ⟨t, h₂, hs₂⟩ := buildLeaf_steps op (.buildMerge :: rest) (leafSymbols s.freq) s₁ [] [] hserve
    (by simp; omega) (by simpa using h257)
  rw [hfreq, List.nil_append, show (leafSymbols s.freq).map (fun x => leafNode x s.freq[x]) = buildLeaves s.freq from rfl,
    List.length_nil] at hs₂
  have hq : (leafQueue 0 (buildLeaves s.freq) []).length = (leafSymbols s.freq).length := by
    rw [leafQueue_length, hb]; simp
  obtain ⟨u, w, h₃, hs₃, hlen⟩ := buildMerge_steps op rest (leafSymbols s.freq).length (s₁.withQueue t) _ _ hs₂
    (by omega) (by omega) (by omega)
    (by
      have := leafQueue_mem (buildLeaves s.freq) 0 [] (fun e => by rw [e] at hb; simp at hb; omega)
      rwa [Nat.zero_add] at this)
  rw [hq, hb] at hlen
  rw [show mergeNodes (leafSymbols s.freq).length (buildLeaves s.freq) (leafQueue 0 (buildLeaves s.freq) []) =
    builtNodes s.freq from rfl] at hs₃ hlen
  have hbl : (builtNodes s.freq).length = 2 * (leafSymbols s.freq).length - 1 := by omega
  refine ⟨?_, hbl⟩
  have h₄ := buildRoot_step op rest hs₃
  rw [hq] at h₃
  have := ((h₁.trans h₂).trans h₃).trans h₄
  rw [show 3 + (leafSymbols s.freq).length + (leafSymbols s.freq).length + 1 =
    2 * (leafSymbols s.freq).length + 4 by omega] at this
  refine this.to ?_
  congr 1
  have ha : u.node = arenaOf (builtNodes s.freq) := hs₃.arena
  have hc : u.nodeCount = BitVec.ofNat 10 (2 * (leafSymbols s.freq).length - 1) := hbl ▸ hs₃.count
  have hq : u.seqCtr = BitVec.ofNat 10 (2 * (leafSymbols s.freq).length - 1) := hbl ▸ hs₃.seq
  have hr : (builtNodes s.freq).length - 1 = 2 * (leafSymbols s.freq).length - 2 := by omega
  subst hs₁
  simp only [State.withQueue, State.built, pqClear, clearArena, ha, hc, hq, hr]

/-! ### The tree BUILD leaves -/

theorem nodeAt_arenaOf {s : State} {nodes : List Node} (hs : s.node = arenaOf nodes) (hn : nodes.length ≤ 513) {i : NodeIdx}
    (hi : i.toNat < nodes.length) : s.nodeAt i = nodes[i.toNat]? := by
  rw [State.nodeAt, hs, arenaOf, Vector.getElem?_ofFn, dif_pos (by omega), List.getElem?_eq_getElem hi]
  rfl

theorem indices_succ (n : Nat) : indices (n + 1) = indices n ++ [BitVec.ofNat 10 n] := by
  simp [indices, List.range_succ]

theorem mem_indices {n : Nat} (hn : n ≤ 1024) {j : NodeIdx} : j ∈ indices n ↔ j.toNat < n := by
  simp only [indices, List.mem_map, List.mem_range]
  constructor
  · rintro ⟨k, hk, rfl⟩
    rw [BitVec.toNat_ofNat]
    omega
  · intro h
    exact ⟨j.toNat, h, by simp⟩

/-- The records hold a tree at an index, made of the records `is`. -/
def Planted (nodes : List Node) (i : NodeIdx) (t : Tree) (is : List NodeIdx) : Prop :=
  (∀ s : State, s.node = arenaOf nodes → s.Holds i t is) ∧ ∀ j ∈ is, j.toNat < nodes.length

theorem Planted.append {nodes : List Node} {i : NodeIdx} {t : Tree} {is : List NodeIdx} (h : Planted nodes i t is)
    (n : Node) (hn : nodes.length < 513) : Planted (nodes ++ [n]) i t is := by
  obtain ⟨hH, hi⟩ := h
  refine ⟨fun s hs => ?_, fun j hj => by have := hi j hj; simp; omega⟩
  refine (hH { s with node := arenaOf nodes } rfl).mono fun j hj => ?_
  have hj' := hi j hj
  rw [nodeAt_arenaOf hs (by simp; omega) (by simp; omega),
    nodeAt_arenaOf (s := { s with node := arenaOf nodes }) rfl (by omega) hj', List.getElem?_append_left hj']

theorem planted_leaf (nodes : List Node) (x : Symbol) (w : Word) (hn : nodes.length < 513) :
    Planted (nodes ++ [leafNode x w]) (BitVec.ofNat 10 nodes.length) (.leaf x) [BitVec.ofNat 10 nodes.length] := by
  have hm : (BitVec.ofNat 10 nodes.length).toNat = nodes.length := by rw [BitVec.toNat_ofNat]; omega
  refine ⟨fun s hs => .leaf (n := leafNode x w) ?_ rfl rfl, ?_⟩
  · rw [nodeAt_arenaOf hs (by simp; omega) (by simp; omega), hm]; simp
  · intro j hj
    rw [List.mem_singleton] at hj
    rw [hj, hm]; simp

theorem planted_node {nodes : List Node} {a b : NodeIdx} {l r : Tree} {is js : List NodeIdx} (hl : Planted nodes a l is)
    (hr : Planted nodes b r js) (w : Word) (hn : nodes.length < 513) :
    Planted (nodes ++ [internalNode w a b]) (BitVec.ofNat 10 nodes.length) (.node l r)
      (BitVec.ofNat 10 nodes.length :: (is ++ js)) := by
  have hm : (BitVec.ofNat 10 nodes.length).toNat = nodes.length := by rw [BitVec.toNat_ofNat]; omega
  obtain ⟨hH, hi⟩ := hl.append (internalNode w a b) hn
  obtain ⟨hJ, hj⟩ := hr.append (internalNode w a b) hn
  refine ⟨fun s hs => .node (n := internalNode w a b) ?_ rfl (hH s hs) (hJ s hs), ?_⟩
  · rw [nodeAt_arenaOf hs (by simp; omega) (by simp; omega), hm]; simp
  · intro k hk
    rcases List.mem_cons.mp hk with rfl | hk
    · rw [hm]; simp
    · rcases List.mem_append.mp hk with hk | hk
      · exact hi k hk
      · exact hj k hk

/-- Every entry of a queue stands for a tree; the leaves of these trees are the symbols `xs`, and their records are all
the records there are (R156, R160). -/
def Forest (nodes : List Node) (queue : List (Word × NodeIdx)) (xs : List Symbol) : Prop :=
  ∃ ts : List (Tree × List NodeIdx), List.Forall₂ (fun p t => Planted nodes p.2 t.1 t.2) queue ts ∧
    (ts.flatMap fun t => t.1.leaves).Perm xs ∧ (ts.flatMap Prod.snd).Perm (indices nodes.length)

theorem forall_insertByWeight {nodes : List Node} {queue : List (Word × NodeIdx)} {ts : List (Tree × List NodeIdx)}
    (h : List.Forall₂ (fun p t => Planted nodes p.2 t.1 t.2) queue ts) (w : Word) {i : NodeIdx}
    {t : Tree × List NodeIdx} (ht : Planted nodes i t.1 t.2) :
    ∃ us, List.Forall₂ (fun p t => Planted nodes p.2 t.1 t.2) (insertByWeight w i queue) us ∧ us.Perm (t :: ts) := by
  induction h with
  | nil => exact ⟨[t], .cons ht .nil, List.Perm.refl _⟩
  | @cons p u queue ts hp h ih =>
    rw [insertByWeight]
    split
    · obtain ⟨us, h1, h2⟩ := ih
      exact ⟨u :: us, .cons hp h1, (List.Perm.cons u h2).trans (List.Perm.swap t u ts)⟩
    · exact ⟨t :: u :: ts, .cons ht (.cons hp h), List.Perm.refl _⟩

theorem Forest.leaf {nodes : List Node} {queue : List (Word × NodeIdx)} {xs : List Symbol} (h : Forest nodes queue xs)
    (x : Symbol) (w : Word) (hn : nodes.length < 513) :
    Forest (nodes ++ [leafNode x w]) (insertByWeight w (BitVec.ofNat 10 nodes.length) queue) (x :: xs) := by
  obtain ⟨ts, h1, h2, h2'⟩ := h
  have h1' := h1.imp fun (p : Word × NodeIdx) (t : Tree × List NodeIdx) (hp : Planted nodes p.2 t.1 t.2) =>
    hp.append (leafNode x w) hn
  obtain ⟨us, h3, h4⟩ := forall_insertByWeight (t := (Tree.leaf x, [BitVec.ofNat 10 nodes.length])) h1' w
    (planted_leaf nodes x w hn)
  refine ⟨us, h3, (h4.flatMap_right _).trans (by simpa [Tree.leaves] using List.Perm.cons x h2),
    (h4.flatMap_right _).trans ?_⟩
  rw [List.length_append, List.length_singleton, indices_succ, List.flatMap_cons, List.singleton_append]
  exact (List.Perm.cons _ h2').trans (List.perm_append_singleton _ _).symm

theorem leaves_forest (freq : Vector Word 257) (xs : List Symbol) :
    ∀ (nodes : List Node) (queue : List (Word × NodeIdx)) (ys : List Symbol), Forest nodes queue ys →
      nodes.length + xs.length ≤ 513 →
      Forest (nodes ++ xs.map fun x => leafNode x freq[x])
        (leafQueue nodes.length (xs.map fun x => leafNode x freq[x]) queue) (xs ++ ys) := by
  induction xs with
  | nil => intro nodes queue ys h _; simpa [leafQueue] using h
  | cons x xs ih =>
    intro nodes queue ys h hn
    rw [List.length_cons] at hn
    have := ih _ _ _ (h.leaf x freq[x] (by omega)) (by simp; omega)
    rw [List.append_assoc, List.length_append] at this
    obtain ⟨ts, h1, h2, h2'⟩ := this
    exact ⟨ts, h1, h2.trans List.perm_middle, h2'⟩

theorem mergeNodes_forest (k : Nat) : ∀ (nodes : List Node) (queue : List (Word × NodeIdx)) (xs : List Symbol),
    Forest nodes queue xs → queue.length ≤ k → queue ≠ [] → nodes.length + queue.length ≤ 514 →
    (∃ w, (w, BitVec.ofNat 10 (nodes.length - 1)) ∈ queue) →
    ∃ t is, Planted (mergeNodes k nodes queue) (BitVec.ofNat 10 ((mergeNodes k nodes queue).length - 1)) t is ∧
      t.leaves.Perm xs ∧ is.Perm (indices (mergeNodes k nodes queue).length) := by
  induction k with
  | zero => intro nodes queue xs _ hk hne; cases queue with
    | nil => exact absurd rfl hne
    | cons => simp at hk
  | succ k ih =>
    intro nodes queue xs h hk hne hc hm
    match queue, h, hk, hne, hc, hm with
    | [], _, _, hne, _, _ => exact absurd rfl hne
    | [(v, a)], h, _, _, _, hm =>
      obtain ⟨w, hw⟩ := hm
      simp only [List.mem_singleton, Prod.mk.injEq] at hw
      obtain ⟨ts, h1, h2, h2'⟩ := h
      cases h1 with
      | cons hp hnil =>
        cases hnil
        rw [← hw.2] at hp
        exact ⟨_, _, hp, by simpa using h2, by
          rw [show mergeNodes (k + 1) nodes [(v, a)] = nodes from rfl]; simpa using h2'⟩
    | (v, a) :: (w, b) :: queue, h, hk, _, hc, _ =>
      simp only [List.length_cons] at hk hc
      obtain ⟨ts, h1, h2, h2'⟩ := h
      cases h1 with
      | @cons _ l _ _ ha h1 =>
        cases h1 with
        | @cons _ r _ ts hb h1 =>
          have hn : nodes.length < 513 := by omega
          have h1' := h1.imp fun (p : Word × NodeIdx) (t : Tree × List NodeIdx) (hp : Planted nodes p.2 t.1 t.2) =>
            hp.append (internalNode (v + w) a b) hn
          obtain ⟨us, h3, h4⟩ := forall_insertByWeight
            (t := (Tree.node l.1 r.1, BitVec.ofNat 10 nodes.length :: (l.2 ++ r.2))) h1' (v + w)
            (planted_node ha hb (v + w) hn)
          refine ih _ _ xs ⟨us, h3, (h4.flatMap_right _).trans (by simpa [Tree.leaves] using h2),
            (h4.flatMap_right _).trans ?_⟩ (by rw [insertByWeight_length]; omega)
            (by intro e; have := congrArg List.length e; rw [insertByWeight_length] at this; simp at this)
            (by rw [insertByWeight_length]; simp; omega) ⟨v + w, by rw [insertByWeight_mem]; simp⟩
          rw [List.length_append, List.length_singleton, indices_succ, List.flatMap_cons, List.cons_append]
          refine (List.Perm.cons _ ?_).trans (List.perm_append_singleton _ _).symm
          simpa using h2'

theorem Tree.isNode_of_leaves {t : Tree} (h : 2 ≤ t.leaves.length) : t.isNode = true := by
  cases t with
  | leaf x => simp [Tree.leaves] at h
  | node l r => rfl

/-- The tree in the arena BUILD leaves: its leaves are the symbols that get leaves, its records all those allocated
(R156, R158, R161). -/
theorem built_holds (s : State) (hx : leafSymbols s.freq ≠ []) :
    ∃ t is, s.built.Holds s.built.root t is ∧ t.leaves.Perm (leafSymbols s.freq) ∧ t.isNode = true ∧
      is.Perm (indices (2 * (leafSymbols s.freq).length - 1)) := by
  have h2 := leafSymbols_two hx
  have h257 := leafSymbols_length s.freq
  have hb : (buildLeaves s.freq).length = (leafSymbols s.freq).length := List.length_map _
  have hbl := (build_steps 0 [] hx).2
  have hf := leaves_forest s.freq (leafSymbols s.freq) [] [] [] ⟨[], .nil, List.Perm.refl _, List.Perm.refl _⟩
    (by simp; omega)
  rw [List.nil_append, List.append_nil, List.length_nil,
    show (leafSymbols s.freq).map (fun x => leafNode x s.freq[x]) = buildLeaves s.freq from rfl] at hf
  have hq : (leafQueue 0 (buildLeaves s.freq) []).length = (leafSymbols s.freq).length := by
    rw [leafQueue_length, hb]; simp
  obtain ⟨t, is, ⟨hH, -⟩, hL, hI⟩ := mergeNodes_forest (leafSymbols s.freq).length _ _ _ hf (by omega)
    (by intro e; rw [e] at hq; simp at hq; omega) (by omega)
    (by
      have := leafQueue_mem (buildLeaves s.freq) 0 [] (fun e => by rw [e] at hb; simp at hb; omega)
      rwa [Nat.zero_add] at this)
  have hr : s.built.root = BitVec.ofNat 10 ((builtNodes s.freq).length - 1) := by
    rw [hbl, Nat.sub_sub]; rfl
  rw [show mergeNodes (leafSymbols s.freq).length (buildLeaves s.freq) (leafQueue 0 (buildLeaves s.freq) []) =
    builtNodes s.freq from rfl, hbl] at hI
  refine ⟨t, is, ?_, hL, Tree.isNode_of_leaves (by rw [hL.length_eq]; exact h2), hI⟩
  rw [hr]
  exact hH s.built rfl

end Sys2Proof.Machine
end

