-- ==== Sys2Proof/Laws/CodeTable.lean ====
section
/-! SUPPORT. Laws of the code-table generator: the walk over a tree records exactly its codes. -/

namespace Sys2Proof.Machine

/-- Recording codes one after another (R170, R174). -/
def recordCodes (cs : List (Symbol × List Bool)) (s : State) : State :=
  cs.foldl (fun s c => setCode c.1 c.2.length (bitsVal c.2) s) s

theorem recordCodes_append (cs ds : List (Symbol × List Bool)) (s : State) :
    recordCodes (cs ++ ds) s = recordCodes ds (recordCodes cs s) := by simp [recordCodes, List.foldl_append]

theorem recordCodes_eq (cs : List (Symbol × List Bool)) (s : State) :
    recordCodes cs s = { s with
      codelen := cs.foldl (fun v c => v.set c.1 (BitVec.ofNat 9 c.2.length)) s.codelen
      codebits := cs.foldl (fun v c => v.set c.1 (BitVec.ofNat 256 (bitsVal c.2))) s.codebits } := by
  induction cs generalizing s with
  | nil => rfl
  | cons c cs ih =>
    have h : recordCodes (c :: cs) s = recordCodes cs (setCode c.1 c.2.length (bitsVal c.2) s) := rfl
    rw [h, ih]; rfl

/-- Recorded on a cleared table, the codes are the table of their lengths and patterns (R170). -/
theorem recordCodes_clear (cs : List (Symbol × List Bool)) (s : State) :
    recordCodes cs (clearCodes s) = { s with codelen := codeLengths cs, codebits := codePatterns cs } :=
  recordCodes_eq cs (clearCodes s)

theorem recordCodes_phase (cs : List (Symbol × List Bool)) (s : State) (p : Phase) :
    recordCodes cs { s with phase := p } = { recordCodes cs s with phase := p } := by
  rw [recordCodes_eq, recordCodes_eq]

theorem withNode_some {i : NodeIdx} {s : State} {n : Node} (h : s.nodeAt i = some n)
    (k : Node → Host.Outcome State Fault Refusal) : withNode i s k = k n := by simp [withNode, h]

theorem withSymbol_field (x : Symbol) (k : Symbol → Host.Outcome State Fault Refusal) :
    withSymbol (symbolField x) k = k x := by simp [withSymbol, fieldSymbol_symbolField]

/-- `walk(i, L, p)` over a tree records its paths after the prefix `pre`, left to right (R170, R171). -/
theorem genWalk_steps {s : State} {i : NodeIdx} {t : Tree} {is : List NodeIdx} (h : s.Holds i t is) :
    ∀ (s₁ : State) (op : BitVec 4) (rest : List Line) (pre : List Bool), s₁.node = s.node →
      s₁.phase = .running op (.genWalk i pre.length (bitsVal pre) :: rest) →
      Steps t.size s₁ (resume op rest (recordCodes (t.paths.map fun c => (c.1, pre ++ c.2)) s₁)) := by
  induction h with
  | leaf hn hl hx =>
    intro s₁ op rest pre hs hp
    refine Steps.one hp ?_
    have hn₁ := hn
    rw [← nodeAt_congr hs] at hn₁
    simp only [performLine, lineGenWalk, withNode_some hn₁, hl, if_true, hx, withSymbol_field, proceed]
    simp [Tree.paths, recordCodes]
  | @node i n l r is js hn hl left right ihl ihr =>
    intro s₁ op rest pre hs hp
    have hn₁ := hn
    rw [← nodeAt_congr hs] at hn₁
    have hstep : performLine (.genWalk i pre.length (bitsVal pre)) op rest s₁ =
        .next (resume op (.genWalk n.left (pre ++ [false]).length (bitsVal (pre ++ [false])) ::
          .genWalk n.right (pre ++ [true]).length (bitsVal (pre ++ [true])) :: rest) s₁) := by
      simp [performLine, lineGenWalk, withNode_some hn₁, hl, proceed, bitsVal_append_bit]
    have hleft := ihl _ op (.genWalk n.right (pre ++ [true]).length (bitsVal (pre ++ [true])) :: rest) (pre ++ [false])
      (by exact hs) (resume_cons_phase op _ _ s₁)
    have hright := ihr _ op rest (pre ++ [true]) (by rw [recordCodes_eq]; exact hs)
      (resume_cons_phase op _ _ (recordCodes (l.paths.map fun c => (c.1, (pre ++ [false]) ++ c.2))
        (resume op (.genWalk n.left (pre ++ [false]).length (bitsVal (pre ++ [false])) ::
          .genWalk n.right (pre ++ [true]).length (bitsVal (pre ++ [true])) :: rest) s₁)))
    have := Steps.cons hp hstep (hleft.trans hright)
    have hpaths : ((Tree.node l r).paths.map fun c => (c.1, pre ++ c.2)) =
        (l.paths.map fun c => (c.1, (pre ++ [false]) ++ c.2)) ++ (r.paths.map fun c => (c.1, (pre ++ [true]) ++ c.2)) := by
      simp [Tree.paths, Function.comp_def]
    rw [hpaths, recordCodes_append]
    convert this using 1
    · simp [Tree.size]
    · simp only [recordCodes_eq]
      rfl

/-- The whole body of GEN on a valid tree (R170, R172). -/
theorem gen_steps (op : BitVec 4) (rest : List Line) (s : State) (hp : s.phase = .running op (genBody ++ rest))
    (hv : s.treeValid = true) {t : Tree} {is : List NodeIdx} (h : s.Holds s.root t is) :
    ∃ k ≤ t.size + 2, Steps k s (resume op rest
      { s with codelen := codeLengths t.codes, codebits := codePatterns t.codes, codesValid := true }) := by
  have hend : ∀ s₁ : State, s₁.phase = .running op (.genEnd :: rest) →
      Steps 1 s₁ (resume op rest { s₁ with codesValid := true }) := fun s₁ h => Steps.one h rfl
  cases t with
  | leaf x =>
    obtain ⟨n, hn, hl, hx, -⟩ := h.leaf_inv
    have h₁ : performLine .genStart op rest s =
        .next (resume op (.genEnd :: rest) (setCode x 1 0 (clearCodes { s with codesValid := false }))) := by
      have hn' : (clearCodes { s with codesValid := false }).nodeAt s.root = some n := hn
      unfold performLine lineGenStart
      rw [if_pos hv]
      refine (withNode_some hn' _).trans ?_
      rw [if_pos hl, hx, withSymbol_field]
      rfl
    have h0 : setCode x 1 0 (clearCodes { s with codesValid := false }) =
        recordCodes [(x, [false])] (clearCodes { s with codesValid := false }) := rfl
    rw [h0, recordCodes_clear] at h₁
    exact ⟨2, by simp, (Steps.cons hp h₁ (hend _ rfl)).to (by rfl)⟩
  | node l r =>
    obtain ⟨n, js, ks, hn, hl, -, -, -⟩ := h.node_inv
    have h₁ : performLine .genStart op rest s =
        .next (resume op (.genWalk s.root 0 0 :: .genEnd :: rest) (clearCodes { s with codesValid := false })) := by
      have hn' : (clearCodes { s with codesValid := false }).nodeAt s.root = some n := hn
      unfold performLine lineGenStart
      rw [if_pos hv]
      refine (withNode_some hn' _).trans ?_
      rw [hl]
      rfl
    have h₂ := genWalk_steps h
      (resume op (.genWalk s.root 0 0 :: .genEnd :: rest) (clearCodes { s with codesValid := false }))
      op (.genEnd :: rest) [] rfl rfl
    have h₃ := hend _ (resume_cons_phase op .genEnd rest (recordCodes
      ((Tree.node l r).paths.map fun c => (c.1, [] ++ c.2))
      (resume op (.genWalk s.root 0 0 :: .genEnd :: rest) (clearCodes { s with codesValid := false }))))
    refine ⟨(Tree.node l r).size + 1 + 1, by omega, (Steps.cons hp h₁ (h₂.trans h₃)).to ?_⟩
    · have hm : ((Tree.node l r).paths.map fun c => (c.1, [] ++ c.2)) = (Tree.node l r).codes := by
        simp [Tree.codes]
      have hr : resume op (.genWalk s.root 0 0 :: .genEnd :: rest) (clearCodes { s with codesValid := false }) =
          clearCodes { s with codesValid := false, phase := .running op (.genWalk s.root 0 0 :: .genEnd :: rest) } := rfl
      rw [hm, hr, recordCodes_clear]
      rfl

/-! ### The table GEN leaves -/

theorem foldl_set_get {α : Type} (f : Symbol × List Bool → α) (cs : List (Symbol × List Bool)) (v : Vector α 257)
    (x : Symbol) (hx : x ∉ cs.map Prod.fst) : (cs.foldl (fun v c => v.set c.1 (f c)) v)[x] = v[x] := by
  induction cs generalizing v with
  | nil => rfl
  | cons c cs ih =>
    simp only [List.map_cons, List.mem_cons, not_or] at hx
    rw [List.foldl_cons, ih _ hx.2]
    have : c.1.val ≠ x.val := fun e => hx.1 (Fin.ext e.symm)
    simp only [Fin.getElem_fin, Vector.getElem_set, if_neg this]

theorem foldl_set_mem {α : Type} (f : Symbol × List Bool → α) (cs : List (Symbol × List Bool)) (v : Vector α 257)
    (hn : (cs.map Prod.fst).Nodup) (c : Symbol × List Bool) (hc : c ∈ cs) :
    (cs.foldl (fun v c => v.set c.1 (f c)) v)[c.1] = f c := by
  induction cs generalizing v with
  | nil => cases hc
  | cons d cs ih =>
    rw [List.map_cons, List.nodup_cons] at hn
    rw [List.foldl_cons]
    rcases List.mem_cons.mp hc with rfl | hc
    · rw [foldl_set_get f cs _ _ hn.1]; simp
    · exact ih _ hn.2 hc

/-- In the table of a tree's codes a symbol of a leaf has its path as its code (R170, R171). -/
theorem codes_of_path {s : State} {l r : Tree} (hl : s.codelen = codeLengths (Tree.node l r).codes)
    (hb : s.codebits = codePatterns (Tree.node l r).codes) (hn : (Tree.node l r).leaves.Nodup)
    (hs : (Tree.node l r).size ≤ 513) {x : Symbol} {p : List Bool} (hp : (x, p) ∈ (Tree.node l r).paths) :
    s.codelen[x] = BitVec.ofNat 9 p.length ∧ s.codelen[x] ≠ 0 ∧ s.codeOf x = p := by
  have hlen := (Tree.node l r).path_length_le _ hp
  simp only at hlen
  rw [← Tree.paths_map_fst] at hn
  have h1 : s.codelen[x] = BitVec.ofNat 9 p.length := by
    rw [hl]; exact foldl_set_mem (fun c => BitVec.ofNat 9 c.2.length) _ _ hn (x, p) hp
  have h2 : s.codebits[x] = BitVec.ofNat 256 (bitsVal p) := by
    rw [hb]; exact foldl_set_mem (fun c => BitVec.ofNat 256 (bitsVal c.2)) _ _ hn (x, p) hp
  have h3 : (s.codelen[x]).toNat = p.length := by rw [h1, BitVec.toNat_ofNat]; omega
  have hpos : p ≠ [] := by
    intro e
    subst e
    simp [Tree.paths] at hp
  refine ⟨h1, fun e => ?_, ?_⟩
  · rw [e] at h3
    exact hpos (List.length_eq_zero_iff.mp h3.symm)
  · rw [State.codeOf, h3, h2, BitVec.toNat_ofNat, msbBits_mod (by omega), msbBits_bitsVal]

/-- In the table of a tree's codes a symbol of no leaf has no code (R170). -/
theorem codes_of_other {s : State} {t : Tree} (hl : s.codelen = codeLengths t.codes) {x : Symbol} (hx : x ∉ t.leaves) :
    s.codelen[x] = 0 := by
  have hk : t.codes.map Prod.fst = t.leaves := by
    cases t with
    | leaf y => rfl
    | node l r => exact Tree.paths_map_fst _
  rw [hl, codeLengths]
  rw [foldl_set_get (fun c => BitVec.ofNat 9 c.2.length) _ _ _ (by rw [hk]; exact hx)]
  simp

theorem foldl_lengths_le (cs : List (Symbol × List Bool)) (hc : ∀ c ∈ cs, c.2.length ≤ 256) (v : Vector (BitVec 9) 257)
    (hv : ∀ x : Symbol, (v[x]).toNat ≤ 256) (x : Symbol) :
    ((cs.foldl (fun v c => v.set c.1 (BitVec.ofNat 9 c.2.length)) v)[x]).toNat ≤ 256 := by
  induction cs generalizing v with
  | nil => exact hv x
  | cons c cs ih =>
    rw [List.foldl_cons]
    refine ih (fun d hd => hc d (by simp [hd])) _ fun y => ?_
    have h256 := hc c (by simp)
    simp only [Fin.getElem_fin, Vector.getElem_set]
    split
    · rw [BitVec.toNat_ofNat]; omega
    · exact hv y

/-- Every code GEN records has at most 256 bits (R176). -/
theorem codeLengths_le {t : Tree} (ht : t.size ≤ 513) (x : Symbol) : ((codeLengths t.codes)[x]).toNat ≤ 256 := by
  refine foldl_lengths_le t.codes ?_ _ (by simp) x
  cases t with
  | leaf y => intro c hc; simp [Tree.codes] at hc; simp [hc]
  | node l r =>
    intro c hc
    have := (Tree.node l r).path_length_le c hc
    omega

end Sys2Proof.Machine
end

