-- ==== Sys2Proof/Laws/Count.lean ====
section
/-! SUPPORT. Laws of the frequency counter: its run from the current position to the end of the input. -/

namespace Sys2Proof.Machine

/-- Adding symbols to a table one by one. -/
def tally (f : Vector Word 257) (xs : List Symbol) : Vector Word 257 := xs.foldl (fun f (x : Symbol) => f.set x (f[x] + 1)) f

theorem tally_get (f : Vector Word 257) (xs : List Symbol) (y : Symbol) :
    (tally f xs)[y] = f[y] + BitVec.ofNat 32 (xs.count y) := by
  induction xs generalizing f with
  | nil => simp [tally]
  | cons x xs ih =>
    have h : tally f (x :: xs) = tally (f.set x (f[x] + 1)) xs := rfl
    rw [h, ih, List.count_cons]
    by_cases hxy : x = y
    · subst hxy; simp [BitVec.ofNat_add]; ac_rfl
    · have : x.val ≠ y.val := fun e => hxy (Fin.ext e)
      simp [this, hxy]

theorem chunkCount_zero {s : State} (h : 8 * s.input.length < s.inPos + 8) : s.chunkCount = 0 := by
  unfold State.chunkCount; omega

theorem chunkCount_succ {s : State} (h : s.inPos + 8 ≤ 8 * s.input.length) :
    s.chunkCount = ({ s with inPos := s.inPos + 8 } : State).chunkCount + 1 := by
  simp only [State.chunkCount]; omega

theorem chunks_nil {s : State} (h : 8 * s.input.length < s.inPos + 8) : s.chunks = [] := by
  simp [State.chunks, chunkCount_zero h]

theorem chunks_cons {s : State} (h : s.inPos + 8 ≤ 8 * s.input.length) :
    s.chunks = s.chunk 0 :: ({ s with inPos := s.inPos + 8 } : State).chunks := by
  rw [State.chunks, chunkCount_succ h, List.range_succ_eq_map, List.map_cons, List.map_map, State.chunks]
  congr 1
  apply List.map_congr_left
  intro k _
  simp only [Function.comp, State.chunk]
  congr 4
  omega

theorem chunks_length (s : State) : s.chunks.length = s.chunkCount := by simp [State.chunks]

theorem readBits_chunk {s : State} (h : s.inPos + 8 ≤ 8 * s.input.length) :
    readBits 8 s = (some (bitsVal (bitsFrom s.input s.inPos 8)), { s with inPos := s.inPos + 8 }) := by
  rw [readBits, if_neg (by omega)]

theorem chunk_zero (s : State) : byteSymbol (BitVec.ofNat 8 (bitsVal (bitsFrom s.input s.inPos 8))) = s.chunk 0 := by
  simp [State.chunk]

/-- The COUNT loop to the end of the input (R140, R141, R144). -/
theorem countByte_steps (op : BitVec 4) (rest : List Line) (m : Nat) :
    ∀ (s : State) (total : Word), s.phase = .running op (.countByte total :: rest) → s.chunkCount = m →
      total.toNat + m ≤ 4294967294 → s.inPos ≤ 8 * s.input.length →
      Steps (m + 1) s (resume op rest { s with freq := tally s.freq s.chunks, inPos := 8 * s.input.length }) := by
  induction m with
  | zero =>
    intro s total hp hm _ hi
    have hlt : 8 * s.input.length < s.inPos + 8 := by unfold State.chunkCount at hm; omega
    refine Steps.one hp ?_
    simp only [performLine, lineCountByte, readBits_none _ _ hlt, chunks_nil hlt, proceed]
    rfl
  | succ m ih =>
    intro s total hp hm ht hi
    have hle : s.inPos + 8 ≤ 8 * s.input.length := by unfold State.chunkCount at hm; omega
    have hne : total ≠ Config.countMax := by
      intro e; rw [e] at ht; simp [Config.countMax] at ht
    have hl : performLine (.countByte total) op rest s = .next (resume op (.countByte (total + 1) :: rest)
        (bumpFreq (s.chunk 0) { s with inPos := s.inPos + 8 })) := by
      simp only [performLine, lineCountByte, readBits_chunk hle, if_neg hne, proceed, chunk_zero]
    refine Steps.cons hp hl ?_
    have hc := chunkCount_succ hle
    have htn : (total + 1).toNat = total.toNat + 1 := by
      rw [BitVec.toNat_add]; simp; omega
    have := ih (resume op (.countByte (total + 1) :: rest) (bumpFreq (s.chunk 0) { s with inPos := s.inPos + 8 }))
      (total + 1) rfl (by rw [hm] at hc; exact (Nat.succ.inj hc).symm) (by omega)
      (by simpa [resume, bumpFreq] using hle)
    rw [chunks_cons hle]
    exact this

/-- Chunks counted one after another, with more to come or not (R140, R141). -/
theorem countByte_prefix (op : BitVec 4) (rest : List Line) (xs : List Symbol) :
    ∀ (s : State) (total : Word) (ys : List Symbol), s.chunks = xs ++ ys → total.toNat + xs.length ≤ 4294967294 →
      Steps xs.length (resume op (.countByte total :: rest) s)
        (resume op (.countByte (total + BitVec.ofNat 32 xs.length) :: rest)
          { s with freq := tally s.freq xs, inPos := s.inPos + 8 * xs.length }) := by
  induction xs with
  | nil => intro s total ys _ _; simp [Steps, tally]
  | cons x xs ih =>
    intro s total ys hx ht
    have hle : s.inPos + 8 ≤ 8 * s.input.length := by
      by_contra h
      rw [chunks_nil (by omega)] at hx
      cases hx
    rw [chunks_cons hle, List.cons_append, List.cons.injEq] at hx
    obtain ⟨h0, hx⟩ := hx
    rw [List.length_cons] at ht
    have hne : total ≠ Config.countMax := by
      intro e; rw [e] at ht; simp [Config.countMax] at ht
    have hl : performLine (.countByte total) op rest (resume op (.countByte total :: rest) s) =
        .next (resume op (.countByte (total + 1) :: rest) (bumpFreq x { s with inPos := s.inPos + 8 })) := by
      rw [← h0]
      simp only [performLine, lineCountByte, readBits_chunk (s := resume op (.countByte total :: rest) s) hle, if_neg hne,
        proceed, chunk_zero]
      rfl
    have htn : (total + 1).toNat = total.toNat + 1 := by
      rw [BitVec.toNat_add]; simp; omega
    have h := ih (bumpFreq x { s with inPos := s.inPos + 8 }) (total + 1) ys hx (by rw [htn]; omega)
    have e : total + 1 + BitVec.ofNat 32 xs.length = total + BitVec.ofNat 32 (xs.length + 1) := by
      rw [BitVec.add_assoc]
      congr 1
      exact BitVec.eq_of_toNat_eq (by simp [BitVec.toNat_add, Nat.add_comm])
    rw [e] at h
    have h' := Steps.cons (rfl : (resume op (.countByte total :: rest) s).phase = _) hl h
    rw [List.length_cons]
    refine h'.to ?_
    congr 1
    simp only [bumpFreq, tally, List.foldl_cons, State.mk.injEq, and_true, true_and]
    omega

/-- A chunk more than COUNT may count raises COUNT_OVERFLOW with that chunk read (R140, R142). -/
theorem countByte_raise (op : BitVec 4) (rest : List Line) {s : State} {y : Symbol} {ys : List Symbol}
    (hy : s.chunks = y :: ys) : Steps 2 (resume op (.countByte Config.countMax :: rest) s)
      (raiseError .countOverflow { s with inPos := s.inPos + 8 }) := by
  have hle : s.inPos + 8 ≤ 8 * s.input.length := by
    by_contra h
    rw [chunks_nil (by omega)] at hy
    cases hy
  refine Steps.cons rfl ?_ (raise_step op rest .countOverflow { s with inPos := s.inPos + 8 })
  simp only [performLine, lineCountByte,
    readBits_chunk (s := resume op (.countByte Config.countMax :: rest) s) hle, if_true, proceed]
  rfl

/-- The tally of the chunks with symbol 256 set to 1 is the table COUNT leaves (R141, R143). -/
theorem tally_eof (s : State) : (tally (Vector.replicate 257 0) s.chunks).set eofSymbol 1 = s.counts := by
  apply Vector.ext
  intro k hk
  rw [Vector.getElem_set]
  by_cases e : (eofSymbol : Symbol).val = k
  · have : (⟨k, hk⟩ : Symbol) = eofSymbol := Fin.ext e.symm
    simp [State.counts, e, this]
  · have : (⟨k, hk⟩ : Symbol) ≠ eofSymbol := fun h => e (congrArg Fin.val h).symm
    have ht := tally_get (Vector.replicate 257 0) s.chunks ⟨k, hk⟩
    simp only [Fin.getElem_fin, Vector.getElem_replicate] at ht
    rw [if_neg e, ht]
    simp [State.counts, this]

theorem countEof_step (op : BitVec 4) (rest : List Line) (s : State) (hp : s.phase = .running op (.countEof :: rest)) :
    Steps 1 s (resume op rest { s with freq := s.freq.set eofSymbol 1 }) := Steps.one hp rfl

theorem countClear_step (op : BitVec 4) (rest : List Line) (s : State)
    (hp : s.phase = .running op (.countClear :: rest)) :
    Steps 1 s (resume op (.countByte 0 :: rest) { s with freq := Vector.replicate 257 0 }) := Steps.one hp rfl

/-- The whole body of COUNT (R140, R141, R143, R144). -/
theorem count_steps (op : BitVec 4) (rest : List Line) (s : State) (hp : s.phase = .running op (countBody ++ rest))
    (hm : s.chunkCount ≤ 4294967294) (hi : s.inPos ≤ 8 * s.input.length) :
    Steps (s.chunkCount + 3) s (resume op rest { s with freq := s.counts, inPos := 8 * s.input.length }) := by
  have hf := tally_eof s
  have h₁ := countClear_step op (.countEof :: rest) s hp
  generalize (Vector.replicate 257 0 : Vector Word 257) = z at hf h₁
  have h₂ := countByte_steps op (.countEof :: rest) s.chunkCount
    (resume op (.countByte 0 :: .countEof :: rest) { s with freq := z }) 0 rfl rfl (by simpa using hm) hi
  have h₃ := countEof_step op rest (resume op (.countEof :: rest)
    { s with freq := tally z s.chunks, inPos := 8 * s.input.length }) rfl
  have := (h₁.trans h₂).trans h₃
  rw [show 1 + (s.chunkCount + 1) + 1 = s.chunkCount + 3 by omega] at this
  rw [← hf]
  exact this

end Sys2Proof.Machine
end

