-- ==== Sys2Proof/Laws/Header.lean ====
section
/-! SUPPORT. Laws of the header codec: WHDR writes exactly a tree's header, and RHDR reads a header back into the tree. -/

namespace Sys2Proof.Machine

/-! ### Writing -/

theorem putBits_setPhase (bits : List Bool) (s : State) (p : Phase) :
    putBits bits { s with phase := p } = { putBits bits s with phase := p } := by
  induction bits generalizing s with
  | nil => rfl
  | cons b bits ih =>
    have h : putBit b { s with phase := p } = { putBit b s with phase := p } := by unfold putBit; split <;> rfl
    rw [putBits_cons, putBits_cons, h, ih]

/-- Writing bits and going on can change places. -/
theorem putBits_resume (bits : List Bool) (op : BitVec 4) (todo : List Line) (s : State) :
    putBits bits (resume op todo s) = resume op todo (putBits bits s) := putBits_setPhase _ _ _

/-- `emit(i)` writes the header of the tree at `i` (R181, R182). -/
theorem hdrEmit_steps {s : State} {i : NodeIdx} {t : Tree} {is : List NodeIdx} (h : s.Holds i t is) :
    ∀ (s₁ : State) (op : BitVec 4) (rest : List Line), s₁.node = s.node →
      s₁.phase = .running op (.hdrEmit i :: rest) →
      Steps (t.size + t.leaves.length) s₁ (resume op rest (putBits t.headerBits s₁)) := by
  induction h with
  | @leaf i n x hn hl hx =>
    intro s₁ op rest hs hp
    rw [← nodeAt_congr hs] at hn
    have h₁ : performLine (.hdrEmit i) op rest s₁ =
        .next (resume op (.hdrSymbol (symbolField x) :: rest) (putBits [true] s₁)) := by
      simp [performLine, lineHdrEmit, withNode_some hn, hl, hx, proceed, writeBits, msbBits]
    have h₂ := putBits_resume (msbBits 9 x.val) op (.hdrSymbol (symbolField x) :: rest) (putBits [true] s₁)
    refine (Steps.cons hp h₁ (Steps.one rfl rfl)).to ?_
    rw [writeBits, symbolField_toNat, h₂, resume_resume, ← putBits_append, Tree.headerBits_leaf]
    rfl
  | @node i n l r is js hn hl left right ihl ihr =>
    intro s₁ op rest hs hp
    rw [← nodeAt_congr hs] at hn
    have h₁ : performLine (.hdrEmit i) op rest s₁ =
        .next (resume op (.hdrEmit n.left :: .hdrEmit n.right :: rest) (putBits [false] s₁)) := by
      simp [performLine, lineHdrEmit, withNode_some hn, hl, proceed, writeBits, msbBits]
    have h₂ := ihl (resume op (.hdrEmit n.left :: .hdrEmit n.right :: rest) (putBits [false] s₁)) op
      (.hdrEmit n.right :: rest) (by simpa [resume, putBits_node] using hs) rfl
    have h₃ := ihr _ op rest (by rw [putBits_resume, resume_resume]; simpa [resume, putBits_node] using hs) (resume_cons_phase op (.hdrEmit n.right) rest (putBits l.headerBits
      (resume op (.hdrEmit n.left :: .hdrEmit n.right :: rest) (putBits [false] s₁))))
    have := Steps.cons hp h₁ (h₂.trans h₃)
    have hk : l.size + l.leaves.length + (r.size + r.leaves.length) + 1 =
        (Tree.node l r).size + (Tree.node l r).leaves.length := by
      simp only [Tree.size, Tree.leaves, List.length_append]; omega
    rw [Tree.headerBits_node, ← List.singleton_append, putBits_append, putBits_append, ← hk]
    exact this.to (by simp only [putBits_resume, resume_resume])

/-- The whole body of WHDR on a valid tree (R181). -/
theorem whdr_steps (op : BitVec 4) (rest : List Line) (s : State) (hp : s.phase = .running op (whdrBody ++ rest))
    (hv : s.treeValid = true) {t : Tree} {is : List NodeIdx} (h : s.Holds s.root t is) :
    Steps (t.size + t.leaves.length + 1) s (resume op rest (putBits t.headerBits s)) := by
  have h₁ : performLine .hdrStart op rest s = .next (resume op (.hdrEmit s.root :: rest) s) := by
    simp only [performLine, lineHdrStart, if_pos hv, proceed]
  have h₂ := hdrEmit_steps h (resume op (.hdrEmit s.root :: rest) s) op rest rfl rfl
  exact (Steps.cons hp h₁ h₂).to (by rw [putBits_resume, resume_resume])

/-! ### Reading -/

theorem bitsFrom_inBits (s : State) (n : Nat) (hi : s.inPos ≤ 8 * s.input.length) :
    bitsFrom s.input s.inPos (min n s.bitsLeft) = s.inBits.take n := by
  rw [bitsFrom_eq _ _ _ (by unfold State.bitsLeft; omega), State.inBits]
  apply List.ext_getElem?
  intro k
  simp only [List.getElem?_take, List.getElem?_drop]
  by_cases h : k < n
  · by_cases h2 : k < s.bitsLeft
    · simp [h, h2]
    · rw [if_neg (by omega), if_pos h, List.getElem?_eq_none]
      simp [State.bitsLeft] at *; omega
  · rw [if_neg (by omega), if_neg h]

theorem inBits_bound {s : State} {bs more : List Bool} (hb : s.inBits = bs ++ more) (hne : bs ≠ []) :
    s.inPos + bs.length ≤ 8 * s.input.length := by
  have := congrArg List.length hb
  rw [inBits_length, List.length_append, State.bitsLeft] at this
  have : 0 < bs.length := List.length_pos_iff.mpr hne
  omega

/-- The token at a marker 0 (R96, R185). -/
theorem tokenAt_internal {s : State} {more : List Bool} (hb : s.inBits = false :: more) :
    ∃ rest, tokenAt s = .instr .hdrInternal rest := by
  have hi := inBits_bound (bs := [false]) hb (by simp)
  refine ⟨more.take 9, ?_⟩
  rw [tokenAt, bitsFrom_inBits s 10 (by simp at hi; omega), hb]
  rfl

/-- The token at a marker 1 followed by a whole payload (R97, R185). -/
theorem tokenAt_leaf {s : State} {v : SymField} {more : List Bool}
    (hb : s.inBits = true :: (msbBits 9 v.toNat ++ more)) : ∃ rest, tokenAt s = .instr (.hdrLeaf v) rest := by
  have hi := inBits_bound (bs := true :: msbBits 9 v.toNat) hb (by simp)
  refine ⟨[], ?_⟩
  have ht : s.inBits.take 10 = true :: msbBits 9 v.toNat := by
    rw [hb, List.take_succ_cons, List.take_left' (by simp)]
  have hv : BitVec.ofNat 9 (bitsVal (msbBits 9 v.toNat)) = v := by
    rw [bitsVal_msbBits, Nat.mod_eq_of_lt v.isLt]; simp
  rw [tokenAt, bitsFrom_inBits s 10 (by simp at hi; omega), ht]
  simp [decode, decodeToken, hv, List.take_of_length_le]

theorem Tree.records_length (t : Tree) (n : Nat) : (t.records n).length = t.size := by
  induction t generalizing n with
  | leaf x => rfl
  | node l r ihl ihr => simp [Tree.records, Tree.size, ihl, ihr]

theorem nodeAt_set (s : State) (i : Nat) (n : Node) (h : i < 513) (j : NodeIdx) :
    ({ s with node := s.node.set i n h } : State).nodeAt j = if i = j.toNat then some n else s.nodeAt j := by
  simp only [State.nodeAt, Vector.getElem?_set]

theorem setNode_lt {i : NodeIdx} {n : Node} {s : State} {k : State → Host.Outcome State Fault Refusal}
    (h : i.toNat < 513) : setNode i n s k = k { s with node := s.node.set i.toNat n h } := by rw [setNode, dif_pos h]

/-- A leaf token at the line that awaits it, with room in the arena (R185, R187). -/
theorem execHdrLeaf_room {op : BitVec 4} {rest : List Line} {stack : List Frame} {s : State} {v : SymField}
    (hp : s.phase = .running op (.readNode stack :: rest)) (hc : s.nodeCount.toNat < 513) :
    execHdrLeaf v s = if v.toNat > Config.eofSym then
        proceed op (.raise .headerSymbolRange :: rest) { s with nodeCount := s.nodeCount + 1, inPos := s.inPos + 1 + 9 }
      else returnNode op rest s.nodeCount stack { s with
        node := s.node.set s.nodeCount.toNat (headerLeaf v) hc
        nodeCount := s.nodeCount + 1
        inPos := s.inPos + 1 + 9 } := by
  have hne : s.nodeCount.toNat ≠ Config.nodeCap := by simp [Config.nodeCap]; omega
  cases s
  cases hp
  simp only [execHdrLeaf, enterNode, if_neg hne, setNode_lt hc, allocate]

/-- An internal token at the line that awaits it, with room in the arena (R185). -/
theorem execHdrInternal_room {op : BitVec 4} {rest : List Line} {stack : List Frame} {s : State}
    (hp : s.phase = .running op (.readNode stack :: rest)) (hc : s.nodeCount.toNat < 513) :
    execHdrInternal s = .next (resume op (.readNode ({ node := s.nodeCount, left := none } :: stack) :: rest)
      { s with inPos := s.inPos + 1, nodeCount := s.nodeCount + 1 }) := by
  have hne : s.nodeCount.toNat ≠ Config.nodeCap := by simp [Config.nodeCap]; omega
  cases s
  cases hp
  simp only [execHdrInternal, enterNode, if_neg hne, allocate, proceed]

/-- The state once `read_node()` has read a whole subtree, before its return. -/
def afterSubtree (s : State) (t : Tree) (p : Phase) (v : Vector Node 513) : State :=
  { s with
    phase := p
    node := v
    nodeCount := BitVec.ofNat 10 (s.nodeCount.toNat + t.size)
    inPos := s.inPos + t.headerBits.length }

/-- `v` is the arena `w` with the records of a tree from index `n` up. -/
def recordsAt (v w : Vector Node 513) (t : Tree) (n : Nat) : Prop :=
  ∀ j, v[j]? = if n ≤ j ∧ j < n + t.size then (t.records n)[j - n]? else w[j]?

theorem recordsAt_leaf (w : Vector Node 513) (x : Symbol) (n : Nat) (h : n < 513) :
    recordsAt (w.set n (headerLeaf (symbolField x)) h) w (.leaf x) n := by
  intro j
  rw [Vector.getElem?_set]
  by_cases e : n = j
  · simp [e, Tree.size, Tree.records]
  · rw [if_neg e, if_neg (by simp only [Tree.size]; omega)]

theorem recordsAt_node {u v w : Vector Node 513} {l r : Tree} {n : Nat} (h : n < 513)
    (hl : recordsAt v u l (n + 1)) (hr : recordsAt w v r (n + 1 + l.size)) :
    recordsAt (w.set n (headerNode (BitVec.ofNat 10 (n + 1)) (BitVec.ofNat 10 (n + 1 + l.size))) h) u (.node l r) n := by
  intro j
  rw [Vector.getElem?_set, hr j, hl j]
  have hs : (Tree.node l r).size = l.size + r.size + 1 := rfl
  have ht : (Tree.node l r).records n = headerNode (BitVec.ofNat 10 (n + 1)) (BitVec.ofNat 10 (n + 1 + l.size)) ::
      (l.records (n + 1) ++ r.records (n + 1 + l.size)) := rfl
  rw [ht]
  by_cases e : n = j
  · subst e; simp [hs]
  · rw [if_neg e]
    by_cases hj : n < j
    · obtain ⟨k, rfl⟩ := Nat.exists_eq_add_of_lt hj
      have hk : n + k + 1 - n = k + 1 := by omega
      have hk1 : n + k + 1 - (n + 1) = k := by omega
      have hk2 : n + k + 1 - (n + 1 + l.size) = k - l.size := by omega
      rw [hk, hk1, hk2, List.getElem?_cons_succ, List.getElem?_append, l.records_length]
      by_cases h1 : k < l.size
      · rw [if_neg (by omega), if_pos (by omega), if_pos h1, if_pos (by omega)]
      · by_cases h2 : k < l.size + r.size
        · rw [if_pos (by omega), if_neg h1, if_pos (by omega)]
        · rw [if_neg (by omega), if_neg (by omega), if_neg (by omega)]
    · rw [if_neg (by omega), if_neg (by omega), if_neg (by omega)]

/-- `read_node()` on the header of a tree: it takes the tree's bits, allocates its nodes from the next free index up,
writes its records there, and returns the index of its root (R185). -/
theorem readNode_steps (op : BitVec 4) (rest : List Line) (t : Tree) :
    ∀ (s : State) (stack : List Frame) (more : List Bool), s.phase = .running op (.readNode stack :: rest) →
      s.inBits = t.headerBits ++ more → s.nodeCount.toNat + t.size ≤ 513 →
      ∃ p v, recordsAt v s.node t s.nodeCount.toNat ∧
        ∀ u, returnNode op rest s.nodeCount stack (afterSubtree s t p v) = .next u → Steps t.size s u := by
  induction t with
  | leaf x =>
    intro s stack more hp hb hc
    have hb' : s.inBits = true :: (msbBits 9 (symbolField x).toNat ++ more) := by
      rw [hb, Tree.headerBits_leaf, symbolField_toNat]; rfl
    obtain ⟨ts, ht⟩ := tokenAt_leaf hb'
    have hc' : s.nodeCount.toNat + 1 ≤ 513 := hc
    have hlt : s.nodeCount.toNat < 513 := by omega
    refine ⟨s.phase, _, recordsAt_leaf s.node x _ hlt, fun u hu => Steps.one hp ?_⟩
    have hsym : ¬(symbolField x).toNat > Config.eofSym := by rw [symbolField_toNat]; simp [Config.eofSym]; omega
    have h1 : s.nodeCount + 1 = BitVec.ofNat 10 (s.nodeCount.toNat + (Tree.leaf x).size) := by
      apply BitVec.eq_of_toNat_eq; simp [Tree.size]
    have h2 : s.inPos + 1 + 9 = s.inPos + (Tree.leaf x).headerBits.length := by rw [Tree.headerBits_leaf]; simp
    simp only [performLine, lineReadNode, ht, execHdrLeaf_room hp hlt, if_neg hsym, h1, h2]
    exact hu
  | node l r ihl ihr =>
    intro s stack more hp hb hc
    rw [Tree.headerBits_node] at hb
    obtain ⟨ts, ht⟩ := tokenAt_internal hb
    have hc' : s.nodeCount.toNat + (l.size + r.size + 1) ≤ 513 := hc
    have hlt : s.nodeCount.toNat < 513 := by omega
    have hn1 : (s.nodeCount + 1).toNat = s.nodeCount.toNat + 1 := by
      rw [BitVec.toNat_add]; simp; omega
    have h₁ : performLine (.readNode stack) op rest s =
        .next (resume op (.readNode ({ node := s.nodeCount, left := none } :: stack) :: rest)
          { s with inPos := s.inPos + 1, nodeCount := s.nodeCount + 1 }) := by
      simp only [performLine, lineReadNode, ht, execHdrInternal_room hp hlt]
    have hbits := inBits_advance s 1
    rw [hb] at hbits
    obtain ⟨pl, vl, hvl, hretl⟩ := ihl _ ({ node := s.nodeCount, left := none } :: stack) (r.headerBits ++ more)
      (resume_cons_phase op _ rest { s with inPos := s.inPos + 1, nodeCount := s.nodeCount + 1 })
      (by simpa [resume, State.inBits] using hbits)
      (by show (s.nodeCount + 1).toNat + _ ≤ _; omega)
    generalize hsl : afterSubtree (resume op (.readNode ({ node := s.nodeCount, left := none } :: stack) :: rest)
      { s with inPos := s.inPos + 1, nodeCount := s.nodeCount + 1 }) l pl vl = sl at hretl
    have hlc : sl.nodeCount = BitVec.ofNat 10 (s.nodeCount.toNat + 1 + l.size) := by
      rw [← hsl, ← hn1]; rfl
    have hlcn : sl.nodeCount.toNat = s.nodeCount.toNat + 1 + l.size := by
      rw [hlc, BitVec.toNat_ofNat]; omega
    have hlp : sl.inPos = s.inPos + 1 + l.headerBits.length := by rw [← hsl]; rfl
    have hli : sl.input = s.input := by rw [← hsl]; rfl
    have hln : sl.node = vl := by rw [← hsl]; rfl
    obtain ⟨pr, vr, hvr, hretr⟩ := ihr _ ({ node := s.nodeCount, left := some (s.nodeCount + 1) } :: stack) more
      (resume_cons_phase op _ rest sl)
      (by
        have := congrArg (List.drop (1 + l.headerBits.length)) hb
        rw [State.inBits, List.drop_drop, ← Nat.add_assoc, ← hlp, ← hli] at this
        rw [show (resume op (.readNode ({ node := s.nodeCount, left := some (s.nodeCount + 1) } :: stack) :: rest)
          sl).inBits = (byteBits sl.input).drop sl.inPos from rfl, this, Nat.add_comm 1]
        rw [List.cons_append, List.drop_succ_cons, List.append_assoc, List.drop_left])
      (by show sl.nodeCount.toNat + _ ≤ _; omega)
    have hvl' : recordsAt vl s.node l (s.nodeCount.toNat + 1) := hn1 ▸ hvl
    have hvr' : recordsAt vr vl r (s.nodeCount.toNat + 1 + l.size) := by rw [← hlcn, ← hln]; exact hvr
    refine ⟨pr, _, recordsAt_node hlt hvl' hvr', fun u hu => ?_⟩
    have h₂ := hretl (resume op (.readNode ({ node := s.nodeCount, left := some (s.nodeCount + 1) } :: stack) :: rest) sl)
      rfl
    refine Steps.cons hp h₁ ((h₂.trans (hretr u ?_)))
    have e1 : s.nodeCount + 1 = BitVec.ofNat 10 (s.nodeCount.toNat + 1) := by
      apply BitVec.eq_of_toNat_eq; simp
    have e2 : afterSubtree s (.node l r) pr
        (vr.set s.nodeCount.toNat (headerNode (s.nodeCount + 1) sl.nodeCount) hlt) =
      { afterSubtree (resume op (.readNode ({ node := s.nodeCount, left := some (s.nodeCount + 1) } :: stack) :: rest) sl)
          r pr vr with
        node := vr.set s.nodeCount.toNat (headerNode (s.nodeCount + 1) sl.nodeCount) hlt } := by
      have a1 : s.nodeCount.toNat + (Tree.node l r).size = sl.nodeCount.toNat + r.size := by
        rw [hlcn]; simp only [Tree.size]; omega
      have a2 : s.inPos + (Tree.node l r).headerBits.length = sl.inPos + r.headerBits.length := by
        rw [hlp, Tree.headerBits_node]; simp; omega
      simp only [afterSubtree, resume, a1, a2]
      subst hsl
      rfl
    rw [← e1, ← hlc, e2] at hu
    simp only [returnNode]
    rw [setNode_lt hlt]
    exact hu

/-- An arena that holds a tree's records holds the tree, its nodes in preorder (R25, R185). -/
theorem holds_of_records (t : Tree) :
    ∀ (s : State) (n : Nat), n + t.size ≤ 513 → (∀ k < t.size, s.node[n + k]? = (t.records n)[k]?) →
      s.Holds (BitVec.ofNat 10 n) t ((List.range' n t.size).map (BitVec.ofNat 10)) := by
  induction t with
  | leaf x =>
    intro s n hn hr
    have h0 := hr 0 (by simp [Tree.size])
    have hm : (BitVec.ofNat 10 n).toNat = n := by
      have : n + 1 ≤ 513 := hn
      rw [BitVec.toNat_ofNat]; omega
    refine .leaf (n := headerLeaf (symbolField x)) ?_ rfl rfl
    rw [State.nodeAt, hm]; exact h0
  | node l r ihl ihr =>
    intro s n hn hr
    have hs : (Tree.node l r).size = l.size + r.size + 1 := rfl
    have hm : (BitVec.ofNat 10 n).toNat = n := by rw [BitVec.toNat_ofNat]; omega
    have ht : (Tree.node l r).records n = headerNode (BitVec.ofNat 10 (n + 1)) (BitVec.ofNat 10 (n + 1 + l.size)) ::
        (l.records (n + 1) ++ r.records (n + 1 + l.size)) := rfl
    rw [ht] at hr
    have h0 := hr 0 (by omega)
    have hl := ihl s (n + 1) (by omega) fun k hk => by
      have := hr (k + 1) (by omega)
      rwa [List.getElem?_cons_succ, List.getElem?_append_left (by rw [l.records_length]; exact hk),
        ← Nat.add_assoc, Nat.add_right_comm] at this
    have hrr := ihr s (n + 1 + l.size) (by omega) fun k hk => by
      have := hr (l.size + k + 1) (by omega)
      rw [List.getElem?_cons_succ, List.getElem?_append_right (by rw [l.records_length]; omega), l.records_length,
        Nat.add_sub_cancel_left] at this
      rw [← this]; congr 1; omega
    have he : (List.range' n (Tree.node l r).size).map (BitVec.ofNat 10) = BitVec.ofNat 10 n ::
        ((List.range' (n + 1) l.size).map (BitVec.ofNat 10) ++
          (List.range' (n + 1 + l.size) r.size).map (BitVec.ofNat 10)) := by
      rw [hs, List.range'_succ, ← List.range'_append_1, List.map_cons, List.map_append]
    rw [he]
    refine .node (n := headerNode (BitVec.ofNat 10 (n + 1)) (BitVec.ofNat 10 (n + 1 + l.size))) ?_ rfl hl hrr
    rw [State.nodeAt, hm]; exact h0

theorem recordsAt_clear {v : Vector Node 513} {t : Tree}
    (h : recordsAt v (Vector.replicate 513 Node.zero) t 0) : v = headerArena t := by
  apply Vector.ext
  intro k hk
  have h' := h k
  simp only [Vector.getElem?_eq_getElem hk, Vector.getElem_replicate] at h'
  simp only [headerArena, arenaOf, Vector.getElem_ofFn]
  by_cases hks : k < t.size
  · rw [if_pos (by omega)] at h'
    have hk' : k - 0 = k := rfl
    rw [hk'] at h'
    rw [← h']; rfl
  · rw [if_neg (by omega)] at h'
    rw [List.getElem?_eq_none (by rw [t.records_length]; omega)]
    exact Option.some.inj h'

theorem headerArena_holds (t : Tree) (ht : t.size ≤ 513) (s : State) (hs : s.node = headerArena t) :
    s.Holds 0 t ((List.range t.size).map (BitVec.ofNat 10)) := by
  have := holds_of_records t s 0 (by omega) fun k hk => by
    have hk' : k < 513 := by omega
    rw [Nat.zero_add, hs, headerArena, arenaOf, Vector.getElem?_ofFn, dif_pos hk',
      List.getElem?_eq_getElem (by rw [t.records_length]; exact hk)]
    rfl
  rwa [← List.range_eq_range'] at this

/-- The whole body of RHDR on the header of a tree that is not one leaf (R184, R185). -/
theorem rhdr_steps (op : BitVec 4) (rest : List Line) (s : State) (t : Tree) (more : List Bool)
    (hp : s.phase = .running op (rhdrBody ++ rest)) (hn : t.isNode = true) (hb : s.inBits = t.headerBits ++ more)
    (hs : t.size ≤ 513) : Steps (t.size + 4) s (resume op rest { s with
      codesValid := false
      root := 0
      node := headerArena t
      nodeCount := BitVec.ofNat 10 t.size
      treeValid := true
      inPos := s.inPos + t.headerBits.length }) := by
  have h₁ : Steps 3 s (resume op (.readNode [] :: rest)
      { clearArena { s with treeValid := false, codesValid := false } with root := 0 }) :=
    Steps.cons hp rfl (Steps.cons rfl rfl (Steps.one rfl rfl))
  obtain ⟨p, v, hv, hret⟩ := readNode_steps op rest t _ [] more (resume_cons_phase op _ rest
      { clearArena { s with treeValid := false, codesValid := false } with root := 0 }) hb
    (by show (0 : NodeIdx).toNat + _ ≤ _; simpa using hs)
  have hv' := recordsAt_clear hv
  subst hv'
  have h₂ := hret _ rfl
  have hc : BitVec.ofNat 10 ((0 : NodeIdx).toNat + t.size) = BitVec.ofNat 10 t.size := by simp
  generalize hu : resume op (Line.rhdrRoot _ :: rest) _ = u at h₂
  have h₃ : performLine (.rhdrRoot 0) op rest u = .next (resume op rest { u with root := 0, treeValid := true }) := by
    have hH := headerArena_holds t hs { u with root := 0 } (by rw [← hu]; rfl)
    cases t with
    | leaf x => simp [Tree.isNode] at hn
    | node l r =>
      obtain ⟨n, js, ks, hn', hl, -, -, -⟩ := hH.node_inv
      unfold performLine lineRhdrRoot
      refine (withNode_some hn' _).trans ?_
      rw [hl]; rfl
  have h := h₁.trans (h₂.trans (Steps.one (by rw [← hu]; rfl) h₃))
  rw [show 3 + (t.size + 1) = t.size + 4 by omega] at h
  refine h.to ?_
  rw [← hu, ← hc]
  rfl

end Sys2Proof.Machine
end

