-- ==== Sys2Proof/Laws/Stream.lean ====
section
/-! SUPPORT. Laws of the stream codec: ENC writes the codes of the input's chunks, and DEC reads paths back into symbols. -/

namespace Sys2Proof.Machine

/-! ### Encode -/

/-- Write a symbol that has a code (R201). -/
theorem encodeSymbol_coded {x : Symbol} {s : State} (h : s.codelen[x] ≠ 0) (op : BitVec 4) (todo : List Line) :
    encodeSymbol x op todo s = .next (resume op todo (putBits (s.codeOf x) s)) := by
  rw [encodeSymbol, if_neg h]; rfl

/-- A symbol without a code raises UNENCODABLE_SYMBOL (R201, R202). -/
theorem encodeSymbol_uncoded {x : Symbol} {s : State} (h : s.codelen[x] = 0) (op : BitVec 4) (todo : List Line) :
    encodeSymbol x op todo s = .next (raiseError .unencodableSymbol s) := by rw [encodeSymbol, if_pos h]; rfl

theorem codeOf_congr {s s' : State} (h₁ : s'.codelen = s.codelen) (h₂ : s'.codebits = s.codebits) :
    s'.codeOf = s.codeOf := by funext x; simp [State.codeOf, h₁, h₂]

@[simp] theorem State.atPos_atPos (s : State) (p q : Nat) : (s.atPos p).atPos q = s.atPos q := rfl
@[simp] theorem State.atPos_codeOf (s : State) (p : Nat) : (s.atPos p).codeOf = s.codeOf := rfl
@[simp] theorem State.resume_atPos (op : BitVec 4) (l : Line) (ls : List Line) (s : State) (p : Nat) :
    (resume op (l :: ls) s).atPos p = resume op (l :: ls) (s.atPos p) := rfl

theorem putBits_atPos (bits : List Bool) (s : State) (p : Nat) : putBits bits (s.atPos p) = (putBits bits s).atPos p := by
  induction bits generalizing s with
  | nil => rfl
  | cons b bits ih =>
    have h : putBit b (s.atPos p) = (putBit b s).atPos p := by unfold putBit State.atPos; split <;> rfl
    rw [putBits_cons, putBits_cons, h, ih]

@[simp] theorem putBits_codeOf (bits : List Bool) (s : State) : (putBits bits s).codeOf = s.codeOf := by
  rw [putBits_frame]; rfl


/-- The state after the codes of the chunks `xs`. -/
def afterCodes (xs : List Symbol) (s : State) : State :=
  (putBits (xs.flatMap s.codeOf) s).atPos (s.inPos + 8 * xs.length)

@[simp] theorem afterCodes_nil (s : State) : afterCodes [] s = s := rfl

theorem afterCodes_cons (x : Symbol) (xs : List Symbol) (s : State) :
    afterCodes (x :: xs) s = afterCodes xs ((putBits (s.codeOf x) s).atPos (s.inPos + 8)) := by
  simp only [afterCodes, List.flatMap_cons, putBits_append, State.atPos_codeOf, putBits_codeOf, putBits_atPos,
    State.atPos_atPos, atPos_inPos, List.length_cons]
  congr 1
  omega

theorem afterCodes_resume (xs : List Symbol) (op : BitVec 4) (l : Line) (ls : List Line) (s : State) :
    afterCodes xs (resume op (l :: ls) s) = resume op (l :: ls) (afterCodes xs s) := by
  rw [afterCodes, putBits_resume]; rfl

@[simp] theorem afterCodes_input (xs : List Symbol) (s : State) : (afterCodes xs s).input = s.input := by
  simp [afterCodes]
@[simp] theorem afterCodes_inPos (xs : List Symbol) (s : State) : (afterCodes xs s).inPos = s.inPos + 8 * xs.length := rfl
@[simp] theorem afterCodes_codelen (xs : List Symbol) (s : State) : (afterCodes xs s).codelen = s.codelen := by
  simp [afterCodes]
@[simp] theorem afterCodes_codeOf (xs : List Symbol) (s : State) : (afterCodes xs s).codeOf = s.codeOf := by
  simp [afterCodes]

/-- The read of a chunk: its check and its code are the next line (R200). -/
theorem encByte_read (op : BitVec 4) (rest : List Line) {s : State} (h : s.inPos + 8 ≤ 8 * s.input.length) :
    ∃ b, byteSymbol b = s.chunk 0 ∧
      Steps 1 (resume op (.encByte :: rest) s) (resume op (.encChunk b :: rest) (s.atPos (s.inPos + 8))) := by
  refine ⟨_, chunk_zero s, Steps.one rfl ?_⟩
  simp only [performLine, lineEncByte, readBits_chunk (s := resume op (.encByte :: rest) s) h, proceed]
  rfl

theorem chunks_inv {s : State} {x : Symbol} {xs : List Symbol} (h : s.chunks = x :: xs) :
    s.inPos + 8 ≤ 8 * s.input.length ∧ s.chunk 0 = x ∧ (s.atPos (s.inPos + 8)).chunks = xs := by
  by_cases hle : s.inPos + 8 ≤ 8 * s.input.length
  · rw [chunks_cons hle] at h
    injection h with h1 h2
    exact ⟨hle, h1, h2⟩
  · rw [chunks_nil (by omega)] at h; cases h

theorem chunks_congr {s s' : State} (h₁ : s'.input = s.input) (h₂ : s'.inPos = s.inPos) : s'.chunks = s.chunks := by
  simp [State.chunks, State.chunkCount, State.chunk, h₁, h₂]

theorem afterCodes_chunks {s : State} {xs ys : List Symbol} (h : s.chunks = xs ++ ys) : (afterCodes xs s).chunks = ys := by
  induction xs generalizing s with
  | nil => exact h
  | cons x xs ih =>
    rw [afterCodes_cons]
    exact ih ((chunks_congr (by simp) (by simp)).trans (chunks_inv h).2.2)

/-- One chunk with a code (R200, R201). -/
theorem encByte_step (op : BitVec 4) (rest : List Line) {s : State} {x : Symbol} {xs : List Symbol}
    (hx : s.chunks = x :: xs) (hc : s.codelen[x] ≠ 0) :
    Steps 2 (resume op (.encByte :: rest) s)
      (resume op (.encByte :: rest) ((putBits (s.codeOf x) s).atPos (s.inPos + 8))) := by
  obtain ⟨hle, h0, -⟩ := chunks_inv hx
  obtain ⟨b, hb, h₁⟩ := encByte_read op rest hle
  refine h₁.trans (Steps.one rfl ?_)
  simp only [performLine, lineEncChunk, hb, h0]
  refine (encodeSymbol_coded (s := resume op (.encChunk b :: rest) (s.atPos (s.inPos + 8))) hc op _).trans ?_
  rw [putBits_resume, resume_resume, ← putBits_atPos]
  rfl

/-- One chunk without a code (R201). -/
theorem encByte_raise (op : BitVec 4) (rest : List Line) {s : State} {x : Symbol} {xs : List Symbol}
    (hx : s.chunks = x :: xs) (hc : s.codelen[x] = 0) :
    Steps 2 (resume op (.encByte :: rest) s) (raiseError .unencodableSymbol (s.atPos (s.inPos + 8))) := by
  obtain ⟨hle, h0, -⟩ := chunks_inv hx
  obtain ⟨b, hb, h₁⟩ := encByte_read op rest hle
  refine h₁.trans (Steps.one rfl ?_)
  simp only [performLine, lineEncChunk, hb, h0]
  exact encodeSymbol_uncoded (s := resume op (.encChunk b :: rest) (s.atPos (s.inPos + 8))) hc op _

/-- The ENC loop over chunks that all have a code (R200, R201). -/
theorem encByte_steps (op : BitVec 4) (rest : List Line) (xs : List Symbol) :
    ∀ (s : State) (ys : List Symbol), s.chunks = xs ++ ys → (∀ x ∈ xs, s.codelen[x] ≠ 0) →
      Steps (2 * xs.length) (resume op (.encByte :: rest) s) (resume op (.encByte :: rest) (afterCodes xs s)) := by
  induction xs with
  | nil => intro s ys _ _; exact Steps.refl _
  | cons x xs ih =>
    intro s ys hx hc
    have h₁ := encByte_step op rest hx (hc x (by simp))
    have h₂ := ih ((putBits (s.codeOf x) s).atPos (s.inPos + 8)) ys
      ((chunks_congr (by simp) (by simp)).trans (chunks_inv hx).2.2)
      (fun y hy => by simpa using hc y (by simp [hy]))
    rw [← afterCodes_cons] at h₂
    have h := h₁.trans h₂
    rwa [show 2 + 2 * xs.length = 2 * (x :: xs).length by rw [List.length_cons]; omega] at h

/-- The end of the input ends the ENC loop (R200). -/
theorem encByte_end (op : BitVec 4) (rest : List Line) {s : State} (h : s.chunks = []) :
    Steps 1 (resume op (.encByte :: rest) s) (resume op rest (s.atPos (8 * s.input.length))) := by
  refine Steps.one rfl ?_
  have hlt : 8 * s.input.length < s.inPos + 8 := by
    by_contra hge
    rw [chunks_cons (by omega)] at h; cases h
  have hr : readBits 8 (resume op (.encByte :: rest) s) =
      (none, (resume op (.encByte :: rest) s).atPos (8 * s.input.length)) :=
    readBits_none 8 (resume op (.encByte :: rest) s) hlt
  simp only [performLine, lineEncByte, hr, proceed, State.resume_atPos, resume_resume]

theorem close_resume (op : BitVec 4) (todo : List Line) (s : State) :
    close (resume op todo s) = resume op todo (close s) := by
  rw [close_eq, close_eq, putBits_resume]; rfl

theorem encEof_step (op : BitVec 4) (rest : List Line) {s : State} (h : s.codelen[eofSymbol] ≠ 0) :
    Steps 1 (resume op (.encEof :: rest) s) (resume op rest (putBits (s.codeOf eofSymbol) s)) := by
  refine Steps.one rfl ((encodeSymbol_coded (s := resume op (.encEof :: rest) s) h op rest).trans ?_)
  rw [putBits_resume, resume_resume]; rfl

theorem encEof_raise (op : BitVec 4) (rest : List Line) {s : State} (h : s.codelen[eofSymbol] = 0) :
    Steps 1 (resume op (.encEof :: rest) s) (raiseError .unencodableSymbol s) :=
  Steps.one rfl (encodeSymbol_uncoded (s := resume op (.encEof :: rest) s) h op rest)

theorem closeOutput_step (op : BitVec 4) (rest : List Line) (s : State) :
    Steps 1 (resume op (.closeOutput :: rest) s) (resume op rest (close s)) := by
  have h : performLine .closeOutput op rest (resume op (.closeOutput :: rest) s) =
      .next (resume op rest (close (resume op (.closeOutput :: rest) s))) := rfl
  rw [close_resume, resume_resume] at h
  exact Steps.one rfl h

theorem encStart_step (op : BitVec 4) (rest : List Line) {s : State} (h : s.codesValid = true) :
    Steps 1 (resume op (.encStart :: rest) s) (resume op (.encByte :: .encEof :: .closeOutput :: rest) s) := by
  refine Steps.one rfl ?_
  simp only [performLine, lineEncStart]
  rw [if_pos (show (resume op (.encStart :: rest) s).codesValid = true from h)]
  rfl

/-- The ENC loop over the whole input (R200, R201). -/
theorem encBytes_steps (op : BitVec 4) (rest : List Line) {s : State}
    (hc : ∀ x ∈ s.chunks, s.codelen[x] ≠ 0) :
    Steps (2 * s.chunks.length + 1) (resume op (.encByte :: rest) s)
      (resume op rest ((putBits (s.chunks.flatMap s.codeOf) s).atPos (8 * s.input.length))) := by
  have h₁ := encByte_steps op rest s.chunks s [] (by simp) hc
  have h₂ := encByte_end op rest (afterCodes_chunks (s := s) (xs := s.chunks) (ys := []) (by simp))
  rw [afterCodes_input] at h₂
  exact h₁.trans h₂

/-- The whole body of ENC when every symbol has a code (R200, R201, R202). -/
theorem enc_steps (op : BitVec 4) (rest : List Line) {s : State} (hv : s.codesValid = true)
    (hc : ∀ x ∈ s.chunks, s.codelen[x] ≠ 0) (he : s.codelen[eofSymbol] ≠ 0) :
    Steps (2 * s.chunks.length + 4) (resume op (encBody ++ rest) s)
      (resume op rest (close ((putBits (s.chunks.flatMap s.codeOf ++ s.codeOf eofSymbol) s).atPos
        (8 * s.input.length)))) := by
  have h₁ := encStart_step op rest hv
  have h₂ := encBytes_steps op (.encEof :: .closeOutput :: rest) hc
  have h₃ := encEof_step op (.closeOutput :: rest)
    (s := (putBits (s.chunks.flatMap s.codeOf) s).atPos (8 * s.input.length)) (by simpa using he)
  rw [State.atPos_codeOf, putBits_codeOf, putBits_atPos, ← putBits_append] at h₃
  have := ((h₁.trans h₂).trans h₃).trans (closeOutput_step op rest _)
  rwa [show 1 + (2 * s.chunks.length + 1) + 1 + 1 = 2 * s.chunks.length + 4 by omega] at this

/-- The body of ENC up to a chunk without a code (R201). -/
theorem enc_steps_chunk (op : BitVec 4) (rest : List Line) {s : State} (hv : s.codesValid = true)
    {xs ys : List Symbol} {x : Symbol} (hx : s.chunks = xs ++ x :: ys) (hc : ∀ y ∈ xs, s.codelen[y] ≠ 0)
    (h0 : s.codelen[x] = 0) :
    Steps (2 * xs.length + 3) (resume op (encBody ++ rest) s)
      (raiseError .unencodableSymbol (afterCodes (xs) s |>.atPos (s.inPos + 8 * (xs.length + 1)))) := by
  have h₁ := encStart_step op rest hv
  have h₂ := encByte_steps op (.encEof :: .closeOutput :: rest) xs s (x :: ys) hx hc
  have h₃ := encByte_raise op (.encEof :: .closeOutput :: rest) (afterCodes_chunks hx) (by simpa using h0)
  have := (h₁.trans h₂).trans h₃
  rwa [show 1 + 2 * xs.length + 2 = 2 * xs.length + 3 by omega, afterCodes_inPos,
    show s.inPos + 8 * xs.length + 8 = s.inPos + 8 * (xs.length + 1) by omega] at this

/-- The body of ENC when symbol 256 has no code (R202). -/
theorem enc_steps_eof (op : BitVec 4) (rest : List Line) {s : State} (hv : s.codesValid = true)
    (hc : ∀ x ∈ s.chunks, s.codelen[x] ≠ 0) (h0 : s.codelen[eofSymbol] = 0) :
    Steps (2 * s.chunks.length + 3) (resume op (encBody ++ rest) s)
      (raiseError .unencodableSymbol ((putBits (s.chunks.flatMap s.codeOf) s).atPos (8 * s.input.length))) := by
  have h₁ := encStart_step op rest hv
  have h₂ := encBytes_steps op (.encEof :: .closeOutput :: rest) hc
  have h₃ := encEof_raise op (.closeOutput :: rest)
    (s := (putBits (s.chunks.flatMap s.codeOf) s).atPos (8 * s.input.length)) (by simpa using h0)
  have := (h₁.trans h₂).trans h₃
  rwa [show 1 + (2 * s.chunks.length + 1) + 1 = 2 * s.chunks.length + 3 by omega] at this

/-! ### Decode -/

theorem decBit_line {op : BitVec 4} {rest : List Line} {s : State} {b : Bool} {bits : List Bool} {n : Node}
    (hb : s.inBits = b :: bits) (hn : s.nodeAt s.cursor = some n) (hl : n.isLeaf = false) :
    performLine .decBit op rest s =
      withNode (if b then n.right else n.left) ((s.atPos (s.inPos + 1)).withCursor (if b then n.right else n.left))
        fun m =>
          if m.isLeaf then withSymbol m.sym fun x => decodeLeaf x op rest
            ((s.atPos (s.inPos + 1)).withCursor (if b then n.right else n.left))
          else proceed op (.decBit :: rest) ((s.atPos (s.inPos + 1)).withCursor (if b then n.right else n.left)) := by
  have hi := inBits_bound (s := s) (bs := [b]) (more := bits) hb (by simp)
  have hr : readBits 1 s = (some b.toNat, s.atPos (s.inPos + 1)) := by
    rw [readBits_some 1 s (by simpa using hi), hb]
    cases b <;> rfl
  have hn' : (s.atPos (s.inPos + 1)).nodeAt (s.atPos (s.inPos + 1)).cursor = some n := hn
  simp only [performLine, lineDecBit, hr]
  refine (withNode_some hn' _).trans ?_
  rw [hl]
  cases b <;> rfl

/-- A step to an internal node (R205). -/
theorem decBit_inner (op : BitVec 4) (rest : List Line) {s : State} {b : Bool} {bits : List Bool} {n m : Node}
    (hb : s.inBits = b :: bits) (hn : s.nodeAt s.cursor = some n) (hl : n.isLeaf = false)
    (hm : s.nodeAt (if b then n.right else n.left) = some m) (hml : m.isLeaf = false) :
    Steps 1 (resume op (.decBit :: rest) s) (resume op (.decBit :: rest)
      ((s.atPos (s.inPos + 1)).withCursor (if b then n.right else n.left))) := by
  refine Steps.one rfl ((decBit_line (s := resume op (.decBit :: rest) s) hb hn hl).trans ?_)
  refine (withNode_some hm _).trans ?_
  rw [hml]
  rfl

/-- A step to a leaf (R205, R206). -/
theorem decBit_leaf (op : BitVec 4) (rest : List Line) {s : State} {b : Bool} {bits : List Bool} {n m : Node}
    {x : Symbol} (hb : s.inBits = b :: bits) (hn : s.nodeAt s.cursor = some n) (hl : n.isLeaf = false)
    (hm : s.nodeAt (if b then n.right else n.left) = some m) (hml : m.isLeaf = true) (hx : m.sym = symbolField x) :
    performLine .decBit op rest (resume op (.decBit :: rest) s) = decodeLeaf x op rest
      (resume op (.decBit :: rest) ((s.atPos (s.inPos + 1)).withCursor (if b then n.right else n.left))) := by
  refine (decBit_line (s := resume op (.decBit :: rest) s) hb hn hl).trans ?_
  refine (withNode_some hm _).trans ?_
  rw [hml, hx]
  exact withSymbol_field x _

/-- A literal decoded: its byte is written and counted, the cursor goes back to the root (R204). -/
def decodeLiteral (x : Symbol) (s : State) : State :=
  { putBits (msbBits 8 x.val) s with decCount := s.decCount + 1, cursor := s.root }

theorem decodeLiteral_frame (x : Symbol) (s : State) : decodeLiteral x s =
    { s.withOutput (decodeLiteral x s) with decCount := s.decCount + 1, cursor := s.root } := by
  unfold decodeLiteral
  have h := putBits_frame (msbBits 8 x.val) s
  generalize putBits (msbBits 8 x.val) s = t at h ⊢
  rw [h]
  rfl

theorem decodeLeaf_literal {x : Symbol} (hx : x ≠ eofSymbol) (op : BitVec 4) (rest : List Line) (s : State) :
    decodeLeaf x op rest (resume op (.decBit :: rest) s) = .next (resume op (.decBit :: rest) (decodeLiteral x s)) := by
  rw [decodeLeaf, if_neg hx]
  simp only [writeBits, decodeLiteral]
  generalize msbBits 8 x.val = bits
  simp only [putBits_resume, proceed]
  rw [← putBits_decCount bits s, ← putBits_root bits s]
  rfl

theorem decodeLeaf_eof (op : BitVec 4) (rest : List Line) (s : State) :
    decodeLeaf eofSymbol op rest (resume op (.decBit :: rest) s) = .next (resume op rest s) := by
  rw [decodeLeaf, if_pos rfl, proceed, resume_resume]

/-- The walk along a whole path: it ends at the leaf, whose line it leaves to `decodeLeaf` (R205, R206). -/
theorem decPath_steps (op : BitVec 4) (rest : List Line) {s₀ : State} {i : NodeIdx} {t : Tree} {is : List NodeIdx}
    (h : s₀.Holds i t is) : ∀ (s : State) (p more : List Bool) (x : Symbol), s.node = s₀.node → s.cursor = i →
      t.isNode = true → t.walk p = some x → s.inBits = p ++ more →
      ∃ c m, s.nodeAt c = some m ∧ m.isLeaf = true ∧ m.sym = symbolField x ∧
        ∀ u, decodeLeaf x op rest (resume op (.decBit :: rest) ((s.atPos (s.inPos + p.length)).withCursor c)) = .next u →
          Steps p.length (resume op (.decBit :: rest) s) u := by
  induction h with
  | leaf => intro s p more x _ _ hn; simp [Tree.isNode] at hn
  | @node i n l r is js hn hl left right ihl ihr =>
    intro s p more x hs hc _ hw hb
    cases p with
    | nil => simp [Tree.walk] at hw
    | cons b p =>
      rw [← nodeAt_congr hs, ← hc] at hn
      have key : ∀ (t : Tree) (ks : List NodeIdx), s₀.Holds (if b then n.right else n.left) t ks → t.walk p = some x →
          (∀ (s : State) (p more : List Bool) (x : Symbol), s.node = s₀.node →
            s.cursor = (if b then n.right else n.left) → t.isNode = true → t.walk p = some x → s.inBits = p ++ more →
            ∃ c m, s.nodeAt c = some m ∧ m.isLeaf = true ∧ m.sym = symbolField x ∧
              ∀ u, decodeLeaf x op rest
                (resume op (.decBit :: rest) ((s.atPos (s.inPos + p.length)).withCursor c)) = .next u →
                Steps p.length (resume op (.decBit :: rest) s) u) →
          ∃ c m, s.nodeAt c = some m ∧ m.isLeaf = true ∧ m.sym = symbolField x ∧
            ∀ u, decodeLeaf x op rest
              (resume op (.decBit :: rest) ((s.atPos (s.inPos + (b :: p).length)).withCursor c)) = .next u →
              Steps (b :: p).length (resume op (.decBit :: rest) s) u := by
        intro t ks ht hw ih
        cases t with
        | leaf y =>
          obtain ⟨m, hm, hml, hmx, -⟩ := ht.leaf_inv
          rw [← nodeAt_congr hs] at hm
          cases p with
          | cons b' p => simp [Tree.walk] at hw
          | nil =>
            simp only [Tree.walk, Option.some.injEq] at hw
            subst hw
            refine ⟨_, m, hm, hml, hmx, fun u hu => Steps.one rfl ?_⟩
            rw [decBit_leaf op rest hb hn hl hm hml hmx]
            exact hu
        | node tl tr =>
          obtain ⟨m, js, ks, hm, hml, -, -, -⟩ := ht.node_inv
          rw [← nodeAt_congr hs] at hm
          have h₁ := decBit_inner op rest hb hn hl hm hml
          have hb' := inBits_advance s 1
          rw [hb] at hb'
          obtain ⟨c, m', hc', hm1, hm2, hret⟩ := ih ((s.atPos (s.inPos + 1)).withCursor (if b then n.right else n.left))
            p more x hs rfl rfl hw hb'
          refine ⟨c, m', hc', hm1, hm2, fun u hu => ?_⟩
          have e : s.inPos + (b :: p).length = s.inPos + 1 + p.length := by simp; omega
          rw [e] at hu
          have := h₁.trans (hret u hu)
          rwa [Nat.add_comm] at this
      cases b with
      | false => exact key l _ left hw ihl
      | true => exact key r _ right hw ihr

/-- The state after symbols decoded, none of them symbol 256, from `n` bits, the cursor back at the root. -/
def afterLiterals (xs : List Symbol) (n : Nat) (s : State) : State :=
  { putBits (literalBits xs) s with
    decCount := s.decCount + BitVec.ofNat 32 xs.length
    inPos := s.inPos + n }

theorem afterLiterals_nil (s : State) : afterLiterals [] 0 s = s := by
  simp only [afterLiterals, literalBits, putBits, List.flatMap_nil, List.foldl_nil, List.length_nil]
  cases s
  congr 1
  simp

theorem putBits_over (bits : List Bool) (s s' : State) (h : s = s.withOutput s') :
    putBits bits s = s.withOutput (putBits bits s') := by
  induction bits generalizing s s' with
  | nil => exact h
  | cons b bits ih =>
    have ho : s.output = s'.output := by
      have := congrArg State.output h
      exact this
    have ha : s.outAcc = s'.outAcc := by
      have := congrArg State.outAcc h
      exact this
    have hn : s.outNbits = s'.outNbits := by
      have := congrArg State.outNbits h
      exact this
    have hb : putBit b s = (putBit b s).withOutput (putBit b s') := by
      unfold putBit
      rw [ho, ha, hn]
      split <;> rfl
    rw [putBits_cons, putBits_cons, ih _ _ hb, putBit_frame]
    rfl

theorem afterLiterals_cons (x : Symbol) (xs : List Symbol) (k n : Nat) (s : State) (c : NodeIdx)
    (hc : s.cursor = s.root) :
    afterLiterals xs n (decodeLiteral x ((s.atPos (s.inPos + k)).withCursor c)) =
      afterLiterals (x :: xs) (k + n) s := by
  simp only [afterLiterals, decodeLiteral, literalBits, List.flatMap_cons, putBits_append, List.length_cons]
  generalize msbBits 8 x.val = a
  generalize List.flatMap _ xs = bs
  rw [putBits_over a ((s.atPos (s.inPos + k)).withCursor c) s rfl]
  generalize ht : putBits a s = t
  have hf := putBits_frame a s
  rw [ht] at hf
  have h₁ := putBits_over bs { ((s.atPos (s.inPos + k)).withCursor c).withOutput t with
    decCount := ((s.atPos (s.inPos + k)).withCursor c).decCount + 1
    cursor := ((s.atPos (s.inPos + k)).withCursor c).root } t rfl
  have h₂ := putBits_over bs (s.withOutput t) t rfl
  rw [h₁, hf, h₂]
  have e : s.decCount + 1 + BitVec.ofNat 32 xs.length = s.decCount + BitVec.ofNat 32 (xs.length + 1) := by
    rw [BitVec.ofNat_add, BitVec.add_assoc, BitVec.add_comm (1 : Word)]
    rfl
  have e2 : s.inPos + k + n = s.inPos + (k + n) := by omega
  rw [← e, ← e2]
  generalize putBits bs t = u
  simp only [State.atPos, State.withCursor, State.withOutput, hc]

@[simp] theorem afterLiterals_node (xs : List Symbol) (n : Nat) (s : State) : (afterLiterals xs n s).node = s.node := by
  rw [afterLiterals, putBits_frame]; rfl
@[simp] theorem afterLiterals_cursor (xs : List Symbol) (n : Nat) (s : State) :
    (afterLiterals xs n s).cursor = s.cursor := by rw [afterLiterals, putBits_frame]; rfl
@[simp] theorem afterLiterals_input (xs : List Symbol) (n : Nat) (s : State) :
    (afterLiterals xs n s).input = s.input := by rw [afterLiterals, putBits_frame]; rfl
@[simp] theorem afterLiterals_inPos (xs : List Symbol) (n : Nat) (s : State) :
    (afterLiterals xs n s).inPos = s.inPos + n := rfl
theorem afterLiterals_inBits (xs : List Symbol) (n : Nat) (s : State) :
    (afterLiterals xs n s).inBits = s.inBits.drop n := by
  simp [State.inBits, List.drop_drop]

/-- The DEC loop over the paths of literals (R203, R204). -/
theorem decSymbols_steps (op : BitVec 4) (rest : List Line) {t : Tree} (ht : t.isNode = true) {bits : List Bool}
    {xs : List Symbol} (h : t.Spells bits xs) : ∀ (s : State) (is : List NodeIdx) (more : List Bool),
      s.Holds s.root t is → s.cursor = s.root → s.inBits = bits ++ more → eofSymbol ∉ xs →
      Steps bits.length (resume op (.decBit :: rest) s) (resume op (.decBit :: rest) (afterLiterals xs bits.length s)) := by
  induction h with
  | nil => intro s is more _ _ _ _; rw [List.length_nil, afterLiterals_nil]; exact Steps.refl _
  | @cons p bits x xs hp h ih =>
    intro s is more hH hc hb hne
    have hx : x ≠ eofSymbol := fun e => hne (by simp [e])
    rw [List.append_assoc] at hb
    obtain ⟨c, m, -, -, -, hret⟩ := decPath_steps op rest hH s p (bits ++ more) x rfl hc ht hp hb
    have h₁ := hret _ (decodeLeaf_literal hx op rest _)
    have hd := decodeLiteral_frame x ((s.atPos (s.inPos + p.length)).withCursor c)
    generalize hu : decodeLiteral x ((s.atPos (s.inPos + p.length)).withCursor c) = u at h₁ hd
    have hnode : u.node = s.node := (congrArg State.node hd :)
    have hroot : u.root = s.root := (congrArg State.root hd :)
    have hcur : u.cursor = s.root := (congrArg State.cursor hd :)
    have hin : u.input = s.input := (congrArg State.input hd :)
    have hpos : u.inPos = s.inPos + p.length := (congrArg State.inPos hd :)
    have hbu : u.inBits = bits ++ more := by
      have := congrArg (List.drop p.length) hb
      rw [List.drop_left] at this
      rw [← this, State.inBits, State.inBits, hin, hpos, List.drop_drop]
    have h₂ := ih u is more (by rw [hroot]; exact hH.congr hnode) (hcur.trans hroot.symm) hbu (fun e => hne (by simp [e]))
    rw [← hu, afterLiterals_cons x xs p.length bits.length s c hc, hu] at h₂
    rw [List.length_append]
    exact h₁.trans h₂

theorem decStart_step (op : BitVec 4) (rest : List Line) {s : State} (h : s.treeValid = true) :
    Steps 1 (resume op (.decStart :: rest) s)
      (resume op (.decBit :: rest) { s with decCount := 0, cursor := s.root }) := by
  refine Steps.one rfl ?_
  simp only [performLine, lineDecStart]
  rw [if_pos (show (resume op (.decStart :: rest) s).treeValid = true from h)]
  rfl

/-- The whole body of DEC on the paths of literals and of symbol 256 (R203 to R206). -/
theorem dec_steps (op : BitVec 4) (rest : List Line) {s : State} {t : Tree} {is : List NodeIdx} {bits p more : List Bool}
    {xs : List Symbol} (hv : s.treeValid = true) (hH : s.Holds s.root t is) (ht : t.isNode = true)
    (hx : t.Spells bits xs) (hne : eofSymbol ∉ xs) (hp : t.walk p = some eofSymbol) (hb : s.inBits = bits ++ (p ++ more)) :
    ∃ c m, s.nodeAt c = some m ∧ m.isLeaf = true ∧ m.sym = symbolField eofSymbol ∧
      Steps (bits.length + p.length + 1) (resume op (decBody ++ rest) s)
        (resume op rest { afterLiterals xs (bits.length + p.length) { s with decCount := 0 } with cursor := c }) := by
  have h₁ := decStart_step op rest hv
  have h₂ := decSymbols_steps op rest ht hx { s with decCount := 0, cursor := s.root } is (p ++ more)
    (hH.congr rfl) rfl hb hne
  have hbt : (afterLiterals xs bits.length { s with decCount := 0, cursor := s.root }).inBits = p ++ more := by
    rw [afterLiterals_inBits, show ({ s with decCount := 0, cursor := s.root } : State).inBits = s.inBits from rfl, hb,
      List.drop_left]
  obtain ⟨c, m, hc, hl, hm, hret⟩ := decPath_steps op rest (s₀ := s) hH
    (afterLiterals xs bits.length { s with decCount := 0, cursor := s.root }) p more eofSymbol
    (by simp) (by simp) ht hp hbt
  refine ⟨c, m, by rw [← hc, nodeAt_congr]; simp, hl, hm, ?_⟩
  have h₃ := hret _ (decodeLeaf_eof op rest _)
  have := (h₁.trans h₂).trans h₃
  rw [show 1 + bits.length + p.length = bits.length + p.length + 1 by omega] at this
  refine this.to ?_
  congr 1
  simp only [afterLiterals]
  generalize literalBits xs = bs
  rw [putBits_over bs { s with decCount := 0, cursor := s.root } s rfl, putBits_over bs { s with decCount := 0 } s rfl]
  simp only [State.atPos, State.withCursor, State.withOutput, Nat.add_assoc]

/-- The input ends inside the DEC loop (R203, R207). -/
theorem decBit_end (op : BitVec 4) (rest : List Line) {s : State} (hb : s.inBits = []) :
    Steps 2 (resume op (.decBit :: rest) s) (raiseError .truncatedStream (s.atPos (8 * s.input.length))) := by
  refine Steps.cons rfl ?_ (raise_step op rest .truncatedStream (s.atPos (8 * s.input.length)))
  have hl := congrArg List.length hb
  rw [inBits_length, State.bitsLeft, List.length_nil] at hl
  have hr : readBits 1 (resume op (.decBit :: rest) s) =
      (none, (resume op (.decBit :: rest) s).atPos (8 * s.input.length)) :=
    readBits_none 1 (resume op (.decBit :: rest) s) (by show _ < s.inPos + 1; show 8 * s.input.length < _; omega)
  simp only [performLine, lineDecBit, hr]
  rfl

/-- The walk along bits that end inside the tree, at the end of the input (R207). -/
theorem decOpen_steps (op : BitVec 4) (rest : List Line) {s₀ : State} {i : NodeIdx} {t : Tree} {is : List NodeIdx}
    (h : s₀.Holds i t is) : ∀ (s : State) (q : List Bool), s.node = s₀.node → s.cursor = i →
      t.walkOpen q = true → s.inBits = q →
      ∃ c m, s.nodeAt c = some m ∧ m.isLeaf = false ∧ Steps (q.length + 2) (resume op (.decBit :: rest) s)
        (raiseError .truncatedStream ((s.atPos (8 * s.input.length)).withCursor c)) := by
  induction h with
  | leaf => intro s q _ _ hw; simp [Tree.walkOpen] at hw
  | @node i n l r is js hn hl left right ihl ihr =>
    intro s q hs hc hw hb
    rw [← nodeAt_congr hs, ← hc] at hn
    cases q with
    | nil =>
      refine ⟨s.cursor, n, hn, hl, (decBit_end op rest hb).to ?_⟩
      rfl
    | cons b q =>
      have key : ∀ (t : Tree) (ks : List NodeIdx), s₀.Holds (if b then n.right else n.left) t ks → t.walkOpen q = true →
          (∀ (s : State) (q : List Bool), s.node = s₀.node → s.cursor = (if b then n.right else n.left) →
            t.walkOpen q = true → s.inBits = q →
            ∃ c m, s.nodeAt c = some m ∧ m.isLeaf = false ∧ Steps (q.length + 2) (resume op (.decBit :: rest) s)
              (raiseError .truncatedStream ((s.atPos (8 * s.input.length)).withCursor c))) →
          ∃ c m, s.nodeAt c = some m ∧ m.isLeaf = false ∧ Steps ((b :: q).length + 2) (resume op (.decBit :: rest) s)
            (raiseError .truncatedStream ((s.atPos (8 * s.input.length)).withCursor c)) := by
        intro t ks ht hw ih
        cases t with
        | leaf y => simp [Tree.walkOpen] at hw
        | node tl tr =>
          obtain ⟨m, js, ks, hm, hml, -, -, -⟩ := ht.node_inv
          rw [← nodeAt_congr hs] at hm
          have h₁ := decBit_inner op rest hb hn hl hm hml
          have hb' := inBits_advance s 1
          rw [hb] at hb'
          obtain ⟨c, m', hm1, hm2, h₂⟩ := ih ((s.atPos (s.inPos + 1)).withCursor (if b then n.right else n.left))
            q hs rfl hw hb'
          have := h₁.trans h₂
          rw [show 1 + (q.length + 2) = (b :: q).length + 2 by rw [List.length_cons]; omega] at this
          exact ⟨c, m', hm1, hm2, this⟩
      cases b with
      | false => exact key l _ left hw ihl
      | true => exact key r _ right hw ihr

/-- The whole body of DEC on the paths of literals and bits that end inside the tree (R203, R207). -/
theorem dec_steps_truncated (op : BitVec 4) (rest : List Line) {s : State} {t : Tree} {is : List NodeIdx}
    {bits q : List Bool} {xs : List Symbol} (hv : s.treeValid = true) (hH : s.Holds s.root t is) (ht : t.isNode = true)
    (hx : t.Spells bits xs) (hne : eofSymbol ∉ xs) (hq : t.walkOpen q = true) (hb : s.inBits = bits ++ q) :
    ∃ c m, s.nodeAt c = some m ∧ m.isLeaf = false ∧
      Steps (bits.length + q.length + 3) (resume op (decBody ++ rest) s)
        (raiseError .truncatedStream
          ((afterLiterals xs bits.length { s with decCount := 0 }).atPos (8 * s.input.length) |>.withCursor c)) := by
  have h₁ := decStart_step op rest hv
  have h₂ := decSymbols_steps op rest ht hx { s with decCount := 0, cursor := s.root } is q (hH.congr rfl) rfl hb hne
  have hbt : (afterLiterals xs bits.length { s with decCount := 0, cursor := s.root }).inBits = q := by
    rw [afterLiterals_inBits, show ({ s with decCount := 0, cursor := s.root } : State).inBits = s.inBits from rfl, hb,
      List.drop_left]
  obtain ⟨c, m, hc, hl, h₃⟩ := decOpen_steps op rest (s₀ := s) hH
    (afterLiterals xs bits.length { s with decCount := 0, cursor := s.root }) q (by simp) (by simp) hq hbt
  refine ⟨c, m, by rw [← hc, nodeAt_congr]; simp, hl, ?_⟩
  have := (h₁.trans h₂).trans h₃
  rw [show 1 + bits.length + (q.length + 2) = bits.length + q.length + 3 by omega] at this
  refine this.to ?_
  congr 1
  simp only [afterLiterals]
  generalize literalBits xs = bs
  rw [putBits_over bs { s with decCount := 0, cursor := s.root } s rfl, putBits_over bs { s with decCount := 0 } s rfl]
  rfl

end Sys2Proof.Machine
end

