-- ==== Sys2Proof/Laws/Macro.lean ====
section
/-! SUPPORT. Laws of the macro commands: the stages of COMPRESS and DECOMPRESS one after another. -/

namespace Sys2Proof.Machine

/-! ### The stages, each from its first line to the line after its last -/

theorem clearOutput_step (op : BitVec 4) (rest : List Line) (s : State) :
    Steps 1 (resume op (outclrBody ++ rest) s) (resume op rest (clearOut s)) :=
  Steps.one rfl (congrArg Host.Outcome.next (resume_setPhase op rest (clearOut s) _))

theorem rewind_step (op : BitVec 4) (rest : List Line) (s : State) :
    Steps 1 (resume op (rewindBody ++ rest) s) (resume op rest (s.atPos 0)) :=
  Steps.one rfl (congrArg Host.Outcome.next (resume_setPhase op rest (s.atPos 0) _))

/-- COUNT as a stage (R140, R141, R143). -/
theorem count_stage (op : BitVec 4) (rest : List Line) {s : State} (hm : s.chunkCount ≤ 4294967294)
    (hi : s.inPos ≤ 8 * s.input.length) :
    Steps (s.chunkCount + 3) (resume op (countBody ++ rest) s)
      (resume op rest (({ s with freq := s.counts } : State).atPos (8 * s.input.length))) :=
  (count_steps op rest (resume op (countBody ++ rest) s) rfl hm hi).to
    (resume_setPhase op rest (({ s with freq := s.counts } : State).atPos (8 * s.input.length)) _)

/-- COUNT as a stage, of more chunks than it may count (R142). -/
theorem count_overflow_stage (op : BitVec 4) (rest : List Line) {s : State} {n : Nat} (hn : n = Config.countMax.toNat)
    (hm : n < s.chunkCount) : Steps (n + 3) (resume op (countBody ++ rest) s)
      (raiseError .countOverflow
        (({ s with freq := tally (Vector.replicate 257 0) (s.chunks.take n) } : State).atPos (s.inPos + 8 * (n + 1)))) := by
  have hl : (s.chunks.take n).length = n := by rw [List.length_take, chunks_length]; omega
  obtain ⟨y, ys, hy⟩ : ∃ y ys, s.chunks.drop n = y :: ys :=
    List.exists_cons_of_length_pos (by rw [List.length_drop, chunks_length]; omega)
  have hx := (List.take_append_drop n s.chunks).symm
  rw [hy] at hx
  have h₁ := countClear_step op (.countEof :: rest) (resume op (countBody ++ rest) s) rfl
  generalize (Vector.replicate 257 0 : Vector Word 257) = z at h₁ ⊢
  have hmax : Config.countMax.toNat = 4294967294 := rfl
  have h₂ := countByte_prefix op (.countEof :: rest) (s.chunks.take n) ({ s with freq := z }) 0 (y :: ys) hx
    (by rw [hl]; simp; omega)
  have e : (0 : Word) + BitVec.ofNat 32 n = Config.countMax := by
    rw [hn]; decide
  rw [hl, e] at h₂
  generalize s.chunks.take n = xs at *
  have hy' : ({ s with freq := tally z xs, inPos := s.inPos + 8 * n } : State).chunks = y :: ys := by
    have := afterCodes_chunks (s := s) (xs := xs) (ys := y :: ys) hx
    rw [← this]
    refine (chunks_congr ?_ ?_)
    · rw [afterCodes_input]
    · rw [afterCodes_inPos, hl]
  have h₃ := countByte_raise op (.countEof :: rest) hy'
  have h := (h₁.trans (h₂)).trans h₃
  rw [show 1 + n + 2 = n + 3 by omega] at h
  refine h.to ?_
  simp only [raiseError, State.atPos, State.mk.injEq, and_true, true_and]
  omega

/-- GEN as a stage (R170). -/
theorem gen_stage (op : BitVec 4) (rest : List Line) {s : State} (hv : s.treeValid = true) {t : Tree}
    {is : List NodeIdx} (h : s.Holds s.root t is) :
    ∃ k ≤ t.size + 2, Steps k (resume op (genBody ++ rest) s) (resume op rest (s.withCodes t)) := by
  obtain ⟨k, hk, hs⟩ := gen_steps op rest (resume op (genBody ++ rest) s) rfl hv (t := t) (is := is) (h.congr rfl)
  exact ⟨k, hk, hs.to (resume_setPhase op rest (s.withCodes t) _)⟩

/-- WTAG as a stage (R180). -/
theorem wtag_stage (op : BitVec 4) (rest : List Line) (s : State) :
    Steps 1 (resume op (wtagBody ++ rest) s) (resume op rest (putBits (msbBits 32 s.tag.toNat) s)) := by
  have h : performLine .writeTag op rest (resume op (wtagBody ++ rest) s) =
      .next (resume op rest (putBits (msbBits 32 s.tag.toNat) (resume op (wtagBody ++ rest) s))) := rfl
  generalize msbBits 32 s.tag.toNat = bits at h ⊢
  rw [show wtagBody ++ rest = .writeTag :: rest from rfl, putBits_resume, resume_resume] at h
  exact Steps.one rfl h

/-- WHDR as a stage (R181). -/
theorem whdr_stage (op : BitVec 4) (rest : List Line) {s : State} (hv : s.treeValid = true) {t : Tree}
    {is : List NodeIdx} (h : s.Holds s.root t is) :
    Steps (t.size + t.leaves.length + 1) (resume op (whdrBody ++ rest) s) (resume op rest (putBits t.headerBits s)) := by
  refine (whdr_steps op rest (resume op (whdrBody ++ rest) s) rfl hv (t := t) (is := is) (h.congr rfl)).to ?_
  rw [show whdrBody ++ rest = .hdrStart :: rest from rfl, putBits_resume, resume_resume]

/-- RHDR as a stage (R184, R185). -/
theorem rhdr_stage (op : BitVec 4) (rest : List Line) {s : State} {t : Tree} {more : List Bool} (hn : t.isNode = true)
    (hb : s.inBits = t.headerBits ++ more) (hs : t.size ≤ 513) :
    Steps (t.size + 4) (resume op (rhdrBody ++ rest) s) (resume op rest (s.withTree t t.headerBits.length)) :=
  (rhdr_steps op rest (resume op (rhdrBody ++ rest) s) t more rfl hn hb hs).to
    (resume_setPhase op rest (s.withTree t t.headerBits.length) _)

/-- What the tag read delivers when 32 bits are left (R183). -/
theorem tagAt_full {s : State} {bits more : List Bool} (hb : s.inBits = bits ++ more) (hl : bits.length = 32) :
    ∃ rest, tagAt s = .instr (.tag (BitVec.ofNat 32 (bitsVal bits))) rest := by
  have hne : bits ≠ [] := by intro e; rw [e] at hl; simp at hl
  have hi := inBits_bound hb hne
  have ht : s.inBits.take 32 = bits := by rw [hb, ← hl, List.take_left]
  refine ⟨[], ?_⟩
  rw [tagAt, bitsFrom_inBits s 32 (by omega), ht]
  simp only [decode, decodeTag, hl, le_refl, if_true]
  rw [List.take_of_length_le (by omega), List.drop_of_length_le (by omega)]

/-- What the tag read delivers when fewer than 32 bits are left (R183). -/
theorem tagAt_short {s : State} (h : 8 * s.input.length < s.inPos + 32) : tagAt s = .reject .shortTag := by
  simp only [tagAt, decode, decodeTag]
  rw [if_neg (by rw [bitsFrom_length]; unfold State.bitsLeft; omega)]

theorem execTag_running {op : BitVec 4} {rest : List Line} {t : Word} {s : State}
    (hp : s.phase = .running op (.readTag :: rest)) : execTag t s =
      if t ≠ s.tag then proceed op (.raise .badHeaderTag :: rest) (s.atPos (s.inPos + 32)) else proceed op rest (s.atPos (s.inPos + 32)) := by
  cases s
  cases hp
  rfl

/-- RTAG as a stage, on the tag it expects (R183). -/
theorem rtag_stage (op : BitVec 4) (rest : List Line) {s : State} {more : List Bool}
    (hb : s.inBits = msbBits 32 s.tag.toNat ++ more) :
    Steps 1 (resume op (rtagBody ++ rest) s) (resume op rest (s.atPos (s.inPos + 32))) := by
  obtain ⟨ts, ht⟩ := tagAt_full (s := resume op (rtagBody ++ rest) s) hb (by simp)
  rw [bitsVal_msbBits, Nat.mod_eq_of_lt s.tag.isLt, BitVec.ofNat_toNat, BitVec.setWidth_eq] at ht
  refine Steps.one rfl ?_
  simp only [performLine, lineReadTag, ht]
  rw [execTag_running (rest := rest) (op := op) rfl, if_neg (fun h => h rfl), proceed]
  exact congrArg Host.Outcome.next (resume_setPhase op rest (s.atPos (s.inPos + 32)) _)

/-! ### COMPRESS -/

theorem counts_congr {s s' : State} (h₁ : s'.input = s.input) (h₂ : s'.inPos = s.inPos) : s'.counts = s.counts := by
  rw [State.counts, State.counts, chunks_congr h₁ h₂]

theorem counts_eof (s : State) : s.counts[eofSymbol] = 1 := by simp [State.counts]

theorem counts_chunk {s : State} {x : Symbol} (hx : x ∈ s.chunks) (hm : s.chunkCount ≤ 4294967294) :
    s.counts[x] ≠ 0 := by
  by_cases e : x = eofSymbol
  · rw [e, counts_eof]; decide
  · have h1 : 0 < s.chunks.count x := List.count_pos_iff.mpr hx
    have h2 : s.chunks.count x ≤ s.chunkCount := chunks_length s ▸ List.count_le_length
    intro h
    have h3 : s.counts[x] = BitVec.ofNat 32 (s.chunks.count x) := by simp [State.counts, e]
    rw [h3] at h
    have := congrArg BitVec.toNat h
    rw [BitVec.toNat_ofNat, Nat.mod_eq_of_lt (by omega)] at this
    simp at this
    omega

theorem mem_leafSymbols {freq : Vector Word 257} {x : Symbol} (h : freq[x] ≠ 0) : x ∈ leafSymbols freq := by
  have hc : x ∈ countedSymbols freq := by
    rw [countedSymbols, List.mem_filter]
    exact ⟨List.mem_finRange x, by simpa using h⟩
  rcases leafSymbols_cases freq with ⟨y, f, hy, -, -, e⟩ | ⟨-, e⟩
  · rw [e, (insertAscending_perm _ _).mem_iff]
    rw [hy] at hc
    simp [List.mem_singleton.mp hc]
  · rw [e]; exact hc

theorem leafSymbols_nodup (freq : Vector Word 257) : (leafSymbols freq).Nodup := by
  rcases leafSymbols_cases freq with ⟨y, f, -, -, hne, e⟩ | ⟨-, e⟩
  · rw [e, (insertAscending_perm _ _).nodup_iff]
    simp [hne]
  · rw [e, countedSymbols]
    exact (List.nodup_finRange 257).filter _

theorem tree_size_of_leaves {t : Tree} {freq : Vector Word 257} (h : t.leaves.Perm (leafSymbols freq)) :
    t.size ≤ 513 := by
  have h1 := t.size_eq
  have h2 := h.length_eq
  have h3 := leafSymbols_length freq
  omega

theorem built_chunks (s : State) : s.built.chunks = s.chunks := rfl

/-- Every symbol the counts name has a code in the table of the tree BUILD makes (R171, R201). -/
theorem coded_of_leaf {s : State} {t : Tree} (hn : t.isNode = true) (ht : t.leaves.Nodup) (hs : t.size ≤ 513)
    {x : Symbol} (hx : x ∈ t.leaves) : (s.withCodes t).hasCode x := by
  cases t with
  | leaf y => simp [Tree.isNode] at hn
  | node l r =>
    obtain ⟨p, hp⟩ := Tree.path_of_leaf hx
    exact (codes_of_path (s := s.withCodes (.node l r)) rfl rfl ht hs hp).2.1

theorem hasCode_putBits {bits : List Bool} {s : State} {x : Symbol} : (putBits bits s).hasCode x ↔ s.hasCode x := by
  rw [State.hasCode, putBits_codelen, State.hasCode]

/-- The whole of COMPRESS on an input that COUNT can count (R224). -/
theorem compress_steps (op : BitVec 4) (s : State) (hm : s.input.length ≤ 4294967294) :
    ∃ (t : Tree) (is : List NodeIdx), t.isNode = true ∧ t.leaves.Perm (leafSymbols (s.atPos 0).counts) ∧
      ({ s with freq := (s.atPos 0).counts } : State).built.Holds
        ({ s with freq := (s.atPos 0).counts } : State).built.root t is ∧
      ∃ k ≤ 8 * s.input.length + 4095,
        Steps k (resume op compressBody s) (resume op [] (s.compressed t)) := by
  have hcc : (s.atPos 0).chunkCount = s.input.length := by
    simp only [State.chunkCount, atPos_input, atPos_inPos]; omega
  have hcl := counts_eof (s.atPos 0)
  have hx' := mem_leafSymbols (freq := (s.atPos 0).counts) (x := eofSymbol) (by rw [hcl]; decide)
  have hx : leafSymbols (s.atPos 0).counts ≠ [] := List.ne_nil_of_mem hx'
  let s₀ : State := { (clearOut s).atPos 0 with freq := (s.atPos 0).counts }
  obtain ⟨t, is, hH, hL, hN, -⟩ := built_holds s₀ hx
  have hsz := tree_size_of_leaves hL
  have he : eofSymbol ∈ t.leaves := hL.symm.subset hx'
  have hnd : t.leaves.Nodup := hL.nodup_iff.mpr (leafSymbols_nodup _)
  have h257 := leafSymbols_length (s.atPos 0).counts
  refine ⟨t, is, hN, hL, hH.congr rfl, ?_⟩
  have h₁ := clearOutput_step op (rewindBody ++ (countBody ++ (rewindBody ++ (buildBody ++ (genBody ++ (wtagBody ++
    (whdrBody ++ (encBody ++ [])))))))) s
  have h₂ := rewind_step op (countBody ++ (rewindBody ++ (buildBody ++ (genBody ++ (wtagBody ++
    (whdrBody ++ (encBody ++ []))))))) (clearOut s)
  have h₃ := count_stage op (rewindBody ++ (buildBody ++ (genBody ++ (wtagBody ++
    (whdrBody ++ (encBody ++ [])))))) (s := (clearOut s).atPos 0)
    (by rw [show ((clearOut s).atPos 0).chunkCount = (s.atPos 0).chunkCount from rfl, hcc]; exact hm) (Nat.zero_le _)
  rw [show ((clearOut s).atPos 0).chunkCount = (s.atPos 0).chunkCount from rfl, hcc,
    counts_congr (s := s.atPos 0) (s' := (clearOut s).atPos 0) rfl rfl] at h₃
  have h₄ := rewind_step op (buildBody ++ (genBody ++ (wtagBody ++ (whdrBody ++ (encBody ++ [])))))
    (({ (clearOut s).atPos 0 with freq := (s.atPos 0).counts } : State).atPos
      (8 * ((clearOut s).atPos 0).input.length))
  have e₀ : (({ (clearOut s).atPos 0 with freq := (s.atPos 0).counts } : State).atPos
      (8 * ((clearOut s).atPos 0).input.length)).atPos 0 = s₀ := by simp only [State.atPos, s₀]
  rw [e₀] at h₄
  have h₅ := (build_steps op (genBody ++ (wtagBody ++ (whdrBody ++ (encBody ++ [])))) (s := s₀) hx).1
  obtain ⟨k, hk, h₆⟩ := gen_stage op (wtagBody ++ (whdrBody ++ (encBody ++ []))) (s := s₀.built) rfl hH
  obtain ⟨s₁, hs₁⟩ : ∃ s₁, s₁ = s₀.built.withCodes t := ⟨_, rfl⟩
  rw [← hs₁] at h₆
  have htv : s₁.treeValid = true := by rw [hs₁]; rfl
  have hcv : s₁.codesValid = true := by rw [hs₁]; rfl
  have htag : s₁.tag = s.tag := by rw [hs₁, withCodes_tag, built_tag]; rfl
  have hin : s₁.input = s.input := by rw [hs₁, withCodes_input, built_input]; rfl
  have hpos : s₁.inPos = 0 := by rw [hs₁]; rfl
  have hH₁ : s₁.Holds s₁.root t is := by rw [hs₁, withCodes_root]; exact hH.congr (withCodes_node _ _)
  have hcode : ∀ x ∈ t.leaves, s₁.hasCode x := by
    rw [hs₁]; exact fun x hx => coded_of_leaf hN hnd hsz hx
  have hch : s₁.chunks = (s.atPos 0).chunks := chunks_congr hin hpos
  have h₇ := wtag_stage op (whdrBody ++ (encBody ++ [])) s₁
  rw [htag] at h₇
  have h₈ := whdr_stage op (encBody ++ []) (s := putBits (msbBits 32 s.tag.toNat) s₁) (t := t) (is := is)
    (by rw [putBits_treeValid]; exact htv) (by rw [putBits_root]; exact hH₁.congr (putBits_node _ _))
  rw [← putBits_append] at h₈
  have hch₉ : (putBits (msbBits 32 s.tag.toNat ++ t.headerBits) s₁).chunks = (s.atPos 0).chunks :=
    (chunks_congr (putBits_input _ _) (putBits_inPos _ _)).trans hch
  have h₉ := enc_steps op [] (s := putBits (msbBits 32 s.tag.toNat ++ t.headerBits) s₁)
    (by rw [putBits_codesValid]; exact hcv)
    (fun x hx => hasCode_putBits.mpr <| by
      rw [hch₉] at hx
      exact hcode x (hL.symm.subset (mem_leafSymbols (counts_chunk hx (by rw [hcc]; exact hm)))))
    (hasCode_putBits.mpr (hcode _ he))
  refine ⟨_, ?_, ((((((((h₁.trans h₂).trans h₃).trans h₄).trans h₅).trans h₆).trans h₇).trans h₈).trans h₉).to ?_⟩
  · rw [hch₉, chunks_length, hcc]
    have : (leafSymbols s₀.freq).length ≤ 257 := h257
    have := t.size_eq
    omega
  · have e := hch₉.trans hch.symm
    rw [e, putBits_codeOf, putBits_input, hin, ← putBits_append, hs₁]
    rfl

/-! ### DECOMPRESS -/

/-- The whole of DECOMPRESS on a stream with the expected tag, a header of more than one leaf, and a complete body (R225). -/
theorem decompress_steps (op : BitVec 4) (s : State) {t : Tree} {bits p more : List Bool} {xs : List Symbol}
    (hn : t.isNode = true) (hs : t.size ≤ 513) (hx : t.Spells bits xs) (hne : eofSymbol ∉ xs)
    (hp : t.walk p = some eofSymbol)
    (hb : byteBits s.input = msbBits 32 s.tag.toNat ++ (t.headerBits ++ (bits ++ (p ++ more)))) :
    ∃ c, ∃ k ≤ 8 * s.input.length + 4095, Steps k (resume op decompressBody s)
      (resume op [] (close ((afterLiterals xs (bits.length + p.length)
        { (clearOut s).atPos 32 |>.withTree t t.headerBits.length with decCount := 0 }).withCursor c))) := by
  have hlen := congrArg List.length hb
  simp only [byteBits_length, List.length_append, msbBits_length] at hlen
  have hhl := t.headerBits_length
  have hsz := t.size_eq
  have h₁ := clearOutput_step op (rewindBody ++ (rtagBody ++ (rhdrBody ++ (decBody ++ (closeBody ++ []))))) s
  have h₂ := rewind_step op (rtagBody ++ (rhdrBody ++ (decBody ++ (closeBody ++ [])))) (clearOut s)
  have h₃ := rtag_stage op (rhdrBody ++ (decBody ++ (closeBody ++ []))) (s := (clearOut s).atPos 0) hb
  have hb₄ : ((clearOut s).atPos 32).inBits = t.headerBits ++ (bits ++ (p ++ more)) := by
    have := congrArg (List.drop 32) hb
    rwa [List.drop_left' (by simp)] at this
  have h₄ := rhdr_stage op (decBody ++ (closeBody ++ [])) (s := (clearOut s).atPos 32) hn hb₄ hs
  have hb₅ : (((clearOut s).atPos 32).withTree t t.headerBits.length).inBits = bits ++ (p ++ more) := by
    have := congrArg (List.drop t.headerBits.length) hb₄
    rw [List.drop_left, State.inBits, List.drop_drop] at this
    exact this
  obtain ⟨c, m, -, -, -, h₅⟩ := dec_steps op (closeBody ++ []) (s := ((clearOut s).atPos 32).withTree t t.headerBits.length)
    rfl (headerArena_holds t hs _ rfl) hn hx hne hp hb₅
  have h₆ := closeOutput_step op [] ((afterLiterals xs (bits.length + p.length)
    { (clearOut s).atPos 32 |>.withTree t t.headerBits.length with decCount := 0 }).withCursor c)
  refine ⟨c, _, ?_, ((((h₁.trans h₂).trans h₃).trans h₄).trans h₅).trans h₆⟩
  omega

end Sys2Proof.Machine
end

