-- ==== Sys2Proof/Laws/Commands.lean ====
section
/-! SUPPORT. From the stages of a command to what `exec` answers: a command that ends well, one that raises an error, and
the clearing of the last record at a command's start (R220, R221). -/

namespace Sys2Proof.Machine

theorem succeeded_eq {s : State} (h : s.phase = .idle) : endCommand (acknowledge s) = s.succeeded := by
  rw [endCommand, State.succeeded, acknowledge, ← h]

theorem failed_eq (e : ErrorCode) {s : State} (h : s.phase = .idle) : raiseError e (acknowledge s) = s.failed e := by
  rw [raiseError, State.failed, acknowledge, ← h]

/-- A command whose lines end with the state `t` completes with `t` (R220, R221). -/
theorem exec_of_stage {op : BitVec 4} {l : Line} {ls : List Line} {s t : State} {k : Nat} (hq : s.quiet)
    (h : Steps k (resume op (l :: ls) (acknowledge s)) (resume op [] (acknowledge t)))
    (hk : k + 1 ≤ stepBound s) (ht : t.phase = .idle) : runCommand op (l :: ls) s = .next t.succeeded := by
  rw [← succeeded_eq ht]
  exact runCommand_of_steps hq (h.trans (end_step op _)) hk rfl

/-- A command whose lines raise `e` at the state `t` ends with that error recorded (R220, R221). -/
theorem exec_of_raise {op : BitVec 4} {l : Line} {ls : List Line} {s t : State} {k : Nat} {e : ErrorCode} (hq : s.quiet)
    (h : Steps k (resume op (l :: ls) (acknowledge s)) (raiseError e (acknowledge t))) (hk : k ≤ stepBound s)
    (ht : t.phase = .idle) : runCommand op (l :: ls) s = .next (t.failed e) := by
  rw [← failed_eq e ht]
  exact runCommand_of_steps hq h hk rfl

/-! ### The record apart -/

theorem putBits_acknowledge (bits : List Bool) (s : State) :
    putBits bits (acknowledge s) = acknowledge (putBits bits s) := by
  induction bits generalizing s with
  | nil => rfl
  | cons b bits ih =>
    rw [putBits_cons, putBits_cons, ← ih]
    congr 1
    unfold putBit acknowledge
    dsimp only
    split <;> rfl

theorem close_acknowledge (s : State) : close (acknowledge s) = acknowledge (close s) := by
  rw [close_eq, close_eq, ← putBits_acknowledge]
  rfl

theorem chunks_acknowledge (s : State) : (acknowledge s).chunks = s.chunks := chunks_congr rfl rfl

theorem counts_acknowledge (s : State) : (acknowledge s).counts = s.counts := counts_congr rfl rfl

theorem codeOf_acknowledge (s : State) : (acknowledge s).codeOf = s.codeOf := codeOf_congr rfl rfl

theorem close_phase (s : State) : (close s).phase = s.phase := by rw [close_eq, putBits_phase]

end Sys2Proof.Machine
end

