-- ==== Sys2Proof/Laws/Complete.lean ====
section
/-! SUPPORT. Every stage ends: from a sound state it reaches the line after its last, or raises an error, in a bounded
number of steps, and leaves a sound state (R59, R209, R282). -/

namespace Sys2Proof.Machine

/-- What a stage leaves alone in any case. -/
structure Kept (s t : State) : Prop where
  input : t.input = s.input
  done : t.done = s.done
  err : t.err = s.err
  errcode : t.errcode = s.errcode

theorem Kept.refl (s : State) : Kept s s := ⟨rfl, rfl, rfl, rfl⟩

theorem Kept.trans {s t u : State} (h₁ : Kept s t) (h₂ : Kept t u) : Kept s u :=
  ⟨h₂.input.trans h₁.input, h₂.done.trans h₁.done, h₂.err.trans h₁.err, h₂.errcode.trans h₁.errcode⟩

/-- The lines `body` end within `n` steps from any sound state with this input, in one way or the other. -/
def Ends (body : List Line) (n : Nat) (input : List Byte) : Prop :=
  ∀ (op : BitVec 4) (rest : List Line) (s : State), s.Sound → s.input = input →
    ∃ k ≤ n, ∃ t : State, t.Sound ∧ Kept s t ∧
      (Steps k (resume op (body ++ rest) s) (resume op rest t) ∨
        ∃ e, Steps k (resume op (body ++ rest) s) (raiseError e t))

theorem Ends.append {a b : List Line} {m n : Nat} {input : List Byte} (ha : Ends a m input) (hb : Ends b n input) :
    Ends (a ++ b) (m + n) input := by
  intro op rest s hs hi
  rw [List.append_assoc]
  obtain ⟨j, hj, t, ht, hk, h | ⟨e, h⟩⟩ := ha op (b ++ rest) s hs hi
  · obtain ⟨k, hk', u, hu, hk₂, h₂ | ⟨e, h₂⟩⟩ := hb op rest t ht (hk.input.trans hi)
    · exact ⟨j + k, by omega, u, hu, hk.trans hk₂, .inl (h.trans h₂)⟩
    · exact ⟨j + k, by omega, u, hu, hk.trans hk₂, .inr ⟨e, h.trans h₂⟩⟩
  · exact ⟨j, by omega, t, ht, hk, .inr ⟨e, h⟩⟩

/-! ### What keeps a state sound -/

/-- Soundness does not depend on the sequencer, the record and the host's side. -/
theorem State.Sound.congr {s t : State} (h : s.Sound) (h₁ : t.codesValid = s.codesValid) (h₂ : t.treeValid = s.treeValid)
    (h₃ : t.root = s.root) (h₄ : t.node = s.node) (h₅ : t.nodeCount = s.nodeCount) (h₆ : t.codelen = s.codelen)
    (h₇ : t.codebits = s.codebits) (h₈ : t.pq = s.pq) (h₉ : t.inPos = s.inPos) (h₁₀ : t.input = s.input)
    (h₁₁ : t.outAcc = s.outAcc) (h₁₂ : t.outNbits = s.outNbits) : t.Sound := by
  refine ⟨?_, ?_, ?_, ?_, ?_, ?_, ?_⟩
  · rw [h₁, h₂]; exact h.codes
  · rw [h₂, h₃, h₅, h₁, h₆, h₇]
    intro hv
    obtain ⟨t', is, hH, hr⟩ := h.tree hv
    exact ⟨t', is, hH.congr h₄, hr⟩
  · rw [h₈]; exact h.queue
  · rw [h₉, h₁₀]; exact h.position
  · rw [h₁₀]; exact h.bound
  · rw [h₆]; exact h.lengths
  · rw [h₁₁, h₁₂]; exact h.partialByte

theorem State.Sound.putBits {s : State} (h : s.Sound) (bits : List Bool) : (putBits bits s).Sound := by
  refine ⟨?_, ?_, ?_, ?_, ?_, ?_, putBits_accOk bits s h.partialByte⟩
  · simpa using h.codes
  · simp only [putBits_treeValid, putBits_root, putBits_nodeCount, putBits_codesValid, putBits_codelen, putBits_codebits]
    intro hv
    obtain ⟨t', is, hH, hr⟩ := h.tree hv
    exact ⟨t', is, hH.congr (putBits_node _ _), hr⟩
  · simpa using h.queue
  · simpa using h.position
  · simpa using h.bound
  · simpa using h.lengths

theorem State.Sound.atPos {s : State} (h : s.Sound) {p : Nat} (hp : p ≤ 8 * s.input.length) : (s.atPos p).Sound :=
  ⟨h.codes, fun hv => by
      obtain ⟨t', is, hH, hr⟩ := h.tree hv
      exact ⟨t', is, hH.congr rfl, hr⟩, h.queue, hp, h.bound, h.lengths, h.partialByte⟩

theorem State.Sound.close {s : State} (h : s.Sound) : (close s).Sound := by
  rw [close_eq]; exact h.putBits _

theorem kept_putBits (bits : List Bool) (s : State) : Kept s (putBits bits s) :=
  ⟨putBits_input _ _, putBits_done _ _, putBits_err _ _, putBits_errcode _ _⟩

theorem kept_atPos (s : State) (p : Nat) : Kept s (s.atPos p) := ⟨rfl, rfl, rfl, rfl⟩

/-! ### The stages without errors -/

theorem ends_outclr (input : List Byte) : Ends outclrBody 1 input := fun op rest s hs _ =>
  ⟨1, le_refl _, clearOut s, ⟨hs.codes, fun hv => by
    obtain ⟨t', is, hH, hr⟩ := hs.tree hv
    exact ⟨t', is, hH.congr rfl, hr⟩, hs.queue, hs.position, hs.bound, hs.lengths, by simp⟩, ⟨rfl, rfl, rfl, rfl⟩,
    .inl (clearOutput_step op rest s)⟩

theorem ends_rewind (input : List Byte) : Ends rewindBody 1 input := fun op rest s hs _ =>
  ⟨1, le_refl _, s.atPos 0, hs.atPos (Nat.zero_le _), kept_atPos s 0, .inl (rewind_step op rest s)⟩

theorem ends_close (input : List Byte) : Ends closeBody 1 input := fun op rest s hs _ =>
  ⟨1, le_refl _, close s, hs.close, close_eq s ▸ kept_putBits _ s, .inl (closeOutput_step op rest s)⟩

theorem ends_wtag (input : List Byte) : Ends wtagBody 1 input := fun op rest s hs _ =>
  ⟨1, le_refl _, _, hs.putBits _, kept_putBits _ s, .inl (wtag_stage op rest s)⟩

/-! ### BUILD, GEN and WHDR -/

theorem indices_length (n : Nat) : (indices n).length = n := by simp [indices]

/-- The size of the tree a sound state holds (R59). -/
theorem size_of_holds {s : State} {t : Tree} {is : List NodeIdx} (hH : s.Holds s.root t is)
    (hp : is.Perm (indices s.nodeCount.toNat)) : t.size = s.nodeCount.toNat := by
  rw [← hH.length, hp.length_eq, indices_length]

theorem ends_build (input : List Byte) : Ends buildBody 518 input := by
  intro op rest s hs _
  by_cases hx : leafSymbols s.freq = []
  · refine ⟨3, by omega, pqClear (clearArena { s with treeValid := false, codesValid := false }), ?_, ⟨rfl, rfl, rfl, rfl⟩,
      .inr ⟨.emptyInput, (clearFlags_steps op (.buildClear :: rest) s).trans (Steps.one rfl ?_)⟩⟩
    · exact ⟨by simp [pqClear], by simp [pqClear], rfl, hs.position, hs.bound, hs.lengths, hs.partialByte⟩
    · simp only [performLine, lineBuildClear]
      rw [show (resume op (.buildClear :: rest) { s with treeValid := false, codesValid := false }).freq = s.freq from rfl,
        hx]
      rfl
  · have h257 := leafSymbols_length s.freq
    have h2 := leafSymbols_two hx
    obtain ⟨t, is, hH, hL, hN, hI⟩ := built_holds s hx
    refine ⟨_, by omega, s.built, ⟨by simp, fun _ => ⟨t, is, hH, hN, ?_, ?_, by simp⟩, rfl, hs.position, hs.bound,
      hs.lengths, hs.partialByte⟩, ⟨rfl, rfl, rfl, rfl⟩, .inl (build_steps op rest hx).1⟩
    · rw [built_nodeCount, BitVec.toNat_ofNat, Nat.mod_eq_of_lt (by omega)]; exact hI
    · rw [built_nodeCount, BitVec.toNat_ofNat]; omega

theorem genStart_raise (op : BitVec 4) (rest : List Line) {s : State} (h : s.treeValid = false) :
    Steps 1 (resume op (genBody ++ rest) s) (raiseError .illegalSequence s) := by
  refine Steps.one rfl ?_
  simp only [performLine, lineGenStart]
  rw [show (resume op (genBody ++ rest) s).treeValid = false from h]
  rfl

theorem hdrStart_raise (op : BitVec 4) (rest : List Line) {s : State} (h : s.treeValid = false) :
    Steps 1 (resume op (whdrBody ++ rest) s) (raiseError .illegalSequence s) := by
  refine Steps.one rfl ?_
  simp only [performLine, lineHdrStart]
  rw [show (resume op (whdrBody ++ rest) s).treeValid = false from h]
  rfl

theorem decStart_raise (op : BitVec 4) (rest : List Line) {s : State} (h : s.treeValid = false) :
    Steps 1 (resume op (decBody ++ rest) s) (raiseError .illegalSequence s) := by
  refine Steps.one rfl ?_
  simp only [performLine, lineDecStart]
  rw [show (resume op (decBody ++ rest) s).treeValid = false from h]
  rfl

theorem encStart_raise (op : BitVec 4) (rest : List Line) {s : State} (h : s.codesValid = false) :
    Steps 1 (resume op (encBody ++ rest) s) (raiseError .illegalSequence s) := by
  refine Steps.one rfl ?_
  simp only [performLine, lineEncStart]
  rw [show (resume op (encBody ++ rest) s).codesValid = false from h]
  rfl

theorem ends_gen (input : List Byte) : Ends genBody 515 input := by
  intro op rest s hs _
  cases hv : s.treeValid with
  | false => exact ⟨1, by omega, s, hs, Kept.refl s, .inr ⟨_, genStart_raise op rest hv⟩⟩
  | true =>
    obtain ⟨t, is, hH, hN, hI, hn, -⟩ := hs.tree hv
    have hsz := size_of_holds hH hI
    obtain ⟨k, hk, h⟩ := gen_stage op rest hv hH
    refine ⟨k, by omega, s.withCodes t, ⟨fun _ => hv, fun _ => ⟨t, is, hH.congr rfl, hN, hI, hn, fun _ => ⟨rfl, rfl⟩⟩, hs.queue,
      hs.position, hs.bound, fun x => codeLengths_le (by omega) x, hs.partialByte⟩, ⟨rfl, rfl, rfl, rfl⟩, .inl h⟩

theorem ends_whdr (input : List Byte) : Ends whdrBody 771 input := by
  intro op rest s hs _
  cases hv : s.treeValid with
  | false => exact ⟨1, by omega, s, hs, Kept.refl s, .inr ⟨_, hdrStart_raise op rest hv⟩⟩
  | true =>
    obtain ⟨t, is, hH, hN, hI, hn, -⟩ := hs.tree hv
    have hsz := size_of_holds hH hI
    have hl := t.size_eq
    exact ⟨_, by omega, _, hs.putBits _, kept_putBits _ s, .inl (whdr_stage op rest hv hH)⟩

/-! ### COUNT -/

/-- The COUNT loop ends, at the end of the input or past the counter's range (R140, R142, R145). -/
theorem countByte_ends (op : BitVec 4) (rest : List Line) (m : Nat) :
    ∀ (s : State) (total : Word), s.chunkCount = m → s.inPos ≤ 8 * s.input.length →
      ∃ k ≤ m + 2, ∃ (f : Vector Word 257) (p : Nat), p ≤ 8 * s.input.length ∧
        (Steps k (resume op (.countByte total :: rest) s) (resume op rest (({ s with freq := f } : State).atPos p)) ∨
          ∃ e, Steps k (resume op (.countByte total :: rest) s) (raiseError e (({ s with freq := f } : State).atPos p))) := by
  induction m with
  | zero =>
    intro s total hm hi
    have hlt : 8 * s.input.length < s.inPos + 8 := by unfold State.chunkCount at hm; omega
    refine ⟨1, by omega, s.freq, 8 * s.input.length, le_refl _, .inl (Steps.one rfl ?_)⟩
    have hr : readBits 8 (resume op (.countByte total :: rest) s) =
        (none, (resume op (.countByte total :: rest) s).atPos (8 * s.input.length)) :=
      readBits_none 8 (resume op (.countByte total :: rest) s) hlt
    simp only [performLine, lineCountByte, hr]
    exact congrArg Host.Outcome.next (resume_setPhase op rest (s.atPos (8 * s.input.length)) _)
  | succ m ih =>
    intro s total hm hi
    have hle : s.inPos + 8 ≤ 8 * s.input.length := by unfold State.chunkCount at hm; omega
    have hr : readBits 8 (resume op (.countByte total :: rest) s) = (some (bitsVal (bitsFrom s.input s.inPos 8)),
        (resume op (.countByte total :: rest) s).atPos (s.inPos + 8)) :=
      readBits_chunk (s := resume op (.countByte total :: rest) s) hle
    by_cases ht : total = Config.countMax
    · refine ⟨2, by omega, s.freq, s.inPos + 8, hle, .inr ⟨.countOverflow, Steps.cons rfl ?_
        (raise_step op rest .countOverflow (({ s with freq := s.freq } : State).atPos (s.inPos + 8)))⟩⟩
      simp only [performLine, lineCountByte, hr]
      rw [if_pos ht]
      rfl
    · have h₁ : Steps 1 (resume op (.countByte total :: rest) s)
          (resume op (.countByte (total + 1) :: rest) (bumpFreq (s.chunk 0) (s.atPos (s.inPos + 8)))) := by
        refine Steps.one rfl ?_
        simp only [performLine, lineCountByte, hr]
        rw [if_neg ht, chunk_zero]
        rfl
      have hc := chunkCount_succ hle
      obtain ⟨k, hk, f, p, hp, h⟩ := ih (bumpFreq (s.chunk 0) (s.atPos (s.inPos + 8))) (total + 1)
        (by rw [hm] at hc; exact (Nat.succ.inj hc).symm) hle
      refine ⟨1 + k, by omega, f, p, hp, ?_⟩
      rcases h with h | ⟨e, h⟩
      · exact .inl (h₁.trans h)
      · exact .inr ⟨e, h₁.trans h⟩

theorem Sound_freq {s : State} (h : s.Sound) (f : Vector Word 257) {p : Nat} (hp : p ≤ 8 * s.input.length) :
    (({ s with freq := f } : State).atPos p).Sound :=
  ⟨h.codes, fun hv => by
    obtain ⟨t', is, hH, hr⟩ := h.tree hv
    exact ⟨t', is, hH.congr rfl, hr⟩, h.queue, hp, h.bound, h.lengths, h.partialByte⟩

theorem ends_count (input : List Byte) : Ends countBody (input.length + 4) input := by
  intro op rest s hs hin
  have h₁ := countClear_step op (.countEof :: rest) (resume op (countBody ++ rest) s) rfl
  rw [show ({ resume op (countBody ++ rest) s with freq := Vector.replicate 257 0 } : State) =
    resume op (countBody ++ rest) { s with freq := Vector.replicate 257 0 } from rfl] at h₁
  rw [show countBody ++ rest = .countClear :: .countEof :: rest from rfl, resume_resume] at h₁
  obtain ⟨k, hk, f, p, hp, h₂⟩ := countByte_ends op (.countEof :: rest) s.chunkCount
    { s with freq := Vector.replicate 257 0 } 0 rfl hs.position
  have hcc : s.chunkCount ≤ input.length := by rw [← hin]; unfold State.chunkCount; omega
  rcases h₂ with h₂ | ⟨e, h₂⟩
  · have h₃ := countEof_step op rest _ (resume_cons_phase op .countEof rest
      (({ s with freq := f } : State).atPos p))
    refine ⟨1 + k + 1, by omega, ({ s with freq := f.set eofSymbol 1 } : State).atPos p, Sound_freq hs _ hp,
      ⟨rfl, rfl, rfl, rfl⟩, .inl (((h₁.trans h₂).trans h₃).to ?_)⟩
    exact resume_setPhase op rest (({ s with freq := f.set eofSymbol 1 } : State).atPos p) _
  · exact ⟨1 + k, by omega, ({ s with freq := f } : State).atPos p, Sound_freq hs _ hp, ⟨rfl, rfl, rfl, rfl⟩,
      .inr ⟨e, h₁.trans h₂⟩⟩

/-! ### ENC -/

theorem split_uncoded (v : Vector (BitVec 9) 257) (xs : List Symbol) :
    (∀ x ∈ xs, v[x] ≠ 0) ∨ ∃ ys x zs, xs = ys ++ x :: zs ∧ (∀ y ∈ ys, v[y] ≠ 0) ∧ v[x] = 0 := by
  induction xs with
  | nil => exact .inl (by simp)
  | cons x xs ih =>
    by_cases hx : v[x] = 0
    · exact .inr ⟨[], x, xs, rfl, by simp, hx⟩
    · rcases ih with h | ⟨ys, y, zs, rfl, h1, h2⟩
      · exact .inl fun y hy => by
          rcases List.mem_cons.mp hy with rfl | hy
          · exact hx
          · exact h y hy
      · exact .inr ⟨x :: ys, y, zs, rfl, fun w hw => by
          rcases List.mem_cons.mp hw with rfl | hw
          · exact hx
          · exact h1 w hw, h2⟩

theorem chunks_consumed {s : State} (hi : s.inPos ≤ 8 * s.input.length) :
    s.inPos + 8 * s.chunks.length ≤ 8 * s.input.length := by
  rw [chunks_length]; unfold State.chunkCount; omega

theorem chunks_length_le (s : State) : s.chunks.length ≤ s.input.length := by
  rw [chunks_length]; unfold State.chunkCount; omega

theorem ends_enc (input : List Byte) : Ends encBody (2 * input.length + 4) input := by
  intro op rest s hs hin
  have hle := chunks_length_le s
  rw [hin] at hle
  cases hv : s.codesValid with
  | false => exact ⟨1, by omega, s, hs, Kept.refl s, .inr ⟨_, encStart_raise op rest hv⟩⟩
  | true =>
    rcases split_uncoded s.codelen s.chunks with hc | ⟨xs, x, ys, hx, hc, h0⟩
    · by_cases he : s.codelen[eofSymbol] = 0
      · exact ⟨_, by omega, _, (hs.putBits _).atPos (by rw [putBits_input]),
          (kept_putBits _ s).trans (kept_atPos _ _), .inr ⟨_, enc_steps_eof op rest hv hc he⟩⟩
      · exact ⟨_, by omega, _, ((hs.putBits _).atPos (by rw [putBits_input])).close,
          ((kept_putBits _ s).trans (kept_atPos _ _)).trans (close_eq _ ▸ kept_putBits _ _),
          .inl (enc_steps op rest hv hc he)⟩
    · have hl := chunks_consumed hs.position
      have hxl := congrArg List.length hx
      rw [List.length_append, List.length_cons] at hxl
      refine ⟨_, by omega, _, ?_, ?_, .inr ⟨_, enc_steps_chunk op rest hv hx hc h0⟩⟩
      · exact ((hs.putBits _).atPos (p := s.inPos + 8 * xs.length) (by rw [putBits_input]; omega)).atPos
          (by rw [atPos_input, putBits_input]; omega)
      · exact ((kept_putBits _ s).trans (kept_atPos _ _)).trans (kept_atPos _ _)

/-! ### DEC -/

theorem kept_afterLiterals (xs : List Symbol) (n : Nat) (s : State) : Kept s (afterLiterals xs n s) := by
  refine ⟨by simp, ?_, ?_, ?_⟩
  · exact putBits_done _ _
  · exact putBits_err _ _
  · exact putBits_errcode _ _

theorem kept_decoded (xs : List Symbol) (n : Nat) (s : State) {t : State}
    (ht : Kept (afterLiterals xs n { s with decCount := 0 }) t := by exact ⟨rfl, rfl, rfl, rfl⟩) : Kept s t :=
  Kept.trans (t := { s with decCount := 0 }) ⟨rfl, rfl, rfl, rfl⟩ ((kept_afterLiterals xs n _).trans ht)

theorem Sound_afterLiterals {s : State} (h : s.Sound) (xs : List Symbol) {n : Nat} (hn : s.inPos + n ≤ 8 * s.input.length)
    (d : Word) (c : NodeIdx) : ((afterLiterals xs n { s with decCount := d }).withCursor c).Sound := by
  have h' : ({ s with decCount := d } : State).Sound := h.congr rfl rfl rfl rfl rfl rfl rfl rfl rfl rfl rfl rfl
  have := (h'.putBits (literalBits xs)).atPos (p := s.inPos + n) (by rw [putBits_input]; exact hn)
  exact this.congr rfl rfl rfl rfl rfl rfl rfl rfl rfl rfl rfl rfl

theorem ends_dec (input : List Byte) : Ends decBody (8 * input.length + 3) input := by
  intro op rest s hs hin
  cases hv : s.treeValid with
  | false => exact ⟨1, by omega, s, hs, Kept.refl s, .inr ⟨_, decStart_raise op rest hv⟩⟩
  | true =>
    obtain ⟨t, is, hH, hN, -, -, -⟩ := hs.tree hv
    obtain ⟨xs, b, r, hb, hx, hne, hr⟩ := Tree.spells_total hN s.inBits.length s.inBits (le_refl _)
    have hlen := congrArg List.length hb
    rw [inBits_length, State.bitsLeft, List.length_append, hin] at hlen
    have hpos := hs.position
    rw [hin] at hpos
    rcases hr with hr | ⟨p, more, rfl, hp⟩
    · obtain ⟨c, m, -, -, h⟩ := dec_steps_truncated op rest hv hH hN hx hne hr hb
      refine ⟨_, by omega, _, ?_, ?_, .inr ⟨_, h⟩⟩
      · have h1 := Sound_afterLiterals hs xs (n := b.length) (by rw [hin]; omega) 0 c
        exact h1.atPos (p := 8 * s.input.length) (by
          rw [show ((afterLiterals xs b.length { s with decCount := 0 }).withCursor c).input = s.input from
            afterLiterals_input xs b.length _])
      · exact kept_decoded xs b.length s
    · rw [List.length_append] at hlen
      obtain ⟨c, m, -, -, -, h⟩ := dec_steps op rest hv hH hN hx hne hp hb
      exact ⟨_, by omega, _, Sound_afterLiterals hs xs (n := b.length + p.length) (by rw [hin]; omega) 0 c,
        kept_decoded xs (b.length + p.length) s, .inl h⟩

/-! ### RTAG -/

/-- RTAG on fewer than 32 bits (R183). -/
theorem rtag_short (op : BitVec 4) (rest : List Line) {s : State} (h : 8 * s.input.length < s.inPos + 32) :
    Steps 2 (resume op (rtagBody ++ rest) s) (raiseError .badHeaderTag (s.atPos (8 * s.input.length))) := by
  refine Steps.cons rfl ?_ (raise_step op rest .badHeaderTag (s.atPos (8 * s.input.length)))
  simp only [performLine, lineReadTag]
  rw [tagAt_short (s := resume op (rtagBody ++ rest) s) h]
  rfl

/-- RTAG on a tag it does not expect (R183). -/
theorem rtag_mismatch (op : BitVec 4) (rest : List Line) {s : State} {bits more : List Bool}
    (hb : s.inBits = bits ++ more) (hl : bits.length = 32) (hne : bits ≠ msbBits 32 s.tag.toNat) :
    Steps 2 (resume op (rtagBody ++ rest) s) (raiseError .badHeaderTag (s.atPos (s.inPos + 32))) := by
  obtain ⟨ts, ht⟩ := tagAt_full (s := resume op (rtagBody ++ rest) s) hb hl
  refine Steps.cons rfl ?_ (raise_step op rest .badHeaderTag (s.atPos (s.inPos + 32)))
  simp only [performLine, lineReadTag, ht]
  rw [execTag_running (rest := rest) (op := op) rfl, if_pos]
  · rfl
  · intro e
    apply hne
    have e' : BitVec.ofNat 32 (bitsVal bits) = s.tag := e
    have hlt := bitsVal_lt bits
    rw [hl] at hlt
    rw [← e', BitVec.toNat_ofNat, Nat.mod_eq_of_lt hlt]
    have := msbBits_bitsVal bits
    rw [hl] at this
    exact this.symm

theorem ends_rtag (input : List Byte) : Ends rtagBody 2 input := by
  intro op rest s hs _
  by_cases hlt : 8 * s.input.length < s.inPos + 32
  · exact ⟨2, le_refl _, _, hs.atPos (le_refl _), kept_atPos s _, .inr ⟨_, rtag_short op rest hlt⟩⟩
  · have hb : s.inBits = s.inBits.take 32 ++ s.inBits.drop 32 := (List.take_append_drop 32 _).symm
    have hl : (s.inBits.take 32).length = 32 := by
      rw [List.length_take, inBits_length]; unfold State.bitsLeft; omega
    by_cases he : s.inBits.take 32 = msbBits 32 s.tag.toNat
    · rw [he] at hb
      exact ⟨1, by omega, _, hs.atPos (by omega), kept_atPos s _, .inl (rtag_stage op rest hb)⟩
    · exact ⟨2, le_refl _, _, hs.atPos (by omega), kept_atPos s _, .inr ⟨_, rtag_mismatch op rest hb hl he⟩⟩

/-! ### RHDR -/

/-- `s` with an arena and an input position: all that reading a header changes once its flags are cleared. -/
def State.withArena (s : State) (v : Vector Node 513) (c : NodeIdx) (p : Nat) : State :=
  { s with node := v, nodeCount := c, inPos := p }

theorem execHdrInternal_resume (op : BitVec 4) (rest : List Line) (stack : List Frame) (s : State) :
    execHdrInternal (resume op (.readNode stack :: rest) s) =
      enterNode op rest (resume op (.readNode stack :: rest) s) fun i s' =>
        proceed op (.readNode ({ node := i, left := none } :: stack) :: rest) s' := rfl

theorem execHdrLeaf_resume (op : BitVec 4) (rest : List Line) (stack : List Frame) (sym : SymField) (s : State) :
    execHdrLeaf sym (resume op (.readNode stack :: rest) s) = enterNode op rest (resume op (.readNode stack :: rest) s)
      fun i s₁ =>
        if sym.toNat > Config.eofSym then proceed op (.raise .headerSymbolRange :: rest) { s₁ with inPos := s₁.inPos + 9 }
        else setNode i (headerLeaf sym) { s₁ with inPos := s₁.inPos + 9 } fun s₃ => returnNode op rest i stack s₃ := rfl

/-- A header token with the arena full (R188). -/
theorem readNode_full (op : BitVec 4) (rest : List Line) (stack : List Frame) {s : State} (hc : s.nodeCount.toNat = 513)
    (hb : s.inBits ≠ []) : s.inPos + 1 ≤ 8 * s.input.length ∧ Steps 2 (resume op (.readNode stack :: rest) s)
      (raiseError .headerOverflow (s.withArena s.node s.nodeCount (s.inPos + 1))) := by
  have hc' : (resume op (.readNode stack :: rest) s).nodeCount.toNat = Config.nodeCap := hc
  have hpos : s.inPos + 1 ≤ 8 * s.input.length := by
    have := List.length_pos_iff.mpr hb
    rw [inBits_length] at this
    unfold State.bitsLeft at this
    omega
  have key : ∀ k, enterNode op rest (resume op (.readNode stack :: rest) s) k =
      .next (resume op (.raise .headerOverflow :: rest) (s.withArena s.node s.nodeCount (s.inPos + 1))) := by
    intro k
    simp only [enterNode]
    rw [if_pos hc']
    rfl
  refine ⟨hpos, Steps.cons rfl ?_ (raise_step op rest .headerOverflow _)⟩
  simp only [performLine, lineReadNode]
  cases hs : s.inBits with
  | nil => exact absurd hs hb
  | cons b more =>
    have ht : tokenAt (resume op (.readNode stack :: rest) s) = decode .header (s.inBits.take 10) :=
      congrArg (decode .header) (bitsFrom_inBits s 10 (by omega))
    rw [ht, hs, List.take_succ_cons]
    cases b with
    | false => exact (execHdrInternal_resume op rest stack s).trans (key _)
    | true =>
      simp only [decode, decodeToken]
      by_cases h9 : 9 ≤ (more.take 9).length
      · rw [if_pos h9]; exact (execHdrLeaf_resume op rest stack _ s).trans (key _)
      · rw [if_neg h9]; exact key _

/-- Reading a node from no bits (R185, R192). -/
theorem readNode_empty (op : BitVec 4) (rest : List Line) (stack : List Frame) {s : State} (hb : s.inBits = [])
    (hi : s.inPos ≤ 8 * s.input.length) : Steps 2 (resume op (.readNode stack :: rest) s)
      (raiseError .truncatedHeader (s.withArena s.node s.nodeCount (8 * s.input.length))) := by
  refine Steps.cons rfl ?_ (raise_step op rest .truncatedHeader _)
  simp only [performLine, lineReadNode]
  have ht : tokenAt (resume op (.readNode stack :: rest) s) = decode .header (s.inBits.take 10) :=
    congrArg (decode .header) (bitsFrom_inBits s 10 hi)
  rw [ht, hb]
  rfl

/-- The token at a marker 1 followed by fewer than 9 bits (R185, R192). -/
theorem readNode_short (op : BitVec 4) (rest : List Line) (stack : List Frame) {s : State} {more : List Bool}
    (hb : s.inBits = true :: more) (hl : more.length < 9) (hc : s.nodeCount.toNat < 513) :
    Steps 2 (resume op (.readNode stack :: rest) s)
      (raiseError .truncatedHeader (s.withArena s.node (s.nodeCount + 1) (8 * s.input.length))) := by
  have hi := inBits_bound (s := s) (bs := [true]) (more := more) hb (by simp)
  refine Steps.cons rfl ?_ (raise_step op rest .truncatedHeader _)
  simp only [performLine, lineReadNode]
  have ht : tokenAt (resume op (.readNode stack :: rest) s) = decode .header (s.inBits.take 10) :=
    congrArg (decode .header) (bitsFrom_inBits s 10 (by simp at hi; omega))
  rw [ht, hb, List.take_succ_cons]
  simp only [decode, decodeToken]
  rw [if_neg (by rw [List.length_take]; omega)]
  have hne : ¬(resume op (.readNode stack :: rest) s).nodeCount.toNat = Config.nodeCap := by
    show ¬s.nodeCount.toNat = 513
    omega
  simp only [enterNode]
  rw [if_neg hne]
  rfl

/-- A leaf token with a reserved payload (R99, R187). -/
theorem readNode_range (op : BitVec 4) (rest : List Line) (stack : List Frame) {s : State} {v : SymField}
    {more : List Bool} (hb : s.inBits = true :: (msbBits 9 v.toNat ++ more)) (hv : v.toNat > 256)
    (hc : s.nodeCount.toNat < 513) : Steps 2 (resume op (.readNode stack :: rest) s)
      (raiseError .headerSymbolRange (s.withArena s.node (s.nodeCount + 1) (s.inPos + 10))) := by
  obtain ⟨ts, ht⟩ := tokenAt_leaf (s := resume op (.readNode stack :: rest) s) hb
  refine Steps.cons rfl ?_ (raise_step op rest .headerSymbolRange _)
  simp only [performLine, lineReadNode, ht]
  rw [execHdrLeaf_room (s := resume op (.readNode stack :: rest) s) rfl hc, if_pos hv]
  rfl

/-- How the reading of a node ends that is no header fitting the arena: with which error, after how many nodes and where.
An input that ends inside such a header is truncated, and consumed (R185, R187, R188, R192). -/
structure HeaderEnd (s : State) (e : ErrorCode) (c : NodeIdx) (p : Nat) : Prop where
  error : e = .truncatedHeader ∨ e = .headerOverflow ∨ e = .headerSymbolRange
  count : c.toNat ≤ 513
  lower : s.inPos ≤ p
  upper : p ≤ 8 * s.input.length
  none : ¬∃ (t : Tree) (more : List Bool), s.inBits = t.headerBits ++ more ∧ s.nodeCount.toNat + t.size ≤ 513
  short : ∀ (t : Tree) (q : List Bool), t.headerBits = s.inBits ++ q → q ≠ [] → s.nodeCount.toNat + t.size ≤ 513 →
    e = .truncatedHeader ∧ p = 8 * s.input.length

theorem HeaderEnd.of_empty {s : State} (hb : s.inBits = []) (hi : s.inPos ≤ 8 * s.input.length)
    (hc : s.nodeCount.toNat ≤ 513) : HeaderEnd s .truncatedHeader s.nodeCount (8 * s.input.length) :=
  ⟨.inl rfl, hc, hi, le_refl _, (fun ⟨t, more, h, _⟩ => by
    rw [hb] at h
    have := congrArg List.length h
    have hl := t.headerBits_length
    have hp := t.leaves_length_pos
    rw [List.length_append, List.length_nil] at this
    omega), fun _ _ _ _ _ => ⟨rfl, rfl⟩⟩

theorem Tree.leaf_of_true {t : Tree} {bits more : List Bool} (h : t.headerBits ++ more = true :: bits) :
    ∃ x, t = .leaf x ∧ msbBits 9 x.val ++ more = bits := by
  cases t with
  | leaf x => rw [headerBits_leaf, List.cons_append, List.cons.injEq] at h; exact ⟨x, rfl, h.2⟩
  | node l r => rw [headerBits_node, List.cons_append, List.cons.injEq] at h; cases h.1

theorem Tree.node_of_false {t : Tree} {bits more : List Bool} (h : t.headerBits ++ more = false :: bits) :
    ∃ l r, t = .node l r ∧ l.headerBits ++ (r.headerBits ++ more) = bits := by
  cases t with
  | leaf x => rw [headerBits_leaf, List.cons_append, List.cons.injEq] at h; cases h.1
  | node l r =>
    rw [headerBits_node, List.cons_append, List.cons.injEq, List.append_assoc] at h
    exact ⟨l, r, rfl, h.2⟩

/-- A node read from any bits: it is the header of some tree that fits the arena, or an error is raised within a step
per node that fits (R185, R187, R188, R192). -/
theorem readNode_total (op : BitVec 4) (rest : List Line) (n : Nat) : ∀ (s : State) (stack : List Frame),
    s.inBits.length ≤ n → s.inPos ≤ 8 * s.input.length → s.nodeCount.toNat ≤ 513 →
    (∃ (t : Tree) (more : List Bool), s.inBits = t.headerBits ++ more ∧ s.nodeCount.toNat + t.size ≤ 513) ∨
      ∃ k ≤ 515 - s.nodeCount.toNat, ∃ e v c p, HeaderEnd s e c p ∧
        Steps k (resume op (.readNode stack :: rest) s) (raiseError e (s.withArena v c p)) := by
  induction n with
  | zero =>
    intro s stack hn hi hc
    have hb : s.inBits = [] := List.length_eq_zero_iff.mp (by omega)
    exact .inr ⟨2, by omega, _, _, _, _, .of_empty hb hi hc, readNode_empty op rest stack hb hi⟩
  | succ n ih =>
    intro s stack hn hi hc
    cases hb : s.inBits with
    | nil => exact .inr ⟨2, by omega, _, _, _, _, .of_empty hb hi hc, readNode_empty op rest stack hb hi⟩
    | cons b more =>
      rw [hb, List.length_cons] at hn
      have hi1 := inBits_bound (s := s) (bs := [b]) (more := more) hb (by simp)
      simp only [List.length_singleton] at hi1
      by_cases hf : s.nodeCount.toNat = 513
      · obtain ⟨hp, h⟩ := readNode_full op rest stack hf (by rw [hb]; simp)
        exact .inr ⟨2, by omega, _, _, _, _, ⟨.inr (.inl rfl), hc, by omega, hp,
          (fun ⟨t, _, _, ht⟩ => by have := t.size_pos; omega), (fun t _ _ _ ht => by have := t.size_pos; omega)⟩, h⟩
      · have hlt : s.nodeCount.toNat < 513 := by omega
        cases b with
        | true =>
          by_cases h9 : more.length < 9
          · refine .inr ⟨2, by omega, _, _, _, _, ⟨.inl rfl, ?_, hi, le_refl _, ?_, fun _ _ _ _ _ => ⟨rfl, rfl⟩⟩,
              readNode_short op rest stack hb h9 hlt⟩
            · rw [BitVec.toNat_add]; simp; omega
            · rintro ⟨t, m, ht, -⟩
              obtain ⟨x, -, hx⟩ := Tree.leaf_of_true (ht.symm.trans hb)
              rw [← hx] at h9
              simp at h9
          · have hm : more = msbBits 9 (BitVec.ofNat 9 (bitsVal (more.take 9))).toNat ++ more.drop 9 := by
              have hl : (more.take 9).length = 9 := by rw [List.length_take]; omega
              have hv := bitsVal_lt (more.take 9)
              rw [hl] at hv
              rw [BitVec.toNat_ofNat, Nat.mod_eq_of_lt hv]
              have := msbBits_bitsVal (more.take 9)
              rw [hl] at this
              rw [this, List.take_append_drop]
            generalize BitVec.ofNat 9 (bitsVal (more.take 9)) = v at hm
            rw [hm] at hb
            by_cases hv : v.toNat > 256
            · have := inBits_bound (s := s) (bs := true :: msbBits 9 v.toNat) (more := more.drop 9) hb (by simp)
              simp at this
              refine .inr ⟨2, by omega, _, _, _, _, ⟨.inr (.inr rfl), ?_, by omega, by omega, ?_, ?_⟩,
                readNode_range op rest stack hb hv hlt⟩
              · rw [BitVec.toNat_add]; simp; omega
              · rintro ⟨t, m, ht, -⟩
                obtain ⟨x, -, hx⟩ := Tree.leaf_of_true (ht.symm.trans hb)
                have he := msbBits_inj (by have := x.isLt; omega) v.isLt (List.append_inj hx (by simp)).1
                have := x.isLt
                omega
              · intro t q hq hne _
                rw [hb, List.cons_append] at hq
                obtain ⟨x, -, hx⟩ := Tree.leaf_of_true (t := t) (more := []) (by rw [List.append_nil]; exact hq)
                have hlx := congrArg List.length hx
                simp only [List.length_append, msbBits_length, List.length_nil] at hlx
                exact absurd (List.length_eq_zero_iff.mp (by omega)) hne
            · refine .inl ⟨.leaf ⟨v.toNat, by omega⟩, more.drop 9, ?_, by simp only [Tree.size]; omega⟩
              rw [Tree.headerBits_leaf, List.cons_append, ← hm]
        | false =>
          have h₁ : Steps 1 (resume op (.readNode stack :: rest) s)
              (resume op (.readNode ({ node := s.nodeCount, left := none } :: stack) :: rest)
                (s.withArena s.node (s.nodeCount + 1) (s.inPos + 1))) := by
            obtain ⟨ts, ht⟩ := tokenAt_internal (s := resume op (.readNode stack :: rest) s) hb
            refine Steps.one rfl ?_
            simp only [performLine, lineReadNode, ht]
            rw [execHdrInternal_room (s := resume op (.readNode stack :: rest) s) rfl hlt]
            rfl
          generalize hs₁ : s.withArena s.node (s.nodeCount + 1) (s.inPos + 1) = s₁ at h₁
          have hin₁ : s₁.input = s.input := by rw [← hs₁]; rfl
          have hb₁ : s₁.inBits = more := by
            have := inBits_advance s 1
            rw [hb, List.drop_succ_cons, List.drop_zero] at this
            rw [← this, ← hs₁]; rfl
          have hc₁ : s₁.nodeCount.toNat = s.nodeCount.toNat + 1 := by
            rw [← hs₁]
            show (s.nodeCount + 1).toNat = _
            rw [BitVec.toNat_add]
            simp
            omega
          have hp₁ : s₁.inPos = s.inPos + 1 := by rw [← hs₁]; rfl
          rcases ih s₁ ({ node := s.nodeCount, left := none } :: stack) (by rw [hb₁]; omega) (by rw [hin₁]; omega)
            (by omega) with ⟨l, ml, hl, hsl⟩ | ⟨k, hk, e, v, c, p, hp, h⟩
          · obtain ⟨pl, vl, -, hret⟩ := readNode_steps op rest l (resume op (.readNode ({ node := s.nodeCount, left := none }
              :: stack) :: rest) s₁) ({ node := s.nodeCount, left := none } :: stack) ml rfl hl hsl
            have h₂ := hret _ rfl
            generalize hsl₂ : afterSubtree (resume op (.readNode ({ node := s.nodeCount, left := none } :: stack) :: rest)
              s₁) l pl vl = s₂ at h₂
            have hin₂ : s₂.input = s.input := by rw [← hsl₂, ← hin₁]; rfl
            have hp₂ : s₂.inPos = s₁.inPos + l.headerBits.length := by rw [← hsl₂]; rfl
            have hc₂ : s₂.nodeCount.toNat = s₁.nodeCount.toNat + l.size := by
              rw [← hsl₂]
              show (BitVec.ofNat 10 (s₁.nodeCount.toNat + l.size)).toNat = _
              rw [BitVec.toNat_ofNat]; omega
            have hb₂ : s₂.inBits = ml := by
              have := congrArg (List.drop l.headerBits.length) hl
              rw [List.drop_left, State.inBits, List.drop_drop, ← hp₂, hin₁, ← hin₂] at this
              exact this
            have hll := congrArg List.length hl
            rw [hb₁, List.length_append] at hll
            have hlh := l.headerBits_length
            have hls := l.size_eq
            have hpos₂ : s₂.inPos ≤ 8 * s₂.input.length := by
              have := inBits_length s₁
              rw [hb₁] at this
              unfold State.bitsLeft at this
              rw [hin₁] at this
              rw [hin₂]; omega
            rcases ih s₂ ({ node := s.nodeCount, left := some (resume op (.readNode ({ node := s.nodeCount, left := none }
              :: stack) :: rest) s₁).nodeCount } :: stack) (by rw [hb₂]; omega) hpos₂ (by omega) with
              ⟨r, mr, hr, hsr⟩ | ⟨k, hk, e, v, c, p, hp, h⟩
            · refine .inl ⟨.node l r, mr, ?_, by simp only [Tree.size]; omega⟩
              rw [Tree.headerBits_node, ← hb₁, hl, ← hb₂, hr]
              simp
            · refine .inr ⟨1 + (l.size + k), by omega, e, v, c, p, ⟨hp.error, hp.count, ?_, ?_, ?_, ?_⟩,
                (h₁.trans (h₂.trans h)).to ?_⟩
              · have := hp.lower; omega
              · rw [← hin₂]; exact hp.upper
              · rintro ⟨t, m, ht, hts⟩
                obtain ⟨l', r', rfl, hlr⟩ := Tree.node_of_false (ht.symm.trans hb)
                rw [← hb₁, hl, ← hb₂] at hlr
                obtain ⟨rfl, hr'⟩ := Tree.headerBits_prefix _ _ _ _ hlr
                have hsz : (Tree.node l' r').size = l'.size + r'.size + 1 := rfl
                exact hp.none ⟨r', m, hr'.symm, by omega⟩
              · intro t q hq hne hts
                rw [hb, List.cons_append] at hq
                obtain ⟨l', r', rfl, hlr⟩ := Tree.node_of_false (t := t) (more := []) (by rw [List.append_nil]; exact hq)
                rw [← hb₁, hl, ← hb₂, List.append_assoc] at hlr
                obtain ⟨rfl, hr'⟩ := Tree.headerBits_prefix _ _ _ _ hlr
                have hsz : (Tree.node l' r').size = l'.size + r'.size + 1 := rfl
                rw [List.append_nil] at hr'
                rw [← hin₂]
                exact hp.short r' q hr' hne (by omega)
              · rw [← hsl₂, ← hs₁]
                rfl
          · refine .inr ⟨1 + k, by omega, e, v, c, p, ⟨hp.error, hp.count, ?_, ?_, ?_, ?_⟩, (h₁.trans h).to ?_⟩
            · have := hp.lower; omega
            · rw [← hin₁]; exact hp.upper
            · rintro ⟨t, m, ht, hts⟩
              obtain ⟨l', r', rfl, hlr⟩ := Tree.node_of_false (ht.symm.trans hb)
              have hsz : (Tree.node l' r').size = l'.size + r'.size + 1 := rfl
              exact hp.none ⟨l', _, by rw [hb₁]; exact hlr.symm, by omega⟩
            · intro t q hq hne hts
              rw [hb, List.cons_append] at hq
              obtain ⟨l', r', rfl, hlr⟩ := Tree.node_of_false (t := t) (more := []) (by rw [List.append_nil]; exact hq)
              have hsz : (Tree.node l' r').size = l'.size + r'.size + 1 := rfl
              rw [List.append_nil] at hlr
              rw [← hin₁]
              rcases List.append_eq_append_iff.mp hlr with ⟨w, hw, -⟩ | ⟨w, hw, hw'⟩
              · exact absurd ⟨l', w, by rw [hb₁]; exact hw, by omega⟩ hp.none
              · cases w with
                | nil => exact absurd ⟨l', [], by rw [hb₁, hw]; simp, by omega⟩ hp.none
                | cons => exact hp.short l' _ (by rw [hb₁]; exact hw) (by simp) (by omega)
            · rw [← hs₁]
              rfl

/-- RHDR's state once its flags and the arena are cleared (R184). -/
def State.headerCleared (s : State) : State :=
  { clearArena { s with treeValid := false, codesValid := false } with root := 0 }

theorem rhdrClear_step (op : BitVec 4) (rest : List Line) (s : State) :
    Steps 3 (resume op (rhdrBody ++ rest) s) (resume op (.readNode [] :: rest) s.headerCleared) :=
  (clearFlags_steps op (.rhdrClear :: rest) s).trans (Steps.one rfl rfl)

theorem Sound_headerCleared {s : State} (h : s.Sound) (v : Vector Node 513) (c : NodeIdx) {p : Nat}
    (hp : p ≤ 8 * s.input.length) : (s.headerCleared.withArena v c p).Sound :=
  ⟨(fun h => by cases h), (fun h => by cases h), h.queue, hp, h.bound, h.lengths, h.partialByte⟩

/-- RHDR on the header of a single leaf (R189). -/
theorem rhdr_degenerate (op : BitVec 4) (rest : List Line) {s : State} {x : Symbol} {more : List Bool}
    (hb : s.inBits = (Tree.leaf x).headerBits ++ more) : Steps 5 (resume op (rhdrBody ++ rest) s)
      (raiseError .degenerateTree (s.headerCleared.withArena (headerArena (.leaf x)) 1 (s.inPos + 10))) := by
  have h₁ := rhdrClear_step op rest s
  obtain ⟨p, v, hv, hret⟩ := readNode_steps op rest (.leaf x) (resume op (.readNode [] :: rest) s.headerCleared) [] more
    rfl hb (by show (0 : NodeIdx).toNat + 1 ≤ 513; decide)
  have hv' := recordsAt_clear hv
  subst hv'
  have h₂ := hret _ rfl
  generalize hu : resume op (Line.rhdrRoot _ :: rest) _ = u at h₂
  have h₃ : performLine (.rhdrRoot 0) op rest u = .next (raiseError .degenerateTree { u with root := 0 }) := by
    have hH := headerArena_holds (.leaf x) (by simp [Tree.size]) { u with root := 0 } (by rw [← hu]; rfl)
    obtain ⟨n, hn', hl, -, -⟩ := hH.leaf_inv
    unfold performLine lineRhdrRoot
    refine (withNode_some hn' _).trans ?_
    rw [hl]; rfl
  refine (h₁.trans (h₂.trans (Steps.one (by rw [← hu]; rfl) h₃))).to ?_
  rw [← hu]
  rfl

theorem ends_rhdr (input : List Byte) : Ends rhdrBody 518 input := by
  intro op rest s hs hin
  have h₁ := rhdrClear_step op rest s
  rcases readNode_total op rest s.inBits.length s.headerCleared [] (le_refl _) hs.position
    (by show (0 : NodeIdx).toNat ≤ 513; decide) with ⟨t, more, hb, ht⟩ | ⟨k, hk, e, v, c, p, hp, h⟩
  · have hb' : s.inBits = t.headerBits ++ more := hb
    have ht' : t.size ≤ 513 := by
      have h0 : s.headerCleared.nodeCount.toNat = 0 := rfl
      omega
    have hlen := congrArg List.length hb'
    rw [inBits_length, State.bitsLeft, List.length_append] at hlen
    have hpos := hs.position
    cases t with
    | leaf x =>
      rw [Tree.headerBits_leaf] at hlen
      simp only [List.length_cons, msbBits_length] at hlen
      exact ⟨5, by omega, _, Sound_headerCleared hs _ _ (by omega), ⟨rfl, rfl, rfl, rfl⟩, .inr ⟨_, rhdr_degenerate op rest hb'⟩⟩
    | node l r =>
      have hm : (BitVec.ofNat 10 (Tree.node l r).size).toNat = (Tree.node l r).size := by
        rw [BitVec.toNat_ofNat]; omega
      refine ⟨_, by omega, s.withTree (.node l r) (Tree.node l r).headerBits.length, ⟨(fun h => by cases h), fun _ =>
        ⟨.node l r, _, headerArena_holds _ ht' _ rfl, rfl, ?_, ?_, (fun h => by cases h)⟩, hs.queue, ?_, hs.bound, hs.lengths,
        hs.partialByte⟩, ⟨rfl, rfl, rfl, rfl⟩, .inl (rhdr_stage op rest rfl hb' ht')⟩
      · rw [withTree_nodeCount, hm]; exact List.Perm.refl _
      · rw [withTree_nodeCount, hm]; exact ht'
      · rw [withTree_inPos, withTree_input]; omega
  · refine ⟨3 + k, by omega, _, Sound_headerCleared hs v c hp.upper, ⟨rfl, rfl, rfl, rfl⟩, .inr ⟨e, h₁.trans h⟩⟩

/-! ### Every command ends -/

theorem ends_body {i : Instr} {op : BitVec 4} {body : List Line} (h : commandOf i = some (op, body))
    (input : List Byte) : Ends body (8 * input.length + 4095) input := by
  have mono : ∀ {b : List Line} {m n : Nat}, m ≤ n → Ends b m input → Ends b n input := fun hmn hb op rest s hs hi => by
    obtain ⟨k, hk, r⟩ := hb op rest s hs hi
    exact ⟨k, by omega, r⟩
  cases i <;> simp only [commandOf, Option.some.injEq, Prod.mk.injEq, reduceCtorEq] at h <;> obtain ⟨-, rfl⟩ := h
  case compress => exact mono (by omega) <| ((((((((ends_outclr input).append (ends_rewind input)).append
    (ends_count input)).append (ends_rewind input)).append (ends_build input)).append (ends_gen input)).append
    (ends_wtag input)).append (ends_whdr input)).append (ends_enc input)
  case decompress => exact mono (by omega) <| (((((ends_outclr input).append (ends_rewind input)).append
    (ends_rtag input)).append (ends_rhdr input)).append (ends_dec input)).append (ends_close input)
  case count => exact mono (by omega) (ends_count input)
  case build => exact mono (by omega) (ends_build input)
  case gen => exact mono (by omega) (ends_gen input)
  case wtag => exact mono (by omega) (ends_wtag input)
  case whdr => exact mono (by omega) (ends_whdr input)
  case enc => exact mono (by omega) (ends_enc input)
  case rtag => exact mono (by omega) (ends_rtag input)
  case rhdr => exact mono (by omega) (ends_rhdr input)
  case dec => exact mono (by omega) (ends_dec input)
  case rewind => exact mono (by omega) (ends_rewind input)
  case close => exact mono (by omega) (ends_close input)
  case outclr => exact mono (by omega) (ends_outclr input)

/-- A command started from a settled state reaches the idle core within the bound, and leaves it settled (R59, R221,
R282). -/
theorem command_ends {i : Instr} {op : BitVec 4} {body : List Line} (h : commandOf i = some (op, body)) {s : State}
    (hs : s.Settled) : ∃ k ≤ stepBound s, ∃ t, Steps k (startCommand op body s) t ∧ t.phase = .idle ∧ t.Settled ∧
      (t.done = !t.err) := by
  obtain ⟨l, ls, rfl⟩ : ∃ l ls, body = l :: ls := by
    cases i <;> simp only [commandOf, Option.some.injEq, Prod.mk.injEq, reduceCtorEq] at h <;> obtain ⟨-, rfl⟩ := h <;>
      exact ⟨_, _, rfl⟩
  have hs' : ({ s with done := false, err := false, errcode := 0 } : State).Sound :=
    hs.sound.congr rfl rfl rfl rfl rfl rfl rfl rfl rfl rfl rfl rfl
  obtain ⟨k, hk, t, ht, hkept, hst | ⟨e, hst⟩⟩ := ends_body h s.input op [] _ hs' rfl
  · rw [List.append_nil, ← startCommand_eq] at hst
    refine ⟨k + 1, by rw [stepBound]; omega, endCommand t, hst.trans (end_step op t), rfl, ⟨ht.congr rfl rfl rfl rfl rfl rfl rfl rfl rfl rfl rfl rfl, ?_, ?_⟩, ?_⟩
    · show ¬(true = true ∧ t.err = true)
      rw [hkept.err]; simp
    · show t.err = false → t.errcode = 0
      rw [hkept.errcode]; simp
    · show true = !t.err
      rw [hkept.err]; rfl
  · rw [List.append_nil, ← startCommand_eq] at hst
    refine ⟨k, by rw [stepBound]; omega, raiseError e t, hst, rfl, ⟨ht.congr rfl rfl rfl rfl rfl rfl rfl rfl rfl rfl rfl rfl, ?_, ?_⟩, ?_⟩
    · show ¬(t.done = true ∧ true = true)
      rw [hkept.done]; simp
    · show true = false → _
      simp
    · show t.done = !true
      rw [hkept.done]; rfl

end Sys2Proof.Machine
end

