-- ==== Sys2Proof/Laws/Encoding.lean ====
section
/-! SUPPORT. Laws of the encodings: the CTRL word and what its decoder delivers. -/

namespace Sys2Proof.Machine

/-- A CTRL command decodes from its own word (R56, R226). -/
theorem decodeCtrl_encode (i : Instr) (h : i.wellFormed = true) (hp : i.port = .ctrl) :
    decodeCtrl ((encodeCtrl i).getD 0) = i := by
  cases i
  case illegalRsv rsv op =>
    have h1 : (rsv ++ op).extractLsb' 4 28 = rsv := by
      apply BitVec.eq_of_getLsbD_eq; intro k hk
      rw [BitVec.getLsbD_extractLsb', BitVec.getLsbD_append]; simp [hk]
    have h2 : (rsv ++ op).extractLsb' 0 4 = op := by
      apply BitVec.eq_of_getLsbD_eq; intro k hk
      rw [BitVec.getLsbD_extractLsb', BitVec.getLsbD_append]; simp [hk]
    have hr : rsv ≠ 0 := by simpa [Instr.wellFormed] using h
    show decodeCtrl (rsv ++ op) = _
    rw [decodeCtrl, h1, h2, if_pos hr]
  case tag => simp [Instr.port] at hp
  case hdrInternal => simp [Instr.port] at hp
  case hdrLeaf => simp [Instr.port] at hp
  all_goals rfl

/-- The decoder on a whole CTRL word. -/
theorem decode_ctrl_word (v : Word) (more : List Bool) :
    decode .ctrl (msbBits 32 v.toNat ++ more) = .instr (decodeCtrl v) more := by
  have h : bitsVal (msbBits 32 v.toNat) = v.toNat := by
    rw [bitsVal_msbBits, Nat.mod_eq_of_lt v.isLt]
  simp [decode, h]

theorem encode_ctrl {i : Instr} (hp : i.port = .ctrl) : encode i = msbBits 32 ((encodeCtrl i).getD 0).toNat := by
  cases i <;> first | rfl | (simp [Instr.port] at hp)

theorem decodeCtrl_port (v : Word) : (decodeCtrl v).port = .ctrl := by
  rw [decodeCtrl]; split
  · rfl
  · split <;> rfl

/-- What `exec` does with a row that a CTRL word delivers: a command, or an illegal word. -/
theorem ctrl_cases (i : Instr) (h : i.port = .ctrl) :
    (∃ op body, commandOf i = some (op, body)) ∨ i = .ack ∨ i = .illegalOp ∨ ∃ r o, i = .illegalRsv r o := by
  cases i <;> first | (simp [Instr.port] at h; done) | simp [commandOf]

end Sys2Proof.Machine
end

