-- ==== Sys2Proof/Laws/Frame.lean ====
section
/-! SUPPORT. Frame laws: the core's steps neither read nor write the host's side of the state (R79), and which lines touch
which registers (R228). -/

namespace Sys2Proof.Machine

/-! ### The host's side -/

/-- `s` with the interrupt enable and the host agent's fields of `u`. -/
def State.hostOf (s u : State) : State :=
  { s with irqEn := u.irqEn, host := u.host, rdata := u.rdata, outSeen := u.outSeen, draws := u.draws }

/-- An outcome with its next state changed. -/
def mapNext (f : State → State) : Host.Outcome State Fault Refusal → Host.Outcome State Fault Refusal
  | .next s => .next (f s)
  | .fault e => .fault e
  | .refused r => .refused r

theorem putBit_hostOf (b : Bool) (s u : State) : putBit b (s.hostOf u) = (putBit b s).hostOf u := by
  unfold putBit
  rw [show (s.hostOf u).outNbits = s.outNbits from rfl, show (s.hostOf u).outAcc = s.outAcc from rfl]
  split
  · rfl
  · rfl

theorem putBits_hostOf (bits : List Bool) (s u : State) : putBits bits (s.hostOf u) = (putBits bits s).hostOf u := by
  induction bits generalizing s with
  | nil => rfl
  | cons b bits ih => rw [putBits_cons, putBits_cons, putBit_hostOf, ih]

theorem resume_hostOf (op : BitVec 4) (todo : List Line) (s u : State) :
    resume op todo (s.hostOf u) = (resume op todo s).hostOf u := rfl

theorem proceed_hostOf (op : BitVec 4) (todo : List Line) (s u : State) :
    proceed op todo (s.hostOf u) = mapNext (·.hostOf u) (proceed op todo s) := by
  rw [proceed, resume_hostOf]; rfl

theorem withNode_hostOf (i : NodeIdx) (s u : State) (k k' : Node → Host.Outcome State Fault Refusal)
    (h : ∀ n, k' n = mapNext (·.hostOf u) (k n)) : withNode i (s.hostOf u) k' = mapNext (·.hostOf u) (withNode i s k) := by
  unfold withNode
  rw [show (s.hostOf u).nodeAt i = s.nodeAt i from rfl]
  split
  · rfl
  · exact h _

theorem withSymbol_hostOf (v : SymField) (u : State) (k k' : Symbol → Host.Outcome State Fault Refusal)
    (h : ∀ x, k' x = mapNext (·.hostOf u) (k x)) : withSymbol v k' = mapNext (·.hostOf u) (withSymbol v k) := by
  unfold withSymbol
  split
  · rfl
  · exact h _

theorem setNode_hostOf (i : NodeIdx) (n : Node) (s u : State) (k k' : State → Host.Outcome State Fault Refusal)
    (h : ∀ s, k' (s.hostOf u) = mapNext (·.hostOf u) (k s)) :
    setNode i n (s.hostOf u) k' = mapNext (·.hostOf u) (setNode i n s k) := by
  unfold setNode
  split
  · rename_i hi
    exact h { s with node := s.node.set i.toNat n hi }
  · rfl

theorem pqPush_hostOf (w : Word) (i : NodeIdx) (s u : State) (k k' : State → Host.Outcome State Fault Refusal)
    (h : ∀ s, k' (s.hostOf u) = mapNext (·.hostOf u) (k s)) :
    pqPush w i (s.hostOf u) k' = mapNext (·.hostOf u) (pqPush w i s k) := by
  unfold pqPush
  rw [show (s.hostOf u).pq = s.pq from rfl, show (s.hostOf u).seqCtr = s.seqCtr from rfl]
  split
  · exact h { s with pq := s.pq ++ [{ weight := w, seq := s.seqCtr, idx := i }], seqCtr := s.seqCtr + 1 }
  · rfl

theorem pqPop_hostOf (s u : State) (k k' : PqEntry → State → Host.Outcome State Fault Refusal)
    (h : ∀ e s, k' e (s.hostOf u) = mapNext (·.hostOf u) (k e s)) :
    pqPop (s.hostOf u) k' = mapNext (·.hostOf u) (pqPop s k) := by
  unfold pqPop
  rw [show (s.hostOf u).pq = s.pq from rfl]
  split
  · rfl
  · rename_i e _
    exact h e { s with pq := s.pq.erase e }

theorem enterNode_hostOf (op : BitVec 4) (rest : List Line) (s u : State) (k k' : NodeIdx → State → Host.Outcome State Fault Refusal)
    (h : ∀ i s, k' i (s.hostOf u) = mapNext (·.hostOf u) (k i s)) :
    enterNode op rest (s.hostOf u) k' = mapNext (·.hostOf u) (enterNode op rest s k) := by
  unfold enterNode
  rw [show (s.hostOf u).nodeCount = s.nodeCount from rfl]
  split
  · rfl
  · exact h s.nodeCount (allocate { s with inPos := s.inPos + 1 })

theorem addNode_hostOf (n : Node) (op : BitVec 4) (todo : List Line) (s u : State) :
    addNode n op todo (s.hostOf u) = mapNext (·.hostOf u) (addNode n op todo s) := by
  unfold addNode
  rw [show (s.hostOf u).nodeCount = s.nodeCount from rfl]
  split
  · exact setNode_hostOf _ _ _ _ _ _ fun s' => pqPush_hostOf _ _ (allocate s') u _ _ fun s'' => proceed_hostOf _ _ _ _
  · rfl

theorem returnNode_hostOf (op : BitVec 4) (rest : List Line) (i : NodeIdx) (stack : List Frame) (s u : State) :
    returnNode op rest i stack (s.hostOf u) = mapNext (·.hostOf u) (returnNode op rest i stack s) := by
  induction stack generalizing i s with
  | nil => exact proceed_hostOf _ _ _ _
  | cons f stack ih =>
    obtain ⟨n, l⟩ := f
    cases l with
    | none => exact proceed_hostOf _ _ _ _
    | some l => exact setNode_hostOf _ _ _ _ _ _ fun s' => ih _ _

theorem execTag_hostOf (t : Word) (s u : State) : execTag t (s.hostOf u) = mapNext (·.hostOf u) (execTag t s) := by
  unfold execTag
  rw [show (s.hostOf u).phase = s.phase from rfl, show (s.hostOf u).tag = s.tag from rfl]
  split
  · rename_i op rest _
    by_cases h : t ≠ s.tag
    · rw [if_pos h, if_pos h]; rfl
    · rw [if_neg h, if_neg h]; exact proceed_hostOf op rest (s.atPos (s.inPos + 32)) u
  · rfl

theorem execHdrInternal_hostOf (s u : State) :
    execHdrInternal (s.hostOf u) = mapNext (·.hostOf u) (execHdrInternal s) := by
  unfold execHdrInternal
  rw [show (s.hostOf u).phase = s.phase from rfl]
  split
  · exact enterNode_hostOf _ _ s u _ _ fun i s' => proceed_hostOf _ _ _ _
  · rfl

theorem execHdrLeaf_hostOf (v : SymField) (s u : State) :
    execHdrLeaf v (s.hostOf u) = mapNext (·.hostOf u) (execHdrLeaf v s) := by
  unfold execHdrLeaf
  rw [show (s.hostOf u).phase = s.phase from rfl]
  split
  · rename_i op stack rest _
    refine enterNode_hostOf _ _ s u _ _ fun i s₁ => ?_
    simp only
    by_cases h : v.toNat > Config.eofSym
    · rw [if_pos h, if_pos h]; rfl
    · rw [if_neg h, if_neg h]
      exact setNode_hostOf _ _ (s₁.atPos (s₁.inPos + 9)) u _ _ fun s₃ => returnNode_hostOf _ _ _ _ _ _
  · rfl

theorem encodeSymbol_hostOf (x : Symbol) (op : BitVec 4) (todo : List Line) (s u : State) :
    encodeSymbol x op todo (s.hostOf u) = mapNext (·.hostOf u) (encodeSymbol x op todo s) := by
  unfold encodeSymbol writeCode
  rw [show (s.hostOf u).codelen = s.codelen from rfl, show (s.hostOf u).codeOf = s.codeOf from rfl]
  split
  · rfl
  · rw [putBits_hostOf]; exact proceed_hostOf op todo (putBits (s.codeOf x) s) u

theorem decodeLeaf_hostOf (x : Symbol) (op : BitVec 4) (rest : List Line) (s u : State) :
    decodeLeaf x op rest (s.hostOf u) = mapNext (·.hostOf u) (decodeLeaf x op rest s) := by
  unfold decodeLeaf writeBits
  split
  · exact proceed_hostOf op rest s u
  · generalize msbBits 8 x.val = bits
    rw [putBits_hostOf]
    exact proceed_hostOf op _ { putBits bits s with decCount := (putBits bits s).decCount + 1, cursor := (putBits bits s).root } u

theorem readBits_hostOf (n : Nat) (s u : State) :
    readBits n (s.hostOf u) = ((readBits n s).1, (readBits n s).2.hostOf u) := by
  unfold readBits
  rw [show (s.hostOf u).inPos = s.inPos from rfl, show (s.hostOf u).input = s.input from rfl]
  split
  · rfl
  · rfl

/-- A line does the same whatever the host's side holds, and leaves it alone (R79, R277). -/
theorem performLine_hostOf (l : Line) (op : BitVec 4) (rest : List Line) (s u : State) :
    performLine l op rest (s.hostOf u) = mapNext (·.hostOf u) (performLine l op rest s) := by
  cases l with
  | clearOutput => exact proceed_hostOf op rest (clearOut s) u
  | rewindInput => exact proceed_hostOf op rest (rewind s) u
  | closeOutput =>
    have h : close (s.hostOf u) = (close s).hostOf u := by rw [close_eq, close_eq, ← putBits_hostOf]; rfl
    show proceed op rest (close (s.hostOf u)) = _
    rw [h]
    exact proceed_hostOf op rest (close s) u
  | raise e => rfl
  | clearTreeValid => exact proceed_hostOf op rest { s with treeValid := false } u
  | clearCodesValid => exact proceed_hostOf op rest { s with codesValid := false } u
  | countClear => exact proceed_hostOf op _ { s with freq := Vector.replicate 257 0 } u
  | countByte total =>
    simp only [performLine, lineCountByte, readBits_hostOf]
    obtain ⟨v, s'⟩ := readBits 8 s
    cases v with
    | none => exact proceed_hostOf op rest s' u
    | some v =>
      simp only
      split
      · rfl
      · exact proceed_hostOf op _ (bumpFreq _ s') u
  | countEof => exact proceed_hostOf op rest { s with freq := s.freq.set eofSymbol 1 } u
  | buildClear =>
    simp only [performLine, lineBuildClear]
    rw [show (s.hostOf u).freq = s.freq from rfl]
    split
    · rfl
    · exact proceed_hostOf op _ (pqClear (clearArena s)) u
  | buildLeaf x => exact addNode_hostOf _ op rest s u
  | buildMerge =>
    simp only [performLine, lineBuildMerge]
    rw [show (s.hostOf u).pq = s.pq from rfl]
    split
    · exact pqPop_hostOf _ _ _ _ fun a s₁ => pqPop_hostOf _ _ _ _ fun b s₂ => addNode_hostOf _ _ _ _ _
    · exact proceed_hostOf op _ s u
  | buildRoot =>
    simp only [performLine, lineBuildRoot]
    refine pqPop_hostOf s u _ _ fun e s' => ?_
    exact proceed_hostOf op rest { s' with root := e.idx, treeValid := true } u
  | genStart =>
    simp only [performLine, lineGenStart]
    rw [show (s.hostOf u).treeValid = s.treeValid from rfl]
    split
    · refine withNode_hostOf _ (clearCodes { s with codesValid := false }) u _ _ fun n => ?_
      split
      · exact withSymbol_hostOf _ _ _ _ fun x =>
          proceed_hostOf op _ (setCode x 1 0 (clearCodes { s with codesValid := false })) u
      · exact proceed_hostOf op _ (clearCodes { s with codesValid := false }) u
    · rfl
  | genWalk i len path =>
    refine withNode_hostOf _ s u _ _ fun n => ?_
    split
    · exact withSymbol_hostOf _ _ _ _ fun x => proceed_hostOf op rest (setCode x len path s) u
    · exact proceed_hostOf op _ s u
  | genEnd => exact proceed_hostOf op rest { s with codesValid := true } u
  | writeTag =>
    show proceed op rest (putBits (msbBits 32 s.tag.toNat) (s.hostOf u)) = _
    rw [putBits_hostOf]
    exact proceed_hostOf op rest _ u
  | hdrStart =>
    simp only [performLine, lineHdrStart]
    rw [show (s.hostOf u).treeValid = s.treeValid from rfl]
    split
    · exact proceed_hostOf op _ s u
    · rfl
  | hdrEmit i =>
    refine withNode_hostOf _ s u _ _ fun n => ?_
    split
    · simp only [writeBits, putBits_hostOf]; exact proceed_hostOf op _ _ u
    · simp only [writeBits, putBits_hostOf]; exact proceed_hostOf op _ _ u
  | hdrSymbol v =>
    simp only [performLine, lineHdrSymbol, writeBits, putBits_hostOf]
    exact proceed_hostOf op rest _ u
  | readTag =>
    simp only [performLine, lineReadTag]
    rw [show tagAt (s.hostOf u) = tagAt s from rfl]
    split
    · exact execTag_hostOf _ s u
    · rfl
    · rfl
  | rhdrClear => exact proceed_hostOf op _ { clearArena s with root := 0 } u
  | readNode stack =>
    simp only [performLine, lineReadNode]
    rw [show tokenAt (s.hostOf u) = tokenAt s from rfl]
    split
    · exact execHdrInternal_hostOf s u
    · exact execHdrLeaf_hostOf _ s u
    · exact enterNode_hostOf _ _ s u _ _ fun i s' => rfl
    · rfl
    · rfl
  | rhdrRoot r =>
    refine withNode_hostOf _ { s with root := r } u _ _ fun n => ?_
    split
    · rfl
    · exact proceed_hostOf op rest { s with root := r, treeValid := true } u
  | encStart =>
    simp only [performLine, lineEncStart]
    rw [show (s.hostOf u).codesValid = s.codesValid from rfl]
    split
    · exact proceed_hostOf op _ s u
    · rfl
  | encByte =>
    simp only [performLine, lineEncByte, readBits_hostOf]
    obtain ⟨v, s'⟩ := readBits 8 s
    cases v with
    | none => exact proceed_hostOf op rest s' u
    | some v => exact proceed_hostOf op _ s' u
  | encChunk b => exact encodeSymbol_hostOf _ op _ s u
  | encEof => exact encodeSymbol_hostOf _ op rest s u
  | decStart =>
    simp only [performLine, lineDecStart]
    rw [show (s.hostOf u).treeValid = s.treeValid from rfl]
    split
    · exact proceed_hostOf op _ { s with decCount := 0, cursor := s.root } u
    · rfl
  | decBit =>
    simp only [performLine, lineDecBit, readBits_hostOf]
    obtain ⟨v, s'⟩ := readBits 1 s
    cases v with
    | none => rfl
    | some b =>
      refine withNode_hostOf _ s' u _ _ fun n => ?_
      split
      · rfl
      · refine withNode_hostOf _ (s'.withCursor (if b = 0 then n.left else n.right)) u _ _ fun m => ?_
        split
        · exact withSymbol_hostOf _ _ _ _ fun x =>
            decodeLeaf_hostOf x op rest (s'.withCursor (if b = 0 then n.left else n.right)) u
        · exact proceed_hostOf op _ (s'.withCursor (if b = 0 then n.left else n.right)) u

end Sys2Proof.Machine
end

