-- ==== Sys2Proof/Laws/Writes.lean ====
section
/-! SUPPORT. Which pieces of state each line writes, and so which each command does (R228). -/

namespace Sys2Proof.Machine

/-- The pieces a line and the lines it puts back write. -/
def Line.mayWrite : Line → List Piece
  | .countClear => [.freq, .position]
  | .raise _ => []
  | .clearTreeValid => [.treeValid]
  | .clearCodesValid => [.codesValid]
  | .buildClear | .buildLeaf _ | .buildMerge | .buildRoot => [.arena, .treeValid, .queue]
  | .genStart | .genWalk _ _ _ | .genEnd => [.codes, .codesValid]
  | .hdrStart => [.output]
  | .rhdrClear | .readNode _ | .rhdrRoot _ => [.position, .arena, .treeValid]
  | .encStart => [.position, .output]
  | .decStart | .decBit => [.position, .output, .decoder]
  | .clearOutput => [.output]
  | .closeOutput => [.output]
  | .writeTag => [.output]
  | .hdrEmit _ | .hdrSymbol _ => [.output]
  | .encEof => [.output]
  | .rewindInput => [.position]
  | .readTag => [.position]
  | .countEof => [.freq]
  | .countByte _ => [.freq, .position]
  | .encByte | .encChunk _ => [.position, .output]

/-- `t` differs from `s` at most in the pieces `ps`, the record and the sequencer. -/
structure Changes (ps : List Piece) (s t : State) : Prop where
  pieces : ∀ p, p ∉ ps → p.same s t
  tag : t.tag = s.tag
  input : t.input = s.input

theorem Piece.same_refl (s : State) (p : Piece) : p.same s s := by cases p <;> simp [Piece.same]

theorem Piece.same_trans {s t u : State} {p : Piece} (h₁ : p.same s t) (h₂ : p.same t u) : p.same s u := by
  cases p <;> simp_all [Piece.same]

theorem Changes.refl (ps : List Piece) (s : State) : Changes ps s s := ⟨fun p _ => p.same_refl s, rfl, rfl⟩

theorem Changes.trans {ps : List Piece} {s t u : State} (h₁ : Changes ps s t) (h₂ : Changes ps t u) : Changes ps s u :=
  ⟨fun p hp => Piece.same_trans (h₁.pieces p hp) (h₂.pieces p hp), h₂.tag.trans h₁.tag, h₂.input.trans h₁.input⟩

theorem Changes.mono {ps qs : List Piece} {s t : State} (h : Changes ps s t) (hq : ∀ p ∈ ps, p ∈ qs) : Changes qs s t :=
  ⟨fun p hp => h.pieces p fun h => hp (hq p h), h.tag, h.input⟩

/-- The lines `todo` write at most `ps`. -/
def Within (ps : List Piece) (todo : List Line) : Prop := ∀ l ∈ todo, ∀ p ∈ l.mayWrite, p ∈ ps

/-- An outcome, if it is a next state, changes at most `ps`, and its lines write at most `ps`. -/
def Limited (ps : List Piece) (s : State) (o : Host.Outcome State Fault Refusal) : Prop :=
  ∀ t, o = .next t → Changes ps s t ∧ ∀ op todo, t.phase = .running op todo → Within ps todo

theorem limited_fault (ps : List Piece) (s : State) (f : Fault) : Limited ps s (.fault f) := fun t h => by cases h

theorem limited_proceed {ps : List Piece} {s t : State} (op : BitVec 4) (todo : List Line) (h : Changes ps s t)
    (hw : Within ps todo) : Limited ps s (proceed op todo t) := by
  intro u hu
  cases hu
  refine ⟨⟨fun p hp => Piece.same_trans (h.pieces p hp) ?_, h.tag, h.input⟩, fun op' todo' he => by cases he; exact hw⟩
  cases p <;> first | exact ⟨rfl, rfl, rfl⟩ | exact ⟨rfl, rfl⟩ | rfl

theorem limited_raise {ps : List Piece} {s t : State} (op : BitVec 4) {rest : List Line} (e : ErrorCode)
    (h : Changes ps s t) (hw : Within ps rest) : Limited ps s (proceed op (.raise e :: rest) t) :=
  limited_proceed op _ h fun l hl => by
    rcases List.mem_cons.mp hl with rfl | hl
    · simp [Line.mayWrite]
    · exact hw l hl

theorem limited_abort {ps : List Piece} {s t : State} (e : ErrorCode) (h : Changes ps s t) : Limited ps s (abort e t) := by
  intro u hu
  cases hu
  refine ⟨⟨fun p hp => Piece.same_trans (h.pieces p hp) ?_, h.tag, h.input⟩, fun op' todo' he => by cases he⟩
  cases p <;> first | exact ⟨rfl, rfl, rfl⟩ | exact ⟨rfl, rfl⟩ | rfl

/-! ### What the operations change -/

theorem putBits_changes (bits : List Bool) (s : State) : Changes [.output] s (putBits bits s) :=
  ⟨fun p hp => by cases p <;> simp [Piece.same] at hp ⊢, putBits_tag _ _, putBits_input _ _⟩

theorem atPos_changes (s : State) (q : Nat) : Changes [.position] s (s.atPos q) :=
  ⟨fun p hp => by cases p <;> simp [Piece.same] at hp ⊢, rfl, rfl⟩

theorem readBits_changes (n : Nat) (s : State) : Changes [.position] s (readBits n s).2 := by
  unfold readBits
  split
  · exact atPos_changes s _
  · exact atPos_changes s _

theorem freq_changes (s : State) (f : Vector Word 257) : Changes [.freq] s { s with freq := f } :=
  ⟨fun p hp => by cases p <;> simp [Piece.same] at hp ⊢, rfl, rfl⟩

theorem arena_changes (s : State) (v : Vector Node 513) (c : NodeIdx) (r : NodeIdx) :
    Changes [.arena] s { s with node := v, nodeCount := c, root := r } :=
  ⟨fun p hp => by cases p <;> simp [Piece.same] at hp ⊢, rfl, rfl⟩

theorem queue_changes (s : State) (q : List PqEntry) (c : BitVec 10) :
    Changes [.queue] s { s with pq := q, seqCtr := c } :=
  ⟨fun p hp => by cases p <;> simp [Piece.same] at hp ⊢, rfl, rfl⟩

theorem treeValid_changes (s : State) (b : Bool) : Changes [.treeValid] s { s with treeValid := b } :=
  ⟨fun p hp => by cases p <;> simp [Piece.same] at hp ⊢, rfl, rfl⟩

theorem codesValid_changes (s : State) (b : Bool) : Changes [.codesValid] s { s with codesValid := b } :=
  ⟨fun p hp => by cases p <;> simp [Piece.same] at hp ⊢, rfl, rfl⟩

theorem codes_changes (s : State) (l : Vector (BitVec 9) 257) (b : Vector (BitVec 256) 257) :
    Changes [.codes] s { s with codelen := l, codebits := b } :=
  ⟨fun p hp => by cases p <;> simp [Piece.same] at hp ⊢, rfl, rfl⟩

theorem decoder_changes (s : State) (d : Word) (c : NodeIdx) :
    Changes [.decoder] s { s with decCount := d, cursor := c } :=
  ⟨fun p hp => by cases p <;> simp [Piece.same] at hp ⊢, rfl, rfl⟩

/-! ### The operations with a continuation -/

section

variable {ps : List Piece} {s₀ : State}

theorem Within.cons {l : Line} {ls : List Line} (hl : ∀ p ∈ l.mayWrite, p ∈ ps) (h : Within ps ls) :
    Within ps (l :: ls) := fun m hm => by
  rcases List.mem_cons.mp hm with rfl | hm
  · exact hl
  · exact h m hm

theorem Within.tail {l : Line} {ls : List Line} (h : Within ps (l :: ls)) : Within ps ls := fun m hm =>
  h m (List.mem_cons_of_mem _ hm)

theorem Within.head {l : Line} {ls : List Line} (h : Within ps (l :: ls)) : ∀ p ∈ l.mayWrite, p ∈ ps :=
  h l List.mem_cons_self

theorem withNode_limited (i : NodeIdx) (s : State) {k : Node → Host.Outcome State Fault Refusal}
    (h : ∀ n, Limited ps s₀ (k n)) : Limited ps s₀ (withNode i s k) := by
  unfold withNode
  split
  · exact limited_fault _ _ _
  · exact h _

theorem withSymbol_limited (v : SymField) {k : Symbol → Host.Outcome State Fault Refusal}
    (h : ∀ x, Limited ps s₀ (k x)) : Limited ps s₀ (withSymbol v k) := by
  unfold withSymbol
  split
  · exact limited_fault _ _ _
  · exact h _

theorem setNode_limited (hp : .arena ∈ ps) (i : NodeIdx) (n : Node) {s : State} (hs : Changes ps s₀ s)
    {k : State → Host.Outcome State Fault Refusal} (h : ∀ t, Changes ps s₀ t → Limited ps s₀ (k t)) :
    Limited ps s₀ (setNode i n s k) := by
  unfold setNode
  split
  · exact h _ (hs.trans ((arena_changes s _ s.nodeCount s.root).mono (by simpa using hp)))
  · exact limited_fault _ _ _

theorem pqPush_limited (hp : .queue ∈ ps) (w : Word) (i : NodeIdx) {s : State} (hs : Changes ps s₀ s)
    {k : State → Host.Outcome State Fault Refusal} (h : ∀ t, Changes ps s₀ t → Limited ps s₀ (k t)) :
    Limited ps s₀ (pqPush w i s k) := by
  unfold pqPush
  split
  · exact h _ (hs.trans ((queue_changes s _ _).mono (by simpa using hp)))
  · exact limited_fault _ _ _

theorem pqPop_limited (hp : .queue ∈ ps) {s : State} (hs : Changes ps s₀ s)
    {k : PqEntry → State → Host.Outcome State Fault Refusal} (h : ∀ e t, Changes ps s₀ t → Limited ps s₀ (k e t)) :
    Limited ps s₀ (pqPop s k) := by
  unfold pqPop
  split
  · exact limited_fault _ _ _
  · exact h _ _ (hs.trans ((queue_changes s _ s.seqCtr).mono (by simpa using hp)))

theorem enterNode_limited (ha : .arena ∈ ps) (hp : .position ∈ ps) (op : BitVec 4) {rest : List Line}
    (hw : Within ps rest) {s : State} (hs : Changes ps s₀ s)
    {k : NodeIdx → State → Host.Outcome State Fault Refusal} (h : ∀ i t, Changes ps s₀ t → Limited ps s₀ (k i t)) :
    Limited ps s₀ (enterNode op rest s k) := by
  have h1 : Changes ps s₀ (s.atPos (s.inPos + 1)) := hs.trans ((atPos_changes s _).mono (by simpa using hp))
  unfold enterNode
  split
  · exact limited_raise op _ h1 hw
  · exact h _ _ (h1.trans ((arena_changes (s.atPos (s.inPos + 1)) s.node (s.nodeCount + 1) s.root).mono
      (by simpa using ha)))

theorem addNode_limited (ha : .arena ∈ ps) (hq : .queue ∈ ps) (n : Node) (op : BitVec 4) {todo : List Line}
    {s : State} (hs : Changes ps s₀ s) (hw : Within ps todo) : Limited ps s₀ (addNode n op todo s) := by
  unfold addNode
  split
  · refine setNode_limited ha _ _ hs fun t ht => pqPush_limited hq _ _ ?_ fun u hu => limited_proceed op todo hu hw
    exact ht.trans ((arena_changes t t.node (t.nodeCount + 1) t.root).mono (by simpa using ha))
  · exact limited_fault _ _ _

theorem returnNode_limited (ha : .arena ∈ ps) (op : BitVec 4) {rest : List Line} (hw : Within ps rest)
    (hm : ∀ p ∈ (Line.readNode []).mayWrite, p ∈ ps) (i : NodeIdx) (stack : List Frame) {s : State}
    (hs : Changes ps s₀ s) : Limited ps s₀ (returnNode op rest i stack s) := by
  induction stack generalizing i s with
  | nil => exact limited_proceed op _ hs (Within.cons hm hw)
  | cons f stack ih =>
    obtain ⟨n, l⟩ := f
    cases l with
    | none => exact limited_proceed op _ hs (Within.cons hm hw)
    | some l => exact setNode_limited ha _ _ hs fun t ht => ih _ ht

theorem encodeSymbol_limited (ho : .output ∈ ps) (x : Symbol) (op : BitVec 4) {todo : List Line} {s : State}
    (hs : Changes ps s₀ s) (hw : Within ps todo) : Limited ps s₀ (encodeSymbol x op todo s) := by
  unfold encodeSymbol writeCode
  split
  · exact limited_abort _ hs
  · exact limited_proceed op todo (hs.trans ((putBits_changes _ s).mono (by simpa using ho))) hw

theorem decodeLeaf_limited (ho : .output ∈ ps) (hd : .decoder ∈ ps) (x : Symbol) (op : BitVec 4) {rest : List Line}
    {s : State} (hs : Changes ps s₀ s) (hw : Within ps (.decBit :: rest)) : Limited ps s₀ (decodeLeaf x op rest s) := by
  unfold decodeLeaf writeBits
  split
  · exact limited_proceed op rest hs hw.tail
  · generalize msbBits 8 x.val = bits
    exact limited_proceed op _ ((hs.trans ((putBits_changes bits s).mono (by simpa using ho))).trans
      ((decoder_changes (putBits bits s) _ _).mono (by simpa using hd))) hw

theorem execTag_limited (t : Word) {s : State} {op : BitVec 4} {rest : List Line}
    (hp : s.phase = .running op (.readTag :: rest)) (hm : .position ∈ ps) (hw : Within ps rest) :
    Limited ps s (execTag t s) := by
  have h := (atPos_changes s (s.inPos + 32)).mono (qs := ps) (by simpa using hm)
  rw [execTag_running hp]
  split
  · exact limited_raise op _ h hw
  · exact limited_proceed op rest h hw

theorem execHdrInternal_limited {s : State} {op : BitVec 4} {stack : List Frame} {rest : List Line}
    (hp : s.phase = .running op (.readNode stack :: rest)) (hw : Within ps (.readNode stack :: rest)) :
    Limited ps s (execHdrInternal s) := by
  have ha : .arena ∈ ps := hw.head _ (by simp [Line.mayWrite])
  have hpos : .position ∈ ps := hw.head _ (by simp [Line.mayWrite])
  unfold execHdrInternal
  split
  · rename_i op' stack' rest' h
    rw [hp] at h
    cases h
    exact enterNode_limited ha hpos op hw.tail (Changes.refl ps s) fun i t ht =>
      limited_proceed _ _ ht (Within.cons hw.head hw.tail)
  · exact limited_fault _ _ _

theorem execHdrLeaf_limited (v : SymField) {s : State} {op : BitVec 4} {stack : List Frame} {rest : List Line}
    (hp : s.phase = .running op (.readNode stack :: rest)) (hw : Within ps (.readNode stack :: rest)) :
    Limited ps s (execHdrLeaf v s) := by
  have ha : .arena ∈ ps := hw.head _ (by simp [Line.mayWrite])
  have hpos : .position ∈ ps := hw.head _ (by simp [Line.mayWrite])
  unfold execHdrLeaf
  split
  · rename_i op' stack' rest' h
    rw [hp] at h
    cases h
    refine enterNode_limited ha hpos op hw.tail (Changes.refl ps s) fun i t ht => ?_
    have ht' := ht.trans ((atPos_changes t (t.inPos + 9)).mono (qs := ps) (by simpa using hpos))
    simp only
    split
    · exact limited_raise op _ ht' hw.tail
    · exact setNode_limited ha _ _ ht' fun u hu => returnNode_limited ha _ hw.tail hw.head _ _ hu
  · exact limited_fault _ _ _

end

/-- A line changes only what it and the lines it puts back may write, and goes on only to such lines (R228). -/
theorem performLine_limited {ps : List Piece} (l : Line) (op : BitVec 4) (rest : List Line) (s : State)
    (hp : s.phase = .running op (l :: rest)) (hw : Within ps (l :: rest)) :
    Limited ps s (performLine l op rest s) := by
  have hr := hw.tail
  have hl := hw.head
  cases l with
  | clearOutput =>
    refine limited_proceed op rest (Changes.mono (ps := [.output]) ?_ (by simpa [Line.mayWrite] using hl)) hr
    exact ⟨fun p hp => by cases p <;> simp [Piece.same] at hp ⊢, rfl, rfl⟩
  | rewindInput => exact limited_proceed op rest ((atPos_changes s 0).mono (by simpa [Line.mayWrite] using hl)) hr
  | closeOutput =>
    refine limited_proceed op rest (Changes.mono (ps := [.output]) ?_ (by simpa [Line.mayWrite] using hl)) hr
    rw [close_eq]
    exact putBits_changes _ s
  | raise e => exact limited_abort e (Changes.refl ps s)
  | clearTreeValid =>
    exact limited_proceed op rest ((treeValid_changes s false).mono (by simpa [Line.mayWrite] using hl)) hr
  | clearCodesValid =>
    exact limited_proceed op rest ((codesValid_changes s false).mono (by simpa [Line.mayWrite] using hl)) hr
  | countClear =>
    have hf : .freq ∈ ps := hl _ (by simp [Line.mayWrite])
    exact limited_proceed op _ ((freq_changes s _).mono (by simpa using hf)) (Within.cons hl hr)
  | countByte total =>
    have hf : .freq ∈ ps := hl _ (by simp [Line.mayWrite])
    have hpos : .position ∈ ps := hl _ (by simp [Line.mayWrite])
    have hc := (readBits_changes 8 s).mono (qs := ps) (by simpa using hpos)
    simp only [performLine, lineCountByte]
    generalize readBits 8 s = r at hc ⊢
    obtain ⟨v, s'⟩ := r
    cases v with
    | none => exact limited_proceed op rest hc hr
    | some v =>
      simp only
      split
      · exact limited_raise op _ hc hr
      · exact limited_proceed op _ (hc.trans ((freq_changes s' _).mono (by simpa using hf))) (Within.cons hl hr)
  | countEof => exact limited_proceed op rest ((freq_changes s _).mono (by simpa [Line.mayWrite] using hl)) hr
  | buildClear =>
    have h : Changes ps s (pqClear (clearArena s)) := by
      refine Changes.mono (ps := [.arena, .treeValid, .queue]) ?_ (by simpa [Line.mayWrite] using hl)
      exact ⟨fun p hp => by cases p <;> simp [Piece.same, pqClear] at hp ⊢, rfl, rfl⟩
    simp only [performLine, lineBuildClear]
    split
    · exact limited_abort _ h
    · refine limited_proceed op _ h fun m hm => ?_
      rcases List.mem_append.mp hm with hm | hm
      · obtain ⟨x, -, rfl⟩ := List.mem_map.mp hm
        exact hl
      · rcases List.mem_cons.mp hm with rfl | hm
        · exact hl
        · exact hr m hm
  | buildLeaf x =>
    exact addNode_limited (hl _ (by simp [Line.mayWrite])) (hl _ (by simp [Line.mayWrite])) _ op (Changes.refl ps s) hr
  | buildMerge =>
    have ha : .arena ∈ ps := hl _ (by simp [Line.mayWrite])
    have hq : .queue ∈ ps := hl _ (by simp [Line.mayWrite])
    simp only [performLine, lineBuildMerge]
    split
    · exact pqPop_limited hq (Changes.refl ps s) fun a t ht => pqPop_limited hq ht fun b u hu =>
        addNode_limited ha hq _ op hu (Within.cons hl hr)
    · exact limited_proceed op _ (Changes.refl ps s) (Within.cons hl hr)
  | buildRoot =>
    have ha : .arena ∈ ps := hl _ (by simp [Line.mayWrite])
    have hq : .queue ∈ ps := hl _ (by simp [Line.mayWrite])
    have ht : .treeValid ∈ ps := hl _ (by simp [Line.mayWrite])
    simp only [performLine, lineBuildRoot]
    refine pqPop_limited hq (Changes.refl ps s) fun e t hc => limited_proceed op rest ?_ hr
    exact (hc.trans ((arena_changes t t.node t.nodeCount e.idx).mono (by simpa using ha))).trans
      ((treeValid_changes { t with root := e.idx } true).mono (by simpa using ht))
  | genStart =>
    have hc : .codes ∈ ps := hl _ (by simp [Line.mayWrite])
    have h : Changes ps s (clearCodes { s with codesValid := false }) := by
      refine Changes.mono (ps := [.codes, .codesValid]) ?_ (by simpa [Line.mayWrite] using hl)
      exact ⟨fun p hp => by cases p <;> simp [Piece.same] at hp ⊢, rfl, rfl⟩
    simp only [performLine, lineGenStart]
    split
    · refine withNode_limited _ _ fun n => ?_
      split
      · exact withSymbol_limited _ fun x => limited_proceed op _ (h.trans ((codes_changes (clearCodes
          { s with codesValid := false }) _ _).mono (by simpa using hc))) (Within.cons hl hr)
      · exact limited_proceed op _ h (Within.cons (by simpa [Line.mayWrite] using hl) (Within.cons hl hr))
    · exact limited_abort _ (Changes.refl ps s)
  | genWalk i len path =>
    have hc : .codes ∈ ps := hl _ (by simp [Line.mayWrite])
    refine withNode_limited _ _ fun n => ?_
    split
    · exact withSymbol_limited _ fun x => limited_proceed op rest ((codes_changes s _ _).mono (by simpa using hc)) hr
    · exact limited_proceed op _ (Changes.refl ps s) (Within.cons hl (Within.cons hl hr))
  | genEnd =>
    have hc : .codesValid ∈ ps := hl _ (by simp [Line.mayWrite])
    exact limited_proceed op rest ((codesValid_changes s true).mono (by simpa using hc)) hr
  | writeTag => exact limited_proceed op rest ((putBits_changes _ s).mono (by simpa [Line.mayWrite] using hl)) hr
  | hdrStart =>
    simp only [performLine, lineHdrStart]
    split
    · exact limited_proceed op _ (Changes.refl ps s) (Within.cons hl hr)
    · exact limited_abort _ (Changes.refl ps s)
  | hdrEmit i =>
    have ho : .output ∈ ps := hl _ (by simp [Line.mayWrite])
    refine withNode_limited _ _ fun n => ?_
    split
    · exact limited_proceed op _ ((putBits_changes _ s).mono (by simpa using ho)) (Within.cons hl hr)
    · exact limited_proceed op _ ((putBits_changes _ s).mono (by simpa using ho)) (Within.cons hl (Within.cons hl hr))
  | hdrSymbol v => exact limited_proceed op rest ((putBits_changes _ s).mono (by simpa [Line.mayWrite] using hl)) hr
  | readTag =>
    have hpos : .position ∈ ps := hl _ (by simp [Line.mayWrite])
    simp only [performLine, lineReadTag]
    split
    · exact execTag_limited _ hp hpos hr
    · exact limited_raise op _ ((atPos_changes s _).mono (by simpa using hpos)) hr
    · exact limited_raise op _ ((atPos_changes s _).mono (by simpa using hpos)) hr
  | rhdrClear =>
    refine limited_proceed op _ (Changes.mono (ps := [.position, .arena, .treeValid]) ?_
      (by simpa [Line.mayWrite] using hl)) (Within.cons hl hr)
    exact ⟨fun p hp => by cases p <;> simp [Piece.same] at hp ⊢, rfl, rfl⟩
  | readNode stack =>
    have ha : .arena ∈ ps := hl _ (by simp [Line.mayWrite])
    have hpos : .position ∈ ps := hl _ (by simp [Line.mayWrite])
    simp only [performLine, lineReadNode]
    split
    · exact execHdrInternal_limited hp hw
    · exact execHdrLeaf_limited _ hp hw
    · exact enterNode_limited ha hpos op hr (Changes.refl ps s) fun i t ht => limited_raise op _
        (ht.trans ((atPos_changes t _).mono (by simpa using hpos))) hr
    · exact limited_raise op _ ((atPos_changes s _).mono (by simpa using hpos)) hr
    · exact limited_raise op _ ((atPos_changes s _).mono (by simpa using hpos)) hr
  | rhdrRoot r =>
    have ha : .arena ∈ ps := hl _ (by simp [Line.mayWrite])
    have ht : .treeValid ∈ ps := hl _ (by simp [Line.mayWrite])
    have hc := (arena_changes s s.node s.nodeCount r).mono (qs := ps) (by simpa using ha)
    refine withNode_limited _ _ fun n => ?_
    split
    · exact limited_abort _ hc
    · exact limited_proceed op rest (hc.trans ((treeValid_changes { s with root := r } true).mono (by simpa using ht))) hr
  | encStart =>
    have ho : .output ∈ ps := hl _ (by simp [Line.mayWrite])
    simp only [performLine, lineEncStart]
    split
    · exact limited_proceed op _ (Changes.refl ps s) (Within.cons (by simpa [Line.mayWrite] using hl)
        (Within.cons (by simpa [Line.mayWrite] using ho) (Within.cons (by simpa [Line.mayWrite] using ho) hr)))
    · exact limited_abort _ (Changes.refl ps s)
  | encByte =>
    have ho : .output ∈ ps := hl _ (by simp [Line.mayWrite])
    have hpos : .position ∈ ps := hl _ (by simp [Line.mayWrite])
    have hc := (readBits_changes 8 s).mono (qs := ps) (by simpa using hpos)
    simp only [performLine, lineEncByte]
    generalize readBits 8 s = r at hc ⊢
    obtain ⟨v, s'⟩ := r
    cases v with
    | none => exact limited_proceed op rest hc hr
    | some v => exact limited_proceed op _ hc (Within.cons hl hr)
  | encChunk b => exact encodeSymbol_limited (hl _ (by simp [Line.mayWrite])) _ op (Changes.refl ps s) (Within.cons hl hr)
  | encEof => exact encodeSymbol_limited (hl _ (by simp [Line.mayWrite])) _ op (Changes.refl ps s) hr
  | decStart =>
    have hd : .decoder ∈ ps := hl _ (by simp [Line.mayWrite])
    simp only [performLine, lineDecStart]
    split
    · exact limited_proceed op _ ((decoder_changes s _ _).mono (by simpa using hd)) (Within.cons hl hr)
    · exact limited_abort _ (Changes.refl ps s)
  | decBit =>
    have ho : .output ∈ ps := hl _ (by simp [Line.mayWrite])
    have hd : .decoder ∈ ps := hl _ (by simp [Line.mayWrite])
    have hpos : .position ∈ ps := hl _ (by simp [Line.mayWrite])
    have hc := (readBits_changes 1 s).mono (qs := ps) (by simpa using hpos)
    simp only [performLine, lineDecBit]
    generalize readBits 1 s = r at hc ⊢
    obtain ⟨v, s'⟩ := r
    cases v with
    | none => exact limited_raise op _ hc hr
    | some b =>
      refine withNode_limited _ _ fun n => ?_
      split
      · exact limited_fault _ _ _
      · have hc' := hc.trans ((decoder_changes s' s'.decCount (if b = 0 then n.left else n.right)).mono
          (by simpa using hd))
        refine withNode_limited _ _ fun m => ?_
        split
        · exact withSymbol_limited _ fun x => decodeLeaf_limited ho hd x op hc' (Within.cons hl hr)
        · exact limited_proceed op _ hc' (Within.cons hl hr)

/-- A run of lines that write at most `ps` changes at most `ps` (R228). -/
theorem coreRun_limited {ps : List Piece} (n : Nat) : ∀ (s : State) {t : State},
    (∀ op todo, s.phase = .running op todo → Within ps todo) → coreRun n s = .next t → Changes ps s t := by
  induction n with
  | zero => intro s t _ h; cases h; exact Changes.refl ps _
  | succ n ih =>
    intro s t hw h
    rw [coreRun] at h
    cases hp : s.phase with
    | idle => rw [hp] at h; cases h; exact Changes.refl ps _
    | running op todo =>
      rw [hp] at h
      simp only [coreStep, hp] at h
      cases todo with
      | nil =>
        simp only at h
        rw [coreRun_idle _ _ rfl] at h
        cases h
        exact ⟨fun p _ => by cases p <;> first | exact ⟨rfl, rfl, rfl⟩ | exact ⟨rfl, rfl⟩ | rfl, rfl, rfl⟩
      | cons l rest =>
        simp only at h
        cases hl : performLine l op rest s with
        | fault f => rw [hl] at h; cases h
        | refused r => rw [hl] at h; cases h
        | next u =>
          rw [hl] at h
          obtain ⟨h1, h2⟩ := performLine_limited l op rest s hp (hw op _ hp) u hl
          exact h1.trans (ih u h2 h)

end Sys2Proof.Machine
end

