-- ==== Sys2Proof/Laws/Invariant.lean ====
section
/-! SUPPORT. Laws of the invariant of every step (R59): a running command is on its way to a settled end, whatever the host
does meanwhile. -/

namespace Sys2Proof.Machine

/-! ### Runs -/

theorem coreStep_hostOf (s u : State) : coreStep (s.hostOf u) = mapNext (·.hostOf u) (coreStep s) := by
  unfold coreStep
  rw [show (s.hostOf u).phase = s.phase from rfl]
  split
  · rfl
  · rfl
  · exact performLine_hostOf _ _ _ s u

theorem coreRun_hostOf (n : Nat) (s u : State) : coreRun n (s.hostOf u) = mapNext (·.hostOf u) (coreRun n s) := by
  induction n generalizing s with
  | zero => rfl
  | succ n ih =>
    rw [coreRun, coreRun, show (s.hostOf u).phase = s.phase from rfl, coreStep_hostOf]
    split
    · rfl
    · cases coreStep s with
      | next s' => exact ih s'
      | fault f => rfl
      | refused r => rfl

theorem busy_iff (s : State) : s.busy = true ↔ ∃ op todo, s.phase = .running op todo := by
  unfold State.busy
  split
  · simp [*]
  · simp [*]

theorem busy_false (s : State) : s.busy = false ↔ s.phase = .idle := by
  unfold State.busy
  split
  · simp [*]
  · simp [*]

theorem coreRun_succ_busy {n : Nat} {s t : State} (h : coreRun n s = .next t) : coreRun (n + 1) s =
    match t.phase with
    | .idle => .next t
    | .running _ _ => coreStep t := by
  induction n generalizing s with
  | zero =>
    cases h
    simp only [coreRun]
    cases t.phase with
    | idle => rfl
    | running op todo => simp only; cases coreStep t <;> rfl
  | succ n ih =>
    rw [coreRun] at h ⊢
    cases hp : s.phase with
    | idle => rw [hp] at h; cases h; simp [hp]
    | running op todo =>
      rw [hp] at h
      simp only at h ⊢
      cases hc : coreStep s with
      | next s' => rw [hc] at h; exact ih h
      | fault f => rw [hc] at h; cases h
      | refused r => rw [hc] at h; cases h

/-- A run that leads to the idle core passes through every state of the run. -/
theorem coreStep_on_steps {k : Nat} {s t : State} (h : Steps k s t) (ht : t.phase = .idle) :
    ∀ {j : Nat} {u : State}, coreRun j s = .next u → u.busy = true → ∃ u', coreStep u = .next u' ∧
      (u'.busy = true ∨ u' = t) := by
  induction k generalizing s with
  | zero =>
    intro j u hj hu
    cases h
    rw [coreRun_idle _ _ ht] at hj
    cases hj
    rw [(busy_false _).mpr ht] at hu
    cases hu
  | succ k ih =>
    intro j u hj hu
    obtain ⟨s', hp, hl, h'⟩ := h
    cases j with
    | zero =>
      cases hj
      refine ⟨s', hl, ?_⟩
      cases hb : s'.busy with
      | true => exact .inl rfl
      | false =>
        right
        cases k with
        | zero => exact h'
        | succ k =>
          obtain ⟨_, hp', -, -⟩ := h'
          exact absurd ((busy_false _).mp hb) hp'
    | succ j =>
      rw [coreRun_succ hp hl] at hj
      exact ih h' hj hu

/-! ### The invariant -/

theorem Settled_congr {s t : State} (h : s.Settled) (u : State) (ht : t = s.hostOf u) : t.Settled := by
  subst ht
  exact ⟨h.sound.congr rfl rfl rfl rfl rfl rfl rfl rfl rfl rfl rfl rfl, h.one, h.code⟩

theorem startCommand_hostOf (op : BitVec 4) (body : List Line) (s u : State) :
    startCommand op body (s.hostOf u) = (startCommand op body s).hostOf u := rfl

/-- The invariant does not depend on the host's side (R79, R277). -/
theorem Inv_hostOf {s : State} (h : s.Inv) (u : State) : (s.hostOf u).Inv := by
  rcases h with ⟨hb, hs⟩ | ⟨hb, s₀, i, op, body, k, hp, hs, hc, hr⟩
  · exact .inl ⟨hb, Settled_congr hs u rfl⟩
  · refine .inr ⟨hb, s₀.hostOf u, i, op, body, k, hp, Settled_congr hs u rfl, hc, ?_⟩
    rw [startCommand_hostOf, coreRun_hostOf, hr]
    rfl

/-- A core step of a running command on its way answers a state that is on its way too, or settled (R59, R221, R268). -/
theorem coreStep_inv {s : State} (h : s.Inv) (hb : s.busy = true) :
    ∃ t, coreStep s = .next t ∧ t.Inv ∧ (t.busy = false → t.done = !t.err) := by
  rcases h with ⟨hb', -⟩ | ⟨-, s₀, i, op, body, k, hp, hs, hc, hr⟩
  · rw [hb] at hb'; cases hb'
  · obtain ⟨m, hm, t, hst, htp, hts, hte⟩ := command_ends hc hs
    obtain ⟨u, hu, hu'⟩ := coreStep_on_steps hst htp hr hb
    refine ⟨u, hu, ?_⟩
    rcases hu' with hub | rfl
    · refine ⟨.inr ⟨hub, s₀, i, op, body, k + 1, hp, hs, hc, ?_⟩, fun e => by rw [hub] at e; cases e⟩
      obtain ⟨op', todo, hpu⟩ := (busy_iff s).mp hb
      rw [coreRun_succ_busy hr, hpu]
      exact hu
    · exact ⟨.inl ⟨(busy_false _).mpr htp, hts⟩, fun _ => hte⟩

/-- A command started from a settled idle state is on its way. -/
theorem startCommand_inv {s : State} (hp : s.phase = .idle) (hs : s.Settled) {i : Instr} {op : BitVec 4}
    {body : List Line} (hc : commandOf i = some (op, body)) : (startCommand op body s).Inv :=
  .inr ⟨rfl, s, i, op, body, 0, hp, hs, hc, rfl⟩

/-- A CTRL write to a settled idle core that no host action interrupts runs its command to a settled end (R220, R221,
R282). -/
theorem exec_of_command {s : State} (hq : s.quiet) (hs : s.Settled) {i : Instr} {op : BitVec 4} {body : List Line}
    (hc : commandOf i = some (op, body)) :
    ∃ t, runCommand op body s = .next t ∧ t.phase = .idle ∧ t.Settled ∧ t.done = !t.err := by
  obtain ⟨k, hk, t, hst, hp, hts, hte⟩ := command_ends hc hs
  exact ⟨t, runCommand_of_steps hq hst hk hp, hp, hts, hte⟩

/-- What `exec` does with a command. -/
theorem exec_eq_runCommand {i : Instr} {op : BitVec 4} {body : List Line} (hc : commandOf i = some (op, body))
    (s : State) : exec i s = runCommand op body s := by
  cases i <;> simp only [commandOf, Option.some.injEq, Prod.mk.injEq, reduceCtorEq] at hc <;> obtain ⟨rfl, rfl⟩ := hc <;> rfl

end Sys2Proof.Machine
end

