-- ==== Sys2Proof/Laws/Runs.lean ====
section
/-! SUPPORT. Laws of runs of several steps: from core steps to the host's run of the machine. -/

namespace Sys2Proof.Machine

theorem core_run_succ (M : Host.Core) (k : Nat) (s s' : M.State) (h : M.step s = .next s') : M.run (k + 1) s = M.run k s' := by
  rw [Host.Core.run, h]

/-- With no host action pending, core steps are the machine's steps. -/
theorem run_of_steps {k : Nat} {s t : State} (h : Steps k s t) (hh : s.host = []) : Sys2Proof.core.run k s = .next t := by
  induction k generalizing s with
  | zero => cases h; rfl
  | succ k ih =>
    obtain ⟨s', -, hl, h'⟩ := h
    have hstep : step s = .next s' := by
      rw [step]; simp only [hh]; exact hl
    have hh' : s'.host = [] := by
      have := coreStep_hostOf s s
      rw [show s.hostOf s = s from rfl, hl] at this
      simp only [mapNext, Host.Outcome.next.injEq] at this
      rw [this]; exact hh
    exact (core_run_succ Sys2Proof.core k s s' hstep).trans (ih h' hh')

/-- Every piece of the core's state. -/
def allPieces : List Piece :=
  [.output, .position, .freq, .codes, .codesValid, .arena, .treeValid, .queue, .decoder]

theorem mem_allPieces (p : Piece) : p ∈ allPieces := by cases p <;> simp [allPieces]

/-- No core step touches the bound input (R30). -/
theorem coreStep_input {s t : State} (h : coreStep s = .next t) : t.input = s.input := by
  unfold coreStep at h
  split at h
  · cases h; rfl
  · cases h; rfl
  · rename_i op l rest hp
    exact (performLine_limited (ps := allPieces) l op rest s hp (fun l _ p _ => mem_allPieces p) t h).1.input

/-- No core step touches the interrupt enable (R35). -/
theorem coreStep_irqEn {s t : State} (h : coreStep s = .next t) : t.irqEn = s.irqEn := by
  have := coreStep_hostOf s s
  rw [show s.hostOf s = s from rfl, h] at this
  simp only [mapNext, Host.Outcome.next.injEq] at this
  rw [this]; rfl

/-- A state the invariant admits runs on to the end of its command (R281). -/
theorem coreRun_of_inv {s : State} (h : s.Inv) (hb : s.busy = true) : ∃ t, coreRun (stepBound s) s = .next t ∧ t.phase = .idle := by
  rcases h with ⟨hb', -⟩ | ⟨-, s₀, i, op, body, k, hp, hs, hc, hr⟩
  · rw [hb] at hb'; cases hb'
  · obtain ⟨m, hm, t, hst, htp, hts, hte⟩ := command_ends hc hs
    have hin : s.input = s₀.input := by
      have := (coreRun_limited (ps := allPieces) k _ (fun op todo _ l _ p _ => mem_allPieces p) hr).input
      exact this
    -- remaining run
    have key : ∀ (k : Nat) (a : State) (m : Nat), Steps m a t → coreRun k a = .next s → ∃ m' ≤ m, Steps m' s t := by
      intro k
      induction k with
      | zero => intro a m hst hr; cases hr; exact ⟨m, le_rfl, hst⟩
      | succ k ih =>
        intro a m hst hr
        cases m with
        | zero => cases hst; rw [coreRun_idle _ _ htp] at hr; cases hr; exact ⟨0, le_rfl, rfl⟩
        | succ m =>
          obtain ⟨s', hp, hl, h'⟩ := hst
          rw [coreRun_succ hp hl] at hr
          obtain ⟨m', hm', h''⟩ := ih s' m h' hr
          exact ⟨m', by omega, h''⟩
    obtain ⟨m', hm', hst'⟩ := key k _ m hst hr
    exact ⟨t, coreRun_steps_idle hst' (by rw [stepBound] at hm ⊢; rw [hin]; omega) htp, htp⟩

theorem Changes.resume {ps : List Piece} {s t : State} (h : Changes ps s t) (op : BitVec 4) (todo : List Line) :
    Changes ps s (resume op todo t) := by
  refine h.trans ?_
  exact ⟨fun p _ => by cases p <;> simp [Piece.same, Machine.resume], rfl, rfl⟩

theorem Changes.raise {ps : List Piece} {s t : State} (h : Changes ps s t) (e : ErrorCode) : Changes ps s (raiseError e t) :=
  h.trans ⟨fun p _ => by cases p <;> simp [Piece.same], rfl, rfl⟩

theorem returnNode_changes (op : BitVec 4) (rest : List Line) (stack : List Frame) : ∀ (i : NodeIdx) (s t : State),
    returnNode op rest i stack s = .next t → Changes [.arena] s t := by
  induction stack with
  | nil => intro i s t h; cases h; exact (Changes.refl _ s).resume _ _
  | cons f below ih =>
    intro i s t h
    obtain ⟨n, l⟩ := f
    cases l with
    | none => cases h; exact (Changes.refl _ s).resume _ _
    | some l =>
      rw [returnNode, setNode] at h
      split at h
      · exact Changes.trans (arena_changes s _ s.nodeCount s.root) (ih _ _ _ h)
      · cases h

end Sys2Proof.Machine
end

