-- ==== Sys2Proof/Laws/Granularity.lean ====
section
/-! SUPPORT. How fine the core's steps are: each changes at most one of the things STATUS shows, so that a host read of
STATUS may land between any two of them (R41, R55, R77; log entry 11). -/

namespace Sys2Proof.Machine

/-- What STATUS shows: the record with BUSY, which command start and end and an error write whole (R220, R221), and four
flags. IRQ follows from the record (R36). -/
inductive Shown where
  | record
  | treeValid
  | codesValid
  | inEnd
  | outPartial
  deriving DecidableEq, Repr

/-- Two states show the same. -/
def Shown.same (s t : State) : Shown → Prop
  | .record => t.busy = s.busy ∧ t.done = s.done ∧ t.err = s.err ∧ t.errcode = s.errcode
  | .treeValid => t.treeValid = s.treeValid
  | .codesValid => t.codesValid = s.codesValid
  | .inEnd => t.inEnd = s.inEnd
  | .outPartial => t.outPartial = s.outPartial

/-- `t` shows the same as `s`, `p` apart. -/
def SameBut (p : Shown) (s t : State) : Prop := ∀ q, q ≠ p → q.same s t

theorem SameBut.refl (p : Shown) (s : State) : SameBut p s s := fun q _ => by cases q <;> simp [Shown.same]

theorem SameBut.trans {p : Shown} {s t u : State} (h₁ : SameBut p s t) (h₂ : SameBut p t u) : SameBut p s u :=
  fun q hq => by
    have h₁ := h₁ q hq
    have h₂ := h₂ q hq
    cases q <;> simp_all [Shown.same]

/-- An outcome, if it is a next state, shows the same as `s`, one thing apart. -/
def ShowsOne (s : State) (o : Host.Outcome State Fault Refusal) : Prop := ∀ t, o = .next t → ∃ p, SameBut p s t

theorem showsOne_fault (s : State) (f : Fault) : ShowsOne s (.fault f) := fun t h => by cases h

theorem showsOne_proceed {p : Shown} {s t : State} (op : BitVec 4) (todo : List Line) (hb : s.busy = true)
    (h : SameBut p s t) : ShowsOne s (proceed op todo t) := by
  intro u hu
  cases hu
  refine ⟨p, fun q hq => ?_⟩
  have h := h q hq
  cases q with
  | record => exact ⟨hb.symm, h.2⟩
  | treeValid => exact h
  | codesValid => exact h
  | inEnd => exact h
  | outPartial => exact h

theorem showsOne_abort {s t : State} (e : ErrorCode) (h : SameBut .record s t) : ShowsOne s (abort e t) := by
  intro u hu
  cases hu
  refine ⟨.record, fun q hq => ?_⟩
  have h := h q hq
  cases q with
  | record => exact absurd rfl hq
  | treeValid => exact h
  | codesValid => exact h
  | inEnd => exact h
  | outPartial => exact h

/-! ### The operations -/

theorem busy_congr {s t : State} (h : t.phase = s.phase) : t.busy = s.busy := by rw [State.busy, State.busy, h]

theorem putBits_shows (bits : List Bool) (s : State) : SameBut .outPartial s (putBits bits s) := fun q hq => by
  cases q with
  | record => exact ⟨busy_congr (putBits_phase _ _), putBits_done _ _, putBits_err _ _, putBits_errcode _ _⟩
  | treeValid => exact putBits_treeValid _ _
  | codesValid => exact putBits_codesValid _ _
  | inEnd => simp [Shown.same, State.inEnd]
  | outPartial => exact absurd rfl hq

theorem atPos_shows (s : State) (n : Nat) : SameBut .inEnd s (s.atPos n) := fun q hq => by
  cases q with
  | inEnd => exact absurd rfl hq
  | record => exact ⟨rfl, rfl, rfl, rfl⟩
  | treeValid => rfl
  | codesValid => rfl
  | outPartial => rfl

theorem readBits_shows (n : Nat) (s : State) : SameBut .inEnd s (readBits n s).2 := by
  unfold readBits
  split
  · exact atPos_shows s _
  · exact atPos_shows s _

/-- Whole bytes leave the partial byte's length as it is (R124). -/
theorem putByte_shows (p : Shown) (v : Nat) (s : State) : SameBut p s (putBits (msbBits 8 v) s) := fun q _ => by
  cases q with
  | outPartial =>
    show (_ != _) = (_ != _)
    have h : (putBits (msbBits 8 v) s).outNbits = s.outNbits := by
      apply BitVec.eq_of_toNat_eq
      rw [outNbits_eq, putBits_outBits, List.length_append, outNbits_eq s, msbBits_length]; omega
    rw [h]
  | record => exact putBits_shows _ s .record (by simp)
  | treeValid => exact putBits_shows _ s .treeValid (by simp)
  | codesValid => exact putBits_shows _ s .codesValid (by simp)
  | inEnd => exact putBits_shows _ s .inEnd (by simp)

section

variable {p : Shown} {s₀ : State}

theorem withNode_shows (i : NodeIdx) (s : State) {k : Node → Host.Outcome State Fault Refusal}
    (h : ∀ n, ShowsOne s₀ (k n)) : ShowsOne s₀ (withNode i s k) := by
  unfold withNode
  split
  · exact showsOne_fault _ _
  · exact h _

theorem withSymbol_shows (v : SymField) {k : Symbol → Host.Outcome State Fault Refusal}
    (h : ∀ x, ShowsOne s₀ (k x)) : ShowsOne s₀ (withSymbol v k) := by
  unfold withSymbol
  split
  · exact showsOne_fault _ _
  · exact h _

theorem setNode_shows (i : NodeIdx) (n : Node) {s : State} (hs : SameBut p s₀ s)
    {k : State → Host.Outcome State Fault Refusal} (h : ∀ t, SameBut p s₀ t → ShowsOne s₀ (k t)) :
    ShowsOne s₀ (setNode i n s k) := by
  unfold setNode
  split
  · exact h _ fun q hq => hs q hq
  · exact showsOne_fault _ _

theorem pqPop_shows {s : State} (hs : SameBut p s₀ s) {k : PqEntry → State → Host.Outcome State Fault Refusal}
    (h : ∀ e t, SameBut p s₀ t → ShowsOne s₀ (k e t)) : ShowsOne s₀ (pqPop s k) := by
  unfold pqPop
  split
  · exact showsOne_fault _ _
  · exact h _ _ fun q hq => hs q hq

theorem addNode_shows (n : Node) (op : BitVec 4) (todo : List Line) {s : State} (hb : s₀.busy = true)
    (hs : SameBut p s₀ s) : ShowsOne s₀ (addNode n op todo s) := by
  unfold addNode
  split
  · refine setNode_shows _ _ hs fun t ht => ?_
    unfold pqPush
    split
    · exact showsOne_proceed op todo hb fun q hq => ht q hq
    · exact showsOne_fault _ _
  · exact showsOne_fault _ _

theorem returnNode_shows (op : BitVec 4) (rest : List Line) (i : NodeIdx) (stack : List Frame) {s : State}
    (hb : s₀.busy = true) (hs : SameBut p s₀ s) : ShowsOne s₀ (returnNode op rest i stack s) := by
  induction stack generalizing i s with
  | nil => exact showsOne_proceed op _ hb hs
  | cons f stack ih =>
    obtain ⟨n, l⟩ := f
    cases l with
    | none => exact showsOne_proceed op _ hb hs
    | some l => exact setNode_shows _ _ hs fun t ht => ih _ ht

theorem encodeSymbol_shows (x : Symbol) (op : BitVec 4) (todo : List Line) {s : State} (hb : s.busy = true) :
    ShowsOne s (encodeSymbol x op todo s) := by
  unfold encodeSymbol writeCode
  split
  · exact showsOne_abort _ (SameBut.refl _ _)
  · exact showsOne_proceed op todo hb (putBits_shows _ s)

/-- The marker of a node, with what follows it at a position of its own (R185). -/
theorem enterNode_shows (op : BitVec 4) (rest : List Line) {s : State} (hb : s.busy = true)
    {k : NodeIdx → State → Host.Outcome State Fault Refusal} (h : ∀ i t, SameBut .inEnd s t → ShowsOne s (k i t)) :
    ShowsOne s (enterNode op rest s k) := by
  unfold enterNode
  split
  · exact showsOne_proceed op _ hb (atPos_shows s _)
  · exact h _ _ fun q hq => atPos_shows s (s.inPos + 1) q hq

theorem execTag_shows (t : Word) (s : State) : ShowsOne s (execTag t s) := by
  unfold execTag
  split
  · rename_i op rest hp
    have hb : s.busy = true := by rw [State.busy, hp]
    simp only
    split
    · exact showsOne_proceed op _ hb (atPos_shows s _)
    · exact showsOne_proceed op _ hb (atPos_shows s _)
  · exact showsOne_fault _ _

theorem execHdrInternal_shows (s : State) : ShowsOne s (execHdrInternal s) := by
  unfold execHdrInternal
  split
  · rename_i op stack rest hp
    have hb : s.busy = true := by rw [State.busy, hp]
    exact enterNode_shows op rest hb fun i t ht => showsOne_proceed op _ hb ht
  · exact showsOne_fault _ _

theorem execHdrLeaf_shows (v : SymField) (s : State) : ShowsOne s (execHdrLeaf v s) := by
  unfold execHdrLeaf
  split
  · rename_i op stack rest hp
    have hb : s.busy = true := by rw [State.busy, hp]
    refine enterNode_shows op rest hb fun i t ht => ?_
    have ht' := ht.trans (atPos_shows t (t.inPos + 9))
    simp only
    split
    · exact showsOne_proceed op _ hb ht'
    · exact setNode_shows _ _ ht' fun u hu => returnNode_shows op rest i stack hb hu
  · exact showsOne_fault _ _

end

/-! ### The lines -/

/-- Each line changes at most one thing STATUS shows (R77, R220). -/
theorem performLine_shows (l : Line) (op : BitVec 4) (rest : List Line) (s : State) (hb : s.busy = true) :
    ShowsOne s (performLine l op rest s) := by
  have same : ∀ {t : State} (todo : List Line) (p : Shown), (∀ q, q ≠ p → q.same s t) → ShowsOne s (proceed op todo t) :=
    fun todo p h => showsOne_proceed (p := p) op todo hb h
  cases l with
  | clearOutput => exact same rest .outPartial fun q hq => by cases q <;> first | exact absurd rfl hq | exact ⟨rfl, rfl, rfl, rfl⟩ | rfl
  | rewindInput => exact same rest .inEnd (atPos_shows s 0)
  | closeOutput =>
    refine same rest .outPartial ?_
    rw [close_eq]
    exact putBits_shows _ s
  | raise e => exact showsOne_abort e (SameBut.refl _ _)
  | clearTreeValid => exact same rest .treeValid fun q hq => by cases q <;> first | exact absurd rfl hq | exact ⟨rfl, rfl, rfl, rfl⟩ | rfl
  | clearCodesValid => exact same rest .codesValid fun q hq => by cases q <;> first | exact absurd rfl hq | exact ⟨rfl, rfl, rfl, rfl⟩ | rfl
  | countClear => exact same _ .inEnd (SameBut.refl _ s)
  | countByte total =>
    have hc := readBits_shows 8 s
    simp only [performLine, lineCountByte]
    generalize readBits 8 s = r at hc ⊢
    obtain ⟨v, s'⟩ := r
    cases v with
    | none => exact same rest .inEnd hc
    | some v =>
      simp only
      split
      · exact same _ .inEnd hc
      · exact same _ .inEnd hc
  | countEof => exact same rest .inEnd (SameBut.refl _ s)
  | buildClear =>
    simp only [performLine, lineBuildClear]
    split
    · exact showsOne_abort _ (SameBut.refl _ s)
    · exact same _ .inEnd (SameBut.refl _ s)
  | buildLeaf x => exact addNode_shows (p := .inEnd) _ op rest hb (SameBut.refl _ s)
  | buildMerge =>
    simp only [performLine, lineBuildMerge]
    split
    · exact pqPop_shows (p := .inEnd) (SameBut.refl _ s) fun a t ht => pqPop_shows ht fun b u hu =>
        addNode_shows _ op _ hb hu
    · exact same _ .inEnd (SameBut.refl _ s)
  | buildRoot =>
    simp only [performLine, lineBuildRoot]
    refine pqPop_shows (p := .treeValid) (SameBut.refl _ s) fun e t ht => same rest .treeValid fun q hq => ?_
    have h := ht q hq
    cases q <;> first | exact absurd rfl hq | exact h
  | genStart =>
    have h : SameBut .codesValid s { s with codesValid := false } := fun q hq => by
      cases q <;> first | exact absurd rfl hq | exact ⟨rfl, rfl, rfl, rfl⟩ | rfl
    simp only [performLine, lineGenStart]
    split
    · refine withNode_shows _ _ fun n => ?_
      split
      · exact withSymbol_shows _ fun x => same _ .codesValid h
      · exact same _ .codesValid h
    · exact showsOne_abort _ (SameBut.refl _ s)
  | genWalk i len path =>
    refine withNode_shows _ _ fun n => ?_
    split
    · exact withSymbol_shows _ fun x => same rest .codesValid (SameBut.refl _ s)
    · exact same _ .codesValid (SameBut.refl _ s)
  | genEnd => exact same rest .codesValid fun q hq => by cases q <;> first | exact absurd rfl hq | exact ⟨rfl, rfl, rfl, rfl⟩ | rfl
  | writeTag => exact same rest .outPartial (putBits_shows _ s)
  | hdrStart =>
    simp only [performLine, lineHdrStart]
    split
    · exact same _ .outPartial (SameBut.refl _ s)
    · exact showsOne_abort _ (SameBut.refl _ s)
  | hdrEmit i =>
    refine withNode_shows _ _ fun n => ?_
    split
    · exact same _ .outPartial (putBits_shows _ s)
    · exact same _ .outPartial (putBits_shows _ s)
  | hdrSymbol v => exact same rest .outPartial (putBits_shows _ s)
  | readTag =>
    simp only [performLine, lineReadTag]
    split
    · exact execTag_shows _ s
    · exact same _ .inEnd (atPos_shows s _)
    · exact same _ .inEnd (atPos_shows s _)
  | rhdrClear => exact same _ .inEnd (SameBut.refl _ s)
  | readNode stack =>
    simp only [performLine, lineReadNode]
    split
    · exact execHdrInternal_shows s
    · exact execHdrLeaf_shows _ s
    · exact enterNode_shows op rest hb fun i t ht => same _ .inEnd (ht.trans (atPos_shows t _))
    · exact same _ .inEnd (atPos_shows s _)
    · exact same _ .inEnd (atPos_shows s _)
  | rhdrRoot r =>
    refine withNode_shows _ _ fun n => ?_
    split
    · exact showsOne_abort _ (SameBut.refl _ s)
    · exact same rest .treeValid fun q hq => by cases q <;> first | exact absurd rfl hq | exact ⟨rfl, rfl, rfl, rfl⟩ | rfl
  | encStart =>
    simp only [performLine, lineEncStart]
    split
    · exact same _ .inEnd (SameBut.refl _ s)
    · exact showsOne_abort _ (SameBut.refl _ s)
  | encByte =>
    have hc := readBits_shows 8 s
    simp only [performLine, lineEncByte]
    generalize readBits 8 s = r at hc ⊢
    obtain ⟨v, s'⟩ := r
    cases v with
    | none => exact same rest .inEnd hc
    | some v => exact same _ .inEnd hc
  | encChunk b => exact encodeSymbol_shows _ op _ hb
  | encEof => exact encodeSymbol_shows _ op rest hb
  | decStart =>
    simp only [performLine, lineDecStart]
    split
    · exact same _ .inEnd (SameBut.refl _ s)
    · exact showsOne_abort _ (SameBut.refl _ s)
  | decBit =>
    have hc := readBits_shows 1 s
    simp only [performLine, lineDecBit]
    generalize readBits 1 s = r at hc ⊢
    obtain ⟨v, s'⟩ := r
    cases v with
    | none => exact same _ .inEnd hc
    | some b =>
      refine withNode_shows _ _ fun n => ?_
      split
      · exact showsOne_fault _ _
      · refine withNode_shows _ _ fun m => ?_
        split
        · refine withSymbol_shows _ fun x => ?_
          unfold decodeLeaf writeBits
          split
          · exact same rest .inEnd hc
          · have hw := putByte_shows .inEnd x.val (s'.withCursor (if b = 0 then n.left else n.right))
            generalize msbBits 8 x.val = bits at hw ⊢
            have h : SameBut .inEnd s _ := SameBut.trans hc hw
            exact same _ .inEnd fun q hq => h q hq
        · exact same _ .inEnd hc

/-- R77: every step of the core changes at most one thing STATUS shows. -/
theorem coreStep_shows_one {s t : State} (h : coreStep s = .next t) : ∃ p, SameBut p s t := by
  unfold coreStep at h
  split at h
  · cases h; exact ⟨.record, SameBut.refl _ _⟩
  · cases h
    refine ⟨.record, fun q hq => ?_⟩
    cases q <;> first | exact absurd rfl hq | rfl
  · rename_i op l rest hp
    exact performLine_shows l op rest s (by rw [State.busy, hp]) t h

end Sys2Proof.Machine
end

