-- ==== Sys2Proof/Laws/Layout.lean ====
section
/-! SUPPORT. Laws of the bytes in and out: chunks are input bytes, literals are output bytes, and the layout of what COMPRESS writes. -/

namespace Sys2Proof.Machine

/-- The bits of a field are those of its high part and then those of its low part. -/
theorem msbBits_add (m n v : Nat) : msbBits (m + n) v = msbBits m (v / 2 ^ n) ++ msbBits n v := by
  induction m with
  | zero => simp
  | succ m ih => rw [Nat.succ_add, msbBits, msbBits, ih, List.cons_append, Nat.testBit_div_two_pow, Nat.add_comm]

/-- The bits of a word as four bytes, the most significant first (R72). -/
theorem tagBytes (v : Word) : byteBits [v.extractLsb' 24 8, v.extractLsb' 16 8, v.extractLsb' 8 8, v.extractLsb' 0 8] = msbBits 32 v.toNat := by
  have e : ∀ k, (v.extractLsb' k 8).toNat = (v.toNat / 2 ^ k) % 2 ^ 8 := by
    intro k; rw [BitVec.extractLsb'_toNat, Nat.shiftRight_eq_div_pow]
  simp only [byteBits_cons, byteBits_nil, List.append_nil, e, msbBits_mod (le_refl 8)]
  clear e
  generalize v.toNat = n
  have h1 := msbBits_add 8 24 n
  have h2 := msbBits_add 8 16 n
  have h3 := msbBits_add 8 8 n
  simp only [Nat.reduceAdd] at h1 h2 h3
  rw [h1, h2, h3]
  simp

theorem outNbits_putBits_mod (bits : List Bool) (s : State) (h : bits.length % 8 = 0) : (putBits bits s).outNbits = s.outNbits := by
  apply BitVec.eq_of_toNat_eq
  rw [outNbits_eq, putBits_outBits, List.length_append, outNbits_eq s]; omega

theorem records_weight (t : Tree) : ∀ (n : Nat), ∀ r ∈ t.records n, r.weight = 0 := by
  induction t with
  | leaf x => intro n r hr; simp [Tree.records] at hr; subst hr; rfl
  | node l r ihl ihr =>
    intro n m hm
    rw [Tree.records] at hm
    rcases List.mem_cons.1 hm with rfl | hm
    · rfl
    · rcases List.mem_append.1 hm with hm | hm
      · exact ihl _ _ hm
      · exact ihr _ _ hm

/-- Of several entries for one symbol the last one stands (R174). -/
theorem foldl_last {α : Type} (f : Symbol × List Bool → α) (cs : List (Symbol × List Bool)) (v : Vector α 257) (x : Symbol) :
    (cs.foldl (fun v c => v.set c.1 (f c)) v)[x] = ((cs.reverse.find? fun c => c.1 == x).map f).getD v[x] := by
  induction cs generalizing v with
  | nil => rfl
  | cons c cs ih =>
    rw [List.foldl_cons, ih, List.reverse_cons, List.find?_append]
    cases h : cs.reverse.find? fun c => c.1 == x with
    | some d => simp
    | none =>
      simp only [Option.map_none, Option.getD_none, Option.none_or]
      by_cases e : c.1 = x
      · subst e; simp
      · have e' : (c.1 == x) = false := by simpa using e
        have e'' : c.1.val ≠ x.val := fun h => e (Fin.ext h)
        simp [e', e'']

theorem treeSize_bound {t : Tree} (h : t.size ≤ 513) (s : State) : t.size + t.leaves.length + 5 ≤ stepBound s := by
  have := t.size_eq
  rw [stepBound]; omega

theorem returnNode_next (op : BitVec 4) (rest : List Line) (stack : List Frame) : ∀ (i : NodeIdx) (s : State),
    (∀ f ∈ stack, f.node.toNat < 513) → ∃ t, returnNode op rest i stack s = .next t ∧ t.inPos = s.inPos ∧ t.nodeCount = s.nodeCount ∧
      ∀ j : NodeIdx, (∀ f ∈ stack, f.node ≠ j) → t.nodeAt j = s.nodeAt j := by
  induction stack with
  | nil => intro i s _; exact ⟨_, rfl, rfl, rfl, fun _ _ => rfl⟩
  | cons f below ih =>
    intro i s h
    obtain ⟨n, l⟩ := f
    cases l with
    | none => exact ⟨_, rfl, rfl, rfl, fun _ _ => rfl⟩
    | some l =>
      have hn : n.toNat < 513 := h ⟨n, some l⟩ (by simp)
      obtain ⟨t, h1, h2, h3, h4⟩ := ih n { s with node := s.node.set n.toNat (headerNode l i) hn } (fun f hf => h f (by simp [hf]))
      refine ⟨t, by rw [returnNode, setNode_lt hn]; exact h1, h2, h3, fun j hj => ?_⟩
      rw [h4 j (fun f hf => hj f (by simp [hf])), nodeAt_set]
      rw [if_neg]
      intro e
      exact hj ⟨n, some l⟩ (by simp) (BitVec.eq_of_toNat_eq e)

theorem chunks_len_bound (s : State) : s.chunks.length ≤ s.input.length := by
  rw [chunks_length, State.chunkCount]; omega

theorem literalBits_length (xs : List Symbol) : (literalBits xs).length = 8 * xs.length := by
  induction xs with
  | nil => rfl
  | cons x xs ih => rw [literalBits, List.flatMap_cons, List.length_append, msbBits_length, ← literalBits, ih, List.length_cons]; omega

theorem literal_outNbits (xs : List Symbol) (s : State) : (putBits (literalBits xs) s).outNbits = s.outNbits := by
  apply BitVec.eq_of_toNat_eq
  rw [outNbits_eq, putBits_outBits, List.length_append, outNbits_eq s, literalBits_length]; omega

theorem afterLiterals_acknowledge (xs : List Symbol) (n : Nat) (s : State) :
    afterLiterals xs n { acknowledge s with decCount := 0 } = acknowledge (afterLiterals xs n { s with decCount := 0 }) := by
  rw [afterLiterals, afterLiterals]
  have : ({ acknowledge s with decCount := 0 } : State) = acknowledge { s with decCount := 0 } := rfl
  rw [this, putBits_acknowledge]; rfl

theorem afterLiterals_frame (xs : List Symbol) (n : Nat) (s : State) : afterLiterals xs n { s with decCount := 0 } =
    { s with
      output := (afterLiterals xs n { s with decCount := 0 }).output, outAcc := (afterLiterals xs n { s with decCount := 0 }).outAcc
      outNbits := s.outNbits, inPos := s.inPos + n, decCount := BitVec.ofNat 32 xs.length } := by
  have h1 := putBits_frame (literalBits xs) { s with decCount := 0 }
  have h2 := literal_outNbits xs { s with decCount := 0 }
  rw [afterLiterals]
  generalize putBits (literalBits xs) { s with decCount := 0 } = u at *
  have h3 : (0 : Word) + BitVec.ofNat 32 xs.length = BitVec.ofNat 32 xs.length := BitVec.zero_add _
  conv_lhs => rw [h1]
  simp only [State.withOutput, h2, h3]

theorem afterLiterals_outBits (xs : List Symbol) (n : Nat) (s : State) : (afterLiterals xs n { s with decCount := 0 }).outBits = s.outBits ++ literalBits xs :=
  putBits_outBits (literalBits xs) { s with decCount := 0 }

/-- From position 0 the chunks are the bytes of the input (R141). -/
theorem chunk_byte (s : State) (k : Nat) (hk : k < s.input.length) : (s.atPos 0).chunk k = byteSymbol s.input[k] := by
  rw [State.chunk]
  have : bitsFrom (s.atPos 0).input ((s.atPos 0).inPos + 8 * k) 8 = msbBits 8 (s.input[k]).toNat := by
    apply List.ext_getElem (by simp)
    intro j hj _
    have hj' : j < 8 := by simpa using hj
    rw [msbBits_getElem _ _ _ hj']
    simp only [bitsFrom, List.getElem_map, List.getElem_range', atPos_inPos, atPos_input, bitAt]
    have e1 : (0 + 8 * k + 1 * j) / 8 = k := by omega
    have e2 : 7 - (0 + 8 * k + 1 * j) % 8 = 8 - 1 - j := by omega
    rw [e1, e2, List.getElem?_eq_getElem hk]
    rfl
  rw [this, bitsVal_msbBits, Nat.mod_eq_of_lt (s.input[k]).isLt, BitVec.ofNat_toNat, BitVec.setWidth_eq]

theorem chunks_bytes (s : State) : (s.atPos 0).chunks = s.input.map byteSymbol := by
  have hc : (s.atPos 0).chunkCount = s.input.length := by
    simp only [State.chunkCount, atPos_input, atPos_inPos]; omega
  apply List.ext_getElem
  · rw [chunks_length, hc, List.length_map]
  · intro k h1 h2
    rw [List.length_map] at h2
    simp only [State.chunks, List.getElem_map, List.getElem_range]
    exact chunk_byte s k h2

theorem compressed_acknowledge (s : State) (t : Tree) : (acknowledge s).compressed t = acknowledge (s.compressed t) := by
  simp only [State.compressed]
  have hc : ((acknowledge s).atPos 0).counts = (s.atPos 0).counts := counts_congr rfl rfl
  rw [hc]
  have e : ({ (clearOut (acknowledge s)).atPos 0 with freq := (s.atPos 0).counts } : State).built.withCodes t =
    acknowledge (({ (clearOut s).atPos 0 with freq := (s.atPos 0).counts } : State).built.withCodes t) := rfl
  rw [e, chunks_acknowledge, codeOf_acknowledge, putBits_acknowledge]
  clear e hc
  generalize (({ (clearOut s).atPos 0 with freq := (s.atPos 0).counts } : State).built.withCodes t) = w
  exact close_acknowledge ((putBits (msbBits 32 s.tag.toNat ++ t.headerBits ++ (w.chunks.flatMap w.codeOf ++ w.codeOf eofSymbol)) w).atPos (8 * s.input.length))

/-- The code of a leaf walks from the root to that leaf (R101, R205). -/
theorem code_walk {s : State} {t : Tree} (hn : t.isNode = true) (hnd : t.leaves.Nodup) (hs : t.size ≤ 513) {x : Symbol} (hx : x ∈ t.leaves) :
    t.walk ((s.withCodes t).codeOf x) = some x := by
  cases t with
  | leaf y => simp [Tree.isNode] at hn
  | node l r =>
    obtain ⟨p, hp⟩ := Tree.path_of_leaf hx
    have := (codes_of_path (s := s.withCodes (.node l r)) rfl rfl hnd hs hp).2.2
    rw [this]
    exact Tree.walk_path _ _ hp

/-- The codes of a symbol sequence spell it (R102). -/
theorem codes_spell {s : State} {t : Tree} (hn : t.isNode = true) (hnd : t.leaves.Nodup) (hs : t.size ≤ 513) (xs : List Symbol)
    (hx : ∀ x ∈ xs, x ∈ t.leaves) : t.Spells (xs.flatMap (s.withCodes t).codeOf) xs := by
  induction xs with
  | nil => exact .nil
  | cons x xs ih =>
    rw [List.flatMap_cons]
    exact .cons (code_walk hn hnd hs (hx x (by simp))) (ih fun y hy => hx y (by simp [hy]))

/-- After `close()` the output is the bits written and fewer than 8 zero bits (R127). -/
theorem closed_bits (w : State) (bits : List Bool) (n : Nat) (h : w.outBits = []) :
    ∃ pad, pad < 8 ∧ (close ((putBits bits w).atPos n)).outBits = bits ++ List.replicate pad false := by
  rw [close_eq, putBits_outBits]
  have : ((putBits bits w).atPos n).outBits = bits := by
    show (putBits bits w).outBits = _
    rw [putBits_outBits, h, List.nil_append]
  rw [this]
  refine ⟨_, ?_, rfl⟩
  omega

/-- Bytes whose bits are those of literals are those literals (R204). -/
theorem literals_bytes (out : List Byte) (xs : List Symbol) (h : byteBits out = literalBits xs) (hne : eofSymbol ∉ xs) : out.map byteSymbol = xs := by
  induction xs generalizing out with
  | nil =>
    have := congrArg List.length h
    rw [byteBits_length] at this
    have : out = [] := List.length_eq_zero_iff.1 (by simpa [literalBits] using this)
    rw [this]; rfl
  | cons x xs ih =>
    cases out with
    | nil =>
      have := congrArg List.length h
      rw [literalBits_length] at this
      simp at this
    | cons b out =>
      rw [byteBits_cons, literalBits, List.flatMap_cons, ← literalBits] at h
      obtain ⟨h1, h2⟩ := List.append_inj h (by simp)
      have hx : x.val < 256 := by
        have := x.isLt
        have : x.val ≠ 256 := fun e => hne (by rw [show x = eofSymbol from Fin.ext e]; simp)
        omega
      have := msbBits_inj (n := 8) b.isLt (by omega) h1
      rw [List.map_cons, ih out h2 (fun e => hne (by simp [e]))]
      congr 1
      exact Fin.ext this

theorem byteSymbol_inj {x y : Byte} (h : byteSymbol x = byteSymbol y) : x = y :=
  BitVec.eq_of_toNat_eq (by have := congrArg (fun a : Symbol => a.val) h; exact this)

theorem eof_not_byte (xs : List Byte) : eofSymbol ∉ xs.map byteSymbol := by
  intro h
  obtain ⟨b, -, hb⟩ := List.mem_map.1 h
  have h1 := congrArg Fin.val hb
  have h2 := b.isLt
  have h3 : b.toNat = 256 := h1
  omega

end Sys2Proof.Machine
end

