-- ==== Sys2Proof/Laws/PerInstr.lean ====
section
/-! SUPPORT. What holds of every instruction as syntax, one lemma per constructor. -/

namespace Sys2Proof

/-- How many bits a row of the opcode table has on its port (R91, R95 to R97). -/
def Instr.bits : Instr → Nat
  | .hdrInternal => 1
  | .hdrLeaf _ => 10
  | .ack | .compress | .decompress | .count | .build | .gen | .wtag | .whdr | .enc | .rtag | .rhdr | .dec
  | .rewind | .close | .outclr | .illegalOp | .illegalRsv _ _ | .tag _ => 32

end Sys2Proof

namespace Sys2Proof.Laws.EncodedBits

/-- The encoding has the bits its format gives it, and the decoder of its port never runs past them: on fewer bits it
delivers no instruction. -/
def Statement (i : Instr) : Prop :=
  (encode i).length = i.bits ∧
    ∀ k, k < i.bits → ∀ j rest, decode i.port ((encode i).take k) ≠ .instr j rest

theorem word_short (w : Word) (k : Nat) (hk : k < 32) (j : Instr) (rest : List Bool) :
    decode .ctrl ((msbBits 32 w.toNat).take k) ≠ .instr j rest := by
  simp only [decode]
  rw [if_neg (by simp; omega)]
  exact fun h => nomatch h

theorem ack : Statement .ack :=
  ⟨by simp [encode, Instr.bits], fun k hk => word_short _ k hk⟩

theorem compress : Statement .compress :=
  ⟨by simp [encode, Instr.bits], fun k hk => word_short _ k hk⟩

theorem decompress : Statement .decompress :=
  ⟨by simp [encode, Instr.bits], fun k hk => word_short _ k hk⟩

theorem count : Statement .count :=
  ⟨by simp [encode, Instr.bits], fun k hk => word_short _ k hk⟩

theorem build : Statement .build :=
  ⟨by simp [encode, Instr.bits], fun k hk => word_short _ k hk⟩

theorem gen : Statement .gen :=
  ⟨by simp [encode, Instr.bits], fun k hk => word_short _ k hk⟩

theorem wtag : Statement .wtag :=
  ⟨by simp [encode, Instr.bits], fun k hk => word_short _ k hk⟩

theorem whdr : Statement .whdr :=
  ⟨by simp [encode, Instr.bits], fun k hk => word_short _ k hk⟩

theorem enc : Statement .enc :=
  ⟨by simp [encode, Instr.bits], fun k hk => word_short _ k hk⟩

theorem rtag : Statement .rtag :=
  ⟨by simp [encode, Instr.bits], fun k hk => word_short _ k hk⟩

theorem rhdr : Statement .rhdr :=
  ⟨by simp [encode, Instr.bits], fun k hk => word_short _ k hk⟩

theorem dec : Statement .dec :=
  ⟨by simp [encode, Instr.bits], fun k hk => word_short _ k hk⟩

theorem rewind : Statement .rewind :=
  ⟨by simp [encode, Instr.bits], fun k hk => word_short _ k hk⟩

theorem close : Statement .close :=
  ⟨by simp [encode, Instr.bits], fun k hk => word_short _ k hk⟩

theorem outclr : Statement .outclr :=
  ⟨by simp [encode, Instr.bits], fun k hk => word_short _ k hk⟩

theorem illegalOp : Statement .illegalOp :=
  ⟨by simp [encode, Instr.bits], fun k hk => word_short _ k hk⟩

theorem illegalRsv (rsv : BitVec 28) (op : BitVec 4) : Statement (.illegalRsv rsv op) :=
  ⟨by simp [encode, Instr.bits], fun k hk => word_short _ k hk⟩

theorem tag (t : Word) : Statement (.tag t) := by
  refine ⟨by simp [encode, Instr.bits], fun k hk j rest => ?_⟩
  have hk' : k < 32 := hk
  show decodeTag ((msbBits 32 t.toNat).take k) ≠ .instr j rest
  rw [decodeTag, if_neg (by simp; omega)]
  exact fun h => nomatch h

theorem hdrInternal : Statement .hdrInternal := by
  refine ⟨rfl, fun k hk j rest => ?_⟩
  have hk' : k = 0 := by have : k < 1 := hk; omega
  subst hk'
  exact fun h => nomatch h

theorem hdrLeaf (sym : SymField) : Statement (.hdrLeaf sym) := by
  refine ⟨by simp [encode, Instr.bits], fun k hk j rest => ?_⟩
  have hk' : k < 10 := hk
  cases k with
  | zero => exact fun h => nomatch h
  | succ k =>
    show decodeToken (true :: (msbBits 9 sym.toNat).take k) ≠ .instr j rest
    rw [decodeToken, if_neg (by simp; omega)]
    exact fun h => nomatch h

end Sys2Proof.Laws.EncodedBits
end

