-- ==== Sys2Proof/Laws/Pipeline.lean ====
section
/-! SUPPORT. The lines of RHDR and DEC run alike in every command they stand in, so their errors are the same errors of
DECOMPRESS (R184, R203, R225). -/

namespace Sys2Proof.Machine

/-- A line of RHDR or DEC. -/
def Line.ofDecoder : Line → Prop
  | .raise _ | .clearTreeValid | .clearCodesValid | .rhdrClear | .readNode _ | .rhdrRoot _ | .decStart | .decBit => True
  | _ => False

/-- What a line does whatever command runs it: it goes on to some such lines and then to those after it, or it raises, or
it stops. -/
def Alike (o : BitVec 4 → List Line → Host.Outcome State Fault Refusal) : Prop :=
  (∃ ls s', (∀ l ∈ ls, l.ofDecoder) ∧ ∀ op rest, o op rest = .next (resume op (ls ++ rest) s')) ∨
    (∃ e s', ∀ op rest, o op rest = .next (raiseError e s')) ∨ ∃ f, ∀ op rest, o op rest = .fault f

theorem alike_proceed (ls : List Line) (s : State) (h : ∀ l ∈ ls, l.ofDecoder) :
    Alike fun op rest => proceed op (ls ++ rest) s := .inl ⟨ls, s, h, fun _ _ => rfl⟩

theorem alike_fault (f : Fault) : Alike fun _ _ => .fault f := .inr (.inr ⟨f, fun _ _ => rfl⟩)

theorem returnNode_alike (stack : List Frame) : ∀ (i : NodeIdx) (s : State),
    Alike fun op rest => returnNode op rest i stack (resume op (.readNode stack :: rest) s) := by
  have key : ∀ (stack : List Frame) (i : NodeIdx) (s : State) (ls : List Line),
      Alike fun op rest => returnNode op rest i stack (resume op (ls ++ rest) s) := by
    intro stack
    induction stack with
    | nil => exact fun i s _ => alike_proceed [.rhdrRoot i] s (by simp [Line.ofDecoder])
    | cons f below ih =>
      intro i s ls
      obtain ⟨n, l⟩ := f
      cases l with
      | none => exact alike_proceed [.readNode ({ node := n, left := some i } :: below)] s (by simp [Line.ofDecoder])
      | some l =>
        by_cases h : n.toNat < 513
        · simp only [returnNode, setNode, dif_pos h]
          exact ih n { s with node := s.node.set n.toNat (headerNode l i) h } ls
        · simp only [returnNode, setNode, dif_neg h]
          exact alike_fault _
  exact fun i s => key stack i s [.readNode stack]

/-- DEC at a leaf (R204, R206). -/
theorem decodeLeaf_alike (x : Symbol) (s : State) (ls : List Line) :
    Alike fun op rest => decodeLeaf x op rest (resume op (ls ++ rest) s) := by
  by_cases hx : x = eofSymbol
  · simp only [decodeLeaf, if_pos hx]
    exact alike_proceed [] s (by simp)
  · refine .inl ⟨[.decBit], { putBits (msbBits 8 x.val) s with decCount := s.decCount + 1, cursor := s.root },
      by simp [Line.ofDecoder], fun op rest => ?_⟩
    simp only [decodeLeaf, if_neg hx, writeBits, putBits_resume]
    rw [← putBits_decCount (msbBits 8 x.val) s, ← putBits_root (msbBits 8 x.val) s]
    generalize putBits (msbBits 8 x.val) s = u
    rfl

/-- DEC at the node its cursor has moved to (R205). -/
theorem decodeNode_alike (c : NodeIdx) (s : State) (ls : List Line) : Alike fun op rest =>
    withNode c (resume op (ls ++ rest) s) fun m =>
      if m.isLeaf then withSymbol m.sym fun x => decodeLeaf x op rest (resume op (ls ++ rest) s)
      else proceed op (.decBit :: rest) (resume op (ls ++ rest) s) := by
  have hn : ∀ op rest, (resume op (ls ++ rest) s).nodeAt c = s.nodeAt c := fun _ _ => rfl
  simp only [withNode, hn]
  cases s.nodeAt c with
  | none => exact alike_fault _
  | some m =>
    by_cases hl : m.isLeaf
    · simp only [hl, if_true, withSymbol]
      cases fieldSymbol m.sym with
      | none => exact alike_fault _
      | some x => exact decodeLeaf_alike x s ls
    · simp only [if_neg hl]
      exact alike_proceed [.decBit] s (by simp [Line.ofDecoder])

/-- A line of RHDR or DEC does the same in every command (R184, R203). -/
theorem performLine_alike {l : Line} (hl : l.ofDecoder) (s : State) :
    Alike fun op rest => performLine l op rest (resume op (l :: rest) s) := by
  cases l <;> first | exact False.elim hl | skip
  case raise e => exact .inr (.inl ⟨e, s, fun _ _ => rfl⟩)
  case clearTreeValid => exact alike_proceed [] { s with treeValid := false } (by simp)
  case clearCodesValid => exact alike_proceed [] { s with codesValid := false } (by simp)
  case rhdrClear => exact alike_proceed [.readNode []] { clearArena s with root := 0 } (by simp [Line.ofDecoder])
  case decStart =>
    simp only [performLine, lineDecStart]
    have hv : ∀ op rest, (resume op (.decStart :: rest) s).treeValid = s.treeValid := fun _ _ => rfl
    simp only [hv]
    by_cases h : s.treeValid
    · simp only [if_pos h]
      exact alike_proceed [.decBit] { s with decCount := 0, cursor := s.root } (by simp [Line.ofDecoder])
    · simp only [if_neg h]
      exact .inr (.inl ⟨.illegalSequence, s, fun _ _ => rfl⟩)
  case decBit =>
    simp only [performLine, lineDecBit]
    by_cases hr : 8 * s.input.length < s.inPos + 1
    · have : ∀ op rest, readBits 1 (resume op (.decBit :: rest) s) =
          (none, { resume op (.decBit :: rest) s with inPos := 8 * s.input.length }) := fun _ _ => readBits_none 1 _ hr
      simp only [this]
      exact alike_proceed [.raise .truncatedStream] { s with inPos := 8 * s.input.length } (by simp [Line.ofDecoder])
    · have : ∀ op rest, readBits 1 (resume op (.decBit :: rest) s) =
          (some (bitsVal (bitsFrom s.input s.inPos 1)), resume op (.decBit :: rest) (s.atPos (s.inPos + 1))) :=
        fun _ _ => if_neg hr
      have hn : ∀ op rest, (resume op (.decBit :: rest) (s.atPos (s.inPos + 1))).nodeAt s.cursor = s.nodeAt s.cursor :=
        fun _ _ => rfl
      have hc : ∀ op rest, (resume op (.decBit :: rest) (s.atPos (s.inPos + 1))).cursor = s.cursor := fun _ _ => rfl
      simp only [this, withNode, hc, hn]
      cases s.nodeAt s.cursor with
      | none => exact alike_fault _
      | some n =>
        by_cases hl : n.isLeaf
        · simp only [if_pos hl]; exact alike_fault _
        · simp only [if_neg hl]
          exact decodeNode_alike _ { s.atPos (s.inPos + 1) with
            cursor := if bitsVal (bitsFrom s.input s.inPos 1) = 0 then n.left else n.right } [.decBit]
  case rhdrRoot r =>
    simp only [performLine, lineRhdrRoot, withNode]
    have hn : ∀ op rest, ({ resume op (.rhdrRoot r :: rest) s with root := r } : State).nodeAt r = s.nodeAt r := fun _ _ => rfl
    simp only [hn]
    cases s.nodeAt r with
    | none => exact alike_fault _
    | some n =>
      by_cases h : n.isLeaf
      · simp only [h, if_true]
        exact .inr (.inl ⟨.degenerateTree, { s with root := r }, fun _ _ => rfl⟩)
      · simp only [h]
        exact alike_proceed [] { s with root := r, treeValid := true } (by simp)
  case readNode stack =>
    simp only [performLine, lineReadNode]
    have ht : ∀ op rest, tokenAt (resume op (.readNode stack :: rest) s) = tokenAt s := fun _ _ => rfl
    simp only [ht]
    have hend : Alike fun op rest => proceed op (.raise .truncatedHeader :: rest)
        { resume op (.readNode stack :: rest) s with inPos := 8 * s.input.length } :=
      alike_proceed [.raise .truncatedHeader] { s with inPos := 8 * s.input.length } (by simp [Line.ofDecoder])
    have hfull : ∀ {k : BitVec 4 → List Line → NodeIdx → State → Host.Outcome State Fault Refusal},
        (Alike fun op rest => k op rest s.nodeCount (allocate { resume op (.readNode stack :: rest) s with inPos := s.inPos + 1 })) →
        Alike fun op rest => enterNode op rest (resume op (.readNode stack :: rest) s) (k op rest) := by
      intro k hk
      unfold enterNode
      by_cases hc : s.nodeCount.toNat = Config.nodeCap
      · have : ∀ op rest, (resume op (.readNode stack :: rest) s).nodeCount.toNat = Config.nodeCap := fun _ _ => hc
        simp only [this, if_true]
        exact alike_proceed [.raise .headerOverflow] { s with inPos := s.inPos + 1 } (by simp [Line.ofDecoder])
      · have : ∀ op rest, ¬(resume op (.readNode stack :: rest) s).nodeCount.toNat = Config.nodeCap := fun _ _ => hc
        simp only [this, if_false]
        exact hk
    have hleaf : ∀ v, Alike fun op rest => execHdrLeaf v (resume op (.readNode stack :: rest) s) := by
      intro v
      simp only [execHdrLeaf, resume]
      refine hfull (k := fun op rest i s₁ => if v.toNat > Config.eofSym then
          proceed op (.raise .headerSymbolRange :: rest) { s₁ with inPos := s₁.inPos + 9 }
        else setNode i (headerLeaf v) { s₁ with inPos := s₁.inPos + 9 } fun s₃ => returnNode op rest i stack s₃) ?_
      by_cases hv : v.toNat > Config.eofSym
      · simp only [hv, if_true]
        exact alike_proceed [.raise .headerSymbolRange] { allocate s with inPos := s.inPos + 1 + 9 } (by simp [Line.ofDecoder])
      · simp only [hv, if_false]
        by_cases hn : s.nodeCount.toNat < 513
        · simp only [setNode, dif_pos hn]
          exact returnNode_alike stack s.nodeCount { allocate s with
            inPos := s.inPos + 1 + 9, node := s.node.set s.nodeCount.toNat (headerLeaf v) hn }
        · simp only [setNode, dif_neg hn]
          exact alike_fault _
    have hinternal : Alike fun op rest => execHdrInternal (resume op (.readNode stack :: rest) s) :=
      hfull (k := fun op rest i s' => proceed op (.readNode ({ node := i, left := none } :: stack) :: rest) s')
        (alike_proceed [.readNode ({ node := s.nodeCount, left := none } :: stack)]
          { allocate s with inPos := s.inPos + 1 } (by simp [Line.ofDecoder]))
    cases tokenAt s with
    | instr i r => cases i <;> first | exact hend | exact hleaf _ | exact hinternal
    | reject r =>
      cases r <;> first
        | exact hend
        | exact hfull (k := fun op rest _ s' =>
            proceed op (.raise .truncatedHeader :: rest) { s' with inPos := 8 * s.input.length })
            (alike_proceed [.raise .truncatedHeader] { allocate s with inPos := 8 * s.input.length } (by simp [Line.ofDecoder]))

/-- A run of lines of RHDR or DEC that ends in an error ends in it whatever command the lines stand in, and whatever follows
them there (R221, R225). -/
theorem error_alike {op : BitVec 4} {k : Nat} : ∀ {ls : List Line} {s t : State}, (∀ l ∈ ls, l.ofDecoder) →
    Steps k (resume op ls s) t → t.phase = .idle → t.done = false →
    ∀ (op' : BitVec 4) (rest : List Line), Steps k (resume op' (ls ++ rest) s) t := by
  induction k with
  | zero => intro ls s t _ h ht; cases h; cases ht
  | succ k ih =>
    intro ls s t hl h ht hd op' rest
    obtain ⟨s', -, hs, h'⟩ := h
    cases ls with
    | nil =>
      cases hs
      cases k with
      | zero => cases h'; cases hd
      | succ k =>
        obtain ⟨_, hp, -⟩ := h'
        exact absurd rfl hp
    | cons l ls =>
      have hs' : performLine l op ls (resume op (l :: ls) s) = .next s' := hs
      rcases performLine_alike (hl l (by simp)) s with ⟨ms, u, hms, hu⟩ | ⟨e, u, hu⟩ | ⟨f, hf⟩
      · cases (hu op ls).symm.trans hs'
        have := ih (ls := ms ++ ls) (fun m hm => (List.mem_append.mp hm).elim (hms m) fun h => hl m (by simp [h])) h' ht hd
          op' rest
        rw [List.append_assoc] at this
        exact Steps.cons rfl (hu op' (ls ++ rest)) this
      · cases (hu op ls).symm.trans hs'
        cases k with
        | zero => cases h'; exact Steps.cons rfl (hu op' (ls ++ rest)) (Steps.refl _)
        | succ k =>
          obtain ⟨_, hp, -⟩ := h'
          exact absurd rfl hp
      · cases (hf op ls).symm.trans hs'

end Sys2Proof.Machine
end

