-- ==== Sys2Proof/Laws/Registers.lean ====
section
/-! SUPPORT. Laws of the register space: where each register stands, and what a host access to it answers. -/

namespace Sys2Proof.Machine

theorem admitted_iff (off : BitVec 16) (size : Nat) : admitted off size = true ↔ size = 4 ∧ off.toNat % 4 = 0 := by
  simp [admitted]

theorem hostRead_admitted {off : BitVec 16} (h : off.toNat % 4 = 0) (s : State) : hostRead off 4 s =
    if s.busy && !(regAt off.toNat).definedWhileBusy then .next { s with rdata := Config.freeRead s.draws, draws := s.draws + 1 }
    else .next { s with rdata := s.regValue (regAt off.toNat) } := by
  rw [hostRead, if_pos ((admitted_iff off 4).2 ⟨rfl, h⟩)]

theorem hostRead_idle {off : BitVec 16} (h : off.toNat % 4 = 0) {s : State} (hb : s.busy = false) :
    hostRead off 4 s = .next { s with rdata := s.regValue (regAt off.toNat) } := by
  rw [hostRead_admitted h, hb]; simp

theorem hostRead_defined {off : BitVec 16} (h : off.toNat % 4 = 0) {s : State} (hb : (regAt off.toNat).definedWhileBusy = true) :
    hostRead off 4 s = .next { s with rdata := s.regValue (regAt off.toNat) } := by
  rw [hostRead_admitted h, hb]; simp

theorem regAt_window {n : Nat} (h : 0x34 ≤ n) : regAt n = windowAt n := by
  unfold regAt; iterate 13 rw [if_neg (by omega)]

theorem regAt_freq (x : Symbol) : regAt (0x1000 + 4 * x.val) = .freqWord x := by
  rw [regAt_window (by omega), windowAt, dif_pos (by omega)]; congr 1; apply Fin.ext; show _ / 4 = _; omega

theorem regAt_codelen (x : Symbol) : regAt (0x2000 + 4 * x.val) = .codelenWord x := by
  rw [regAt_window (by omega), windowAt, dif_neg (by omega), dif_pos (by omega)]; congr 1; apply Fin.ext; show _ / 4 = _; omega

theorem regAt_codebits (x : Symbol) (w : Fin 8) : regAt (0x4000 + 32 * x.val + 4 * w.val) = .codebitsWord x w := by
  rw [regAt_window (by omega), windowAt, dif_neg (by omega), dif_neg (by omega), dif_pos (by omega)]
  congr 1 <;> apply Fin.ext
  · show _ / 32 = _; omega
  · show _ % 32 / 4 = _; omega

theorem regAt_node (i : Fin 513) (k : Nat) (hk : k < 4) : regAt (0x8000 + 16 * i.val + 4 * k) = .nodeWord i (nodeField k) := by
  rw [regAt_window (by omega), windowAt, dif_neg (by omega), dif_neg (by omega), dif_neg (by omega), dif_pos (by omega)]
  congr 1
  · apply Fin.ext; show _ / 16 = _; omega
  · congr 1; omega

theorem regAt_unmapped {n : Nat} (h4 : n % 4 = 0) (h : ¬(n < 0x034 ∨ (0x1000 ≤ n ∧ n < 0x1404) ∨ (0x2000 ≤ n ∧ n < 0x2404) ∨
      (0x4000 ≤ n ∧ n < 0x6020) ∨ (0x8000 ≤ n ∧ n < 0xA010))) : regAt n = .unmapped := by
  rw [regAt_window (by omega), windowAt, dif_neg (by omega), dif_neg (by omega), dif_neg (by omega), dif_neg (by omega)]

theorem word0_eq (n : Node) : flagAt n.isLeaf 31 ||| n.sym.setWidth 32 = BitVec.ofBool n.isLeaf ++ 0#22 ++ n.sym := by
  cases n.isLeaf <;> (generalize n.sym = v; revert v; decide +revert)

theorem idleRead (n : Nat) (hn : n < 65536) (h4 : n % 4 = 0) {s : State} (hb : s.busy = false) {r : Reg} (hr : regAt n = r) :
    hostRead (BitVec.ofNat 16 n) 4 s = .next { s with rdata := s.regValue r } := by
  have : (BitVec.ofNat 16 n).toNat = n := by simp; omega
  rw [hostRead_idle (by rw [this]; exact h4) hb, this, hr]

theorem mapped_cases {off : BitVec 16} (h : off.toNat ∈ [0x008, 0x010, 0x01C, 0x020, 0x024, 0x028, 0x02C, 0x030] ∨
        (0x1000 ≤ off.toNat ∧ off.toNat < 0x1404) ∨ (0x2000 ≤ off.toNat ∧ off.toNat < 0x2404) ∨
        (0x4000 ≤ off.toNat ∧ off.toNat < 0x6020) ∨ (0x8000 ≤ off.toNat ∧ off.toNat < 0xA010)) :
    (regAt off.toNat).definedWhileBusy = false := by
  generalize off.toNat = n at *
  rcases h with h | h | h | h | h
  · revert h; revert n
    decide
  · rw [regAt_window (by omega), windowAt, dif_pos (by omega)]; rfl
  · rw [regAt_window (by omega), windowAt, dif_neg (by omega), dif_pos (by omega)]; rfl
  · rw [regAt_window (by omega), windowAt, dif_neg (by omega), dif_neg (by omega), dif_pos (by omega)]; rfl
  · rw [regAt_window (by omega), windowAt, dif_neg (by omega), dif_neg (by omega), dif_neg (by omega), dif_pos (by omega)]; rfl

theorem write_other {off : BitVec 16} (h4 : off.toNat % 4 = 0) (h1 : off ≠ 0x008) (h2 : off ≠ 0x014) (h3 : off ≠ 0x018) (v : Word)
    (s : State) : hostWrite off 4 v s = .next s := by
  have hc : regAt off.toNat ≠ .ctrl ∧ regAt off.toNat ≠ .tag ∧ regAt off.toNat ≠ .irqEn := by
    have e1 : off.toNat ≠ 8 := fun h => h1 (BitVec.eq_of_toNat_eq h)
    have e2 : off.toNat ≠ 0x14 := fun h => h2 (BitVec.eq_of_toNat_eq h)
    have e3 : off.toNat ≠ 0x18 := fun h => h3 (BitVec.eq_of_toNat_eq h)
    generalize off.toNat = n at *
    by_cases hn : 0x34 ≤ n
    · rw [regAt_window hn, windowAt]
      split
      · simp
      split
      · simp
      split
      · simp
      split <;> simp
    · unfold regAt
      repeat' split
      all_goals first | (exfalso; omega) | simp
  rw [hostWrite, if_pos ((admitted_iff _ _).2 ⟨rfl, h4⟩)]
  split
  · exact absurd ‹_› hc.1
  · exact absurd ‹_› hc.2.1
  · exact absurd ‹_› hc.2.2
  all_goals rfl

theorem write_next {off : BitVec 16} (h4 : off.toNat % 4 = 0) (h1 : off ≠ 0x008) (v : Word)
    (s : State) : ∃ t, hostWrite off 4 v s = .next t := by
  by_cases h2 : off = 0x014
  · subst h2; exact ⟨_, rfl⟩
  by_cases h3 : off = 0x018
  · subst h3; exact ⟨_, rfl⟩
  exact ⟨_, write_other h4 h1 h2 h3 v s⟩

end Sys2Proof.Machine
end

