-- ==== Sys2Proof/Laws/Weights.lean ====
section
/-! SUPPORT. Laws of the records BUILD makes: which index holds what, the children before their parent (R160), and the
weights (R162). -/

namespace Sys2Proof.Machine

/-- The weight of the record at an index. -/
def weightAt (nodes : List Node) (i : NodeIdx) : Option Word := (nodes[i.toNat]?).map Node.weight

/-- The sum of the weights in a queue, exactly. -/
def queueSum (queue : List (Word × NodeIdx)) : Nat := (queue.map fun p => p.1.toNat).sum

theorem queueSum_insert (w : Word) (i : NodeIdx) (queue : List (Word × NodeIdx)) :
    queueSum (insertByWeight w i queue) = w.toNat + queueSum queue := by
  induction queue with
  | nil => simp [insertByWeight, queueSum]
  | cons p queue ih =>
    rw [insertByWeight]
    split
    · have h : queueSum (p :: insertByWeight w i queue) = p.1.toNat + queueSum (insertByWeight w i queue) := by
        simp [queueSum]
      have h' : queueSum (p :: queue) = p.1.toNat + queueSum queue := by simp [queueSum]
      rw [h, ih, h']
      omega
    · simp [queueSum]

/-- A record at index `j` that merges two records before it; its weight is their sum, exactly where that fits (R159, R160). -/
structure Merges (nodes : List Node) (j : Nat) (n : Node) : Prop where
  isLeaf : n.isLeaf = false
  sym : n.sym = 0
  left : n.left.toNat < j
  right : n.right.toNat < j
  weight : ∃ v w, weightAt nodes n.left = some v ∧ weightAt nodes n.right = some w ∧ n.weight = v + w

theorem weightAt_append {nodes : List Node} {i : NodeIdx} {w : Word} (h : weightAt nodes i = some w) (ms : List Node) :
    weightAt (nodes ++ ms) i = some w ∧ i.toNat < nodes.length := by
  have hi : i.toNat < nodes.length := by
    by_contra hi
    rw [weightAt, List.getElem?_eq_none (by omega)] at h
    cases h
  exact ⟨by rw [weightAt, List.getElem?_append_left hi]; exact h, hi⟩

theorem mergeNodes_extends (k : Nat) : ∀ (nodes : List Node) (queue : List (Word × NodeIdx)),
    (∀ p ∈ queue, weightAt nodes p.2 = some p.1) → nodes.length + queue.length ≤ 514 →
    ∃ ms, mergeNodes k nodes queue = nodes ++ ms ∧ ∀ j n, ms[j]? = some n →
      Merges (nodes ++ ms) (nodes.length + j) n ∧
      (queueSum queue < 2 ^ 32 → ∀ v w, weightAt (nodes ++ ms) n.left = some v → weightAt (nodes ++ ms) n.right = some w →
        n.weight.toNat = v.toNat + w.toNat) := by
  induction k with
  | zero => intro nodes queue _ _; exact ⟨[], by simp [mergeNodes], fun j n h => by simp at h⟩
  | succ k ih =>
    intro nodes queue hq hc
    match queue, hq, hc with
    | [], _, _ => exact ⟨[], by simp [mergeNodes], fun j n h => by simp at h⟩
    | [p], _, _ => exact ⟨[], by simp [mergeNodes], fun j n h => by simp at h⟩
    | (v, a) :: (w, b) :: queue, hq, hc =>
      simp only [List.length_cons] at hc
      have hm : (BitVec.ofNat 10 nodes.length).toNat = nodes.length := by rw [BitVec.toNat_ofNat]; omega
      have ha := hq (v, a) (by simp)
      have hb := hq (w, b) (by simp)
      obtain ⟨ms, h1, h2⟩ := ih (nodes ++ [internalNode (v + w) a b])
        (insertByWeight (v + w) (BitVec.ofNat 10 nodes.length) queue) (by
          intro p hp
          rcases (insertByWeight_mem _ _ _ _).1 hp with rfl | hp
          · rw [weightAt, hm]; simp [internalNode]
          · exact (weightAt_append (hq p (by simp [hp])) _).1) (by rw [insertByWeight_length]; simp; omega)
      have hsum : queueSum ((v, a) :: (w, b) :: queue) = v.toNat + (w.toNat + queueSum queue) := by simp [queueSum]
      refine ⟨internalNode (v + w) a b :: ms, by rw [mergeNodes, h1]; simp, fun j n hj => ?_⟩
      have hassoc : nodes ++ internalNode (v + w) a b :: ms = nodes ++ [internalNode (v + w) a b] ++ ms := by simp
      cases j with
      | zero =>
        simp only [List.getElem?_cons_zero, Option.some.injEq] at hj
        subst hj
        have ha' := weightAt_append ha (internalNode (v + w) a b :: ms)
        have hb' := weightAt_append hb (internalNode (v + w) a b :: ms)
        refine ⟨⟨rfl, rfl, ha'.2, hb'.2, v, w, ha'.1, hb'.1, rfl⟩, fun hs v' w' hv hw => ?_⟩
        have e1 : weightAt (nodes ++ internalNode (v + w) a b :: ms) a = some v' := hv
        have e2 : weightAt (nodes ++ internalNode (v + w) a b :: ms) b = some w' := hw
        rw [ha'.1, Option.some.injEq] at e1
        rw [hb'.1, Option.some.injEq] at e2
        rw [hsum] at hs
        have : (internalNode (v + w) a b).weight.toNat = v.toNat + w.toNat := by
          show (v + w).toNat = _
          rw [BitVec.toNat_add]
          omega
        rw [this, show v = v' from e1, show w = w' from e2]
      | succ j =>
        rw [List.getElem?_cons_succ] at hj
        obtain ⟨h3, h4⟩ := h2 j n hj
        rw [List.length_append, List.length_singleton] at h3
        rw [hassoc, show nodes.length + (j + 1) = nodes.length + 1 + j by omega]
        refine ⟨h3, fun hs => h4 ?_⟩
        rw [queueSum_insert]
        rw [hsum] at hs
        have : (v + w).toNat = v.toNat + w.toNat := by rw [BitVec.toNat_add]; omega
        omega

theorem leafQueue_weightAt (ns : List Node) : ∀ (pre : List Node) (queue : List (Word × NodeIdx)),
    pre.length + ns.length ≤ 513 → (∀ p ∈ queue, weightAt (pre ++ ns) p.2 = some p.1) →
    ∀ p ∈ leafQueue pre.length ns queue, weightAt (pre ++ ns) p.2 = some p.1 := by
  induction ns with
  | nil => intro pre queue _ h; exact h
  | cons n ns ih =>
    intro pre queue hl h
    simp only [List.length_cons] at hl
    have hm : (BitVec.ofNat 10 pre.length).toNat = pre.length := by rw [BitVec.toNat_ofNat]; omega
    have h' := ih (pre ++ [n]) (insertByWeight n.weight (BitVec.ofNat 10 pre.length) queue) (by simp; omega) (by
      intro p hp
      rw [List.append_assoc, List.singleton_append]
      rcases (insertByWeight_mem _ _ _ _).1 hp with rfl | hp
      · rw [weightAt, hm]; simp
      · exact h p hp)
    rw [List.append_assoc, List.singleton_append, List.length_append, List.length_singleton] at h'
    exact h'

theorem queueSum_leafQueue (ns : List Node) : ∀ (k : Nat) (queue : List (Word × NodeIdx)),
    queueSum (leafQueue k ns queue) = (ns.map fun n => n.weight.toNat).sum + queueSum queue := by
  induction ns with
  | nil => intro k queue; simp [leafQueue]
  | cons n ns ih =>
    intro k queue
    rw [leafQueue, ih, queueSum_insert]
    simp only [List.map_cons, List.sum_cons]
    omega

/-- The symbols without a leaf add nothing to the sum of the counts. -/
theorem leafSymbols_sum (freq : Vector Word 257) :
    ((leafSymbols freq).map fun x => (freq[x]).toNat).sum = (allSymbols.map fun x => (freq[x]).toNat).sum := by
  have hsub : ∀ xs : List Symbol, ((xs.filter fun x => freq[x] != 0).map fun x => (freq[x]).toNat).sum =
      (xs.map fun x => (freq[x]).toNat).sum := by
    intro xs
    induction xs with
    | nil => rfl
    | cons x xs ih =>
      rw [List.filter_cons]
      split
      · rw [List.map_cons, List.sum_cons, ih, List.map_cons, List.sum_cons]
      · rename_i h
        have h0 : freq[x] = 0 := by simpa using h
        rw [ih, List.map_cons, List.sum_cons, h0]
        simp
  have hall := hsub allSymbols
  rw [← hall]
  rcases leafSymbols_cases freq with ⟨x, f, hx, hf, -, e⟩ | ⟨-, e⟩
  · have hf0 : freq[f] = 0 := by simpa using List.find?_some hf
    rw [e, ((insertAscending_perm f [x]).map _).sum_eq]
    rw [show allSymbols.filter (fun x => freq[x] != 0) = [x] from hx, List.map_cons, List.sum_cons, hf0]
    simp
  · rw [e]; rfl

/-- The records of the arena BUILD leaves: the leaves in order, then the merges (R158, R160, R162). -/
theorem builtNodes_split (freq : Vector Word 257) : ∃ ms, builtNodes freq = buildLeaves freq ++ ms ∧
    ∀ j n, ms[j]? = some n → Merges (builtNodes freq) ((leafSymbols freq).length + j) n ∧
      ((allSymbols.map fun x => (freq[x]).toNat).sum < 2 ^ 32 → ∀ v w, weightAt (builtNodes freq) n.left = some v →
        weightAt (builtNodes freq) n.right = some w → n.weight.toNat = v.toNat + w.toNat) := by
  have hb : (buildLeaves freq).length = (leafSymbols freq).length := List.length_map _
  have e : ((buildLeaves freq).map fun n => n.weight.toNat).sum = (allSymbols.map fun x => (freq[x]).toNat).sum := by
    rw [← leafSymbols_sum, buildLeaves, List.map_map]
    rfl
  have h257 := leafSymbols_length freq
  have hw := leafQueue_weightAt (buildLeaves freq) [] [] (by simp; omega) (by simp)
  rw [List.length_nil, List.nil_append] at hw
  have hs := queueSum_leafQueue (buildLeaves freq) 0 []
  obtain ⟨ms, h1, h2⟩ := mergeNodes_extends (leafSymbols freq).length (buildLeaves freq) (leafQueue 0 (buildLeaves freq) [])
    hw (by rw [leafQueue_length, hb]; simp; omega)
  refine ⟨ms, h1, fun j n hj => ?_⟩
  obtain ⟨h3, h4⟩ := h2 j n hj
  rw [hb] at h3
  rw [builtNodes, h1]
  refine ⟨h3, fun hlt => h4 ?_⟩
  rw [hs, e]
  simpa [queueSum] using hlt

end Sys2Proof.Machine
end

