-- ==== Sys2Proof/Laws/Tallies.lean ====
section
/-! SUPPORT. Laws of the counts as numbers, and of the leaf order. -/

namespace Sys2Proof.Machine

theorem chunk_count (v : Symbol) (m : Nat) (f : Nat → Symbol) : ((List.range m).map f).count v = ((List.range m).filter fun k => f k == v).length := by
  rw [List.count, List.countP_map, List.countP_eq_length_filter]; rfl

theorem chunk_eq (s : State) (k : Nat) (v : Symbol) : (s.chunk k == v) = (bitsVal (bitsFrom s.input (s.inPos + 8 * k) 8) == v.val) := by
  have h1 : bitsVal (bitsFrom s.input (s.inPos + 8 * k) 8) < 256 := by
    have := bitsVal_lt (bitsFrom s.input (s.inPos + 8 * k) 8); simpa using this
  rw [Bool.eq_iff_iff, beq_iff_eq, beq_iff_eq, State.chunk, Fin.ext_iff]
  simp [byteSymbol, Nat.mod_eq_of_lt h1]

theorem counts_toNat {s : State} (hm : s.chunkCount ≤ 4294967294) {v : Symbol} (hv : v.val < 256) :
    (s.counts[v]).toNat = ((List.range s.chunkCount).filter fun k =>
      bitsVal (bitsFrom s.input (s.inPos + 8 * k) 8) == v.val).length := by
  have hne : v ≠ eofSymbol := fun h => by rw [h] at hv; exact absurd hv (by decide)
  have : s.counts[v] = BitVec.ofNat 32 (s.chunks.count v) := by simp [State.counts, hne]
  rw [this, State.chunks, chunk_count]
  simp only [chunk_eq]
  have hle := List.length_filter_le (fun k => bitsVal (bitsFrom s.input (s.inPos + 8 * k) 8) == v.val) (List.range s.chunkCount)
  rw [List.length_range] at hle
  rw [BitVec.toNat_ofNat, Nat.mod_eq_of_lt (by omega)]

theorem tally_toNat (s : State) {n : Nat} (hn : n ≤ s.chunkCount) (hn32 : n < 2 ^ 32) (v : Symbol) :
    ((tally (Vector.replicate 257 0) (s.chunks.take n))[v]).toNat =
      ((List.range n).filter fun k => bitsVal (bitsFrom s.input (s.inPos + 8 * k) 8) == v.val).length := by
  rw [tally_get]
  have h1 : s.chunks.take n = (List.range n).map s.chunk := by
    rw [State.chunks, ← List.map_take, List.take_range, Nat.min_eq_left hn]
  rw [h1, chunk_count]
  simp only [chunk_eq]
  have hle := List.length_filter_le (fun k => bitsVal (bitsFrom s.input (s.inPos + 8 * k) 8) == v.val) (List.range n)
  rw [List.length_range] at hle
  simp
  omega

theorem chunks_lt (s : State) : ∀ x ∈ s.chunks, x ≠ eofSymbol := by
  intro x hx
  obtain ⟨k, -, rfl⟩ := List.mem_map.1 hx
  intro h
  have := congrArg Fin.val h
  simp [State.chunk, byteSymbol, eofSymbol, Config.eofSym] at this
  omega

theorem tally_eofSymbol (s : State) (n : Nat) : (tally (Vector.replicate 257 0) (s.chunks.take n))[eofSymbol] = 0 := by
  rw [tally_get, List.count_eq_zero_of_not_mem]
  · simp
  · intro h; exact chunks_lt s _ (List.mem_of_mem_take h) rfl

theorem insert_sorted (f x : Symbol) (h : f ≠ x) : (insertAscending f [x]).Pairwise (· < ·) := by
  rw [insertAscending]
  split
  · rename_i hle; simp; exact lt_of_le_of_ne hle h
  · rename_i hle; simp [insertAscending]; exact not_le.1 hle

theorem pairwise_ne {l : List PqEntry} (h : l.Pairwise (fun a b => a.seq ≠ b.seq)) : ∀ a ∈ l, ∀ b ∈ l, a ≠ b → a.seq ≠ b.seq := by
  induction l with
  | nil => intro a ha; cases ha
  | cons x l ih =>
    rw [List.pairwise_cons] at h
    intro a ha b hb hab
    rcases List.mem_cons.1 ha with h1 | h1 <;> rcases List.mem_cons.1 hb with h2 | h2
    · exact absurd (h1.trans h2.symm) hab
    · rw [h1]; exact h.1 b h2
    · rw [h2]; exact (h.1 a h1).symm
    · exact ih h.2 a h1 b h2 hab

theorem leaves_ne {freq : Vector Word 257} (h : ∃ x : Symbol, freq[x] ≠ 0) : leafSymbols freq ≠ [] := by
  obtain ⟨x, hx⟩ := h; exact List.ne_nil_of_mem (mem_leafSymbols hx)

theorem leafSymbols_nil {freq : Vector Word 257} (h : ∀ x : Symbol, freq[x] = 0) : leafSymbols freq = [] := by
  have hc : countedSymbols freq = [] := by
    rw [countedSymbols, List.filter_eq_nil_iff]
    intro x _
    simpa using h x
  rcases leafSymbols_cases freq with ⟨y, f, hy, -⟩ | ⟨-, e⟩
  · rw [hc] at hy; simp at hy
  · rw [e, hc]

theorem built_nodeAt {s : State} (hx : leafSymbols s.freq ≠ []) {i : NodeIdx} (hi : i.toNat < 2 * (leafSymbols s.freq).length - 1) :
    s.built.nodeAt i = (builtNodes s.freq)[i.toNat]? := by
  have h := (build_steps 0 [] (s := s) hx).2
  have h257 := leafSymbols_length s.freq
  exact nodeAt_arenaOf (s := s.built) rfl (by rw [h]; omega) (by rw [h]; exact hi)

theorem sum_counts (xs : List Symbol) : (allSymbols.map fun x => xs.count x).sum = xs.length := by
  induction xs with
  | nil => simp
  | cons y xs ih =>
    have : ∀ l : List Symbol, l.Nodup → (l.map fun x => (y :: xs).count x).sum = (l.map fun x => xs.count x).sum + (if y ∈ l then 1 else 0) := by
      intro l hl
      induction l with
      | nil => simp
      | cons z l ihl =>
        rw [List.nodup_cons] at hl
        rw [List.map_cons, List.sum_cons, ihl hl.2, List.map_cons, List.sum_cons, List.count_cons]
        by_cases hyz : y = z
        · subst hyz; simp [hl.1]; omega
        · have : (y == z) = false := by simpa using hyz
          rw [this]
          by_cases hyl : y ∈ l
          · simp [hyl]; omega
          · simp [hyl, hyz]
    rw [this allSymbols (List.nodup_finRange 257), ih, List.length_cons, if_pos (show y ∈ allSymbols from List.mem_finRange y)]

theorem counts_sum {s : State} (hm : s.chunkCount ≤ 4294967294) : (allSymbols.map fun x => (s.counts[x]).toNat).sum ≤ s.chunkCount + 1 := by
  have hne : ∀ x ∈ s.chunks, x ≠ eofSymbol := by
    intro x hx
    obtain ⟨k, -, rfl⟩ := List.mem_map.1 hx
    intro h
    have := congrArg Fin.val h
    simp [State.chunk, byteSymbol, eofSymbol, Config.eofSym] at this
    omega
  have key : ∀ l : List Symbol, l.Nodup → (l.map fun x => (s.counts[x]).toNat).sum ≤ (l.map fun x => s.chunks.count x).sum + (if eofSymbol ∈ l then 1 else 0) := by
    intro l hl
    induction l with
    | nil => simp
    | cons z l ih =>
      rw [List.nodup_cons] at hl
      have ih := ih hl.2
      rw [List.map_cons, List.sum_cons, List.map_cons, List.sum_cons]
      by_cases hz : z = eofSymbol
      · subst hz
        have h1 : (s.counts[eofSymbol]).toNat = 1 := by rw [counts_eof]; rfl
        rw [h1, if_neg hl.1] at *
        simp
        simp at ih
        omega
      · have h1 : (s.counts[z]).toNat ≤ s.chunks.count z := by
          have : s.counts[z] = BitVec.ofNat 32 (s.chunks.count z) := by simp [State.counts, hz]
          rw [this, BitVec.toNat_ofNat]; exact Nat.mod_le _ _
        have h2 : (eofSymbol ∈ z :: l) ↔ eofSymbol ∈ l := by simp [Ne.symm hz]
        simp only [h2]
        omega
  have := key allSymbols (List.nodup_finRange 257)
  rw [sum_counts, chunks_length, if_pos (show eofSymbol ∈ allSymbols from List.mem_finRange _)] at this
  exact this

end Sys2Proof.Machine
end

