-- ==== Sys2Proof/Laws/Tokens.lean ====
section
/-! SUPPORT. Laws of a header that is not complete: RHDR along whole tokens, to the `read_node()` that waits for the next
one (R184, R185). -/

namespace Sys2Proof.Machine

/-- How many frames wait for their left child. -/
def waiting (stack : List Frame) : Nat := (stack.filter fun f => f.left.isNone).length

/-- A return with a frame waiting for its left child: the nodes of the frames above it are written, and its right subtree is
read next (R185). -/
theorem returnNode_waits (op : BitVec 4) (rest : List Line) (stack : List Frame) :
    ∀ (i : NodeIdx) (s : State), 0 < waiting stack → (∀ f ∈ stack, f.node.toNat < 513) →
      ∃ stack' v, returnNode op rest i stack s = .next (resume op (.readNode stack' :: rest) { s with node := v }) ∧
        waiting stack' + 1 = waiting stack ∧ ∀ f ∈ stack', f.node.toNat < 513 := by
  induction stack with
  | nil => intro i s h; cases h
  | cons f below ih =>
    intro i s h hf
    obtain ⟨n, l⟩ := f
    cases l with
    | none =>
      refine ⟨⟨n, some i⟩ :: below, s.node, rfl, by simp [waiting], fun g hg => ?_⟩
      rcases List.mem_cons.mp hg with rfl | hg
      · exact hf ⟨n, none⟩ (by simp)
      · exact hf g (by simp [hg])
    | some l =>
      have hn : n.toNat < 513 := hf ⟨n, some l⟩ (by simp)
      have hw : waiting (⟨n, some l⟩ :: below) = waiting below := by simp [waiting]
      obtain ⟨stack', v, h₁, h₂, h₃⟩ := ih n { s with node := s.node.set n.toNat (headerNode l i) hn }
        (by rw [← hw]; exact h) fun g hg => hf g (by simp [hg])
      refine ⟨stack', v, ?_, by rw [hw]; exact h₂, h₃⟩
      rw [returnNode, setNode_lt hn, h₁]

theorem symbol_of_leaf_token {x : Symbol} : (symbolField x).toNat ≤ 256 := by
  have := x.isLt
  rw [symbolField_toNat]; omega

/-- The reading of whole tokens that leave a node to read: a step and an index for each, and then the next read (R185). -/
theorem tokens_steps (op : BitVec 4) (rest : List Line) (ts : List Instr) :
    ∀ (s : State) (stack : List Frame) (trees : List Tree) (us : List Instr) (more : List Bool),
      trees.flatMap Tree.tokens = ts ++ us → us ≠ [] → s.inBits = ts.flatMap encode ++ more →
      waiting stack + 1 = trees.length → (∀ f ∈ stack, f.node.toNat < 513) → s.nodeCount.toNat + ts.length ≤ 513 →
      ∃ stack' v, Steps ts.length (resume op (.readNode stack :: rest) s) (resume op (.readNode stack' :: rest)
        (s.withArena v (BitVec.ofNat 10 (s.nodeCount.toNat + ts.length)) (s.inPos + (ts.flatMap encode).length))) := by
  induction ts with
  | nil =>
    intro s stack trees us more _ _ _ _ _ _
    refine ⟨stack, s.node, ?_⟩
    have : s.withArena s.node (BitVec.ofNat 10 (s.nodeCount.toNat + 0)) (s.inPos + 0) = s := by
      simp [State.withArena]
    exact (Steps.refl _).to (by rw [List.length_nil, List.flatMap_nil, List.length_nil, this])
  | cons tok ts ih =>
    intro s stack trees us more ht hu hb hw hf hc
    obtain ⟨t, trees, rfl⟩ : ∃ t ts', trees = t :: ts' := List.exists_cons_of_length_pos (by omega)
    rw [List.flatMap_cons, List.cons_append] at ht
    rw [List.length_cons] at hc hw
    have hlt : s.nodeCount.toNat < 513 := by omega
    have hn1 : (s.nodeCount + 1).toNat = s.nodeCount.toNat + 1 := by
      rw [BitVec.toNat_add]; simp; omega
    rw [List.flatMap_cons, List.append_assoc] at hb
    have hadv : ∀ {w : State}, w.input = s.input → w.inPos = s.inPos + (encode tok).length →
        w.inBits = ts.flatMap encode ++ more := fun hi hp => by
      have := congrArg (List.drop (encode tok).length) hb
      rw [List.drop_left, State.inBits, List.drop_drop, ← hp, ← hi] at this
      exact this
    have finish : ∀ {w : State} {stack₁ : List Frame} (v₁ : Vector Node 513),
        w = s.withArena v₁ (s.nodeCount + 1) (s.inPos + (encode tok).length) →
        Steps 1 (resume op (.readNode stack :: rest) s) (resume op (.readNode stack₁ :: rest) w) →
        (∃ stack' v, Steps ts.length (resume op (.readNode stack₁ :: rest) w) (resume op (.readNode stack' :: rest)
          (w.withArena v (BitVec.ofNat 10 (w.nodeCount.toNat + ts.length)) (w.inPos + (ts.flatMap encode).length)))) →
        ∃ stack' v, Steps (ts.length + 1) (resume op (.readNode stack :: rest) s) (resume op (.readNode stack' :: rest)
          (s.withArena v (BitVec.ofNat 10 (s.nodeCount.toNat + (ts.length + 1)))
            (s.inPos + ((tok :: ts).flatMap encode).length))) := by
      intro w stack₁ v₁ hwe h₁ ⟨stack', v, h₂⟩
      refine ⟨stack', v, ?_⟩
      rw [Nat.add_comm ts.length 1]
      refine (h₁.trans h₂).to ?_
      subst hwe
      rw [show (s.withArena v₁ (s.nodeCount + 1) (s.inPos + (encode tok).length)).nodeCount.toNat = s.nodeCount.toNat + 1
        from hn1, Nat.add_assoc, List.flatMap_cons, List.length_append, ← Nat.add_assoc s.inPos]
      rfl
    cases t with
    | leaf x =>
      rw [show (Tree.leaf x).tokens = [.hdrLeaf (symbolField x)] from rfl, List.singleton_append, List.cons.injEq] at ht
      obtain ⟨rfl, ht⟩ := ht
      have hpos : 0 < waiting stack := by
        have : trees ≠ [] := fun e => by
          rw [e] at ht
          exact hu (List.append_eq_nil_iff.mp ht.symm).2
        have := List.length_pos_iff.mpr this
        omega
      have hb' : s.inBits = true :: (msbBits 9 (symbolField x).toNat ++ (ts.flatMap encode ++ more)) := hb
      obtain ⟨tl, htok⟩ := tokenAt_leaf (s := resume op (.readNode stack :: rest) s) hb'
      have hsym : ¬(symbolField x).toNat > Config.eofSym := by
        have := symbol_of_leaf_token (x := x)
        simp [Config.eofSym]; omega
      have hx := execHdrLeaf_room (s := resume op (.readNode stack :: rest) s) (v := symbolField x) rfl hlt
      rw [if_neg hsym] at hx
      obtain ⟨stack₁, v₁, hret, hw₁, hf₁⟩ := returnNode_waits op rest stack s.nodeCount
        { resume op (.readNode stack :: rest) s with
          node := s.node.set s.nodeCount.toNat (headerLeaf (symbolField x)) hlt
          nodeCount := s.nodeCount + 1
          inPos := s.inPos + 1 + 9 } hpos hf
      refine finish (stack₁ := stack₁) v₁ rfl (Steps.one rfl ?_) (ih _ stack₁ trees us more ht hu (hadv rfl rfl)
        (by omega) hf₁ ?_)
      · simp only [performLine, lineReadNode, htok]
        exact hx.trans hret
      · show (s.nodeCount + 1).toNat + _ ≤ _
        omega
    | node l r =>
      rw [show (Tree.node l r).tokens = .hdrInternal :: (l.tokens ++ r.tokens) from rfl, List.cons_append,
        List.cons.injEq, List.append_assoc] at ht
      obtain ⟨rfl, ht⟩ := ht
      have hb' : s.inBits = false :: (ts.flatMap encode ++ more) := hb
      obtain ⟨tl, htok⟩ := tokenAt_internal (s := resume op (.readNode stack :: rest) s) hb'
      refine finish (stack₁ := { node := s.nodeCount, left := none } :: stack) s.node rfl (Steps.one rfl ?_)
        (ih _ _ (l :: r :: trees) us more ?_ hu (hadv rfl rfl) ?_ ?_ ?_)
      · simp only [performLine, lineReadNode, htok]
        rw [execHdrInternal_room (s := resume op (.readNode stack :: rest) s) rfl hlt]
        rfl
      · rw [List.flatMap_cons, List.flatMap_cons]; exact ht
      · simp only [waiting, List.filter_cons, Option.isNone_none, if_true, List.length_cons] at hw ⊢
        omega
      · intro f hm
        rcases List.mem_cons.mp hm with rfl | hm
        · exact hlt
        · exact hf f hm
      · show (s.nodeCount + 1).toNat + _ ≤ _
        omega

/-- RHDR along whole tokens that complete no header (R184, R185). -/
theorem rhdr_tokens_steps (op : BitVec 4) (rest : List Line) {s : State} {t : Tree} {ts us : List Instr} {more : List Bool}
    (ht : t.tokens = ts ++ us) (hu : us ≠ []) (hb : s.inBits = ts.flatMap encode ++ more) (hc : ts.length ≤ 513) :
    ∃ stack v, Steps (3 + ts.length) (resume op (rhdrBody ++ rest) s) (resume op (.readNode stack :: rest)
      (s.headerCleared.withArena v (BitVec.ofNat 10 ts.length) (s.inPos + (ts.flatMap encode).length))) := by
  have h0 : s.headerCleared.nodeCount.toNat = 0 := rfl
  obtain ⟨stack, v, h⟩ := tokens_steps op rest ts s.headerCleared [] [t] us more (by simpa using ht) hu hb rfl
    (by simp) (by omega)
  rw [h0, Nat.zero_add] at h
  exact ⟨stack, v, (rhdrClear_step op rest s).trans h⟩

end Sys2Proof.Machine
end

