-- ==== Sys2Proof/Tests/Slice0.lean ====
section
/-! SUPPORT. Tests. Part 1: the well-formedness smoke test, decoding of words written out from the encodings of the spec, and
single steps whose results stand in spec/95_test_vectors.md or in the worked example of the rule named. Part 2: for every
obligation with hypotheses, a witness that meets them. -/

namespace Sys2Proof.Tests

open Sys2Proof Sys2Proof.Machine

set_option maxRecDepth 100000

/-! ### Well-formedness -/

/-- The one check: an illegal word whose reserved bits are 0 is not one (R93). -/
theorem test_wellFormed_refuses : (Instr.illegalRsv 0 5).wellFormed = false := by decide

theorem test_wellFormed_admits : (Instr.illegalRsv 1 5).wellFormed = true ∧ (Instr.hdrLeaf 511).wellFormed = true := by
  decide

/-! ### Decoding -/

/-- R92: the 16 words of the opcode map. -/
theorem test_decode_opcode_map : (List.range 16).map (decodeTableWord 32) =
    [some .ack, some .compress, some .decompress, some .count, some .build, some .gen, some .wtag, some .whdr,
      some .enc, some .rtag, some .rhdr, some .dec, some .rewind, some .close, some .outclr, some .illegalOp] := by
  decide

/-- R91: OP is bits 3:0; the word of REWIND, bit 31 first. -/
theorem test_decode_rewind_bits : decode .ctrl
    [false, false, false, false, false, false, false, false, false, false, false, false, false, false, false, false,
     false, false, false, false, false, false, false, false, false, false, false, false, true, true, false, false] =
    .instr .rewind [] := by decide

/-- R92, V-CTL-4: the reserved bits are looked at before OP. -/
theorem test_decode_reserved_first : decodeTableWord 32 0x00000013 = some (.illegalRsv 1 3) ∧
    decodeTableWord 32 0x80000000 = some (.illegalRsv 0x8000000 0) := by decide

/-- R96, R97, V-HR-1: the header `0 1001000001 0 1001000010 1100000000` token by token. -/
theorem test_decode_header_tokens :
    decode .header [false, true, true] = .instr .hdrInternal [true, true] ∧
    decode .header [true, false, false, true, false, false, false, false, true, false, true] =
      .instr (.hdrLeaf 0x42) [true] ∧
    decode .header [true, true, false, false, false, false, false, false, false, false] = .instr (.hdrLeaf 0x100) [] ∧
    decodeTableWord 8 0 = some .hdrInternal ∧ decodeTableWord 16 0x241 = some (.hdrLeaf 0x41) := by decide

/-- R95: the tag 0x12345678 of V-CMP-10. -/
theorem test_decode_tag : decode .tagField
    [false, false, false, true, false, false, true, false, false, false, true, true, false, true, false, false,
     false, true, false, true, false, true, true, false, false, true, true, true, true, false, false, false] =
    .instr (.tag 0x12345678) [] := by decide

/-- R183, R185: what is too short holds no instruction. -/
theorem test_decode_short : decode .ctrl [true] = .reject .shortWord ∧ decode .tagField [true] = .reject .shortTag ∧
    decode .header [] = .reject .noMarker ∧ decode .header [true, false] = .reject .shortPayload := by decide

/-! ### Single steps -/

/-- What a next state shows. -/
def shows {α : Type} (o : Host.Outcome State Fault Refusal) (f : State → α) : Option α :=
  match o with
  | .next t => some (f t)
  | .fault _ | .refused _ => none

/-- The reset state with the tag of the vectors and an input bound. -/
def bound (l : List Nat) : State := { State.reset with tag := 0xFACE8201, input := l.map (BitVec.ofNat 8) }

/-- The tree of V-HR-1. -/
def aab : Tree := .node (.leaf 0x41) (.node (.leaf 0x42) (.leaf 256))

/-- The header V-HR-1 reads, with that tree in the arena. -/
def read (l : List Nat) : State := (bound l).withTree aab 0

/-- A state with the tree and its codes (V-GEN-1). -/
def coded (l : List Nat) : State := (read l).withCodes aab

/-- The counts of V-BLD-1. -/
def counted : State :=
  { State.reset with freq := (((Vector.replicate 257 0).set 0x41 2).set 0x42 1).set 256 1 }

/-- V-CTL-2. -/
theorem test_ack : shows (exec .ack { bound [] with err := true, errcode := 11 }) (fun t => (t.status, t.errcode)) =
    some (0x20, 0) := by decide

/-- V-CMP-2: the empty input. -/
theorem test_compress_empty : shows (exec .compress (bound [])) (fun t => (t.output, t.status)) =
    some ([0xFA, 0xCE, 0x82, 0x01, 0x40, 0x18, 0x04], 0x3A) := by decide

/-- V-DCP-1. -/
theorem test_decompress_aab : shows (exec .decompress (bound [0xFA, 0xCE, 0x82, 0x01, 0x48, 0x29, 0x0B, 0x00, 0x2C]))
    (fun t => (t.output, t.decCount, t.inPos, t.nodeCount, t.root, t.status)) =
    some ([0x41, 0x41, 0x42], 3, 70, 5, 0, 0x0A) := by decide

/-- V-DCP-15: the partial output stays. -/
theorem test_decompress_truncated :
    shows (exec .decompress (bound [0xFA, 0xCE, 0x82, 0x01, 0x48, 0x29, 0x0B, 0x00, 0x00]))
      (fun t => (t.output, t.errcode, t.status)) = some (List.replicate 8 0x41, 3, 0x2C) := by decide

/-- V-CNT-1. -/
theorem test_count_aab : shows (exec .count (bound [0x41, 0x41, 0x42]))
    (fun t => (t.freq[0x41], t.freq[0x42], t.freq[256], t.inPos, t.status)) = some (2, 1, 1, 24, 0x22) := by decide

/-- V-CNT-4: from a position inside a byte. -/
theorem test_count_unaligned : shows (exec .count { bound [0x80, 0x41, 0x42] with inPos := 10 })
    (fun t => (t.freq[5], t.freq[0x41], t.freq[256], t.inPos)) = some (1, 0, 1, 24) := by decide

/-- V-BLD-1: the two merges. -/
theorem test_build_merges : shows (exec .build counted)
    (fun t => (t.nodeAt 3, t.nodeAt 4, t.root, t.nodeCount)) =
    some (some { isLeaf := false, sym := 0, weight := 2, left := 1, right := 2 },
      some { isLeaf := false, sym := 0, weight := 4, left := 0, right := 3 }, 4, 5) := by decide

/-- V-BLD-9. -/
theorem test_build_empty : shows (exec .build State.reset) (fun t => (t.errcode, t.nodeCount, t.status)) =
    some (4, 0, 0x24) := by decide

/-- V-GEN-1. -/
theorem test_gen_codes : shows (exec .gen (read []))
    (fun t => ((t.codelen[0x41], t.codebits[0x41]), (t.codelen[0x42], t.codebits[0x42]),
      (t.codelen[256], t.codebits[256]), t.codelen[0x43])) = some ((1, 0), (2, 2), (2, 3), 0) := by decide

/-- V-GEN-9: of two leaves with one symbol the rightmost wins. -/
theorem test_gen_duplicates : shows (exec .gen ((bound []).withTree (.node (.leaf 0x41) (.leaf 0x41)) 0))
    (fun t => (t.codelen[0x41], t.codebits[0x41], t.codelen[256])) = some (1, 1, 0) := by decide

/-- V-HW-0. -/
theorem test_wtag : shows (exec .wtag (bound [])) (fun t => (t.output, t.outNbits)) =
    some ([0xFA, 0xCE, 0x82, 0x01], 0) := by decide

/-- V-HW-1, whose bits R181 gives as bytes. -/
theorem test_whdr : shows (exec .whdr (read [])) (fun t => (t.output, t.outNbits)) =
    some ([0x48, 0x29, 0x0B, 0x00], 0) := by decide

/-- V-ENC-1: the body and its padding. -/
theorem test_enc_aab : shows (exec .enc (coded [0x41, 0x41, 0x42])) (fun t => (t.output, t.inPos)) =
    some ([0x2C], 24) := by decide

/-- V-ENC-9: a byte without a code. -/
theorem test_enc_uncoded : shows (exec .enc (coded [0x41, 0x43]))
    (fun t => (t.output, t.outNbits, t.inPos, t.errcode, t.status)) = some ([], 1, 16, 5, 0x7C) := by decide

/-- V-HR-5. -/
theorem test_rtag_mismatch : shows (exec .rtag (bound [0xFA, 0xCE, 0x82, 0x00, 0x48]))
    (fun t => (t.errcode, t.inPos)) = some (1, 32) := by decide

/-- V-HR-6. -/
theorem test_rtag_short : shows (exec .rtag (bound [0xFA, 0xCE, 0x82])) (fun t => (t.errcode, t.inPos)) =
    some (1, 24) := by decide

/-- V-HR-1, from `in_pos = 32`. -/
theorem test_rhdr : shows (exec .rhdr { bound [0xFA, 0xCE, 0x82, 0x01, 0x48, 0x29, 0x0B, 0x00, 0x2C] with inPos := 32 })
    (fun t => (t.nodeAt 0, t.nodeAt 4, t.nodeCount, t.inPos, t.treeValid)) =
    some (some { isLeaf := false, sym := 0, weight := 0, left := 1, right := 2 },
      some { isLeaf := true, sym := 256, weight := 0, left := 0, right := 0 }, 5, 64, true) := by decide

/-- V-HR-3, from `in_pos = 32`. -/
theorem test_rhdr_range : shows (exec .rhdr { bound [0xFA, 0xCE, 0x82, 0x01, 0x60, 0x20] with inPos := 32 })
    (fun t => (t.errcode, t.inPos, t.nodeCount)) = some (9, 43, 2) := by decide

/-- V-DEC-4: nothing after the EOF leaf is read. -/
theorem test_dec : shows (exec .dec (read [0x2C, 0xFF, 0xFF])) (fun t => (t.output, t.decCount, t.inPos, t.cursor)) =
    some ([0x41, 0x41, 0x42], 3, 6, 4) := by decide

/-- V-DEC-2. -/
theorem test_dec_empty : shows (exec .dec (read [])) (fun t => (t.output, t.decCount, t.errcode)) =
    some ([], 0, 3) := by decide

/-- V-BS-9. -/
theorem test_rewind : shows (exec .rewind { bound [0x41] with inPos := 8 }) (fun t => (t.inPos, t.status)) =
    some (0, 0x02) := by decide

/-- V-BS-7. -/
theorem test_close : shows (exec .close { bound [] with outNbits := 3, outAcc := 0b101 })
    (fun t => (t.output, t.outNbits)) = some ([0xA0], 0) := by decide

/-- V-BS-10. -/
theorem test_outclr : shows (exec .outclr { bound [] with output := [0xFA, 0xCE], outNbits := 3, outAcc := 0b101 })
    (fun t => (t.output, t.outNbits, t.outAcc)) = some ([], 0, 0) := by decide

/-- V-CTL-3. -/
theorem test_illegalOp : shows (exec .illegalOp State.reset) (fun t => (t.status, t.errcode)) = some (0x24, 12) := by
  decide

/-- V-CTL-4, as the host writes it. -/
theorem test_illegalRsv : shows (hostWrite 0x008 4 0x00000013 State.reset)
    (fun t => (t.status, t.errcode, t.freq[256])) = some (0x24, 12, 0) := by decide

/-- V-HR-1: the tag token where RTAG awaits it. -/
theorem test_tag : shows (exec (.tag 0xFACE8201) { bound [0xFA, 0xCE, 0x82, 0x01] with phase := .running 0x9 [.readTag] })
    (fun t => (t.inPos, t.phase)) = some (32, .running 0x9 []) := by decide

/-- R77, what STATUS shows between two steps: RTAG has read a wrong tag that ends the input and raises its error next; ENC
has read the last byte and writes its code next; BUILD has cleared TREE_VALID and clears CODES_VALID next. -/
theorem test_status_between_steps :
    shows (exec (.tag 0xFACE8200) { bound [0xFA, 0xCE, 0x82, 0x00] with phase := .running 0x9 [.readTag] })
      (fun t => t.status) = some 0x21 ∧
    shows (coreStep { coded [0x41] with phase := .running 0x8 [.encByte, .encEof, .closeOutput] })
      (fun t => t.status) = some 0x39 ∧
    shows (coreStep { coded [0x41] with phase := .running 0x4 buildBody }) (fun t => t.status) = some 0x11 := by decide

/-- V-HR-1: the first token, INTERNAL. -/
theorem test_hdrInternal : shows (exec .hdrInternal { bound [0x48] with phase := .running 0xA [.readNode []] })
    (fun t => (t.inPos, t.nodeCount)) = some (1, 1) := by decide

/-- V-HR-1: the token after it, the leaf 0x41. -/
theorem test_hdrLeaf : shows (exec (.hdrLeaf 0x41) { bound [0x48, 0x20] with
      inPos := 1, nodeCount := 1, phase := .running 0xA [.readNode [{ node := 0, left := none }]] })
    (fun t => (t.inPos, t.nodeCount, t.nodeAt 1)) =
    some (11, 2, some { isLeaf := true, sym := 0x41, weight := 0, left := 0, right := 0 }) := by decide

/-- V-BS-1 to V-BS-3. -/
theorem test_readBits : (readBits 9 (bound [0xFA, 0xCE])).1 = some 501 ∧
    (readBits 8 { bound [0xFA, 0xCE] with inPos := 9 }).1 = none ∧
    (readBits 32 (bound [0xFA, 0xCE, 0x82, 0x01])).1 = some 0xFACE8201 := by decide

/-- V-PQ-2, V-PQ-3. -/
theorem test_pqLeast :
    pqLeast [⟨2, 0, 0⟩, ⟨1, 1, 1⟩, ⟨1, 2, 2⟩] = some ⟨1, 1, 1⟩ ∧ pqLeast [⟨2, 0, 0⟩, ⟨2, 3, 3⟩] = some ⟨2, 0, 0⟩ := by
  decide

/-- The host places a word and the next step runs it: V-CTL-1. -/
theorem test_step_word : shows (step (State.reset.withFetchWord 32 5)) (fun t => (t.status, t.errcode)) =
    some (0x24, 11) := by decide

/-! ### Witnesses: states that meet the hypotheses of the obligations -/

/-- A host action that may land during a command. -/
def soon (a : HostAction) : HostEvent := { lag := some 0, act := a }

/-- A host action that lands once the core is idle. -/
def later (a : HostAction) : HostEvent := { lag := none, act := a }

theorem test_aab_size : aab.size = 5 ∧ aab.isNode = true ∧ aab.leaves = [0x41, 0x42, 256] := by decide

theorem test_read_holds (l : List Nat) : (read l).Holds 0 aab (indices 5) := headerArena_holds aab (by decide) _ rfl

theorem test_coded_holds (l : List Nat) : (coded l).Holds 0 aab (indices 5) := headerArena_holds aab (by decide) _ rfl

theorem test_bound_quiet (l : List Nat) : (bound l).quiet ∧ (read l).quiet ∧ (coded l).quiet := ⟨⟨rfl, rfl⟩, ⟨rfl, rfl⟩, ⟨rfl, rfl⟩⟩

/-- A settled state with a tree, its codes and an input. -/
theorem test_coded_settled : (coded [0x41]).Settled :=
  ⟨⟨fun _ => rfl, fun _ => ⟨aab, indices 5, test_coded_holds _, rfl, List.Perm.refl _, by decide, fun _ => ⟨rfl, rfl⟩⟩, rfl,
    by decide, by decide, fun x => codeLengths_le (t := aab) (by decide) x, by decide⟩, by decide, by decide⟩

theorem test_coded_inv : (coded [0x41]).Inv := .inl ⟨rfl, test_coded_settled⟩

/-- A running command: REWIND before its one line, with the interrupt enabled. -/
def running : State := startCommand 0xC rewindBody { coded [0x41] with irqEn := true }

theorem test_running_inv : running.Inv ∧ running.busy = true :=
  ⟨.inr ⟨rfl, { coded [0x41] with irqEn := true }, .rewind, 0xC, rewindBody, 0, rfl,
    ⟨test_coded_settled.sound.congr rfl rfl rfl rfl rfl rfl rfl rfl rfl rfl rfl rfl, by decide, by decide⟩, rfl, rfl⟩, rfl⟩

/-- That command with no line left, before its end. -/
def ending : State := resume 0xC [] (running.atPos 0)

theorem test_ending_inv : ending.Inv :=
  .inr ⟨rfl, { coded [0x41] with irqEn := true }, .rewind, 0xC, rewindBody, 1, rfl,
    ⟨test_coded_settled.sound.congr rfl rfl rfl rfl rfl rfl rfl rfl rfl rfl rfl rfl, by decide, by decide⟩, rfl, rfl⟩

theorem test_witness_DecodeEncode : (Instr.illegalRsv 0xFFFFFFF 15).wellFormed = true ∧
    (Instr.hdrLeaf 0).wellFormed = true ∧ (Instr.tag 0xFFFFFFFF).wellFormed = true := by decide

theorem test_witness_IllegalCtrlWord : State.reset.busy = false ∧ (0x10 : Word).extractLsb' 4 28 ≠ 0 ∧
    (0xFFFFFFFF : Word).extractLsb' 4 28 ≠ 0 ∧ (0xF : Word).extractLsb' 4 28 = 0 ∧ (0xF : Word).extractLsb' 0 4 = 0xF := by
  decide

theorem test_witness_StepRunsCtrlWord : ∃ (s : State) (e : HostEvent) (rest : List HostEvent) (v : Word),
    s.host = e :: rest ∧ s.busy = false ∧ e.act = .write 0x008 4 v :=
  ⟨{ State.reset with host := [later (.write 0x008 4 3)] }, _, _, 3, rfl, rfl, rfl⟩

/-- Each kind of token, with no host action pending and with one that is not due. -/
theorem test_witness_StepRunsToken :
    { bound [0x00] with phase := .running 0xA [.readNode []] }.inBits = encode .hdrInternal ++ List.replicate 7 false ∧
    { bound [0xC0, 0x00] with phase := .running 0xA [.readNode []] }.inBits =
      encode (.hdrLeaf 256) ++ List.replicate 6 false ∧
    { bound [0xFA, 0xCE, 0x82, 0x01] with phase := .running 0x9 [.readTag] }.inBits = encode (.tag 0xFACE8201) ++ [] ∧
    (later .observe).due { bound [0x00] with phase := .running 0xA [.readNode []] } = false ∧
    ({ soon .observe with lag := some 1 } : HostEvent).due { bound [0x00] with phase := .running 0x9 [.readTag] } = false := by
  decide

theorem test_witness_AckResult : { State.reset with err := true, errcode := 1 }.busy = false := by decide

theorem test_witness_CommandStart : commandOf .compress = some (0x1, compressBody) ∧
    commandOf .outclr = some (0xE, outclrBody) ∧
    { State.reset with host := [soon .observe] }.busy = false ∧
    { State.reset with host := [soon .observe] }.attended = true := ⟨rfl, rfl, rfl, rfl⟩

theorem test_witness_CommandsComplete : commandOf .gen = some (0x5, genBody) ∧ (coded [0x41]).quiet ∧
    (coded [0x41]).Settled := ⟨rfl, ⟨rfl, rfl⟩, test_coded_settled⟩

theorem test_witness_StepsReachTheEnd : commandOf .enc = some (0x8, encBody) ∧ (coded [0x41]).phase = .idle ∧
    (coded [0x41]).host = [] ∧ (coded [0x41]).Settled := ⟨rfl, rfl, rfl, test_coded_settled⟩

theorem test_witness_InvariantKept : running.Inv ∧ ∃ t, step running = .next t := ⟨test_running_inv.1, _, rfl⟩

theorem test_witness_IdleInvariants : (coded [0x41]).Inv ∧ (coded [0x41]).busy = false ∧ (coded [0x41]).err = false ∧
    (coded [0x41]).codesValid = true ∧ (coded [0x41]).treeValid = true := ⟨test_coded_inv, rfl, rfl, rfl, rfl⟩

theorem test_witness_NoInternalFault : running.Inv ∧ { coded [0x41] with host := [later (.read 2 4)] }.Inv ∧
    step { coded [0x41] with host := [later (.read 2 4)] } = .fault .accessNotAdmitted :=
  ⟨test_running_inv.1, .inl ⟨rfl, test_coded_settled.sound.congr rfl rfl rfl rfl rfl rfl rfl rfl rfl rfl rfl rfl,
    by decide, by decide⟩, rfl⟩

theorem test_witness_ResetEvent : (∃ (s : State) (e : HostEvent) (rest : List HostEvent), s.host = e :: rest ∧
      e.act = .reset ∧ s.busy = false) ∧
    ∃ (s : State) (e : HostEvent) (rest : List HostEvent), s.host = e :: rest ∧ e.act = .reset ∧ s.busy = true ∧
      e.lag = some 0 :=
  ⟨⟨{ State.reset with host := [later .reset] }, _, _, rfl, rfl, rfl⟩,
    ⟨{ running with host := [soon .reset] }, _, _, rfl, rfl, rfl, rfl⟩⟩

theorem test_witness_ResetReads : (0x000 : BitVec 16).toNat % 4 = 0 ∧ (0xFFFC : BitVec 16).toNat % 4 = 0 := by decide

theorem test_witness_StatusBits : 8 ≤ 8 ∧ 8 ≤ 31 := by decide

theorem test_witness_RegisterReads : (coded [0x41]).busy = false ∧ (0x000 : BitVec 16) ∈
    [0x000, 0x004, 0x010, 0x01C, 0x020, 0x024, 0x028, 0x02C, 0x030#16] := by decide

/-- The ends of the windows; a node that is allocated, the first that is not, and the last. -/
theorem test_witness_WindowReads : (0x1000 : BitVec 16).toNat % 4 = 0 ∧ 0x1000 ≤ (0x1000 : BitVec 16).toNat ∧
    (0xFFFC : BitVec 16).toNat % 4 = 0 ∧ 0x1000 ≤ (0xFFFC : BitVec 16).toNat ∧ (coded []).busy = false ∧
    (4 : Fin 513).val < (coded []).nodeCount.toNat ∧ (coded []).nodeCount.toNat ≤ (5 : Fin 513).val ∧
    (coded []).nodeCount.toNat ≤ (512 : Fin 513).val := by decide

/-- The first and the last word of each hole of the map. -/
theorem test_witness_UnmappedOffsets : (∀ n ∈ [0x0034, 0x0FFC, 0x1404, 0x1FFC, 0x2404, 0x3FFC, 0x6020, 0x7FFC, 0xA010, 0xFFFC],
      (BitVec.ofNat 16 n).toNat % 4 = 0 ∧ ¬((BitVec.ofNat 16 n).toNat < 0x034 ∨
        (0x1000 ≤ (BitVec.ofNat 16 n).toNat ∧ (BitVec.ofNat 16 n).toNat < 0x1404) ∨
        (0x2000 ≤ (BitVec.ofNat 16 n).toNat ∧ (BitVec.ofNat 16 n).toNat < 0x2404) ∨
        (0x4000 ≤ (BitVec.ofNat 16 n).toNat ∧ (BitVec.ofNat 16 n).toNat < 0x6020) ∨
        (0x8000 ≤ (BitVec.ofNat 16 n).toNat ∧ (BitVec.ofNat 16 n).toNat < 0xA010))) ∧
    ∃ t, hostRead 0xFFFC 4 State.reset = .next t := ⟨by decide, _, rfl⟩

/-- A busy core; a register, and the first and last word of each window. -/
theorem test_witness_ReadsWhileBusy : running.busy = true ∧ (0x008 : BitVec 16).toNat % 4 = 0 ∧
    (0x008 : BitVec 16).toNat ∈ [0x008, 0x010, 0x01C, 0x020, 0x024, 0x028, 0x02C, 0x030] ∧
    ∀ n ∈ [0x1000, 0x1400, 0x2000, 0x2400, 0x4000, 0x601C, 0x8000, 0xA00C], (BitVec.ofNat 16 n).toNat % 4 = 0 ∧
      ((0x1000 ≤ (BitVec.ofNat 16 n).toNat ∧ (BitVec.ofNat 16 n).toNat < 0x1404) ∨
        (0x2000 ≤ (BitVec.ofNat 16 n).toNat ∧ (BitVec.ofNat 16 n).toNat < 0x2404) ∨
        (0x4000 ≤ (BitVec.ofNat 16 n).toNat ∧ (BitVec.ofNat 16 n).toNat < 0x6020) ∨
        (0x8000 ≤ (BitVec.ofNat 16 n).toNat ∧ (BitVec.ofNat 16 n).toNat < 0xA010)) := by decide

theorem test_witness_RegisterWrites : running.busy = true ∧ State.reset.busy = false ∧
    ∀ n ∈ [0x000, 0x00C, 0x01C, 0x1000, 0xFFFC], (BitVec.ofNat 16 n).toNat % 4 = 0 ∧ BitVec.ofNat 16 n ≠ 0x008 ∧
      BitVec.ofNat 16 n ≠ 0x014 ∧ BitVec.ofNat 16 n ≠ 0x018 := by decide

theorem test_witness_AccessAdmitted : ¬(1 = 4 ∧ (0x000 : BitVec 16).toNat % 4 = 0) ∧
    ¬(4 = 4 ∧ (0x002 : BitVec 16).toNat % 4 = 0) ∧ (0x004 : BitVec 16).toNat % 4 = 0 ∧ (0x004 : BitVec 16) ≠ 0x008 := by
  decide

theorem test_witness_InputBinding : (∃ (s : State) (e : HostEvent) (rest : List HostEvent) (bytes : List Byte),
      s.host = e :: rest ∧ e.act = .bind bytes ∧ s.busy = false ∧ bytes.length ≤ 2 ^ 32 - 1) ∧
    (∃ (s : State) (e : HostEvent) (rest : List HostEvent) (bytes : List Byte),
      s.host = e :: rest ∧ e.act = .bind bytes ∧ s.busy = false ∧ ¬bytes.length ≤ 2 ^ 32 - 1) ∧
    (∃ (s : State) (e : HostEvent) (rest : List HostEvent) (bytes : List Byte),
      s.host = e :: rest ∧ e.act = .bind bytes ∧ s.busy = true) ∧
    (∃ (i : Instr) (s t : State), exec i s = .next t) ∧ ∃ s t : State, coreStep s = .next t := by
  have h0 : ([] : List Byte).length ≤ 2 ^ 32 - 1 := Nat.zero_le _
  obtain ⟨l, hl⟩ : ∃ l : List Byte, ¬l.length ≤ 2 ^ 32 - 1 :=
    ⟨List.replicate (2 ^ 32) 0, by rw [List.length_replicate]; omega⟩
  generalize 2 ^ 32 - 1 = n at h0 hl ⊢
  exact ⟨⟨{ State.reset with host := [later (.bind [])] }, _, _, [], rfl, rfl, rfl, h0⟩,
    ⟨{ State.reset with host := [later (.bind l)] }, _, _, l, rfl, rfl, rfl, hl⟩,
    ⟨{ running with host := [later (.bind [])] }, _, _, [], rfl, rfl, rfl⟩, ⟨.ack, State.reset, _, rfl⟩, running, _, rfl⟩

theorem test_witness_OutputObservation : (coded [0x41]).busy = false ∧ running.Inv ∧ running.busy = true :=
  ⟨rfl, test_running_inv.1, rfl⟩

theorem test_witness_IrqLevel : State.reset.busy = false ∧ (∃ t, exec .ack State.reset = .next t) ∧
    ((0 : Word).getLsbD 0 = false ∧ ∃ t, hostWrite 0x018 4 0 State.reset = .next t) ∧
    (∃ t, hostAct .reset running = .next t) ∧
    (ending.Inv ∧ ending.busy = true ∧ ending.irqEn = true ∧ ∃ t, coreStep ending = .next t ∧ t.busy = false) ∧
    ({ State.reset with irqEn := true }.busy = false ∧ { State.reset with irqEn := true }.irqEn = true ∧
      (0xF : Word).extractLsb' 0 4 = 0xF ∧ ∃ t, hostWrite 0x008 4 0xF { State.reset with irqEn := true } = .next t) :=
  ⟨rfl, ⟨_, rfl⟩, ⟨rfl, _, rfl⟩, ⟨_, rfl⟩, ⟨test_ending_inv, rfl, rfl, _, rfl, rfl⟩, rfl, rfl, rfl, _, rfl⟩

theorem test_witness_HostInvisible : ∃ t, coreStep running = .next t := ⟨_, rfl⟩

theorem test_witness_CommandFrame : (∃ t, exec .rewind (coded [0x41]) = .next t) ∧
    (∃ t, exec .hdrInternal { bound [0x48] with phase := .running 0xA [.readNode []] } = .next t) ∧
    Piece.output ∉ Machine.Instr.writes .rewind ∧ Instr.ack.port = .ctrl ∧ commandOf .ack = none :=
  ⟨⟨_, rfl⟩, ⟨_, rfl⟩, by decide, rfl, rfl⟩

theorem test_witness_StreamCommands : (bound [0x41]).quiet ∧ (bound [0x41]).outNbits = 0 := ⟨⟨rfl, rfl⟩, rfl⟩

theorem test_witness_BitAccounting : 0 < 8 * (putBits (msbBits 9 256) (clearOut State.reset)).output.length ∧
    7 < 8 * (putBits (msbBits 9 256) (clearOut State.reset)).output.length := by decide

theorem test_witness_ReadBits : 8 * (bound []).input.length < (bound []).inPos + 1 ∧
    (bound [0xFA, 0xCE]).inPos + 16 ≤ 8 * (bound [0xFA, 0xCE]).input.length ∧
    8 * (bound [0xFA, 0xCE]).input.length < (bound [0xFA, 0xCE]).inPos + 17 ∧ 15 < 16 := by decide

theorem test_witness_CountResult : (bound [0x41]).quiet ∧ (bound [0x41]).inPos ≤ 8 * (bound [0x41]).input.length ∧
    (8 * (bound [0x41]).input.length - (bound [0x41]).inPos) / 8 ≤ 2 ^ 32 - 2 ∧ (255 : Symbol).val < 256 :=
  ⟨⟨rfl, rfl⟩, by decide, by decide, by decide⟩

/-- An input of `2^32 - 1` bytes, which no test can run. -/
theorem test_witness_CountOverflow : ∃ s : State, s.quiet ∧ s.input.length ≤ 2 ^ 32 - 1 ∧ s.inPos ≤ 8 * s.input.length ∧
    2 ^ 32 - 2 < (8 * s.input.length - s.inPos) / 8 := by
  obtain ⟨l, hl⟩ : ∃ l : List Byte, l.length = 2 ^ 32 - 1 := ⟨List.replicate (2 ^ 32 - 1) 0, List.length_replicate⟩
  refine ⟨{ State.reset with input := l }, ⟨rfl, rfl⟩, ?_, Nat.zero_le _, ?_⟩
  · show l.length ≤ _
    omega
  · show _ < (8 * l.length - 0) / 8
    omega

/-- A counted symbol, and the filler where exactly one symbol is counted (V-BLD-2). -/
theorem test_witness_LeafOrder : counted.freq[(0x41 : Symbol)] ≠ 0 ∧
    (0 : Symbol) ∈ leafSymbols ((Vector.replicate 257 0).set 256 1) ∧
    ((Vector.replicate 257 0).set 256 1 : Vector Word 257)[(0 : Symbol)] = 0 ∧ leafSymbols (Vector.replicate 257 0) = [] := by
  decide

theorem test_witness_PopServesLeast : { State.reset with pq := [⟨2, 0, 0⟩, ⟨1, 1, 1⟩, ⟨1, 2, 2⟩] }.pq ≠ [] ∧
    { State.reset with pq := [⟨2, 0, 0⟩, ⟨1, 1, 1⟩, ⟨1, 2, 2⟩] }.pq.Pairwise (fun (a b : PqEntry) => a.seq ≠ b.seq) := by decide

theorem test_counted_symbol : counted.quiet ∧ ∃ x : Symbol, counted.freq[x] ≠ 0 := ⟨⟨rfl, rfl⟩, 0x41, by decide⟩

theorem test_witness_BuildResult : counted.quiet ∧ ∃ x : Symbol, counted.freq[x] ≠ 0 := test_counted_symbol

/-- With three leaves: the first and last leaf, the internal nodes, and the first record after them. -/
theorem test_witness_BuildTree : (∃ x : Symbol, counted.freq[x] ≠ 0) ∧
    leafSymbols counted.freq = [0x41, 0x42, 256] ∧ 3 ≤ (3 : Fin 513).val ∧ (4 : Fin 513).val < 2 * 3 - 1 ∧
    2 * 3 - 1 ≤ (5 : Fin 513).val := ⟨test_counted_symbol.2, by decide, by decide, by decide, by decide⟩

theorem test_witness_BuildWeights : ((allSymbols.map fun x => (counted.freq[x]).toNat).sum ≤ 2 ^ 32 - 1) ∧
    (∃ x : Symbol, counted.freq[x] ≠ 0) ∧
    (∃ i t is n, i.toNat < counted.built.nodeCount.toNat ∧ counted.built.Holds i t is ∧ counted.built.nodeAt i = some n) ∧
    (bound [0x41]).inPos ≤ 8 * (bound [0x41]).input.length ∧ (bound [0x41]).chunkCount ≤ 2 ^ 32 - 2 := by
  refine ⟨by decide, test_counted_symbol.2, ?_, by decide, by decide⟩
  obtain ⟨n, hn⟩ : ∃ n, counted.built.nodeAt 0 = some n := ⟨_, rfl⟩
  exact ⟨0, .leaf 0x41, [0], leafNode 0x41 2, by decide, .leaf (n := leafNode 0x41 2) (by decide) rfl rfl, by decide⟩

theorem test_witness_EmptyTable : State.reset.quiet ∧ ∀ x : Symbol, State.reset.freq[x] = 0 :=
  ⟨⟨rfl, rfl⟩, fun x => by simp [State.reset]⟩

theorem test_witness_GenResult : (read []).quiet ∧ (read []).treeValid = true ∧ (read []).Holds (read []).root aab (indices 5) ∧
    aab.size ≤ 513 := ⟨⟨rfl, rfl⟩, rfl, test_read_holds [], by decide⟩

theorem test_witness_GenCodes : aab.isNode = true ∧ aab.size ≤ 513 ∧ aab.leaves.Nodup ∧ 256 ∈ aab.leaves ∧ 0 ∉ aab.leaves ∧
    (State.reset.withCodes aab).codeOf 256 <+: (State.reset.withCodes aab).codeOf 256 :=
  ⟨rfl, by decide, by decide, by decide, by decide, List.prefix_refl _⟩

theorem test_witness_IllegalSequence : State.reset.quiet ∧ State.reset.treeValid = false ∧
    State.reset.codesValid = false ∧ (read []).codesValid = false := ⟨⟨rfl, rfl⟩, rfl, rfl, rfl⟩

theorem test_witness_WtagResult : (bound []).quiet ∧ (bound []).outNbits = 0 := ⟨⟨rfl, rfl⟩, rfl⟩

theorem test_witness_WhdrResult : (read []).quiet ∧ (read []).treeValid = true ∧
    (read []).Holds (read []).root aab (indices 5) ∧ aab.size ≤ 513 := ⟨⟨rfl, rfl⟩, rfl, test_read_holds [], by decide⟩

theorem test_witness_HeaderGrammar : ∃ (t u : Tree) (a b : List Bool), t.headerBits ++ a = u.headerBits ++ b :=
  ⟨aab, aab, [true], [true], rfl⟩

/-- The tag expected, another tag, and one bit fewer than a tag. -/
theorem test_witness_RtagResult :
    ((bound [0xFA, 0xCE, 0x82, 0x01]).quiet ∧
      (bound [0xFA, 0xCE, 0x82, 0x01]).inBits = msbBits 32 (0xFACE8201 : Word).toNat ++ []) ∧
    ((bound [0xFA, 0xCE, 0x82, 0x00]).inBits = msbBits 32 (0xFACE8200 : Word).toNat ++ [] ∧
      (0xFACE8200 : Word) ≠ (bound []).tag) ∧
    { bound [0xFA, 0xCE, 0x82, 0x01] with inPos := 1 }.inBits.length < 32 :=
  ⟨⟨⟨rfl, rfl⟩, by decide⟩, ⟨by decide, by decide⟩, by decide⟩

theorem test_witness_RhdrResult : (bound [0x48, 0x29, 0x0B, 0x00]).quiet ∧
    (bound [0x48, 0x29, 0x0B, 0x00]).inBits = aab.headerBits ++ [] ∧ aab.isNode = true ∧ aab.size ≤ 513 :=
  ⟨⟨rfl, rfl⟩, by decide, rfl, by decide⟩

/-- No header at all, a single leaf (V-HR-7), and a header cut after 8 bits (V-HR-2). -/
theorem test_witness_RhdrFailure : ((bound []).quiet ∧ (bound []).inPos ≤ 8 * (bound []).input.length ∧
      ¬∃ (t : Tree) (more : List Bool), (bound []).inBits = t.headerBits ++ more ∧ t.isNode = true ∧ t.size ≤ 513) ∧
    (bound [0x80, 0x40]).inBits = (Tree.leaf 1).headerBits ++ List.replicate 6 false ∧
    ∃ q, aab.headerBits = (bound [0x48]).inBits ++ q ∧ q ≠ [] ∧ aab.size ≤ 513 := by
  refine ⟨⟨⟨rfl, rfl⟩, by decide, fun ⟨t, more, h, ht, _⟩ => ?_⟩, by decide, aab.headerBits.drop 8, by decide, by decide, by decide⟩
  cases t with
  | leaf x => cases ht
  | node l r => cases h

/-- A tree whose header starts with `n` internal nodes. -/
def chain : Nat → Tree
  | 0 => .leaf 0
  | n + 1 => .node (chain n) (.leaf 0)

theorem test_chain_tokens (n : Nat) :
    (chain n).tokens = List.replicate n .hdrInternal ++ List.replicate (n + 1) (.hdrLeaf 0) := by
  induction n with
  | zero => rfl
  | succ n ih =>
    have h : (chain (n + 1)).tokens = .hdrInternal :: ((chain n).tokens ++ [.hdrLeaf 0]) := rfl
    rw [h, ih, List.append_assoc, ← List.replicate_succ' (n := n + 1), List.replicate_succ]
    rfl

/-- Whole tokens that complete no header: the input ends after 513 of them (V-HR-10); a bit follows them (V-HR-9); after one
of them the input ends inside a payload (V-HR-2); after one of them comes the payload 257 (V-HR-3). -/
theorem test_witness_RhdrFailure_tokens : (∃ us, (chain 513).tokens = List.replicate 513 .hdrInternal ++ us ∧ us ≠ []) ∧
    { bound (List.replicate 65 0) with inPos := 7 }.inBits = (List.replicate 513 Instr.hdrInternal).flatMap encode ++ [] ∧
    { bound (List.replicate 65 0) with inPos := 6 }.inBits =
      (List.replicate 513 Instr.hdrInternal).flatMap encode ++ [false] ∧
    (∃ us, aab.tokens = [.hdrInternal] ++ us ∧ us ≠ []) ∧
    (bound [0x48]).inBits = [Instr.hdrInternal].flatMap encode ++ true :: [false, false, true, false, false, false] ∧
    (bound [0x60, 0x20]).inBits =
      [Instr.hdrInternal].flatMap encode ++ true :: (msbBits 9 (257 : SymField).toNat ++ List.replicate 5 false) ∧
    256 < (257 : SymField).toNat :=
  ⟨⟨_, test_chain_tokens 513, by simp⟩, by decide, by decide, ⟨_, rfl, by simp⟩, by decide, by decide, by decide⟩

theorem test_witness_HeaderRoundTrip : counted.quiet ∧ (∃ x : Symbol, counted.freq[x] ≠ 0) ∧
    ∃ u : State, u.quiet ∧ u.inBits = aab.headerBits ++ [] :=
  ⟨test_counted_symbol.1, test_counted_symbol.2, bound [0x48, 0x29, 0x0B, 0x00], ⟨rfl, rfl⟩, by decide⟩

/-- The tag expected and another; an idle core, a core at another line, a header token at the tag's line and the tag at
theirs. -/
theorem test_witness_TagToken : { bound [] with phase := .running 0x9 [.readTag] }.phase = .running 0x9 [.readTag] ∧
    (0xFACE8201 : Word) = (bound []).tag ∧ (0xFACE8200 : Word) ≠ (bound []).tag ∧
    (¬∃ op rest, (bound []).phase = .running op (.readTag :: rest)) ∧
    (¬∃ op rest, running.phase = .running op (.readTag :: rest)) ∧
    (¬∃ op rest, { bound [] with phase := .running 0xA [.readNode []] }.phase = .running op (.readTag :: rest)) ∧
    (¬∃ op stack rest, { bound [] with phase := .running 0x9 [.readTag] }.phase = .running op (.readNode stack :: rest)) :=
  ⟨rfl, rfl, by decide, (fun ⟨_, _, h⟩ => nomatch h), (fun ⟨_, _, h⟩ => by cases h), (fun ⟨_, _, h⟩ => by cases h),
    (fun ⟨_, _, _, h⟩ => by cases h)⟩

theorem test_witness_InternalToken : (∃ s : State, s.phase = .running 0xA [.readNode []] ∧ s.nodeCount.toNat < 513) ∧
    (∃ s : State, s.phase = .running 0xA [.readNode []] ∧ s.nodeCount.toNat = 512) ∧
    ∃ s : State, s.phase = .running 0xA [.readNode []] ∧ s.nodeCount.toNat = 513 :=
  ⟨⟨{ bound [] with phase := .running 0xA [.readNode []] }, rfl, by decide⟩,
    ⟨{ bound [] with phase := .running 0xA [.readNode []], nodeCount := 512 }, rfl, rfl⟩,
    ⟨{ bound [] with phase := .running 0xA [.readNode []], nodeCount := 513 }, rfl, rfl⟩⟩

/-- The frames a leaf may return to, among them one whose return goes on to the frame below; a record no frame names; the
greatest payload admitted and the least that is not; the last free record and a full arena. -/
theorem test_witness_LeafToken : (256 : SymField).toNat ≤ 256 ∧ 256 < (257 : SymField).toNat ∧
    (∃ s : State, s.phase = .running 0xA [.readNode []] ∧ s.nodeCount.toNat < 513) ∧
    (∃ s : State, s.phase = .running 0xA [.readNode [⟨0, none⟩]] ∧ s.nodeCount.toNat = 512 ∧
      ∀ f ∈ [(⟨0, none⟩ : Machine.Frame)], f.node.toNat < s.nodeCount.toNat) ∧
    (∃ s : State, s.phase = .running 0xA [.readNode [⟨2, some 3⟩, ⟨0, some 1⟩]] ∧ s.nodeCount.toNat = 4 ∧
      (∀ f ∈ [(⟨2, some 3⟩ : Machine.Frame), ⟨0, some 1⟩], f.node.toNat < s.nodeCount.toNat) ∧ (1 : NodeIdx) ≠ s.nodeCount ∧
      ∀ f ∈ [(⟨2, some 3⟩ : Machine.Frame), ⟨0, some 1⟩].takeWhile (fun f => f.left.isSome), f.node ≠ 1) ∧
    (∃ s : State, s.phase = .running 0xA [.readNode []] ∧ s.nodeCount.toNat = 513) ∧ (512 : NodeIdx).toNat < 513 :=
  ⟨by decide, by decide, ⟨{ bound [] with phase := .running 0xA [.readNode []] }, rfl, by decide⟩,
    ⟨{ bound [] with phase := .running 0xA [.readNode [⟨0, none⟩]], nodeCount := 512 }, rfl, rfl, by decide⟩,
    ⟨{ bound [] with phase := .running 0xA [.readNode [⟨2, some 3⟩, ⟨0, some 1⟩]], nodeCount := 4 }, rfl, rfl, by decide,
      by decide, by decide⟩,
    ⟨{ bound [] with phase := .running 0xA [.readNode []], nodeCount := 513 }, rfl, rfl⟩, by decide⟩

theorem test_coded_codes : (coded []).codelen[(0x41 : Symbol)] ≠ 0 ∧ (coded []).codelen[eofSymbol] ≠ 0 ∧
    (coded []).codelen[(0x43 : Symbol)] = 0 ∧ (coded [0x41]).chunks = [0x41] ∧ (coded [0x41, 0x43]).chunks = [0x41, 0x43] := by
  decide

theorem test_witness_EncResult : (coded [0x41]).quiet ∧ (coded [0x41]).codesValid = true ∧
    (∀ x, x ∈ (coded [0x41]).chunks → (coded [0x41]).hasCode x) ∧ (coded [0x41]).hasCode eofSymbol := by
  refine ⟨⟨rfl, rfl⟩, rfl, fun x hx => ?_, test_coded_codes.2.1⟩
  rw [test_coded_codes.2.2.2.1] at hx
  rw [List.mem_singleton.1 hx]
  exact test_coded_codes.1

/-- A byte without a code after one with a code (V-ENC-9), and a table without a code for symbol 256 (V-ENC-10). -/
theorem test_witness_EncUnencodable : ((coded [0x41, 0x43]).quiet ∧ (coded [0x41, 0x43]).codesValid = true ∧
      ∃ xs x ys, (coded [0x41, 0x43]).chunks = xs ++ x :: ys ∧ (∀ y, y ∈ xs → (coded [0x41, 0x43]).hasCode y) ∧
        ¬(coded [0x41, 0x43]).hasCode x) ∧
    ∃ s : State, s.quiet ∧ s.codesValid = true ∧ (∀ x, x ∈ s.chunks → s.hasCode x) ∧ ¬s.hasCode eofSymbol := by
  refine ⟨⟨⟨rfl, rfl⟩, rfl, [0x41], 0x43, [], test_coded_codes.2.2.2.2, fun y hy => ?_, fun h => h test_coded_codes.2.2.1⟩,
    (bound []).withCodes (.node (.leaf 0) (.leaf 1)), ⟨rfl, rfl⟩, rfl, (fun x hx => nomatch hx), (fun h => h (by decide))⟩
  rw [List.mem_singleton.1 hy]
  exact test_coded_codes.1

theorem test_spells : aab.Spells ([false] ++ ([true, false] ++ [])) [0x41, 0x42] ∧ aab.walk [true, true] = some eofSymbol :=
  ⟨.cons rfl (.cons rfl .nil), rfl⟩

/-- `0 10 11` and five more bits (V-DEC-4 in small). -/
theorem test_witness_DecResult : (read [0x58]).quiet ∧ (read [0x58]).treeValid = true ∧
    (read [0x58]).Holds (read [0x58]).root aab (indices 5) ∧ aab.isNode = true ∧
    aab.Spells ([false] ++ ([true, false] ++ [])) [0x41, 0x42] ∧ eofSymbol ∉ [(0x41 : Symbol), 0x42] ∧
    aab.walk [true, true] = some eofSymbol ∧
    (read [0x58]).inBits = ([false] ++ ([true, false] ++ [])) ++ ([true, true] ++ List.replicate 3 false) :=
  ⟨⟨rfl, rfl⟩, rfl, test_read_holds _, rfl, test_spells.1, by decide, test_spells.2, by decide⟩

/-- Input that ends at once (V-DEC-2), and inside a code. -/
theorem test_witness_DecTruncated : ((read []).quiet ∧ (read []).treeValid = true ∧
      (read []).Holds (read []).root aab (indices 5) ∧ aab.Spells [] [] ∧ aab.walkOpen [] = true ∧
      (read []).inBits = [] ++ []) ∧
    aab.walkOpen [true] = true ∧ { read [0x01] with inPos := 7 }.inBits = [] ++ [true] ∧ aab.isNode = true ∧
    eofSymbol ∉ ([] : List Symbol) :=
  ⟨⟨⟨rfl, rfl⟩, rfl, test_read_holds _, .nil, rfl, rfl⟩, rfl, by decide, rfl, by decide⟩

theorem test_witness_CompressResult : (bound []).quiet ∧ (bound []).input.length ≤ 2 ^ 32 - 2 := ⟨⟨rfl, rfl⟩, by decide⟩

/-- The stream of V-DCP-1, a wrong tag (V-DCP-11) and a short one (V-DCP-12). -/
theorem test_witness_DecompressResult : ∃ s : State, s.quiet ∧ aab.isNode = true ∧ aab.size ≤ 513 ∧
    aab.Spells ([false] ++ ([true, false] ++ [])) [0x41, 0x42] ∧ eofSymbol ∉ [(0x41 : Symbol), 0x42] ∧
    aab.walk [true, true] = some eofSymbol ∧
    byteBits s.input = msbBits 32 s.tag.toNat ++ (aab.headerBits ++
      (([false] ++ ([true, false] ++ [])) ++ ([true, true] ++ List.replicate 3 false))) ∧
    (byteBits (bound [0xFA, 0xCE, 0x82, 0x00]).input).take 32 ≠ msbBits 32 (bound []).tag.toNat ∧
    (byteBits (bound [0xFA, 0xCE, 0x82]).input).take 32 ≠ msbBits 32 (bound []).tag.toNat :=
  ⟨bound [0xFA, 0xCE, 0x82, 0x01, 0x48, 0x29, 0x0B, 0x00, 0x58], ⟨rfl, rfl⟩, rfl, by decide, test_spells.1, by decide,
    test_spells.2, by decide, by decide, by decide⟩

/-- With the right tag: a header of one leaf, on which RHDR ends in an error; a whole header after which the input ends, on
which RHDR does not and DEC does; and literals before the end (V-DCP-15 in small), inside a code. -/
theorem test_witness_DecompressResult_errors :
    ((byteBits (bound [0xFA, 0xCE, 0x82, 0x01, 0x80, 0x40]).input).take 32 = msbBits 32 (bound []).tag.toNat ∧
      shows (exec .rhdr ((clearOut (bound [0xFA, 0xCE, 0x82, 0x01, 0x80, 0x40])).atPos 32)) (fun b => b.err) = some true) ∧
    (byteBits (bound [0xFA, 0xCE, 0x82, 0x01, 0x48, 0x29, 0x0B, 0x00]).input =
        msbBits 32 (bound []).tag.toNat ++ (aab.headerBits ++ ([] ++ [])) ∧
      aab.Spells [] [] ∧ aab.walkOpen [] = true ∧
      shows (exec .rhdr ((clearOut (bound [0xFA, 0xCE, 0x82, 0x01, 0x48, 0x29, 0x0B, 0x00])).atPos 32))
        (fun b => (b.err, shows (exec .dec b) fun c => c.err)) = some (false, some true)) ∧
    (byteBits (bound [0xFA, 0xCE, 0x82, 0x01, 0x48, 0x29, 0x0B, 0x00, 0x21]).input =
        msbBits 32 (bound []).tag.toNat ++ (aab.headerBits ++
          (([false] ++ ([false] ++ ([true, false] ++ ([false] ++ ([false] ++ ([false] ++ [])))))) ++ [true])) ∧
      aab.Spells ([false] ++ ([false] ++ ([true, false] ++ ([false] ++ ([false] ++ ([false] ++ []))))))
        [0x41, 0x41, 0x42, 0x41, 0x41, 0x41] ∧ aab.walkOpen [true] = true) :=
  ⟨by decide, ⟨by decide, .nil, by decide, by decide⟩, by decide,
    .cons rfl (.cons rfl (.cons rfl (.cons rfl (.cons rfl (.cons rfl .nil))))), by decide⟩

theorem test_witness_RoundTrip : (bound []).quiet ∧ (bound []).input.length ≤ 2 ^ 32 - 2 ∧
    ∀ c : State, ∃ u : State, u.quiet ∧ u.input = c.output ∧ u.tag = (bound []).tag :=
  ⟨⟨rfl, rfl⟩, by decide, fun c => ⟨{ bound [] with input := c.output }, ⟨rfl, rfl⟩, rfl, rfl⟩⟩

end Sys2Proof.Tests
end

section
/-! The invariant of every step (R59): it holds after reset, and each kind of step keeps it. -/

namespace Sys2Proof.Machine

/-! ### Settled states -/

/-- The sequencer, the record and TAG are no part of what `State.Sound` speaks of. -/
theorem State.Sound.withRecord {s : State} (h : s.Sound) (phase : Phase) (done err : Bool) (errcode : BitVec 4) (tag : Word) :
    ({ s with phase := phase, done := done, err := err, errcode := errcode, tag := tag } : State).Sound :=
  h.congr rfl rfl rfl rfl rfl rfl rfl rfl rfl rfl rfl rfl

theorem settled_reset : State.reset.Settled where
  sound :=
    { codes := nofun
      tree := nofun
      queue := rfl
      position := Nat.le_refl 0
      bound := Nat.zero_le _
      lengths := fun x => by simp [State.reset]
      partialByte := Nat.one_pos }
  one := nofun
  code := fun _ => rfl

theorem settled_acknowledge {s : State} (h : s.Settled) : (acknowledge s).Settled where
  sound := h.sound.withRecord s.phase false false 0 s.tag
  one := nofun
  code := fun _ => rfl

theorem settled_illegalWord {s : State} (h : s.Settled) : (illegalWord s).Settled where
  sound := h.sound.withRecord .idle false true _ s.tag
  one := nofun
  code := nofun

theorem settled_tag {s : State} (h : s.Settled) (v : Word) : ({ s with tag := v } : State).Settled where
  sound := h.sound.withRecord s.phase s.done s.err s.errcode v
  one := h.one
  code := h.code

/-- Binding an input of an admitted length moves the position to its start (R63). -/
theorem settled_bind {s : State} (h : s.Settled) {bytes : List Byte} (hb : bytes.length ≤ Config.inMax) :
    ({ s with input := bytes, inPos := 0 } : State).Settled where
  sound :=
    { codes := h.sound.codes
      tree := fun hv => by
        obtain ⟨t, is, hH, hr⟩ := h.sound.tree hv
        exact ⟨t, is, hH.congr rfl, hr⟩
      queue := h.sound.queue
      position := Nat.zero_le _
      bound := hb
      lengths := h.sound.lengths
      partialByte := h.sound.partialByte }
  one := h.one
  code := h.code

/-! ### The invariant of an idle core -/

theorem State.Inv.settled {s : State} (h : s.Inv) (hb : s.busy = false) : s.Settled := by
  obtain ⟨-, hs⟩ | ⟨hb', -⟩ := h
  · exact hs
  · rw [hb] at hb'; cases hb'

theorem State.Settled.inv {s : State} (h : s.Settled) (hp : s.phase = .idle) : s.Inv := .inl ⟨(busy_false s).mpr hp, h⟩

theorem inv_reset : State.reset.Inv := settled_reset.inv rfl

/-! ### Host actions -/

/-- A read changes the host's side only (R67, R76). -/
theorem hostRead_hostOf {off : BitVec 16} {size : Nat} {s t : State} (h : hostRead off size s = .next t) : t = s.hostOf t := by
  unfold hostRead at h
  split at h
  · dsimp only at h
    split at h <;> cases h <;> rfl
  · cases h

/-- An observation changes the host's side only (R64). -/
theorem hostObserve_hostOf {s t : State} (h : hostObserve s = .next t) : t = s.hostOf t := by
  unfold hostObserve at h
  split at h <;> cases h <;> rfl

/-- The words that take effect in the write step keep the invariant (R222, R223, R226). -/
theorem inv_unless_busy {s t : State} (h : s.Inv) {f : State → State} (hf : s.phase = .idle → (f s).phase = .idle)
    (hs : s.Settled → (f s).Settled) (ht : (if s.busy then .next s else .next (f s) : Host.Outcome State Fault Refusal) = .next t) :
    t.Inv := by
  cases hb : s.busy with
  | true => rw [hb] at ht; cases ht; exact h
  | false => rw [hb] at ht; cases ht; exact (hs (h.settled hb)).inv (hf ((busy_false s).mp hb))

/-- A command that a CTRL write starts is without effect on a busy core (R222), on its way where a host action is due to
land, and run to a settled end where none is (R220, R221). -/
theorem runCommand_inv {i : Instr} {op : BitVec 4} {body : List Line} (hc : commandOf i = some (op, body)) {s t : State}
    (h : s.Inv) (ht : runCommand op body s = .next t) : t.Inv := by
  cases hb : s.busy with
  | true => rw [runCommand, hb] at ht; cases ht; exact h
  | false =>
    have hp : s.phase = .idle := (busy_false s).mp hb
    cases ha : s.attended with
    | true => rw [runCommand, hb, ha] at ht; cases ht; exact startCommand_inv hp (h.settled hb) hc
    | false =>
      obtain ⟨u, hu, hup, hus, -⟩ := exec_of_command ⟨hp, ha⟩ (h.settled hb) hc
      rw [hu] at ht; cases ht
      exact hus.inv hup

/-- Every CTRL word keeps the invariant (R220 to R226). -/
theorem exec_decodeCtrl_inv {v : Word} {s t : State} (h : s.Inv) (ht : exec (decodeCtrl v) s = .next t) : t.Inv := by
  obtain ⟨op, body, hc⟩ | hi | hi | ⟨r, o, hi⟩ := ctrl_cases _ (decodeCtrl_port v)
  · rw [exec_eq_runCommand hc] at ht
    exact runCommand_inv hc h ht
  · rw [hi] at ht
    exact inv_unless_busy h (fun hp => hp) settled_acknowledge ht
  · rw [hi] at ht
    exact inv_unless_busy h (fun _ => rfl) settled_illegalWord ht
  · rw [hi] at ht
    exact inv_unless_busy h (fun _ => rfl) settled_illegalWord ht

theorem writeTagReg_inv {s : State} (h : s.Inv) (v : Word) : (writeTagReg v s).Inv := by
  cases hb : s.busy with
  | true => rw [writeTagReg, hb]; exact h
  | false => rw [writeTagReg, hb]; exact (settled_tag (h.settled hb) v).inv ((busy_false s).mp hb)

theorem hostWrite_inv {off : BitVec 16} {size : Nat} {v : Word} {s t : State} (h : s.Inv)
    (ht : hostWrite off size v s = .next t) : t.Inv := by
  unfold hostWrite at ht
  split at ht
  · split at ht
    case h_1 => exact exec_decodeCtrl_inv h ht
    case h_2 => cases ht; exact writeTagReg_inv h v
    case h_3 => cases ht; exact Inv_hostOf h (writeIrqEn v s)
    all_goals cases ht; exact h
  · cases ht

/-- Every host action that may land keeps the invariant: a binding lands on an idle core only (R63). -/
theorem hostAct_inv {a : HostAction} {s t : State} (h : s.Inv) (hl : s.busy = false ∨ a.mayLandBusy = true)
    (ht : hostAct a s = .next t) : t.Inv := by
  cases a with
  | read off size => rw [hostRead_hostOf ht]; exact Inv_hostOf h t
  | write off size v => exact hostWrite_inv h ht
  | bind bytes =>
    obtain hb | hb := hl
    · rw [hostAct, hostBind] at ht
      split at ht
      next hlen => cases ht; exact (settled_bind (h.settled hb) hlen).inv ((busy_false s).mp hb)
      next => cases ht
    · cases hb
  | observe => rw [hostObserve_hostOf ht]; exact Inv_hostOf h t
  | reset => cases ht; exact Inv_hostOf inv_reset { s with irqEn := false }

/-! ### The machine -/

theorem coreStep_next_inv {s t : State} (h : s.Inv) (ht : coreStep s = .next t) : t.Inv := by
  cases hb : s.busy with
  | true =>
    obtain ⟨u, hu, hi, -⟩ := coreStep_inv h hb
    rw [ht] at hu; cases hu
    exact hi
  | false =>
    rw [coreStep, (busy_false s).mp hb] at ht
    cases ht; exact h

/-- When an action lands: on an idle core, or when its lag has passed if it may land on a running one (R63, R77). -/
theorem due_cases {e : HostEvent} {s : State} (h : e.due s = true) :
    s.busy = false ∨ (e.lag = some 0 ∧ e.act.mayLandBusy = true) := by
  simpa [HostEvent.due] using h

/-- What a step is: a step of the core or a host action that may land, in either case from a state that differs in its
pending actions only (R20, R77). -/
theorem step_cases {s t : State} (h : step s = .next t) :
    (∃ u, coreStep (s.hostOf u) = .next t) ∨
      ∃ a u, (s.busy = false ∨ a.mayLandBusy = true) ∧ hostAct a (s.hostOf u) = .next t := by
  unfold step at h
  split at h
  next => exact .inl ⟨s, h⟩
  next e rest _ =>
    split at h
    next hd =>
      refine .inr ⟨e.act, { s with host := rest }, ?_, h⟩
      exact (due_cases hd).imp_right And.right
    next => exact .inl ⟨{ s with host := e.nearer :: rest }, h⟩

theorem step_inv {s t : State} (h : s.Inv) (ht : step s = .next t) : t.Inv := by
  obtain ⟨u, hc⟩ | ⟨a, u, hl, ha⟩ := step_cases ht
  · exact coreStep_next_inv (Inv_hostOf h u) hc
  · exact hostAct_inv (Inv_hostOf h u) hl ha

/-- Settles O11: a step is a core step or a host action that may land, and each kind keeps the invariant. -/
theorem invariantKept : Obligations.InvariantKept := fun _ _ => step_inv

/-- Settles O12: the reset state is idle and settled. -/
theorem invariantAtReset : Obligations.InvariantAtReset := inv_reset

/-! ### What an idle core satisfies -/

theorem Tree.three_le_size {t : Tree} (h : t.isNode = true) : 3 ≤ t.size := by
  cases t with
  | leaf x => cases h
  | node l r =>
    have hl := l.size_pos
    have hr := r.size_pos
    rw [Tree.size]; omega

theorem State.Holds.root_isLeaf {s : State} {i : NodeIdx} {t : Tree} {is : List NodeIdx} (h : s.Holds i t is)
    (ht : t.isNode = true) : ∃ n, s.nodeAt i = some n ∧ n.isLeaf = false := by
  cases h with
  | leaf => cases ht
  | node hn hl _ _ => exact ⟨_, hn, hl⟩

/-- A tree over exactly the allocated nodes has as many nodes as are allocated (R32). -/
theorem State.Holds.size_of_perm {s : State} {i : NodeIdx} {t : Tree} {is : List NodeIdx} (h : s.Holds i t is) {n : Nat}
    (hp : is.Perm (indices n)) : t.size = n := by
  rw [← h.length, hp.length_eq, indices_length]

/-- Settles O13: an idle core that meets the invariant is settled, and the size of a valid tree is the number of nodes. -/
theorem idleInvariants : Obligations.IdleInvariants := by
  intro s h hb
  obtain ⟨hs, hone, hcode⟩ := h.settled hb
  refine ⟨hone, hcode, hs.codes, fun hv => ?_, by rw [hs.queue]; rfl, by omega, hs.position, hs.lengths⟩
  obtain ⟨t, is, hH, hn, hperm, hmax, -⟩ := hs.tree hv
  have hmin : 3 ≤ s.nodeCount.toNat := hH.size_of_perm hperm ▸ t.three_le_size hn
  exact ⟨hH.root_isLeaf hn, hmin, hmax, t, is, hH, hperm⟩

end Sys2Proof.Machine
end

section
/-! The register space (R38 to R55): what each register holds, and what a host access to it answers. -/

namespace Sys2Proof.Machine

/-! ### STATUS -/

theorem getLsbD_flagAt (b : Bool) (k j : Nat) : (flagAt b k).getLsbD j = (b && decide (k < 32 ∧ k = j)) := by
  cases b <;> simp [flagAt, BitVec.getLsbD_twoPow]

theorem flagAt_zero (b : Bool) : flagAt b 0 = if b then 1 else 0 := rfl

/-- STATUS bit by bit (R41). -/
theorem getLsbD_status (s : State) (k : Nat) : s.status.getLsbD k =
    ([s.busy, s.done, s.err, s.treeValid, s.codesValid, s.inEnd, s.outPartial, s.irq][k]?).getD false := by
  match k with
  | 0 | 1 | 2 | 3 | 4 | 5 | 6 | 7 | k + 8 => simp only [State.status, BitVec.getLsbD_or, getLsbD_flagAt]; simp

theorem inEnd_eq (s : State) : s.inEnd = decide (s.inPos = 8 * s.input.length) := rfl

theorem outPartial_eq (s : State) : s.outPartial = decide (s.outNbits.toNat ≠ 0) := by
  rw [Bool.eq_iff_iff, decide_eq_true_iff, State.outPartial, bne_iff_ne, Ne, ← BitVec.toNat_inj]; rfl

theorem reset_status : State.reset.status = 0x00000020 := rfl

/-- Settles O18: the bits from `getLsbD_status`; STATUS is defined while BUSY = 1 and takes no write. -/
theorem statusBits : Obligations.StatusBits := by
  intro s
  have hread : hostRead 0x00C 4 s = .next { s with rdata := s.status } := hostRead_defined rfl rfl
  have hwrite : ∀ v, hostWrite 0x00C 4 v s = .next s := fun v => write_other rfl (by decide) (by decide) (by decide) v s
  refine ⟨getLsbD_status s 0, getLsbD_status s 1, getLsbD_status s 2, getLsbD_status s 3, getLsbD_status s 4, ?_, ?_,
    getLsbD_status s 7, fun k hk => ?_, hread, hwrite, reset_status⟩
  · rw [← inEnd_eq]; exact getLsbD_status s 5
  · rw [← outPartial_eq]; exact getLsbD_status s 6
  · rw [getLsbD_status, List.getElem?_eq_none hk]; rfl

/-! ### Reset -/

/-- Settles O15: the fields of `State.reset`, and STATUS with IN_END set because the input is empty. -/
theorem resetState : Obligations.ResetState :=
  ⟨rfl, fun x => Vector.getElem_replicate x.isLt, fun x => ⟨Vector.getElem_replicate x.isLt, Vector.getElem_replicate x.isLt⟩,
    rfl, fun i => Vector.getElem_replicate i.isLt, rfl, rfl, rfl, rfl, rfl, rfl, rfl, rfl, rfl, rfl, rfl, rfl, rfl, rfl, rfl,
    rfl, rfl, rfl, rfl, reset_status⟩

theorem nodeWord_free {s : State} {i : Fin 513} (h : s.nodeCount.toNat ≤ i.val) (f : NodeField) : s.nodeWord i f = 0 :=
  if_neg (Nat.not_lt.mpr h)

/-- After reset every register but four reads 0 (R58). -/
theorem reset_regValue {r : Reg} (h : r ∉ [.id, .version, .status, .tag]) : State.reset.regValue r = 0 := by
  cases r with
  | id | version | status | tag => simp at h
  | ctrl | errcode | irqEn | decCount | nodeCount | root | outBitlen | inPos | inLen | unmapped => rfl
  | freqWord x => exact Vector.getElem_replicate x.isLt
  | codelenWord x => simp [State.regValue, State.reset]
  | codebitsWord x w => simp [State.regValue, State.reset]
  | nodeWord i f => exact nodeWord_free (Nat.zero_le _) f

theorem hostRead_reset {off : BitVec 16} (h4 : off.toNat % 4 = 0) (h : regAt off.toNat ∉ [.id, .version, .status, .tag]) :
    hostRead off 4 State.reset = .next { State.reset with rdata := 0 } := by
  rw [hostRead_idle h4 rfl, reset_regValue h]

/-! ### Registers -/

theorem ofNat_mod_word (n : Nat) : BitVec.ofNat 32 (n % 2 ^ 32) = BitVec.ofNat 32 n := BitVec.eq_of_toNat_eq (by simp)

/-- The read-only registers but STATUS stand at offsets that take no write. -/
theorem readOnly_offsets : [0x000, 0x004, 0x010, 0x01C, 0x020, 0x024, 0x028, 0x02C, 0x030#16].Forall fun off =>
    off.toNat % 4 = 0 ∧ off ≠ 0x008 ∧ off ≠ 0x014 ∧ off ≠ 0x018 := by decide

/-- The read-only registers with reset value 0. -/
theorem zeroed_offsets : [0x010, 0x01C, 0x020, 0x024, 0x028, 0x02C, 0x030#16].Forall fun off =>
    off.toNat % 4 = 0 ∧ regAt off.toNat ∉ [.id, .version, .status, .tag] := by decide

/-- Settles O19: ID and VERSION are defined while BUSY = 1, the others are read from an idle core, and none takes a write. -/
theorem registerReads : Obligations.RegisterReads := by
  refine ⟨fun s => ⟨hostRead_defined rfl rfl, hostRead_defined rfl rfl⟩, fun s hb => ?_, fun off hoff v s => ?_,
    fun off hoff => ?_⟩
  · simp only [ofNat_mod_word]
    exact ⟨hostRead_idle rfl hb, hostRead_idle rfl hb, hostRead_idle rfl hb, hostRead_idle rfl hb, hostRead_idle rfl hb,
      hostRead_idle rfl hb, hostRead_idle rfl hb⟩
  · obtain ⟨h4, hctrl, htag, hirq⟩ := List.forall_iff_forall_mem.mp readOnly_offsets off hoff
    exact write_other h4 hctrl htag hirq v s
  · obtain ⟨h4, hreg⟩ := List.forall_iff_forall_mem.mp zeroed_offsets off hoff
    exact hostRead_reset h4 hreg

theorem hostRead_irqEn (s : State) : hostRead 0x018 4 s = .next { s with rdata := if s.irqEn then 1 else 0 } := by
  rw [hostRead_defined rfl rfl]; rfl

/-- Settles O22: five registers are defined while BUSY = 1, and no other mapped word is. -/
theorem readsWhileBusy : Obligations.ReadsWhileBusy := by
  intro s hb
  refine ⟨hostRead_defined rfl rfl, hostRead_defined rfl rfl, hostRead_defined rfl rfl, hostRead_defined rfl rfl,
    hostRead_irqEn s, fun off h4 hmapped => ?_⟩
  rw [hostRead_admitted h4, hb, mapped_cases hmapped]; rfl

theorem hostWrite_tag (v : Word) (s : State) :
    hostWrite 0x014 4 v s = .next (if s.busy then s else { s with tag := v }) := rfl

theorem hostWrite_irqEn (v : Word) (s : State) : hostWrite 0x018 4 v s = .next { s with irqEn := v.getLsbD 0 } := rfl

/-- A CTRL write is without effect on a busy core (R222). -/
theorem exec_decodeCtrl_busy {s : State} (hb : s.busy = true) (v : Word) : exec (decodeCtrl v) s = .next s := by
  obtain ⟨op, body, hc⟩ | hi | hi | ⟨r, o, hi⟩ := ctrl_cases _ (decodeCtrl_port v)
  · rw [exec_eq_runCommand hc]; exact if_pos hb
  · rw [hi]; exact if_pos hb
  · rw [hi]; exact if_pos hb
  · rw [hi]; exact if_pos hb

/-- Settles O23: what a write to each offset does, and what a read of the two stored registers returns. -/
theorem registerWrites : Obligations.RegisterWrites :=
  ⟨fun s v => ⟨hostWrite_tag v s, hostRead_defined rfl rfl, hostWrite_irqEn v s, hostRead_irqEn s,
      fun hb => exec_decodeCtrl_busy hb v, fun _ h4 hctrl htag hirq => write_other h4 hctrl htag hirq v s⟩, rfl, rfl⟩

/-! ### Windows -/

theorem windowAt_not_register (n : Nat) : windowAt n ∉ [.id, .version, .status, .tag] := by
  unfold windowAt
  repeat' split
  all_goals simp

theorem nodeWord_allocated {s : State} {i : Fin 513} (h : i.val < s.nodeCount.toNat) (f : NodeField) : s.nodeWord i f =
    match f with
    | .word0 => BitVec.ofBool s.node[i].isLeaf ++ 0#22 ++ s.node[i].sym
    | .weight => s.node[i].weight
    | .left => s.node[i].left.setWidth 32
    | .right => s.node[i].right.setWidth 32 := by
  unfold State.nodeWord
  rw [if_pos h]
  cases f with
  | word0 => exact word0_eq _
  | weight | left | right => rfl

/-- Word `k` of a record in the NODE window of an idle core (R54). -/
theorem hostRead_node {s : State} (hb : s.busy = false) (i : Fin 513) {k : Nat} (hk : k < 4) :
    hostRead (BitVec.ofNat 16 (0x8000 + 16 * i.val + 4 * k)) 4 s = .next { s with rdata := s.nodeWord i (nodeField k) } :=
  idleRead _ (by omega) (by omega) hb (regAt_node i k hk)

theorem hostRead_node_allocated {s : State} (hb : s.busy = false) {i : Fin 513} (h : i.val < s.nodeCount.toNat) :
    hostRead (BitVec.ofNat 16 (0x8000 + 16 * i.val)) 4 s =
      .next { s with rdata := BitVec.ofBool s.node[i].isLeaf ++ 0#22 ++ s.node[i].sym } ∧
    hostRead (BitVec.ofNat 16 (0x8004 + 16 * i.val)) 4 s = .next { s with rdata := s.node[i].weight } ∧
    hostRead (BitVec.ofNat 16 (0x8008 + 16 * i.val)) 4 s = .next { s with rdata := s.node[i].left.setWidth 32 } ∧
    hostRead (BitVec.ofNat 16 (0x800C + 16 * i.val)) 4 s = .next { s with rdata := s.node[i].right.setWidth 32 } := by
  have word : ∀ k < 4, hostRead (BitVec.ofNat 16 (0x8000 + 4 * k + 16 * i.val)) 4 s =
      .next { s with rdata := s.nodeWord i (nodeField k) } := fun k hk => by
    rw [Nat.add_right_comm]; exact hostRead_node hb i hk
  simp only [nodeWord_allocated h] at word
  exact ⟨word 0 (by decide), word 1 (by decide), word 2 (by decide), word 3 (by decide)⟩

theorem hostRead_node_free {s : State} (hb : s.busy = false) {i : Fin 513} (h : s.nodeCount.toNat ≤ i.val) (k : Fin 4) :
    hostRead (BitVec.ofNat 16 (0x8000 + 16 * i.val + 4 * k.val)) 4 s = .next { s with rdata := 0 } := by
  rw [hostRead_node hb i k.isLt, nodeWord_free h]

/-- Settles O20: each word's address names its entry (`regAt_freq` and the like), and no window word takes a write. -/
theorem windowReads : Obligations.WindowReads := by
  refine ⟨fun off h4 hwin => ⟨fun v s => ?_, hostRead_reset h4 ?_⟩, fun s hb => ⟨fun x => ⟨?_, ?_, fun w => ?_⟩, fun i =>
    ⟨hostRead_node_allocated hb, hostRead_node_free hb⟩⟩⟩
  · have hne : ∀ r : BitVec 16, r.toNat < 0x1000 → off ≠ r := fun r hr e => by rw [e] at hwin; omega
    exact write_other h4 (hne 0x008 (by decide)) (hne 0x014 (by decide)) (hne 0x018 (by decide)) v s
  · rw [regAt_window (by omega)]; exact windowAt_not_register _
  · exact idleRead _ (by omega) (by omega) hb (regAt_freq x)
  · exact idleRead _ (by omega) (by omega) hb (regAt_codelen x)
  · exact idleRead _ (by omega) (by omega) hb (regAt_codebits x w)

end Sys2Proof.Machine
end

section
/-! The host's accesses, the binding and the observation (R62 to R66), and what a core step neither reads nor writes
(R79). -/

namespace Sys2Proof.Machine

/-! ### Register accesses -/

theorem not_admitted {off : BitVec 16} {size : Nat} (h : ¬(size = 4 ∧ off.toNat % 4 = 0)) : admitted off size = false := by
  rw [Bool.eq_false_iff, Ne, admitted_iff]; exact h

theorem hostRead_not_admitted {off : BitVec 16} {size : Nat} (h : ¬(size = 4 ∧ off.toNat % 4 = 0)) (s : State) :
    hostRead off size s = .fault .accessNotAdmitted := by
  rw [hostRead, not_admitted h]; rfl

theorem hostWrite_not_admitted {off : BitVec 16} {size : Nat} (h : ¬(size = 4 ∧ off.toNat % 4 = 0)) (v : Word) (s : State) :
    hostWrite off size v s = .fault .accessNotAdmitted := by
  rw [hostWrite, not_admitted h]; rfl

theorem hostRead_next {off : BitVec 16} (h4 : off.toNat % 4 = 0) (s : State) : ∃ t, hostRead off 4 s = .next t := by
  rw [hostRead_admitted h4]
  split
  · exact ⟨_, rfl⟩
  · exact ⟨_, rfl⟩

/-- A read changes the value read and the draws only (R67, R76). -/
theorem hostRead_changes {off : BitVec 16} {size : Nat} {s t : State} (h : hostRead off size s = .next t) :
    t = { s with rdata := t.rdata, draws := t.draws } := by
  by_cases ha : size = 4 ∧ off.toNat % 4 = 0
  · obtain ⟨rfl, h4⟩ := ha
    rw [hostRead_admitted h4] at h
    split at h
    · cases h; rfl
    · cases h; rfl
  · rw [hostRead_not_admitted ha] at h; cases h

/-- Settles O24: an access is admitted exactly when it is a word at a multiple of 4, and only a CTRL write can fail then. -/
theorem accessAdmitted : Obligations.AccessAdmitted := by
  refine fun s off size v => ⟨fun h => ⟨hostRead_not_admitted h s, hostWrite_not_admitted h v s⟩, ?_⟩
  rintro rfl h4
  exact ⟨hostRead_next h4 s, fun hctrl => write_next h4 hctrl v s⟩

/-- Settles O21: an unmapped offset is defined while BUSY = 1, holds 0 and is none of the three that take a write. -/
theorem unmappedOffsets : Obligations.UnmappedOffsets := by
  refine ⟨fun s off v h4 hmap => ?_, fun s t off size => hostRead_changes⟩
  have hreg : regAt off.toNat = .unmapped := regAt_unmapped h4 hmap
  have hne : ∀ r : BitVec 16, r.toNat < 0x034 → off ≠ r := fun r hr e => hmap (.inl (e ▸ hr))
  constructor
  · rw [hostRead_defined h4 (by rw [hreg]; rfl), hreg]; rfl
  · exact write_other h4 (hne 0x008 (by decide)) (hne 0x014 (by decide)) (hne 0x018 (by decide)) v s

/-! ### The binding -/

theorem step_due {s : State} {e : HostEvent} {rest : List HostEvent} (hh : s.host = e :: rest) (hd : e.due s = true) :
    step s = hostAct e.act { s with host := rest } := by
  rw [step, hh]; exact if_pos hd

theorem step_not_due {s : State} {e : HostEvent} {rest : List HostEvent} (hh : s.host = e :: rest)
    (hd : e.due s = false) : step s = coreStep { s with host := e.nearer :: rest } := by
  rw [step, hh]; exact if_neg (by rw [hd]; exact Bool.false_ne_true)

/-- Every action is due on an idle core (R77). -/
theorem HostEvent.due_idle (e : HostEvent) {s : State} (hb : s.busy = false) : e.due s = true := by
  rw [HostEvent.due, hb]; rfl

/-- A binding is not due while a command runs, whatever its lag (R63). -/
theorem HostEvent.bind_not_due {e : HostEvent} {bytes : List Byte} (ha : e.act = .bind bytes) {s : State}
    (hb : s.busy = true) : e.due s = false := by
  rw [HostEvent.due, hb, ha]; exact Bool.and_false _

theorem hostBind_admitted {bytes : List Byte} (h : bytes.length ≤ 2 ^ 32 - 1) (s : State) :
    hostBind bytes s = .next { s with input := bytes, inPos := 0 } := if_pos h

theorem hostBind_tooLong {bytes : List Byte} (h : ¬bytes.length ≤ 2 ^ 32 - 1) (s : State) :
    hostBind bytes s = .fault .bindTooLong := if_neg h

/-! ### No instruction writes the input -/

theorem within_allPieces (todo : List Line) : Within allPieces todo := fun _ _ p _ => mem_allPieces p

theorem Limited.input {ps : List Piece} {s t : State} {o : Host.Outcome State Fault Refusal} (h : Limited ps s o)
    (ht : o = .next t) : t.input = s.input := (h t ht).1.input

/-- A CTRL write that starts a command leaves the input, also where it runs the command to its end (R63). -/
theorem runCommand_input {op : BitVec 4} {body : List Line} {s t : State} (h : runCommand op body s = .next t) :
    t.input = s.input := by
  unfold runCommand at h
  split at h
  · cases h; rfl
  · dsimp only at h
    split at h
    · cases h; rfl
    · exact (coreRun_limited _ _ (fun _ todo _ => within_allPieces todo) h).input

/-- The tag has a next state only at the line that reads it (R183). -/
theorem execTag_awaited {v : Word} {s t : State} (h : execTag v s = .next t) :
    ∃ op rest, s.phase = .running op (.readTag :: rest) := by
  unfold execTag at h
  split at h
  next op rest hp => exact ⟨op, rest, hp⟩
  next => cases h

/-- INTERNAL has a next state only at the line that reads it (R185). -/
theorem execHdrInternal_awaited {s t : State} (h : execHdrInternal s = .next t) :
    ∃ op stack rest, s.phase = .running op (.readNode stack :: rest) := by
  unfold execHdrInternal at h
  split at h
  next op stack rest hp => exact ⟨op, stack, rest, hp⟩
  next => cases h

/-- LEAF has a next state only at the line that reads it (R185). -/
theorem execHdrLeaf_awaited {v : SymField} {s t : State} (h : execHdrLeaf v s = .next t) :
    ∃ op stack rest, s.phase = .running op (.readNode stack :: rest) := by
  unfold execHdrLeaf at h
  split at h
  next op stack rest hp => exact ⟨op, stack, rest, hp⟩
  next => cases h

/-- A word that takes effect in the write step leaves the input if its effect does (R222, R223, R226). -/
theorem input_unless_busy {s t u : State} (hu : u.input = s.input)
    (h : (if s.busy then .next s else .next u : Host.Outcome State Fault Refusal) = .next t) : t.input = s.input := by
  split at h
  · cases h; rfl
  · cases h; exact hu

/-- No instruction writes the input (R63): a command by its lines, a token by the line that reads it. -/
theorem exec_input {i : Instr} {s t : State} (h : exec i s = .next t) : t.input = s.input := by
  cases i with
  | ack => exact input_unless_busy (u := acknowledge s) rfl h
  | illegalOp => exact input_unless_busy (u := illegalWord s) rfl h
  | illegalRsv rsv op => exact input_unless_busy (u := illegalWord s) rfl h
  | tag v =>
    obtain ⟨op, rest, hp⟩ := execTag_awaited h
    exact (execTag_limited v hp (mem_allPieces _) (within_allPieces rest)).input h
  | hdrInternal =>
    obtain ⟨op, stack, rest, hp⟩ := execHdrInternal_awaited h
    exact (execHdrInternal_limited hp (within_allPieces _)).input h
  | hdrLeaf v =>
    obtain ⟨op, stack, rest, hp⟩ := execHdrLeaf_awaited h
    exact (execHdrLeaf_limited v hp (within_allPieces _)).input h
  | compress | decompress | count | build | gen | wtag | whdr | enc | rtag | rhdr | dec | rewind | close | outclr =>
    exact runCommand_input h

/-- Settles O25: a binding is due exactly on an idle core, and nothing the core does writes the input. -/
theorem inputBinding : Obligations.InputBinding := by
  refine ⟨fun s e rest bytes hh ha => ⟨fun hb hlen => ?_, fun hb hlen => ?_, fun hb => ?_⟩, fun _ _ _ => exec_input,
    fun _ _ => coreStep_input⟩
  · rw [step_due hh (e.due_idle hb), ha]; exact hostBind_admitted hlen _
  · rw [step_due hh (e.due_idle hb), ha]; exact hostBind_tooLong hlen _
  · exact step_not_due hh (HostEvent.bind_not_due ha hb)

/-! ### The observation -/

theorem hostObserve_idle {s : State} (hb : s.busy = false) : hostObserve s = .next { s with outSeen := s.output } := by
  rw [hostObserve, hb]; rfl

theorem hostObserve_busy {s : State} (hb : s.busy = true) : hostObserve s =
    .next { s with outSeen := (finalOutput s).take (Config.freePrefix s.draws), draws := s.draws + 1 } := by
  rw [hostObserve, hb]; rfl

/-- `finalOutput` is the output that the run of the command ends with (R80). -/
theorem finalOutput_of_run {s t : State} (h : coreRun (stepBound s) s = .next t) : finalOutput s = t.output := by
  rw [finalOutput, h]

/-- Settles O26: under the invariant the command's run ends (`coreRun_of_inv`), and the host sees the first bytes of its output. -/
theorem outputObservation : Obligations.OutputObservation := by
  refine ⟨fun s => hostObserve_idle, fun s hinv hb => ?_⟩
  obtain ⟨t, ht, hidle⟩ := coreRun_of_inv hinv hb
  refine ⟨t, ht, hidle, _, hostObserve_busy hb, rfl, ?_⟩
  rw [← finalOutput_of_run ht]
  exact List.take_prefix _ _

/-! ### What the core does not see -/

/-- Settles O28: `coreStep_hostOf`, with the fields given one by one as those of a state. -/
theorem hostInvisible : Obligations.HostInvisible := by
  intro s t q host rdata seen draws h
  have hstep := coreStep_hostOf s { s with irqEn := q, host := host, rdata := rdata, outSeen := seen, draws := draws }
  rw [h] at hstep
  exact hstep

end Sys2Proof.Machine
end

section
/-! The encodings (R91 to R98): the decoder of a port reads an encoded instruction back, a CTRL word is the encoding of the
instruction it decodes to, and the header tells where it ends. -/

namespace Sys2Proof.Machine

/-! ### Decoding an encoded instruction -/

/-- The field a decoder reads from the bits of a word is that word (R69). -/
theorem ofNat_bitsVal_msbBits {n : Nat} (v : BitVec n) : BitVec.ofNat n (bitsVal (msbBits n v.toNat)) = v := by
  rw [bitsVal_msbBits, Nat.mod_eq_of_lt v.isLt, BitVec.ofNat_toNat, BitVec.setWidth_eq]

theorem decodeTag_msbBits (v : Word) (more : List Bool) : decodeTag (msbBits 32 v.toNat ++ more) = .instr (.tag v) more := by
  simp [decodeTag, ofNat_bitsVal_msbBits]

theorem decodeToken_leaf (v : SymField) (more : List Bool) :
    decodeToken (true :: (msbBits 9 v.toNat ++ more)) = .instr (.hdrLeaf v) more := by
  simp [decodeToken, ofNat_bitsVal_msbBits]

/-- A row that the host writes to CTRL goes through its word (R91, R92). -/
theorem decode_encode_ctrl {i : Instr} (hp : i.port = .ctrl) (hw : i.wellFormed = true) (more : List Bool) :
    decode i.port (encode i ++ more) = .instr i more := by
  rw [hp, encode_ctrl hp, decode_ctrl_word, decodeCtrl_encode i hw hp]

/-- Settles O2, port by port: a CTRL row by its word, a stream token by its fields. -/
theorem decodeEncode : Obligations.DecodeEncode := by
  intro i hw more
  cases i with
  | tag v => exact decodeTag_msbBits v more
  | hdrInternal => rfl
  | hdrLeaf v => exact decodeToken_leaf v more
  | ack | compress | decompress | count | build | gen | wtag | whdr | enc | rtag | rhdr | dec | rewind | close | outclr
  | illegalOp | illegalRsv => exact decode_encode_ctrl rfl hw more

/-! ### Encoding a decoded CTRL word -/

/-- A CTRL word is its reserved bits followed by its OP (R92). -/
theorem ctrlWord_eq_append (w : Word) : w.extractLsb' 4 28 ++ w.extractLsb' 0 4 = w :=
  (BitVec.extractLsb'_append_extractLsb'_eq_extractLsb' (by rfl)).trans BitVec.extractLsb'_eq_self

theorem decodeCtrl_reserved {w : Word} (h : w.extractLsb' 4 28 ≠ 0) :
    decodeCtrl w = .illegalRsv (w.extractLsb' 4 28) (w.extractLsb' 0 4) := by
  rw [decodeCtrl, if_pos h]

/-- The 16 words of the opcode map (R92). -/
theorem encodeCtrl_decodeCtrl_op : ∀ op : BitVec 4,
    encodeCtrl (decodeCtrl (0#28 ++ op)) = some (0#28 ++ op) ∧ (decodeCtrl (0#28 ++ op)).wellFormed = true := by
  decide

/-- Settles O3: a word with a reserved bit set keeps both its fields, and any other is one of the 16 of the opcode map. -/
theorem encodeDecodeCtrl : Obligations.EncodeDecodeCtrl := by
  intro w
  have happ := ctrlWord_eq_append w
  by_cases h : w.extractLsb' 4 28 = 0
  · rw [← happ, h]
    exact encodeCtrl_decodeCtrl_op _
  · rw [decodeCtrl_reserved h]
    exact ⟨congrArg some happ, bne_iff_ne.mpr h⟩

/-! ### The header -/

/-- Settles O46 by the laws of `headerBits`. -/
theorem headerGrammar : Obligations.HeaderGrammar :=
  ⟨Tree.headerBits_leaf, Tree.headerBits_node, fun t => Nat.eq_sub_of_add_eq t.headerBits_length, Tree.headerBits_prefix⟩

/-! ### Words of the spec -/

/-- Settles O1: each of the nine words is closed, and the decoder computes its instruction. -/
theorem specWordsDecode : Obligations.SpecWordsDecode := by
  unfold Obligations.SpecWordsDecode
  decide

end Sys2Proof.Machine
end

section
/-! The bitstream units (R120 to R133): what a read delivers, how many bits the output holds and in which order, and the
commands that run the units alone. -/

namespace Sys2Proof.Machine

/-! ### Reading -/

/-- The bits of the number that a bit sequence denotes are that sequence, the first bit the most significant (R69). -/
theorem testBit_bitsVal (xs : List Bool) (k : Nat) (h : k < xs.length) :
    (bitsVal xs).testBit (xs.length - 1 - k) = xs[k] := by
  rw [← msbBits_getElem _ _ _ h]
  simp only [msbBits_bitsVal]

theorem bitsFrom_getElem (bytes : List Byte) (p n k : Nat) (h : k < n) :
    (bitsFrom bytes p n)[k]'(by simpa using h) = bitAt bytes (p + k) := by
  simp [bitsFrom]

theorem testBit_bitsVal_bitsFrom (bytes : List Byte) (p : Nat) {n j : Nat} (h : j < n) :
    (bitsVal (bitsFrom bytes p n)).testBit (n - 1 - j) = bitAt bytes (p + j) := by
  have hbit := testBit_bitsVal (bitsFrom bytes p n) j (by simpa using h)
  rwa [bitsFrom_getElem bytes p n j h, bitsFrom_length] at hbit

theorem bitsVal_bitsFrom_lt (bytes : List Byte) (p n : Nat) : bitsVal (bitsFrom bytes p n) < 2 ^ n := by
  simpa using bitsVal_lt (bitsFrom bytes p n)

/-- Settles O32: with enough bits left the value is that of the next `n` bits of the input, and its bits are theirs. -/
theorem readBits_spec : Obligations.ReadBits := by
  refine fun n s => ⟨readBits_none n s, fun h => ⟨bitsVal (bitsFrom s.input s.inPos n), ?_, ?_, fun j hj => ?_⟩⟩
  · rw [readBits, if_neg (Nat.not_lt.mpr h)]
  · exact bitsVal_bitsFrom_lt _ _ _
  · exact testBit_bitsVal_bitsFrom _ _ hj

/-! ### Writing -/

/-- On a byte boundary `close()` does nothing (R127). -/
theorem close_aligned {s : State} (h : s.outNbits = 0) : close s = s := if_pos h

theorem close_outBits (s : State) :
    (close s).outBits = s.outBits ++ List.replicate ((8 - s.outNbits.toNat) % 8) false := by
  rw [close_eq, putBits_outBits]

/-- From an empty output the bits written are all the output holds. -/
theorem putBits_clearOut_outBits (bits : List Bool) (s : State) : (putBits bits (clearOut s)).outBits = bits := by
  rw [putBits_outBits]; rfl

/-- The least number of bytes that the bits written fit in (R129): `close()` rounds up to a byte and leaves no bit pending. -/
theorem close_output_length (s : State) : (close s).output.length = (s.outBits.length + 7) / 8 := by
  have hlen := congrArg List.length (close_outBits s)
  rw [List.length_append, List.length_replicate, outBits_length, close_outNbits, BitVec.ofNat_eq_ofNat,
    BitVec.toNat_zero, outNbits_eq] at hlen
  omega

/-- Bit `k` of `OUT` is the `k`-th bit written (R70). -/
theorem bitAt_output (s : State) {k : Nat} (h : k < 8 * s.output.length) : some (bitAt s.output k) = s.outBits[k]? := by
  rw [State.outBits, List.getElem?_append_left (by simpa using h), bitAt_eq _ _ h, List.getElem?_eq_getElem]

/-- Settles O31: `outBits` is what was written, and its length is the number of bits the output holds. -/
theorem bitAccounting : Obligations.BitAccounting := by
  refine ⟨fun b s => ?_, fun s => ?_, fun bits s => ⟨?_, putBits_frame bits s, fun k hk => ?_⟩⟩
  · rw [← outBits_length, ← outBits_length, putBit_outBits, List.length_append]; rfl
  · rw [← outBits_length, ← outBits_length, close_outBits, List.length_append, List.length_replicate]
  · rw [close_output_length, putBits_clearOut_outBits]
  · rw [bitAt_output _ hk, putBits_clearOut_outBits]

/-! ### The commands -/

/-- A command of one line completes with what the line leaves (R220, R221). -/
theorem runCommand_of_line {op : BitVec 4} {l : Line} {s t : State} (hq : s.quiet)
    (h : Steps 1 (resume op [l] (acknowledge s)) (resume op [] (acknowledge t))) (ht : t.phase = s.phase) :
    runCommand op [l] s = .next t.succeeded :=
  exec_of_stage hq h (by unfold stepBound; omega) (ht.trans hq.1)

theorem exec_rewind {s : State} (hq : s.quiet) : exec .rewind s = .next (s.atPos 0).succeeded :=
  runCommand_of_line hq (rewind_step 0xC [] (acknowledge s)) rfl

theorem exec_outclr {s : State} (hq : s.quiet) : exec .outclr s = .next (clearOut s).succeeded :=
  runCommand_of_line hq (clearOutput_step 0xE [] (acknowledge s)) rfl

theorem exec_close {s : State} (hq : s.quiet) : exec .close s = .next (close s).succeeded :=
  runCommand_of_line hq (close_acknowledge s ▸ closeOutput_step 0xD [] (acknowledge s)) (close_phase s)

theorem status_inEnd (s : State) : s.status.getLsbD 5 = decide (s.inPos = 8 * s.input.length) := getLsbD_status s 5

/-- OUT_PARTIAL is 0 when no bit is pending (R41). -/
theorem status_outPartial_aligned {s : State} (h : s.outNbits = 0) : s.status.getLsbD 6 = false :=
  (getLsbD_status s 6).trans (bne_eq_false_iff_eq.mpr h)

/-- `close()` changes the output only and leaves no bit pending (R127). -/
theorem close_withOutput (s : State) :
    close s = { s with output := (close s).output, outAcc := (close s).outAcc, outNbits := 0 } := by
  conv_lhs => rw [close_frame, State.withOutput, close_outNbits]

/-- Settles O30: each command is one line, whose operation leaves what the rule says. -/
theorem streamCommands : Obligations.StreamCommands := by
  refine fun s hq => ⟨⟨_, exec_rewind hq, rfl, ?_⟩, ⟨_, exec_outclr hq, rfl, status_outPartial_aligned rfl⟩,
    _, exec_close hq, status_outPartial_aligned (close_outNbits s), ?_, close_outBits s, fun h => ?_⟩
  · rw [status_inEnd]
    exact decide_eq_decide.mpr (show 0 = 8 * s.input.length ↔ s.input.length = 0 by omega)
  · exact congrArg State.succeeded (close_withOutput s)
  · rw [close_aligned h]
    exact ⟨rfl, rfl⟩

end Sys2Proof.Machine
end

section
/-! The frequency counter (R140 to R147): what a COUNT that meets the end of the input leaves. -/

namespace Sys2Proof.Machine

/-- COUNT up to its limit of chunks leaves their counts and the position at the end (R140, R142, R144). -/
theorem exec_count {s : State} (hq : s.quiet) (hi : s.inPos ≤ 8 * s.input.length) (hm : s.chunkCount ≤ 2 ^ 32 - 2) :
    exec .count s = .next (({ s with freq := s.counts } : State).atPos (8 * s.input.length)).succeeded := by
  have hrun := count_stage 0x3 [] (s := acknowledge s) hm hi
  rw [counts_acknowledge] at hrun
  have hbound : s.chunkCount + 3 + 1 ≤ stepBound s := by unfold State.chunkCount stepBound; omega
  exact exec_of_stage hq hrun hbound ((atPos_phase _ _).trans hq.1)

/-- Settles O33: the table left is `State.counts`, whose entries are exact because no more than `2^32 - 2` chunks are read. -/
theorem countResult : Obligations.CountResult := by
  intro s hq hi hm
  refine ⟨_, exec_count hq hi hm, ?_, counts_eof s, fun v => counts_toNat hm⟩
  simp only [State.succeeded, State.atPos]

end Sys2Proof.Machine
end

section
/-! The tree builder (R150 to R163): which symbols get leaves, which entry the queue serves, and what BUILD leaves. -/

namespace Sys2Proof.Machine

/-! ### The queue -/

/-- The entry that `pqLeast` chooses comes strictly before every other when the sequence numbers are distinct (R150, R153). -/
theorem pqLeast_before {es : List PqEntry} {e : PqEntry} (h : pqLeast es = some e)
    (hd : es.Pairwise fun a b => a.seq ≠ b.seq) : ∀ f ∈ es, f ≠ e →
      e.weight.toNat < f.weight.toNat ∨ (e.weight = f.weight ∧ e.seq.toNat < f.seq.toNat) := by
  intro f hf hne
  obtain ⟨he, hmin⟩ := pqLeast_spec es e h
  have hseq : f.seq.toNat ≠ e.seq.toNat := fun heq => pairwise_ne hd f hf e he hne (BitVec.eq_of_toNat_eq heq)
  have hnot := hmin f hf
  rw [Bool.eq_false_iff, ne_eq, before_iff] at hnot
  rw [← BitVec.toNat_inj]
  omega

theorem pqPop_least {s : State} {e : PqEntry} (h : pqLeast s.pq = some e)
    (k : PqEntry → State → Host.Outcome State Fault Refusal) : pqPop s k = k e { s with pq := s.pq.erase e } := by
  rw [pqPop, h]

/-- Settles O36: a queue that is not empty has a least entry, and distinct sequence numbers make it the only one. -/
theorem popServesLeast : Obligations.PopServesLeast := by
  intro s hne hd
  obtain ⟨e, he⟩ := Option.ne_none_iff_exists'.mp (mt (pqLeast_none s.pq).mp hne)
  exact ⟨e, (pqLeast_spec s.pq e he).1, pqLeast_before he hd, pqPop_least he⟩

/-! ### Which symbols get leaves -/

theorem mem_countedSymbols {freq : Vector Word 257} {x : Symbol} : x ∈ countedSymbols freq ↔ freq[x] ≠ 0 := by
  simp [countedSymbols, allSymbols]

theorem countedSymbols_sorted (freq : Vector Word 257) : (countedSymbols freq).Pairwise (· < ·) :=
  (List.pairwise_lt_finRange 257).filter _

theorem leafSymbols_sorted (freq : Vector Word 257) : (leafSymbols freq).Pairwise (· < ·) := by
  obtain ⟨x, f, -, -, hne, e⟩ | ⟨-, e⟩ := leafSymbols_cases freq
  · rw [e]; exact insert_sorted f x hne
  · rw [e]; exact countedSymbols_sorted freq

/-- The filler is the first symbol with count 0 (R157). -/
theorem fillerSymbol_least {freq : Vector Word 257} {f : Symbol} (h : fillerSymbol freq = some f) :
    ∀ z < f, freq[z] ≠ 0 := by
  intro z hz
  obtain ⟨-, i, hi, rfl, hbefore⟩ := List.find?_eq_some_iff_getElem.mp h
  have hz' : z.val < i := by simpa [allSymbols, Fin.lt_def] using hz
  simpa [allSymbols] using hbefore z.val hz'

/-- An uncounted symbol gets a leaf only as the filler beside a single counted one (R157). -/
theorem uncounted_leaf {freq : Vector Word 257} {x : Symbol} (hx : x ∈ leafSymbols freq) (h0 : freq[x] = 0) :
    fillerSymbol freq = some x ∧ ∃ y, countedSymbols freq = [y] := by
  obtain ⟨y, f, hy, hf, -, e⟩ | ⟨-, e⟩ := leafSymbols_cases freq
  · rw [e, (insertAscending_perm _ _).mem_iff, List.mem_cons, List.mem_singleton] at hx
    obtain rfl | rfl := hx
    · exact ⟨hf, y, hy⟩
    · exact absurd h0 (mem_countedSymbols.mp (hy ▸ List.mem_singleton_self x))
  · exact absurd h0 (mem_countedSymbols.mp (e ▸ hx))

theorem leafSymbols_eq_nil_iff (freq : Vector Word 257) : leafSymbols freq = [] ↔ ∀ x : Symbol, freq[x] = 0 := by
  refine ⟨fun h => ?_, leafSymbols_nil⟩
  by_contra hne
  exact leaves_ne (not_forall.mp hne) h

/-- Settles O35: the leaves are the counted symbols, with the filler beside a single one. -/
theorem leafOrder : Obligations.LeafOrder := by
  refine fun freq => ⟨leafSymbols_sorted freq, fun x => mem_leafSymbols, fun x hx h0 => ?_, leafSymbols_eq_nil_iff freq,
    fun h1 => ?_⟩
  · obtain ⟨hf, y, hy⟩ := uncounted_leaf hx h0
    refine ⟨⟨y, fun z => ?_⟩, fillerSymbol_least hf⟩
    rw [← mem_countedSymbols, hy, List.mem_singleton]
  · have h2 := leafSymbols_two (List.length_pos_iff.mp (h1 ▸ Nat.one_pos))
    omega

/-! ### BUILD -/

/-- Settles O37: the run of the body is `build_steps`, from the state with the last record cleared. -/
theorem buildResult : Obligations.BuildResult := by
  intro s hq hx
  have hbound : 2 * (leafSymbols s.freq).length + 4 + 1 ≤ stepBound s := by
    have := leafSymbols_length s.freq
    unfold stepBound; omega
  exact exec_of_stage hq (build_steps 0x4 [] (s := acknowledge s) (leaves_ne hx)).1 hbound hq.1

/-- The state in which BUILD finds an empty table: the flags, the arena and the queue are cleared (R156, R163). -/
def State.buildCleared (s : State) : State := pqClear (clearArena { s with treeValid := false, codesValid := false })

/-- On an empty table the body raises EMPTY_INPUT before any push (R163). -/
theorem build_steps_empty (op : BitVec 4) (rest : List Line) {s : State} (hx : leafSymbols s.freq = []) :
    Steps 3 (resume op (buildBody ++ rest) s) (raiseError .emptyInput s.buildCleared) := by
  refine (clearFlags_steps op (.buildClear :: rest) s).trans (Steps.one rfl ?_)
  have hx' : leafSymbols (resume op (.buildClear :: rest) { s with treeValid := false, codesValid := false }).freq = [] := hx
  simp only [performLine, lineBuildClear, hx']
  rfl

/-- Settles O40: no symbol gets a leaf, so the body stops at its third line. -/
theorem emptyTable : Obligations.EmptyTable := by
  refine ⟨fun s hq h0 => ?_, fun x => Vector.getElem_replicate x.isLt⟩
  have hbound : 3 ≤ stepBound s := by unfold stepBound; omega
  exact exec_of_raise (t := s.buildCleared) hq (build_steps_empty 0x4 [] (s := acknowledge s) (leafSymbols_nil h0)) hbound
    hq.1

/-! ### The records BUILD leaves -/

theorem builtNodes_length {freq : Vector Word 257} (h : leafSymbols freq ≠ []) :
    (builtNodes freq).length = 2 * (leafSymbols freq).length - 1 :=
  (build_steps 0 [] (s := { State.reset with freq := freq }) h).2

theorem built_node_getElem (s : State) (j : Fin 513) : s.built.node[j] = ((builtNodes s.freq)[j.val]?).getD Node.zero := by
  simp [arenaOf]

theorem built_nodeCount_toNat (s : State) : s.built.nodeCount.toNat = 2 * (leafSymbols s.freq).length - 1 := by
  have := leafSymbols_length s.freq
  rw [built_nodeCount, BitVec.toNat_ofNat]; omega

theorem built_root_toNat (s : State) : s.built.root.toNat = 2 * (leafSymbols s.freq).length - 2 := by
  have := leafSymbols_length s.freq
  rw [built_root, BitVec.toNat_ofNat]; omega

/-- The first records are the leaves in order (R158, R160). -/
theorem builtNodes_leaf {freq : Vector Word 257} {j : Nat} {x : Symbol} (h : (leafSymbols freq)[j]? = some x) :
    (builtNodes freq)[j]? = some (leafNode x freq[x]) := by
  obtain ⟨ms, e, -⟩ := builtNodes_split freq
  have hj : j < (buildLeaves freq).length := by
    rw [buildLeaves, List.length_map]
    exact (List.getElem?_eq_some_iff.mp h).1
  rw [e, List.getElem?_append_left hj, buildLeaves, List.getElem?_map, h]
  rfl

/-- The sum of the counts of a list of symbols, as a number. -/
def countsOf (freq : Vector Word 257) (xs : List Symbol) : Nat := (xs.map fun x => (freq[x]).toNat).sum

theorem countsOf_append (freq : Vector Word 257) (xs ys : List Symbol) :
    countsOf freq (xs ++ ys) = countsOf freq xs + countsOf freq ys := by
  simp [countsOf]

theorem countsOf_perm (freq : Vector Word 257) {xs ys : List Symbol} (h : xs.Perm ys) :
    countsOf freq xs = countsOf freq ys := (h.map _).sum_eq

theorem countsOf_leafSymbols (freq : Vector Word 257) : countsOf freq (leafSymbols freq) = countsOf freq allSymbols :=
  leafSymbols_sum freq

/-- The weight of a record is the sum of its children's as a number: no addition wraps (R162). -/
def ExactWeight (nodes : List Node) (n : Node) : Prop :=
  ∀ v w, weightAt nodes n.left = some v → weightAt nodes n.right = some w → n.weight.toNat = v.toNat + w.toNat

/-- The records after the leaves are merges, exact where the counts sum to less than `2^32` (R160, R162). -/
theorem builtNodes_merge {freq : Vector Word 257} {j : Nat} {n : Node} (hj : (leafSymbols freq).length ≤ j)
    (h : (builtNodes freq)[j]? = some n) : Merges (builtNodes freq) j n ∧
      (countsOf freq allSymbols < 2 ^ 32 → ExactWeight (builtNodes freq) n) := by
  obtain ⟨ms, e, hms⟩ := builtNodes_split freq
  have hlen : (buildLeaves freq).length = (leafSymbols freq).length := List.length_map _
  rw [e, List.getElem?_append_right (hlen ▸ hj), hlen] at h
  have hm := hms _ n h
  rwa [Nat.add_sub_cancel' hj] at hm

/-- Settles O38: the records by `builtNodes_leaf` and `builtNodes_merge`, the tree by `built_holds`. -/
theorem buildTree : Obligations.BuildTree := by
  intro s hx
  have hne := leaves_ne hx
  have hlen := builtNodes_length hne
  refine ⟨_, rfl, leafSymbols_two hne, leafSymbols_length _, built_nodeCount_toNat s, built_root_toNat s, fun j x hj => ?_,
    fun j hnj hj => ?_, fun j hj => ?_, ?_⟩
  · rw [built_node_getElem, builtNodes_leaf hj]; rfl
  · have hget := List.getElem?_eq_getElem (hlen.symm ▸ hj)
    have hm := (builtNodes_merge hnj hget).1
    rw [built_node_getElem, hget]
    exact ⟨hm.isLeaf, hm.sym, hm.left, hm.right⟩
  · rw [built_node_getElem, List.getElem?_eq_none (hlen.symm ▸ hj)]; rfl
  · obtain ⟨t, is, hH, hL, -, hI⟩ := built_holds s hne
    exact ⟨t, is, hH, hI, hL⟩

/-! ### The weights -/

theorem weightAt_built {s : State} (hne : leafSymbols s.freq ≠ []) {i : NodeIdx}
    (hi : i.toNat < 2 * (leafSymbols s.freq).length - 1) :
    weightAt (builtNodes s.freq) i = (s.built.nodeAt i).map Node.weight := by
  rw [built_nodeAt hne hi, weightAt]

/-- A leaf's weight is its symbol's count (R158). -/
theorem built_leaf_weight {s : State} (hne : leafSymbols s.freq ≠ []) {i : NodeIdx} {n : Node} {x : Symbol}
    (hi : i.toNat < 2 * (leafSymbols s.freq).length - 1) (hn : s.built.nodeAt i = some n) (hl : n.isLeaf = true)
    (hx : n.sym = symbolField x) : n.weight = s.freq[x] := by
  rw [built_nodeAt hne hi] at hn
  obtain hlt | hge := Nat.lt_or_ge i.toNat (leafSymbols s.freq).length
  · rw [builtNodes_leaf (List.getElem?_eq_getElem hlt), Option.some.injEq] at hn
    subst hn
    rw [← symbolField_inj hx]
    rfl
  · have := (builtNodes_merge hge hn).1.isLeaf
    rw [hl] at this
    cases this

/-- A record that is no leaf has its children before it, and its weight is the sum of theirs (R160, R162). -/
theorem built_internal_weight {s : State} (hne : leafSymbols s.freq ≠ [])
    (hsum : countsOf s.freq allSymbols < 2 ^ 32) {i : NodeIdx} {n : Node}
    (hi : i.toNat < 2 * (leafSymbols s.freq).length - 1) (hn : s.built.nodeAt i = some n) (hl : n.isLeaf = false) :
    n.left.toNat < i.toNat ∧ n.right.toNat < i.toNat ∧ ∃ a b, s.built.nodeAt n.left = some a ∧
      s.built.nodeAt n.right = some b ∧ n.weight.toNat = a.weight.toNat + b.weight.toNat := by
  rw [built_nodeAt hne hi] at hn
  obtain hlt | hge := Nat.lt_or_ge i.toNat (leafSymbols s.freq).length
  · rw [builtNodes_leaf (List.getElem?_eq_getElem hlt), Option.some.injEq] at hn
    subst hn
    cases hl
  · obtain ⟨hm, hexact⟩ := builtNodes_merge hge hn
    obtain ⟨v, w, hv, hw, -⟩ := hm.weight
    have hweight := hexact hsum v w hv hw
    rw [weightAt_built hne (hm.left.trans hi), Option.map_eq_some_iff] at hv
    rw [weightAt_built hne (hm.right.trans hi), Option.map_eq_some_iff] at hw
    obtain ⟨a, ha, rfl⟩ := hv
    obtain ⟨b, hb, rfl⟩ := hw
    exact ⟨hm.left, hm.right, a, b, ha, hb, hweight⟩

/-- By induction on the tree: the weight of its root's record is the sum of the counts of its leaves (R162). -/
theorem built_weight {s : State} (hne : leafSymbols s.freq ≠ [])
    (hsum : countsOf s.freq allSymbols < 2 ^ 32) {i : NodeIdx} {t : Tree} {is : List NodeIdx}
    (hH : s.built.Holds i t is) : ∀ n, i.toNat < 2 * (leafSymbols s.freq).length - 1 → s.built.nodeAt i = some n →
      n.weight.toNat = countsOf s.freq t.leaves := by
  induction hH with
  | leaf hn hl hx =>
    intro m hi hm
    cases hn.symm.trans hm
    simp [Tree.leaves, countsOf, built_leaf_weight hne hi hn hl hx]
  | node hn hl _ _ ihl ihr =>
    intro m hi hm
    cases hn.symm.trans hm
    obtain ⟨hleft, hright, a, b, ha, hb, hweight⟩ := built_internal_weight hne hsum hi hn hl
    rw [hweight, ihl a (hleft.trans hi) ha, ihr b (hright.trans hi) hb, Tree.leaves, countsOf_append]

/-- The root's weight is the sum of all counts (R162). -/
theorem built_root_weight {s : State} (hne : leafSymbols s.freq ≠ [])
    (hsum : countsOf s.freq allSymbols < 2 ^ 32) :
    ∃ n, s.built.nodeAt s.built.root = some n ∧ n.weight.toNat = countsOf s.freq allSymbols := by
  obtain ⟨t, is, hH, hL, hN, -⟩ := built_holds s hne
  obtain ⟨n, hn, -⟩ := hH.root_isLeaf hN
  have hi : s.built.root.toNat < 2 * (leafSymbols s.freq).length - 1 := by
    have := leafSymbols_two hne
    rw [built_root_toNat]; omega
  refine ⟨n, hn, ?_⟩
  rw [built_weight hne hsum hH n hi hn, countsOf_perm _ hL, countsOf_leafSymbols]

/-- Settles O39: the weights by `built_weight`, and the counts of a completed COUNT by `counts_sum`. -/
theorem buildWeights : Obligations.BuildWeights := by
  refine ⟨fun s hle hx => ?_, fun s _ hm => ?_⟩
  · have hne := leaves_ne hx
    have hsum : countsOf s.freq allSymbols < 2 ^ 32 := Nat.lt_of_le_pred (by decide) hle
    refine ⟨fun i t is n hi hH => ?_, built_root_weight hne hsum⟩
    rw [built_nodeCount_toNat] at hi
    exact built_weight hne hsum hH n hi
  · exact (counts_sum hm).trans (Nat.succ_le_succ hm)

end Sys2Proof.Machine
end

section
/-! GEN (R170 to R176): it completes with the code table of the tree in the arena, and what that table holds for each
symbol. -/

namespace Sys2Proof.Machine

/-! ### The run -/

/-- Settles O41: the run of the body is `gen_stage`, from the state with the last record cleared. -/
theorem genResult : Obligations.GenResult := by
  intro s t is hq hv hH hsize
  obtain ⟨k, hk, hrun⟩ := gen_stage 0x5 [] (s := acknowledge s) hv (hH.congr rfl)
  have hbound : k + 1 ≤ stepBound s := by
    have := treeSize_bound hsize s
    omega
  exact exec_of_stage (t := s.withCodes t) hq hrun hbound hq.1

/-! ### The rightmost path of a symbol -/

/-- The path of a symbol's rightmost leaf (R171, R174). -/
def Tree.lastPath (t : Tree) (x : Symbol) : Option (List Bool) :=
  (t.paths.reverse.find? fun c => c.1 == x).map Prod.snd

theorem Tree.mem_paths_of_lastPath {t : Tree} {x : Symbol} {p : List Bool} (h : t.lastPath x = some p) :
    (x, p) ∈ t.paths := by
  obtain ⟨⟨y, q⟩, hfind, rfl⟩ := Option.map_eq_some_iff.mp h
  obtain rfl : y = x := by simpa using List.find?_some hfind
  exact List.mem_reverse.mp (List.mem_of_find?_eq_some hfind)

theorem Tree.lastPath_eq_none_iff {t : Tree} {x : Symbol} : t.lastPath x = none ↔ x ∉ t.leaves := by
  simp only [lastPath, Option.map_eq_none_iff, List.find?_eq_none, List.mem_reverse, beq_iff_eq, ← t.paths_map_fst,
    List.mem_map, not_exists, not_and]

/-- A path from a root that has children takes a step (R173). -/
theorem Tree.path_length_pos {t : Tree} (hn : t.isNode = true) : ∀ c ∈ t.paths, 1 ≤ c.2.length := by
  cases t with
  | leaf x => cases hn
  | node l r =>
    intro c hc
    simp only [Tree.paths, List.mem_append, List.mem_map] at hc
    obtain ⟨d, -, rfl⟩ | ⟨d, -, rfl⟩ := hc <;> exact Nat.succ_pos _

theorem Tree.codes_eq_paths {t : Tree} (hn : t.isNode = true) : t.codes = t.paths := by
  cases t with
  | leaf x => cases hn
  | node l r => rfl

/-! ### The entries of the table -/

theorem withCodes_codelen_getElem (s : State) {t : Tree} (hn : t.isNode = true) (x : Symbol) :
    (s.withCodes t).codelen[x] = BitVec.ofNat 9 ((t.lastPath x).getD []).length := by
  rw [withCodes_codelen, codeLengths, foldl_last fun c => BitVec.ofNat 9 c.2.length, Tree.codes_eq_paths hn, Tree.lastPath]
  cases t.paths.reverse.find? fun c => c.1 == x <;> simp

theorem withCodes_codebits_getElem (s : State) {t : Tree} (hn : t.isNode = true) (x : Symbol) :
    (s.withCodes t).codebits[x] = BitVec.ofNat 256 (bitsVal ((t.lastPath x).getD [])) := by
  rw [withCodes_codebits, codePatterns, foldl_last fun c => BitVec.ofNat 256 (bitsVal c.2), Tree.codes_eq_paths hn,
    Tree.lastPath]
  cases t.paths.reverse.find? fun c => c.1 == x <;> simp [bitsVal]

/-- A tree of at most 513 nodes has no path longer than 256 steps (R176). -/
theorem Tree.lastPath_length_le {t : Tree} (hsize : t.size ≤ 513) (x : Symbol) : ((t.lastPath x).getD []).length ≤ 256 := by
  cases h : t.lastPath x with
  | none => exact Nat.zero_le _
  | some p =>
    have : 2 * p.length + 1 ≤ t.size := t.path_length_le _ (mem_paths_of_lastPath h)
    show p.length ≤ 256
    omega

theorem withCodes_codelen_toNat (s : State) {t : Tree} (hn : t.isNode = true) (hsize : t.size ≤ 513) (x : Symbol) :
    ((s.withCodes t).codelen[x]).toNat = ((t.lastPath x).getD []).length := by
  have := Tree.lastPath_length_le hsize x
  rw [withCodes_codelen_getElem s hn, BitVec.toNat_ofNat, Nat.mod_eq_of_lt (by omega)]

/-- The pattern of a path of at most 256 bits loses none of them in the table (R24, R171). -/
theorem withCodes_codeOf (s : State) {t : Tree} (hn : t.isNode = true) (hsize : t.size ≤ 513) (x : Symbol) :
    (s.withCodes t).codeOf x = (t.lastPath x).getD [] := by
  rw [State.codeOf, withCodes_codelen_toNat s hn hsize, withCodes_codebits_getElem s hn, BitVec.toNat_ofNat,
    msbBits_mod (Tree.lastPath_length_le hsize x), msbBits_bitsVal]

/-! ### What the table says of a symbol -/

/-- The code of a symbol with a leaf has a bit, and no more bits than there are other leaves (R173, R176). -/
theorem withCodes_codelen_of_leaf (s : State) {t : Tree} (hn : t.isNode = true) (hsize : t.size ≤ 513) {x : Symbol}
    (hx : x ∈ t.leaves) :
    1 ≤ ((s.withCodes t).codelen[x]).toNat ∧ ((s.withCodes t).codelen[x]).toNat ≤ t.leaves.length - 1 := by
  obtain ⟨p, hp⟩ := Option.ne_none_iff_exists'.mp (mt Tree.lastPath_eq_none_iff.mp (not_not_intro hx))
  have hmem := Tree.mem_paths_of_lastPath hp
  have hpos : 1 ≤ p.length := Tree.path_length_pos hn _ hmem
  have hle : 2 * p.length + 1 ≤ t.size := t.path_length_le _ hmem
  have hsz := t.size_eq
  rw [withCodes_codelen_toNat s hn hsize, hp, Option.getD_some]
  omega

/-- A symbol with no leaf has no code (R173). -/
theorem withCodes_of_no_leaf (s : State) {t : Tree} (hn : t.isNode = true) {x : Symbol} (hx : x ∉ t.leaves) :
    (s.withCodes t).codelen[x] = 0 ∧ (s.withCodes t).codebits[x] = 0 := by
  rw [withCodes_codelen_getElem s hn, withCodes_codebits_getElem s hn, Tree.lastPath_eq_none_iff.mpr hx]
  exact ⟨rfl, rfl⟩

/-- With distinct symbols the code of one does not begin the code of another: a walk along a code stops at its symbol's
leaf (R175). -/
theorem withCodes_prefixFree (s : State) {t : Tree} (hn : t.isNode = true) (hsize : t.size ≤ 513) (hnd : t.leaves.Nodup)
    {x y : Symbol} (hx : x ∈ t.leaves) (hy : y ∈ t.leaves)
    (hpre : (s.withCodes t).codeOf x <+: (s.withCodes t).codeOf y) : x = y := by
  obtain ⟨q, hq⟩ := hpre
  have hwx := code_walk (s := s) hn hnd hsize hx
  have hwy := code_walk (s := s) hn hnd hsize hy
  rw [← hq] at hwy
  rw [t.walk_prefix _ q x y hwx hwy, List.append_nil, hwx] at hwy
  exact Option.some.inj hwy

/-- Settles O42: the entry of a symbol is the path of its rightmost leaf (`withCodes_codeOf`), and the walks along two codes
of distinct leaves part. -/
theorem genCodes : Obligations.GenCodes := by
  intro s t hn hsize
  refine ⟨fun x => ⟨withCodes_codeOf s hn hsize x, ?_, fun hx => ?_, withCodes_of_no_leaf s hn⟩,
    fun hnd _ _ => withCodes_prefixFree s hn hsize hnd⟩
  · rw [withCodes_codelen_toNat s hn hsize, withCodes_codeOf s hn hsize]
  · obtain ⟨hpos, hle⟩ := withCodes_codelen_of_leaf s hn hsize hx
    exact ⟨hpos, codeLengths_le hsize x, hle⟩

end Sys2Proof.Machine
end

section
/-! The tag and header codec, write side and round trip (R180 to R182, R184, R191): what WTAG, WHDR and RHDR leave on a
tree's header. -/

namespace Sys2Proof.Machine

/-! ### Bits written -/

/-- The record of a command is no part of the bits it has written (R31). -/
theorem succeeded_putBits_outBits (bits : List Bool) (s : State) : (putBits bits s).succeeded.outBits = s.outBits ++ bits :=
  putBits_outBits bits s

/-- Whole bytes of bits leave the number of pending bits, and change the output only (R129). -/
theorem succeeded_putBits_whole_bytes {bits : List Bool} (h : bits.length % 8 = 0) (s : State) :
    (putBits bits s).succeeded = { s with
      output := (putBits bits s).succeeded.output, outAcc := (putBits bits s).succeeded.outAcc, outNbits := s.outNbits
      done := true, err := false, errcode := 0 } := by
  conv_lhs => rw [putBits_frame, State.withOutput, outNbits_putBits_mod bits s h]
  rfl

/-- On a byte boundary the bits of some bytes append those bytes to `OUT` (R70). -/
theorem putBits_byteBits_output {s : State} (h : s.outNbits = 0) (bytes : List Byte) :
    (putBits (byteBits bytes) s).output = s.output ++ bytes := by
  have hn : (putBits (byteBits bytes) s).outNbits = 0 := (outNbits_putBits_mod _ s (by simp)).trans h
  apply byteBits_inj
  rw [← outBits_aligned _ hn, putBits_outBits, outBits_aligned s h, byteBits_append]

/-! ### WTAG -/

theorem exec_wtag {s : State} (hq : s.quiet) :
    exec .wtag s = .next (putBits (msbBits 32 s.tag.toNat) s).succeeded :=
  runCommand_of_line hq ((wtag_stage 0x6 [] (acknowledge s)).to (congrArg _ (putBits_acknowledge _ s))) (putBits_phase _ s)

/-- Settles O44: the 32 bits are four whole bytes, those of `tagBytes`. -/
theorem wtagResult : Obligations.WtagResult := by
  refine fun s hq => ⟨_, exec_wtag hq, succeeded_putBits_whole_bytes (by simp) s, succeeded_putBits_outBits _ s,
    fun h => ?_⟩
  rw [succeeded_output, ← tagBytes]
  exact putBits_byteBits_output h _

/-! ### WHDR -/

theorem exec_whdr {s : State} (hq : s.quiet) (hv : s.treeValid = true) {t : Tree} {is : List NodeIdx}
    (hH : s.Holds s.root t is) (hsize : t.size ≤ 513) : exec .whdr s = .next (putBits t.headerBits s).succeeded := by
  have hrun := whdr_stage 0x7 [] (s := acknowledge s) hv (hH.congr rfl)
  rw [putBits_acknowledge] at hrun
  have hbound : t.size + t.leaves.length + 1 + 1 ≤ stepBound s := by
    have := treeSize_bound hsize s
    omega
  exact exec_of_stage hq hrun hbound ((putBits_phase _ s).trans hq.1)

/-- Settles O45: the header's length is `Tree.headerBits_length`. -/
theorem whdrResult : Obligations.WhdrResult := fun s t _ hq hv hH hsize =>
  ⟨exec_whdr hq hv hH hsize, putBits_outBits t.headerBits s, Nat.eq_sub_of_add_eq t.headerBits_length⟩

/-! ### RHDR on a header -/

theorem exec_rhdr {s : State} (hq : s.quiet) {t : Tree} {more : List Bool} (hb : s.inBits = t.headerBits ++ more)
    (hn : t.isNode = true) (hsize : t.size ≤ 513) :
    exec .rhdr s = .next (s.withTree t t.headerBits.length).succeeded := by
  have hbound : t.size + 4 + 1 ≤ stepBound s := by
    have := treeSize_bound hsize s
    omega
  exact exec_of_stage (t := s.withTree t t.headerBits.length) hq (rhdr_stage 0xA [] (s := acknowledge s) hn hb hsize) hbound
    hq.1

theorem withTree_holds (s : State) {t : Tree} (hsize : t.size ≤ 513) (n : Nat) :
    (s.withTree t n).Holds 0 t (indices t.size) := headerArena_holds t hsize _ rfl

/-- Every record of an arena read from a header has weight 0 (R186). -/
theorem headerArena_weight (t : Tree) (j : Fin 513) : (headerArena t)[j].weight = 0 := by
  simp only [headerArena, arenaOf, Fin.getElem_fin, Vector.getElem_ofFn]
  cases h : (t.records 0)[j.val]? with
  | none => rfl
  | some n => exact records_weight t 0 n (List.mem_of_getElem? h)

/-- Settles O48: the run is `rhdr_stage`, and the arena it leaves is `headerArena`. -/
theorem rhdrResult : Obligations.RhdrResult := fun s t _ hq hb hn hsize =>
  ⟨exec_rhdr hq hb hn hsize, withTree_holds s hsize _, headerArena_weight t⟩

/-! ### The round trip -/

theorem State.quiet.built {s : State} (h : s.quiet) : s.built.succeeded.quiet := h

/-- Settles O50: BUILD leaves a tree (`built_holds`), WHDR writes its header, and RHDR reads a tree of that header, which is
the same tree. -/
theorem headerRoundTrip : Obligations.HeaderRoundTrip := by
  intro s hq hx
  obtain ⟨t, is, hH, hleaves, hn, -⟩ := built_holds s (leaves_ne hx)
  have hsize := tree_size_of_leaves hleaves
  have hH' : s.built.succeeded.Holds s.built.succeeded.root t is := hH.congr rfl
  refine ⟨_, buildResult s hq hx, t, is, t.headerBits, _, hH', exec_whdr hq.built rfl hH' hsize, rfl,
    succeeded_putBits_outBits _ _, fun u more hu hb => ?_⟩
  exact ⟨_, indices t.size, exec_rhdr hu hb hn hsize, rfl, rfl, rfl, (withTree_holds u hsize t.headerBits.length).congr rfl⟩

end Sys2Proof.Machine
end

section
/-! RTAG and the stream tokens (R183, R185, R187, R188): the step at the line that awaits a token is the token's meaning, and
what each token does there and elsewhere. -/

namespace Sys2Proof.Machine

/-! ### The step at a line that awaits a token -/

/-- The token at the read of a node is the one the unread input starts with (R185). -/
theorem coreStep_readNode {s : State} {op : BitVec 4} {stack : List Frame} {rest : List Line} {i : Instr} {more : List Bool}
    (hp : s.phase = .running op (.readNode stack :: rest)) (hb : s.inBits = encode i ++ more)
    (hi : i = .hdrInternal ∨ ∃ v, i = .hdrLeaf v) : coreStep s = exec i s := by
  rw [coreStep_line hp]
  obtain rfl | ⟨v, rfl⟩ := hi
  · obtain ⟨_, ht⟩ := tokenAt_internal hb
    simp only [performLine, lineReadNode, ht, exec]
  · obtain ⟨_, ht⟩ := tokenAt_leaf hb
    simp only [performLine, lineReadNode, ht, exec]

/-- The tag at the read of the tag is the one the unread input starts with (R183). -/
theorem coreStep_readTag {s : State} {op : BitVec 4} {rest : List Line} {t : Word} {more : List Bool}
    (hp : s.phase = .running op (.readTag :: rest)) (hb : s.inBits = encode (.tag t) ++ more) :
    coreStep s = exec (.tag t) s := by
  obtain ⟨_, ht⟩ := tagAt_full (bits := msbBits 32 t.toNat) hb (msbBits_length 32 _)
  rw [ofNat_bitsVal_msbBits] at ht
  rw [coreStep_line hp]
  simp only [performLine, lineReadTag, ht, exec]

/-- Settles O6: a pending action that is not due leaves the step to the core, which the host's side does not touch. -/
theorem stepRunsToken : Obligations.StepRunsToken := by
  intro s op rest i more hb hline
  have hcore : ∀ es, coreStep { s with host := es } = exec i { s with host := es } := fun es => by
    obtain ⟨⟨stack, hp⟩, hi⟩ | ⟨hp, t, rfl⟩ := hline
    · exact coreStep_readNode hp hb hi
    · exact coreStep_readTag hp hb
  refine ⟨fun h => ?_, fun e es h hd => ?_⟩
  · rw [step, h]
    exact hcore s.host
  · simp only [step, h, hd, Bool.false_eq_true, if_false]
    exact hcore _

/-! ### Tokens that no line awaits -/

theorem execTag_unawaited {s : State} (h : ¬∃ op rest, s.phase = .running op (.readTag :: rest)) (v : Word) :
    execTag v s = .fault .tokenNotAwaited := by
  unfold execTag
  split
  next hp => exact absurd ⟨_, _, hp⟩ h
  next => rfl

theorem execHdrInternal_unawaited {s : State} (h : ¬∃ op stack rest, s.phase = .running op (.readNode stack :: rest)) :
    execHdrInternal s = .fault .tokenNotAwaited := by
  unfold execHdrInternal
  split
  next hp => exact absurd ⟨_, _, _, hp⟩ h
  next => rfl

theorem execHdrLeaf_unawaited {s : State} (h : ¬∃ op stack rest, s.phase = .running op (.readNode stack :: rest))
    (v : SymField) : execHdrLeaf v s = .fault .tokenNotAwaited := by
  unfold execHdrLeaf
  split
  next hp => exact absurd ⟨_, _, _, hp⟩ h
  next => rfl

/-! ### The tag -/

/-- Settles O51: `execTag_running` where RTAG's line awaits the tag, and the fault everywhere else. -/
theorem tagToken : Obligations.TagToken := by
  refine ⟨fun s op rest v hp => ⟨fun hv => ?_, fun hv => ⟨_, ?_, rfl, rfl⟩⟩, fun s => ⟨execTag_unawaited, fun h =>
    ⟨execHdrInternal_unawaited h, execHdrLeaf_unawaited h⟩⟩⟩
  · exact (execTag_running hp).trans (if_neg (not_not.mpr hv))
  · exact (execTag_running hp).trans (if_pos hv)

theorem exec_rtag_match {s : State} (hq : s.quiet) {more : List Bool} (hb : s.inBits = msbBits 32 s.tag.toNat ++ more) :
    exec .rtag s = .next (s.atPos (s.inPos + 32)).succeeded :=
  runCommand_of_line hq (rtag_stage 0x9 [] (s := acknowledge s) hb) rfl

/-- RTAG where its line raises BAD_HEADER_TAG with the input read to `p` (R183). -/
theorem exec_rtag_raise {s : State} (hq : s.quiet) {p : Nat}
    (h : Steps 2 (resume 0x9 (rtagBody ++ []) (acknowledge s)) (raiseError .badHeaderTag ((acknowledge s).atPos p))) :
    exec .rtag s = .next ((s.atPos p).failed .badHeaderTag) :=
  exec_of_raise (t := s.atPos p) hq h (by unfold stepBound; omega) hq.1

/-- Settles O47: the three ways RTAG's line can end. -/
theorem rtagResult : Obligations.RtagResult := by
  refine fun s hq => ⟨fun v more hb => ⟨fun hv => exec_rtag_match hq (hv ▸ hb), fun hv => ?_⟩, fun hs => ?_⟩
  · refine exec_rtag_raise (p := s.inPos + 32) hq (rtag_mismatch 0x9 [] (s := acknowledge s) hb (by simp) fun h => hv ?_)
    exact BitVec.eq_of_toNat_eq (msbBits_inj v.isLt s.tag.isLt h)
  · have hshort : 8 * s.input.length < s.inPos + 32 := by
      rw [inBits_length, State.bitsLeft] at hs
      omega
    exact exec_rtag_raise hq (rtag_short 0x9 [] (s := acknowledge s) hshort)

/-! ### Header tokens -/

/-- A marker with the arena full reads its bit and no more (R188). -/
theorem enterNode_full {op : BitVec 4} {rest : List Line} {s : State} (h : s.nodeCount.toNat = 513)
    (k : NodeIdx → State → Host.Outcome State Fault Refusal) :
    enterNode op rest s k = proceed op (.raise .headerOverflow :: rest) (s.atPos (s.inPos + 1)) := if_pos h

theorem execHdrInternal_full {op : BitVec 4} {stack : List Frame} {rest : List Line} {s : State}
    (hp : s.phase = .running op (.readNode stack :: rest)) (hfull : s.nodeCount.toNat = 513) :
    execHdrInternal s = proceed op (.raise .headerOverflow :: rest) (s.atPos (s.inPos + 1)) := by
  rw [execHdrInternal, hp]
  exact enterNode_full hfull _

theorem execHdrLeaf_full {op : BitVec 4} {stack : List Frame} {rest : List Line} {s : State} {v : SymField}
    (hp : s.phase = .running op (.readNode stack :: rest)) (hfull : s.nodeCount.toNat = 513) :
    execHdrLeaf v s = proceed op (.raise .headerOverflow :: rest) (s.atPos (s.inPos + 1)) := by
  rw [execHdrLeaf, hp]
  exact enterNode_full hfull _

/-- Settles O52: with room by `execHdrInternal_room`, and with the arena full by `execHdrInternal_full`. -/
theorem internalToken : Obligations.InternalToken := fun _ _ _ _ hp =>
  ⟨execHdrInternal_room hp, fun hfull => ⟨_, execHdrInternal_full hp hfull, rfl, rfl⟩⟩

/-- A return changes the line and the arena only, and of the arena only the records of the frames it closes, those above the
first that waits for its left child (R185). -/
theorem returnNode_frame (op : BitVec 4) (rest : List Line) (stack : List Frame) : ∀ (i : NodeIdx) (s : State),
    (∀ f ∈ stack, f.node.toNat < 513) → ∃ t, returnNode op rest i stack s = .next t ∧
      t = { s with node := t.node, phase := t.phase } ∧
      ∀ j, (∀ f ∈ stack.takeWhile (fun f => f.left.isSome), f.node ≠ j) → t.nodeAt j = s.nodeAt j := by
  induction stack with
  | nil => exact fun i s _ => ⟨_, rfl, rfl, fun _ _ => rfl⟩
  | cons f below ih =>
    intro i s hf
    obtain ⟨n, _ | l⟩ := f
    · exact ⟨_, rfl, rfl, fun _ _ => rfl⟩
    · obtain ⟨hn, hbelow⟩ := List.forall_mem_cons.mp hf
      obtain ⟨t, hret, ht, hframe⟩ := ih n { s with node := s.node.set n.toNat (headerNode l i) hn } hbelow
      refine ⟨t, (setNode_lt hn).trans hret, ht, fun j hj => ?_⟩
      obtain ⟨hne, hj⟩ := List.forall_mem_cons.mp hj
      rw [hframe j hj, nodeAt_set, if_neg fun e => hne (BitVec.eq_of_toNat_eq e)]

/-- A leaf with room and a symbol in range is written at the next index and returned (R185). -/
theorem exec_hdrLeaf_return {s : State} {op : BitVec 4} {stack : List Frame} {rest : List Line} {v : SymField}
    (hp : s.phase = .running op (.readNode stack :: rest)) (hroom : s.nodeCount.toNat < 513) (hv : v.toNat ≤ 256) :
    exec (.hdrLeaf v) s = returnNode op rest s.nodeCount stack
      (s.withArena (s.node.set s.nodeCount.toNat (headerLeaf v) hroom) (s.nodeCount + 1) (s.inPos + 10)) :=
  (execHdrLeaf_room hp hroom).trans (if_neg (Nat.not_lt.mpr hv))

/-- Of the arena a leaf token writes the leaf and the records of the frames its return closes (R185). -/
theorem exec_hdrLeaf_frame {s : State} {op : BitVec 4} {stack : List Frame} {rest : List Line} {v : SymField}
    (hp : s.phase = .running op (.readNode stack :: rest)) (hroom : s.nodeCount.toNat < 513) (hv : v.toNat ≤ 256)
    (hstack : ∀ f ∈ stack, f.node.toNat < s.nodeCount.toNat) : ∃ t, exec (.hdrLeaf v) s = .next t ∧
      t = { s with inPos := s.inPos + 10, nodeCount := s.nodeCount + 1, node := t.node, phase := t.phase } ∧
      t.nodeAt s.nodeCount = some (headerLeaf v) ∧
      ∀ j, j ≠ s.nodeCount → (∀ f ∈ stack.takeWhile (fun f => f.left.isSome), f.node ≠ j) → t.nodeAt j = s.nodeAt j := by
  obtain ⟨t, hret, ht, hframe⟩ := returnNode_frame op rest stack s.nodeCount
    (s.withArena (s.node.set s.nodeCount.toNat (headerLeaf v) hroom) (s.nodeCount + 1) (s.inPos + 10))
    fun f hf => (hstack f hf).trans hroom
  have hbefore : ∀ f ∈ stack.takeWhile (fun f => f.left.isSome), f.node ≠ s.nodeCount := fun f hf e =>
    absurd (hstack f ((List.takeWhile_prefix _).subset hf)) (e ▸ Nat.lt_irrefl _)
  refine ⟨t, (exec_hdrLeaf_return hp hroom hv).trans hret, ht, ?_, fun j hj hcl => ?_⟩
  · rw [hframe _ hbefore]
    exact (nodeAt_set s _ _ hroom _).trans (if_pos rfl)
  · rw [hframe j hcl]
    exact (nodeAt_set s _ _ hroom _).trans (if_neg fun e => hj (BitVec.eq_of_toNat_eq e.symm))

/-- Settles O53: a leaf with room by `exec_hdrLeaf_return`, its frame by `exec_hdrLeaf_frame`, and the return equation by
equation. -/
theorem leafToken : Obligations.LeafToken :=
  ⟨fun _ _ _ _ _ hp => ⟨fun hroom hv => ⟨exec_hdrLeaf_return hp hroom hv, exec_hdrLeaf_frame hp hroom hv⟩,
      fun hroom hv => ⟨_, (execHdrLeaf_room hp hroom).trans (if_pos hv), rfl, rfl⟩,
      fun hfull => ⟨_, execHdrLeaf_full hp hfull, rfl, rfl⟩⟩,
    fun _ _ _ _ _ _ => ⟨rfl, rfl, fun _ hn => setNode_lt hn⟩⟩

end Sys2Proof.Machine
end

section
/-! RHDR on an input that starts with no admissible header (R187 to R189, R192): which error ends it, and where. -/

namespace Sys2Proof.Machine

/-! ### Ending in an error -/

/-- A run of RHDR's body that raises `e` with `c` nodes allocated and the input read to `p` (R192). -/
def State.RhdrRaises (s : State) (e : ErrorCode) (c p : Nat) : Prop :=
  ∃ k ≤ 4096, ∃ v, Steps k (resume 0xA (rhdrBody ++ []) s)
    (raiseError e (s.headerCleared.withArena v (BitVec.ofNat 10 c) p))

theorem State.RhdrRaises.fails {s : State} {e : ErrorCode} {c p : Nat} (hq : s.quiet) (h : (acknowledge s).RhdrRaises e c p) :
    s.RhdrFails e.code c p := by
  obtain ⟨k, hk, v, hrun⟩ := h
  have hbound : k ≤ stepBound s := by unfold stepBound; omega
  exact ⟨_, exec_of_raise (t := s.headerCleared.withArena v (BitVec.ofNat 10 c) p) hq hrun hbound hq.1, rfl⟩

/-! ### Any input -/

/-- The header of a tree that fits the arena starts the unread input, or RHDR ends in an error (R192). -/
theorem rhdr_header_or_raises {s : State} (hi : s.inPos ≤ 8 * s.input.length) :
    (∃ (t : Tree) (more : List Bool), s.inBits = t.headerBits ++ more ∧ t.size ≤ 513) ∨
      ∃ e c p, HeaderEnd s.headerCleared e c p ∧ s.RhdrRaises e c.toNat p := by
  have hzero : s.headerCleared.nodeCount.toNat = 0 := rfl
  obtain ⟨t, more, hb, hsize⟩ | ⟨k, hk, e, v, c, p, hend, hrun⟩ :=
    readNode_total 0xA [] s.inBits.length s.headerCleared [] (Nat.le_refl _) hi (by omega)
  · exact .inl ⟨t, more, hb, by omega⟩
  · refine .inr ⟨e, c, p, hend, 3 + k, by omega, v, (rhdrClear_step 0xA [] s).trans ?_⟩
    rwa [BitVec.ofNat_toNat, BitVec.setWidth_eq]

/-- A header of one leaf is read whole, its node allocated (R189). -/
theorem rhdrRaises_degenerate {s : State} {x : Symbol} {more : List Bool} (hb : s.inBits = (Tree.leaf x).headerBits ++ more) :
    s.RhdrRaises .degenerateTree 1 (s.inPos + 10) :=
  ⟨5, by omega, _, rhdr_degenerate 0xA [] hb⟩

theorem HeaderEnd.code_mem {s : State} {e : ErrorCode} {c : NodeIdx} {p : Nat} (h : HeaderEnd s e c p) :
    e.code ∈ [2, 8, 9, 10#4] := by
  obtain rfl | rfl | rfl := h.error <;> decide

/-- Without an admissible header RHDR ends in one of four errors (R192). -/
theorem rhdrFails_of_no_header {s : State} (hq : s.quiet) (hi : s.inPos ≤ 8 * s.input.length)
    (hno : ¬∃ (t : Tree) (more : List Bool), s.inBits = t.headerBits ++ more ∧ t.isNode = true ∧ t.size ≤ 513) :
    ∃ e c p, e ∈ [2, 8, 9, 10#4] ∧ c ≤ 513 ∧ s.inPos ≤ p ∧ p ≤ 8 * s.input.length ∧ s.RhdrFails e c p := by
  obtain ⟨t, more, hb, hsize⟩ | ⟨e, c, p, hend, hraise⟩ := rhdr_header_or_raises (s := acknowledge s) hi
  · cases t with
    | leaf x =>
      have hle : s.inPos + 10 ≤ 8 * s.input.length := by
        have := inBits_bound (s := s) hb (by simp [Tree.headerBits_leaf])
        simpa [Tree.headerBits_leaf] using this
      exact ⟨_, 1, _, by decide, by omega, by omega, hle, (rhdrRaises_degenerate hb).fails hq⟩
    | node l r => exact absurd ⟨.node l r, more, hb, rfl, hsize⟩ hno
  · exact ⟨_, _, _, hend.code_mem, hend.count, hend.lower, hend.upper, hraise.fails hq⟩

/-- The header of a tree is no proper beginning of another's (R98). -/
theorem Tree.headerBits_not_proper {t u : Tree} {more q : List Bool} (h : t.headerBits = u.headerBits ++ more ++ q) : q = [] := by
  obtain ⟨-, hnil⟩ := Tree.headerBits_prefix t u [] (more ++ q) (by rw [List.append_nil, h, List.append_assoc])
  exact (List.append_eq_nil_iff.mp hnil.symm).2

/-- An input that is a proper beginning of a header that fits the arena is consumed (R185, R246). -/
theorem rhdrFails_of_proper_beginning {s : State} (hq : s.quiet) (hi : s.inPos ≤ 8 * s.input.length) {t : Tree}
    {q : List Bool} (ht : t.headerBits = s.inBits ++ q) (hne : q ≠ []) (hsize : t.size ≤ 513) :
    ∃ c, s.RhdrFails 2 c (8 * s.input.length) := by
  obtain ⟨u, more, hb, -⟩ | ⟨e, c, p, hend, hraise⟩ := rhdr_header_or_raises (s := acknowledge s) hi
  · have hb' : s.inBits = u.headerBits ++ more := hb
    exact absurd (Tree.headerBits_not_proper (hb' ▸ ht)) hne
  · obtain ⟨rfl, rfl⟩ := hend.short t q ht hne (by simpa [State.headerCleared] using hsize)
    exact ⟨_, hraise.fails hq⟩

/-! ### After whole tokens -/

/-- The state at the `read_node()` that follows whole tokens `ts`, with the arena `v` (R185). -/
def State.afterTokens (s : State) (ts : List Instr) (v : Vector Node 513) : State :=
  s.headerCleared.withArena v (BitVec.ofNat 10 ts.length) (s.inPos + (ts.flatMap encode).length)

theorem afterTokens_inBits {s : State} {ts : List Instr} {more : List Bool} (hb : s.inBits = ts.flatMap encode ++ more)
    (v : Vector Node 513) : (s.afterTokens ts v).inBits = more := by
  have hadv := inBits_advance s (ts.flatMap encode).length
  rwa [hb, List.drop_left] at hadv

theorem afterTokens_nodeCount (s : State) {ts : List Instr} (h : ts.length ≤ 513) (v : Vector Node 513) :
    (s.afterTokens ts v).nodeCount.toNat = ts.length := by
  simp only [State.afterTokens, State.withArena, BitVec.toNat_ofNat]
  omega

theorem afterTokens_position {s : State} {ts : List Instr} {more : List Bool} (hb : s.inBits = ts.flatMap encode ++ more)
    (hi : s.inPos ≤ 8 * s.input.length) (v : Vector Node 513) :
    (s.afterTokens ts v).inPos ≤ 8 * (s.afterTokens ts v).input.length := by
  have hlen := congrArg List.length hb
  rw [inBits_length, State.bitsLeft, List.length_append] at hlen
  show s.inPos + (ts.flatMap encode).length ≤ 8 * s.input.length
  omega

/-- What the read after whole tokens raises, RHDR raises (R184, R185). -/
theorem rhdrRaises_after_tokens {s : State} {t : Tree} {ts us : List Instr} {more : List Bool} (ht : t.tokens = ts ++ us)
    (hu : us ≠ []) (hc : ts.length ≤ 513) (hb : s.inBits = ts.flatMap encode ++ more) {e : ErrorCode} {c p : Nat}
    (h : ∀ stack v, Steps 2 (resume 0xA (.readNode stack :: []) (s.afterTokens ts v))
      (raiseError e ((s.afterTokens ts v).withArena v (BitVec.ofNat 10 c) p))) : s.RhdrRaises e c p := by
  obtain ⟨stack, v, hrun⟩ := rhdr_tokens_steps 0xA [] ht hu hb hc
  exact ⟨3 + ts.length + 2, by omega, v, hrun.trans (h stack v)⟩

/-- The next free index after whole tokens and one more node. -/
theorem afterTokens_nodeCount_succ (s : State) (ts : List Instr) (v : Vector Node 513) :
    (s.afterTokens ts v).nodeCount + 1 = BitVec.ofNat 10 (ts.length + 1) := (BitVec.ofNat_add ts.length 1).symm

section
variable {s : State} {t : Tree} {ts us : List Instr} {more : List Bool} (hi : s.inPos ≤ 8 * s.input.length)
  (ht : t.tokens = ts ++ us) (hu : us ≠ []) (hc : ts.length ≤ 513) (hb : s.inBits = ts.flatMap encode ++ more)
include ht hu hb

include hi hc in
/-- An input that ends after whole tokens (R185, R188). -/
theorem rhdrRaises_at_end (hmore : more = []) : s.RhdrRaises .truncatedHeader ts.length (8 * s.input.length) :=
  rhdrRaises_after_tokens ht hu hc hb fun stack v =>
    readNode_empty 0xA [] stack ((afterTokens_inBits hb v).trans hmore) (afterTokens_position hb hi v)

/-- An input that ends inside a leaf's payload, its node allocated (R185). -/
theorem rhdrRaises_inside_leaf (hlt : ts.length < 513) {bits : List Bool} (hmore : more = true :: bits)
    (hshort : bits.length < 9) : s.RhdrRaises .truncatedHeader (ts.length + 1) (8 * s.input.length) :=
  rhdrRaises_after_tokens ht hu hlt.le hb fun stack v => by
    rw [← afterTokens_nodeCount_succ s ts v]
    exact readNode_short 0xA [] stack ((afterTokens_inBits hb v).trans hmore) hshort
      ((afterTokens_nodeCount s hlt.le v).trans_lt hlt)

/-- A marker after 513 nodes is read and nothing is allocated (R188). -/
theorem rhdrRaises_overflow (hfull : ts.length = 513) (hmore : more ≠ []) :
    s.RhdrRaises .headerOverflow 513 (s.inPos + (ts.flatMap encode).length + 1) :=
  rhdrRaises_after_tokens ht hu hfull.le hb fun stack v => by
    rw [← hfull]
    exact (readNode_full 0xA [] stack ((afterTokens_nodeCount s hfull.le v).trans hfull)
      ((afterTokens_inBits hb v).symm ▸ hmore)).2

/-- A leaf with a reserved payload, its 10 bits read and its node allocated (R187). -/
theorem rhdrRaises_range (hlt : ts.length < 513) {v : SymField} {bits : List Bool}
    (hmore : more = true :: (msbBits 9 v.toNat ++ bits)) (hv : 256 < v.toNat) :
    s.RhdrRaises .headerSymbolRange (ts.length + 1) (s.inPos + (ts.flatMap encode).length + 10) :=
  rhdrRaises_after_tokens ht hu hlt.le hb fun stack w => by
    rw [← afterTokens_nodeCount_succ s ts w]
    exact readNode_range 0xA [] stack ((afterTokens_inBits hb w).trans hmore) hv
      ((afterTokens_nodeCount s hlt.le w).trans_lt hlt)

end

/-- Settles O49: any input by `rhdr_header_or_raises`, and an input of whole tokens by the read that comes after them. -/
theorem rhdrFailure : Obligations.RhdrFailure := by
  refine fun s hq hi => ⟨rhdrFails_of_no_header hq hi,
    fun x more hb => (rhdrRaises_degenerate (s := acknowledge s) hb).fails hq,
    fun t q => rhdrFails_of_proper_beginning hq hi, fun t ts us more ht hu hc hb => ?_⟩
  have hb' : (acknowledge s).inBits = ts.flatMap encode ++ more := hb
  exact ⟨fun hmore => (rhdrRaises_at_end (s := acknowledge s) hi ht hu hc hb' hmore).fails hq,
    fun hlt bits hmore hshort => (rhdrRaises_inside_leaf ht hu hb' hlt hmore hshort).fails hq,
    fun hfull hmore => (rhdrRaises_overflow ht hu hb' hfull hmore).fails hq,
    fun hlt v bits hmore hv => (rhdrRaises_range ht hu hb' hlt hmore hv).fails hq⟩

end Sys2Proof.Machine
end

section
/-! The stream codec (R200 to R208): what ENC and DEC leave, on symbols and bits they can code and on those they cannot. -/

namespace Sys2Proof.Machine

/-! ### The record apart -/

@[simp] theorem succeeded_outBits (s : State) : s.succeeded.outBits = s.outBits := rfl

@[simp] theorem failed_outBits (e : ErrorCode) (s : State) : (s.failed e).outBits = s.outBits := rfl

/-! ### ENC -/

/-- The state ENC leaves, its record apart: the bits written, padded to a byte, and the input consumed (R200, R202). -/
def State.encoded (s : State) : State :=
  close ((putBits (s.chunks.flatMap s.codeOf ++ s.codeOf eofSymbol) s).atPos (8 * s.input.length))

theorem encoded_acknowledge (s : State) : (acknowledge s).encoded = acknowledge s.encoded := by
  rw [State.encoded, chunks_acknowledge, codeOf_acknowledge, putBits_acknowledge, State.encoded, ← close_acknowledge]
  rfl

theorem encoded_phase (s : State) : s.encoded.phase = s.phase := by
  rw [State.encoded, close_phase, atPos_phase, putBits_phase]

theorem exec_enc {s : State} (hq : s.quiet) (hv : s.codesValid = true) (hc : ∀ x ∈ s.chunks, s.hasCode x)
    (he : s.hasCode eofSymbol) : exec .enc s = .next s.encoded.succeeded := by
  have hrun := (enc_steps 0x8 [] (s := acknowledge s) hv hc he).to (congrArg _ (encoded_acknowledge s))
  have hbound : 2 * s.chunks.length + 4 + 1 ≤ stepBound s := by
    have := chunks_length_le s
    unfold stepBound; omega
  exact exec_of_stage hq hrun hbound ((encoded_phase s).trans hq.1)

/-- Writing bits, moving the input position and closing change the output and that position only (R127). -/
theorem close_putBits_atPos (bits : List Bool) (s : State) (n : Nat) : close ((putBits bits s).atPos n) =
    { s with
      output := (close ((putBits bits s).atPos n)).output, outAcc := (close ((putBits bits s).atPos n)).outAcc
      outNbits := 0, inPos := n } := by
  refine (close_withOutput _).trans ?_
  generalize close ((putBits bits s).atPos n) = u
  rw [putBits_frame]
  rfl

theorem encoded_outBits (s : State) : ∃ pad, pad < 8 ∧ s.encoded.outBits =
    s.outBits ++ s.chunks.flatMap s.codeOf ++ s.codeOf eofSymbol ++ List.replicate pad false := by
  have hbits (bits : List Bool) (n : Nat) : ((putBits bits s).atPos n).outBits = s.outBits ++ bits := putBits_outBits bits s
  rw [State.encoded, close_outBits, hbits, ← List.append_assoc]
  exact ⟨_, Nat.mod_lt _ (by omega), rfl⟩

/-- Settles O54: the run of the body is `enc_steps`, and `close()` pads what it wrote. -/
theorem encResult : Obligations.EncResult := by
  intro s hq hv hc he
  exact ⟨_, exec_enc hq hv hc he, congrArg State.succeeded (close_putBits_atPos ..), encoded_outBits s⟩

/-- The first chunk without a code ends ENC, that chunk read and the codes before it written (R201). -/
theorem exec_enc_uncoded_chunk {s : State} (hq : s.quiet) (hv : s.codesValid = true) {xs ys : List Symbol} {x : Symbol}
    (hx : s.chunks = xs ++ x :: ys) (hc : ∀ y ∈ xs, s.hasCode y) (h0 : ¬s.hasCode x) :
    exec .enc s = .next (((putBits (xs.flatMap s.codeOf) s).atPos (s.inPos + 8 * (xs.length + 1))).failed
      .unencodableSymbol) := by
  have hrun := enc_steps_chunk 0x8 [] (s := acknowledge s) hv ((chunks_acknowledge s).trans hx) hc (not_not.mp h0)
  rw [afterCodes, State.atPos_atPos, codeOf_acknowledge, putBits_acknowledge] at hrun
  have hbound : 2 * xs.length + 3 ≤ stepBound s := by
    have hle := chunks_length_le s
    rw [hx, List.length_append] at hle
    unfold stepBound; omega
  exact exec_of_raise hq hrun hbound ((putBits_phase _ s).trans hq.1)

/-- Symbol 256 without a code ends ENC after all chunks, before any padding (R202). -/
theorem exec_enc_uncoded_eof {s : State} (hq : s.quiet) (hv : s.codesValid = true) (hc : ∀ x ∈ s.chunks, s.hasCode x)
    (h0 : ¬s.hasCode eofSymbol) :
    exec .enc s = .next (((putBits (s.chunks.flatMap s.codeOf) s).atPos (8 * s.input.length)).failed
      .unencodableSymbol) := by
  have hrun := enc_steps_eof 0x8 [] (s := acknowledge s) hv hc (not_not.mp h0)
  rw [chunks_acknowledge, codeOf_acknowledge, putBits_acknowledge] at hrun
  have hbound : 2 * s.chunks.length + 3 ≤ stepBound s := by
    have := chunks_length_le s
    unfold stepBound; omega
  exact exec_of_raise hq hrun hbound ((putBits_phase _ s).trans hq.1)

/-- Settles O55: the runs that meet no code are `enc_steps_chunk` and `enc_steps_eof`. -/
theorem encUnencodable : Obligations.EncUnencodable := fun _ hq hv =>
  ⟨fun _ _ _ hx hc h0 => exec_enc_uncoded_chunk hq hv hx hc h0, fun hc h0 => exec_enc_uncoded_eof hq hv hc h0⟩

/-! ### DEC -/

/-- The state of DEC, its record apart, when it has decoded the literals `xs`, read the input to `p` and moved its cursor to
`c` (R203, R204). -/
def State.decoded (s : State) (xs : List Symbol) (p : Nat) (c : NodeIdx) : State :=
  (afterLiterals xs 0 { s with decCount := 0 }).atPos p |>.withCursor c

theorem decoded_acknowledge (s : State) (xs : List Symbol) (p : Nat) (c : NodeIdx) :
    (acknowledge s).decoded xs p c = acknowledge (s.decoded xs p c) := by
  rw [State.decoded, afterLiterals_acknowledge]
  rfl

/-- Decoding changes the output, its count, the input position and the cursor; its literals are whole bytes (R204). -/
theorem decoded_eq (s : State) (xs : List Symbol) (p : Nat) (c : NodeIdx) : s.decoded xs p c =
    { s with
      output := (s.decoded xs p c).output, outAcc := (s.decoded xs p c).outAcc, outNbits := s.outNbits, inPos := p
      decCount := BitVec.ofNat 32 xs.length, cursor := c } :=
  congrArg (fun u : State => (u.atPos p).withCursor c) (afterLiterals_frame xs 0 s)

theorem decoded_phase (s : State) (xs : List Symbol) (p : Nat) (c : NodeIdx) : (s.decoded xs p c).phase = s.phase := by
  rw [decoded_eq]

theorem decoded_outBits (s : State) (xs : List Symbol) (p : Nat) (c : NodeIdx) :
    (s.decoded xs p c).outBits = s.outBits ++ literalBits xs := afterLiterals_outBits xs 0 s

theorem decoded_nodeAt (s : State) (xs : List Symbol) (p : Nat) (c i : NodeIdx) :
    (s.decoded xs p c).nodeAt i = s.nodeAt i := nodeAt_congr (by rw [decoded_eq]) i

theorem inBits_length_le (s : State) : s.inBits.length ≤ 8 * s.input.length := by
  rw [inBits_length, State.bitsLeft]; omega

section
variable {s : State} {t : Tree} {is : List NodeIdx} {bits : List Bool} {xs : List Symbol} (hq : s.quiet)
  (hv : s.treeValid = true) (hH : s.Holds s.root t is) (hn : t.isNode = true) (hx : t.Spells bits xs)
  (hne : eofSymbol ∉ xs)
include hq hv hH hn hx hne

/-- DEC on the paths of literals and of symbol 256 ends at a leaf of symbol 256 (R203 to R206). -/
theorem exec_dec {p more : List Bool} (hp : t.walk p = some eofSymbol) (hb : s.inBits = bits ++ (p ++ more)) :
    ∃ c m, s.nodeAt c = some m ∧ m.isLeaf = true ∧ m.sym = 256 ∧
      exec .dec s = .next (s.decoded xs (s.inPos + bits.length + p.length) c).succeeded := by
  obtain ⟨c, m, hm, hl, hsym, hrun⟩ := dec_steps 0xB [] (s := acknowledge s) hv (hH.congr rfl) hn hx hne hp hb
  have hend : { afterLiterals xs (bits.length + p.length) { acknowledge s with decCount := 0 } with cursor := c } =
      acknowledge (s.decoded xs (s.inPos + bits.length + p.length) c) := by
    rw [← decoded_acknowledge, Nat.add_assoc]
    rfl
  have hbound : bits.length + p.length + 1 + 1 ≤ stepBound s := by
    have hle := inBits_length_le s
    rw [hb, List.length_append, List.length_append] at hle
    unfold stepBound; omega
  exact ⟨c, m, hm, hl, hsym, exec_of_stage hq (hrun.to (congrArg _ hend)) hbound ((decoded_phase ..).trans hq.1)⟩

/-- DEC on the paths of literals and bits that end inside the tree (R203, R207). -/
theorem exec_dec_truncated {q : List Bool} (hw : t.walkOpen q = true) (hb : s.inBits = bits ++ q) :
    ∃ c, exec .dec s = .next ((s.decoded xs (8 * s.input.length) c).failed .truncatedStream) := by
  obtain ⟨c, m, -, -, hrun⟩ := dec_steps_truncated 0xB [] (s := acknowledge s) hv (hH.congr rfl) hn hx hne hw hb
  have hend : ((afterLiterals xs bits.length { acknowledge s with decCount := 0 }).atPos
      (8 * s.input.length)).withCursor c = acknowledge (s.decoded xs (8 * s.input.length) c) := by
    rw [← decoded_acknowledge]
    rfl
  have hbound : bits.length + q.length + 3 ≤ stepBound s := by
    have hle := inBits_length_le s
    rw [hb, List.length_append] at hle
    unfold stepBound; omega
  exact ⟨c, exec_of_raise hq (hrun.to (congrArg _ hend)) hbound ((decoded_phase ..).trans hq.1)⟩

end

/-- Settles O56: the run of the body is `dec_steps`. -/
theorem decResult : Obligations.DecResult := by
  intro s t is bits p more xs hq hv hH hn hx hne hp hb
  obtain ⟨c, m, hm, hl, hsym, hdec⟩ := exec_dec hq hv hH hn hx hne hp hb
  refine ⟨_, hdec, congrArg State.succeeded (decoded_eq ..), (succeeded_outBits _).trans (decoded_outBits ..), m,
    ?_, hl, hsym⟩
  exact (decoded_nodeAt s xs (s.inPos + bits.length + p.length) c c).trans hm

/-- Settles O57: the run of the body is `dec_steps_truncated`. -/
theorem decTruncated : Obligations.DecTruncated := by
  intro s t is bits q xs hq hv hH hn hx hne hw hb
  obtain ⟨c, hdec⟩ := exec_dec_truncated hq hv hH hn hx hne hw hb
  exact ⟨_, hdec, congrArg (State.failed .truncatedStream) (decoded_eq ..),
    (failed_outBits ..).trans (decoded_outBits ..)⟩

end Sys2Proof.Machine
end

section
/-! The round trip (R210): what COMPRESS writes, DECOMPRESS reads back. -/

namespace Sys2Proof.Machine

/-! ### COMPRESS -/

/-- The state from which COMPRESS writes: the output empty, the input rewound, the tables made (R224). -/
def State.tabled (s : State) (t : Tree) : State :=
  ({ (clearOut s).atPos 0 with freq := (s.atPos 0).counts } : State).built.withCodes t

theorem compressed_eq (s : State) (t : Tree) : s.compressed t = close ((putBits (msbBits 32 s.tag.toNat ++ t.headerBits ++
    ((s.tabled t).chunks.flatMap (s.tabled t).codeOf ++ (s.tabled t).codeOf eofSymbol)) (s.tabled t)).atPos
      (8 * s.input.length)) := rfl

theorem tabled_phase (s : State) (t : Tree) : (s.tabled t).phase = s.phase := by
  rw [State.tabled, withCodes_phase, built_phase]
  rfl

theorem tabled_outBits (s : State) (t : Tree) : (s.tabled t).outBits = [] := by
  have hout : (s.tabled t).output = [] := by rw [State.tabled, withCodes_output, built_output]; rfl
  have hnbits : (s.tabled t).outNbits = 0 := by rw [State.tabled, withCodes_outNbits, built_outNbits]; rfl
  rw [outBits_aligned _ hnbits, hout, byteBits_nil]

/-- From the start of the input COMPRESS encodes its bytes (R224). -/
theorem tabled_chunks (s : State) (t : Tree) : (s.tabled t).chunks = s.input.map byteSymbol :=
  (chunks_congr (s := s.atPos 0) (by rw [State.tabled, withCodes_input, built_input]; rfl)
    (by rw [State.tabled, withCodes_inPos, built_inPos]; rfl)).trans (chunks_bytes s)

theorem tabled_codeOf (s : State) (t : Tree) : (s.tabled t).codeOf = (s.withCodes t).codeOf :=
  codeOf_congr (by rw [State.tabled, withCodes_codelen, withCodes_codelen])
    (by rw [State.tabled, withCodes_codebits, withCodes_codebits])

theorem compressed_phase (s : State) (t : Tree) : (s.compressed t).phase = s.phase := by
  rw [compressed_eq, close_phase, atPos_phase, putBits_phase, tabled_phase]

/-- COMPRESS of an input that COUNT can count, with the tree BUILD makes (R224). -/
theorem exec_compress {s : State} (hq : s.quiet) (hm : s.input.length ≤ 2 ^ 32 - 2) :
    ∃ t is, t.isNode = true ∧ t.leaves.Perm (leafSymbols (s.atPos 0).counts) ∧
      ({ s with freq := (s.atPos 0).counts } : State).built.Holds
        ({ s with freq := (s.atPos 0).counts } : State).built.root t is ∧
      exec .compress s = .next (s.compressed t).succeeded := by
  obtain ⟨t, is, hn, hleaves, hH, k, hk, hrun⟩ := compress_steps 0x1 (acknowledge s) hm
  have hcounts : ((acknowledge s).atPos 0).counts = (s.atPos 0).counts := counts_congr rfl rfl
  rw [hcounts] at hleaves hH
  rw [compressed_acknowledge] at hrun
  have hbound : k + 1 ≤ stepBound s := Nat.succ_le_succ hk
  exact ⟨t, is, hn, hleaves, hH.congr rfl, exec_of_stage hq hrun hbound ((compressed_phase s t).trans hq.1)⟩

/-- The bytes COMPRESS writes: tag, header, codes and padding (R94, R224). -/
theorem compressed_byteBits (s : State) (t : Tree) : ∃ pad, pad < 8 ∧ byteBits (s.compressed t).output =
    msbBits 32 s.tag.toNat ++ t.headerBits ++ (s.input.map byteSymbol).flatMap (s.withCodes t).codeOf ++
      (s.withCodes t).codeOf eofSymbol ++ List.replicate pad false := by
  rw [compressed_eq, tabled_chunks, tabled_codeOf, ← outBits_aligned _ (close_outNbits _)]
  rw [List.append_assoc _ _ ((s.withCodes t).codeOf eofSymbol)]
  exact closed_bits (s.tabled t) _ (8 * s.input.length) (tabled_outBits s t)

/-- Every byte of the input has a leaf in the tree BUILD makes (R156, R224). -/
theorem byteSymbol_mem_leafSymbols {s : State} (hm : s.input.length ≤ 2 ^ 32 - 2) :
    ∀ x ∈ s.input.map byteSymbol, x ∈ leafSymbols (s.atPos 0).counts := by
  intro x hx
  have hcount : (s.atPos 0).chunkCount ≤ 4294967294 := by
    rw [State.chunkCount, atPos_input, atPos_inPos]; omega
  exact mem_leafSymbols (counts_chunk (chunks_bytes s ▸ hx) hcount)

theorem eof_mem_leafSymbols (s : State) : eofSymbol ∈ leafSymbols s.counts :=
  mem_leafSymbols (by rw [counts_eof]; decide)

/-! ### DECOMPRESS -/

/-- The state DECOMPRESS leaves, its record apart, after the header of `t` and the literals `xs`, with the input read to
`p` (R225). -/
def State.decompressed (s : State) (t : Tree) (xs : List Symbol) (p : Nat) (c : NodeIdx) : State :=
  (((clearOut s).atPos 32).withTree t t.headerBits.length).decoded xs p c

/-- The literals are whole bytes, so the last `close()` adds nothing (R204, R225). -/
theorem decompressed_outNbits (s : State) (t : Tree) (xs : List Symbol) (p : Nat) (c : NodeIdx) :
    (s.decompressed t xs p c).outNbits = 0 := by
  rw [State.decompressed, decoded_eq]
  rfl

theorem decompressed_decCount (s : State) (t : Tree) (xs : List Symbol) (p : Nat) (c : NodeIdx) :
    (s.decompressed t xs p c).decCount = BitVec.ofNat 32 xs.length := by
  rw [State.decompressed, decoded_eq]

theorem decompressed_output (s : State) (t : Tree) {xs : List Symbol} (hne : eofSymbol ∉ xs) (p : Nat) (c : NodeIdx) :
    (s.decompressed t xs p c).output.map byteSymbol = xs := by
  refine literals_bytes _ xs ?_ hne
  rw [← outBits_aligned _ (decompressed_outNbits ..), State.decompressed, decoded_outBits]
  rfl

/-- DECOMPRESS of the expected tag, a header, the paths of literals and of symbol 256, whatever follows (R225). -/
theorem exec_decompress {s : State} (hq : s.quiet) {t : Tree} {bits p more : List Bool} {xs : List Symbol}
    (hn : t.isNode = true) (hsize : t.size ≤ 513) (hx : t.Spells bits xs) (hne : eofSymbol ∉ xs)
    (hp : t.walk p = some eofSymbol)
    (hb : byteBits s.input = msbBits 32 s.tag.toNat ++ (t.headerBits ++ (bits ++ (p ++ more)))) :
    ∃ c, exec .decompress s =
      .next (s.decompressed t xs (32 + t.headerBits.length + bits.length + p.length) c).succeeded := by
  obtain ⟨c, k, hk, hrun⟩ := decompress_steps 0x2 (acknowledge s) hn hsize hx hne hp hb
  have hend : (afterLiterals xs (bits.length + p.length)
      { (clearOut (acknowledge s)).atPos 32 |>.withTree t t.headerBits.length with decCount := 0 }).withCursor c =
      acknowledge (s.decompressed t xs (32 + t.headerBits.length + bits.length + p.length) c) := by
    rw [State.decompressed, ← decoded_acknowledge, Nat.add_assoc _ bits.length]
    rfl
  rw [hend, close_acknowledge, close_aligned (decompressed_outNbits ..)] at hrun
  have hbound : k + 1 ≤ stepBound s := Nat.succ_le_succ hk
  exact ⟨c, exec_of_stage hq hrun hbound ((decoded_phase ..).trans hq.1)⟩

/-! ### The round trip -/

/-- In the tree BUILD makes of the counts, the codes COMPRESS writes spell the input and then symbol 256 (R102, R175). -/
theorem compressed_spells {s : State} (hm : s.input.length ≤ 2 ^ 32 - 2) {t : Tree} (hn : t.isNode = true)
    (hleaves : t.leaves.Perm (leafSymbols (s.atPos 0).counts)) :
    t.Spells ((s.input.map byteSymbol).flatMap (s.withCodes t).codeOf) (s.input.map byteSymbol) ∧
      t.walk ((s.withCodes t).codeOf eofSymbol) = some eofSymbol := by
  have hsize := tree_size_of_leaves hleaves
  have hnd := hleaves.nodup_iff.mpr (leafSymbols_nodup _)
  exact ⟨codes_spell hn hnd hsize _ fun x hx => hleaves.mem_iff.mpr (byteSymbol_mem_leafSymbols hm x hx),
    code_walk hn hnd hsize (hleaves.mem_iff.mpr (eof_mem_leafSymbols _))⟩

/-- Settles O60: the codes COMPRESS writes spell the input in the tree whose header it wrote, and symbol 256 after it. -/
theorem roundTrip : Obligations.RoundTrip := by
  intro s hq hm
  obtain ⟨t, is, hn, hleaves, -, hcompress⟩ := exec_compress hq hm
  refine ⟨_, hcompress, rfl, rfl, fun u hu hin htag => ?_⟩
  obtain ⟨hspells, hwalk⟩ := compressed_spells hm hn hleaves
  obtain ⟨pad, -, hbits⟩ := compressed_byteBits s t
  have hb : byteBits u.input = msbBits 32 u.tag.toNat ++ (t.headerBits ++
      ((s.input.map byteSymbol).flatMap (s.withCodes t).codeOf ++
        ((s.withCodes t).codeOf eofSymbol ++ List.replicate pad false))) := by
    rw [hin, htag, succeeded_output, hbits]
    simp only [List.append_assoc]
  have hne := eof_not_byte s.input
  obtain ⟨c, hdecompress⟩ := exec_decompress hu hn (tree_size_of_leaves hleaves) hspells hne hwalk hb
  refine ⟨_, hdecompress, rfl, rfl, ?_, (succeeded_outNbits _).trans (decompressed_outNbits ..), ?_⟩
  · rw [succeeded_output]
    exact List.map_injective_iff.mpr (fun _ _ => byteSymbol_inj) (decompressed_output u t hne ..)
  · rw [succeeded_decCount, decompressed_decCount, List.length_map]
    exact BitVec.eq_of_toNat_eq (by simp)

end Sys2Proof.Machine
end

section
/-! Commands (R220 to R228): what a word written to CTRL starts or does at once, and what each instruction leaves alone. -/

namespace Sys2Proof.Machine

/-! ### The words that take effect in the write step -/

/-- On an idle core an illegal word only sets the record (R226). -/
theorem illegalWord_idle {s : State} (hb : s.busy = false) : illegalWord s = s.failed .illegalOpcode :=
  failed_eq .illegalOpcode ((busy_false s).mp hb)

theorem execIllegalOp_idle {s : State} (hb : s.busy = false) : execIllegalOp s = .next (s.failed .illegalOpcode) := by
  rw [execIllegalOp, hb, illegalWord_idle hb]; rfl

theorem execIllegalRsv_idle {s : State} (hb : s.busy = false) (rsv : BitVec 28) (op : BitVec 4) :
    execIllegalRsv rsv op s = .next (s.failed .illegalOpcode) := execIllegalOp_idle hb

theorem execAck_idle {s : State} (hb : s.busy = false) : execAck s = .next (acknowledge s) := by
  rw [execAck, hb]; rfl

/-- The reserved OP of the opcode map (R92). -/
theorem decodeCtrl_illegalOp {v : Word} (hr : v.extractLsb' 4 28 = 0) (ho : v.extractLsb' 0 4 = 0xF) :
    decodeCtrl v = .illegalOp := by
  rw [decodeCtrl, if_neg (not_not.mpr hr), ho]; rfl

theorem hostWrite_ctrl (v : Word) (s : State) : hostWrite 0x008 4 v s = exec (decodeCtrl v) s := rfl

/-- Settles O4: a reserved bit is decoded before OP, and with none set OP 0xF is the reserved one. -/
theorem illegalCtrlWord : Obligations.IllegalCtrlWord := by
  refine fun s hb => ⟨fun v hv => ?_, execIllegalOp_idle hb, execIllegalRsv_idle hb⟩
  rw [hostWrite_ctrl]
  by_cases hr : v.extractLsb' 4 28 = 0
  · rw [decodeCtrl_illegalOp hr (hv.resolve_left (not_not.mpr hr))]
    exact execIllegalOp_idle hb
  · rw [decodeCtrl_reserved hr]
    exact execIllegalRsv_idle hb (v.extractLsb' 4 28) (v.extractLsb' 0 4)

theorem irq_acknowledge (s : State) : (acknowledge s).irq = false := Bool.and_false s.irqEn

/-- Settles O7: on an idle core ACK is `acknowledge`, which leaves neither DONE nor ERR. -/
theorem ackResult : Obligations.AckResult := fun s hb => ⟨_, execAck_idle hb, rfl, irq_acknowledge s⟩

/-! ### The step that runs a CTRL word -/

theorem step_ctrl {s : State} {e : HostEvent} {rest : List HostEvent} {v : Word} (hh : s.host = e :: rest)
    (hb : s.busy = false) (ha : e.act = .write 0x008 4 v) : step s = exec (decodeCtrl v) { s with host := rest } := by
  rw [step_due hh (e.due_idle hb), ha]
  exact hostWrite_ctrl v _

/-- A word placed is a CTRL write of it, which lands once the core is idle (R61). -/
theorem withFetchWord_ctrl (s : State) (v : Word) : s.withFetchWord 32 v.toNat =
    { s with phase := .idle, host := { lag := none, act := .write 0x008 4 v } :: s.host } := by
  have hbits : tableBits 32 v.toNat = some (.ctrl, msbBits 32 v.toNat) := by
    rw [tableBits, if_pos rfl, if_pos v.isLt]
  rw [State.withFetchWord, hbits, BitVec.ofNat_toNat, BitVec.setWidth_eq]

/-- Settles O5: every action is due on an idle core, and a placed word is the next action of one. -/
theorem stepRunsCtrlWord : Obligations.StepRunsCtrlWord := by
  refine ⟨fun _ _ _ _ => step_ctrl, fun s v => ?_⟩
  rw [withFetchWord_ctrl]
  exact step_ctrl rfl rfl rfl

/-! ### The start of a command -/

/-- The CTRL word of a command is its OP (R92). -/
theorem encodeCtrl_command {i : Instr} {op : BitVec 4} {body : List Line} (hc : commandOf i = some (op, body)) :
    encodeCtrl i = some (op.setWidth 32) := by
  cases i <;> cases hc <;> rfl

/-- Where a host action is due to land, a CTRL write only starts the command (R220, R281). -/
theorem runCommand_attended {op : BitVec 4} {body : List Line} {s : State} (hb : s.busy = false) (ha : s.attended = true) :
    runCommand op body s = .next (startCommand op body s) := by
  rw [runCommand, hb, ha]; rfl

/-- Settles O8: the word by `encodeCtrl_command`, the start by `runCommand_attended`. -/
theorem commandStart : Obligations.CommandStart := fun _ _ _ hc =>
  ⟨encodeCtrl_command hc, fun s hb ha => (exec_eq_runCommand hc s).trans (runCommand_attended hb ha)⟩

/-! ### What an instruction leaves alone -/

/-- `t` differs from `s` at most in the pieces `ps`, the record and the sequencer, and the host's side is that of `s`
(R79, R228). -/
structure CoreChanges (ps : List Piece) (s t : State) : Prop where
  changes : Changes ps s t
  host : t = t.hostOf s

theorem CoreChanges.refl (ps : List Piece) (s : State) : CoreChanges ps s s := ⟨Changes.refl ps s, rfl⟩

/-- A next state of an outcome that does not depend on the host's side has the host's side it started with. -/
theorem host_of_mapNext {s t : State} {o : Host.Outcome State Fault Refusal} (h : o = mapNext (·.hostOf s) o)
    (ht : o = .next t) : t = t.hostOf s := by
  rw [ht] at h
  exact Host.Outcome.next.inj h

theorem acknowledge_changes (ps : List Piece) (s : State) : Changes ps s (acknowledge s) :=
  ⟨fun p _ => by cases p <;> simp [Piece.same], rfl, rfl⟩

/-- A word that takes effect in the write step has it on an idle core only (R222). -/
theorem unless_busy_cases {s t u : State}
    (h : (if s.busy then .next s else .next u : Host.Outcome State Fault Refusal) = .next t) :
    t = s ∨ (s.busy = false ∧ t = u) := by
  cases hb : s.busy with
  | true => rw [hb] at h; cases h; exact .inl rfl
  | false => rw [hb] at h; cases h; exact .inr ⟨rfl, rfl⟩

theorem execAck_changes {s t : State} (h : execAck s = .next t) : CoreChanges [] s t := by
  obtain rfl | ⟨-, rfl⟩ := unless_busy_cases h
  · exact .refl [] t
  · exact ⟨acknowledge_changes [] s, rfl⟩

theorem execIllegalOp_changes {s t : State} (h : execIllegalOp s = .next t) : CoreChanges [] s t := by
  obtain rfl | ⟨-, rfl⟩ := unless_busy_cases h
  · exact .refl [] t
  · exact ⟨(acknowledge_changes [] s).raise .illegalOpcode, rfl⟩

/-- The lines of a command write only pieces of its row (R228). -/
theorem commandOf_within {i : Instr} {op : BitVec 4} {body : List Line} (hc : commandOf i = some (op, body)) :
    Within (Instr.writes i) body := by
  cases i <;> cases hc <;> unfold Within <;> decide

/-- A command changes what its lines may write, whether it is only started or runs to its end (R220, R228). -/
theorem runCommand_changes {ps : List Piece} {op : BitVec 4} {body : List Line} (hw : Within ps body) {s t : State}
    (h : runCommand op body s = .next t) : CoreChanges ps s t := by
  have hstart : Changes ps s (startCommand op body s) := (acknowledge_changes ps s).resume op body
  unfold runCommand at h
  split at h
  · cases h; exact .refl ps s
  · dsimp only at h
    split at h
    · cases h; exact ⟨hstart, rfl⟩
    · refine ⟨hstart.trans (coreRun_limited _ _ (fun op' todo hp => ?_) h),
        host_of_mapNext (coreRun_hostOf _ (startCommand op body s) s) h⟩
      cases hp; exact hw

/-- The tag read moves the position only (R183). -/
theorem execTag_changes {v : Word} {s t : State} (h : execTag v s = .next t) : CoreChanges [.position] s t := by
  refine ⟨?_, host_of_mapNext (execTag_hostOf v s s) h⟩
  obtain ⟨op, rest, hp⟩ := execTag_awaited h
  have hmove := atPos_changes s (s.inPos + 32)
  rw [execTag_running hp] at h
  split at h
  · cases h; exact hmove.resume op _
  · cases h; exact hmove.resume op _

/-- A marker moves the position and allocates a node at most, before what goes on from there (R185, R188). -/
theorem enterNode_changes {op : BitVec 4} {rest : List Line} {s t : State}
    {k : NodeIdx → State → Host.Outcome State Fault Refusal} (h : enterNode op rest s k = .next t)
    (hk : ∀ i u, Changes [.position, .arena] s u → k i u = .next t → Changes [.position, .arena] s t) :
    Changes [.position, .arena] s t := by
  have hmove : Changes [.position, .arena] s (s.atPos (s.inPos + 1)) := (atPos_changes s _).mono (by decide)
  unfold enterNode at h
  dsimp only at h
  split at h
  · cases h; exact hmove.resume op _
  · refine hk _ _ (hmove.trans ?_) h
    exact (arena_changes (s.atPos (s.inPos + 1)) s.node (s.nodeCount + 1) s.root).mono (by decide)

theorem execHdrInternal_changes {s t : State} (h : execHdrInternal s = .next t) : CoreChanges [.position, .arena] s t := by
  refine ⟨?_, host_of_mapNext (execHdrInternal_hostOf s s) h⟩
  obtain ⟨op, stack, rest, hp⟩ := execHdrInternal_awaited h
  rw [execHdrInternal, hp] at h
  refine enterNode_changes h fun i u hu hnext => ?_
  cases hnext; exact hu.resume op _

theorem execHdrLeaf_changes {v : SymField} {s t : State} (h : execHdrLeaf v s = .next t) :
    CoreChanges [.position, .arena] s t := by
  refine ⟨?_, host_of_mapNext (execHdrLeaf_hostOf v s s) h⟩
  obtain ⟨op, stack, rest, hp⟩ := execHdrLeaf_awaited h
  rw [execHdrLeaf, hp] at h
  refine enterNode_changes h fun i u hu hnext => ?_
  have hread : Changes [.position, .arena] s (u.atPos (u.inPos + 9)) := hu.trans ((atPos_changes u _).mono (by decide))
  dsimp only at hnext
  split at hnext
  · cases hnext; exact hread.resume op _
  · unfold setNode at hnext
    split at hnext
    · refine hread.trans (Changes.mono (ps := [.arena]) ?_ (by decide))
      exact (arena_changes (u.atPos (u.inPos + 9)) _ u.nodeCount u.root).trans (returnNode_changes _ _ _ _ _ _ hnext)
    · cases hnext

/-- An instruction changes only pieces of its row, the record and the sequencer (R228). -/
theorem exec_changes {i : Instr} {s t : State} (h : exec i s = .next t) : CoreChanges (Instr.writes i) s t := by
  cases i with
  | ack => exact execAck_changes h
  | illegalOp => exact execIllegalOp_changes h
  | illegalRsv rsv op => exact execIllegalOp_changes h
  | tag v => exact execTag_changes h
  | hdrInternal => exact execHdrInternal_changes h
  | hdrLeaf v => exact execHdrLeaf_changes h
  | compress | decompress | count | build | gen | wtag | whdr | enc | rtag | rhdr | dec | rewind | close | outclr =>
    exact runCommand_changes (commandOf_within rfl) h

theorem execAck_phase {s t : State} (h : execAck s = .next t) : t.phase = s.phase := by
  obtain rfl | ⟨-, rfl⟩ := unless_busy_cases h
  · rfl
  · rfl

theorem execIllegalOp_phase {s t : State} (h : execIllegalOp s = .next t) : t.phase = s.phase := by
  obtain rfl | ⟨hb, rfl⟩ := unless_busy_cases h
  · rfl
  · exact ((busy_false s).mp hb).symm

/-- A CTRL word that is no command leaves the sequencer (R223, R226). -/
theorem exec_write_step_phase {i : Instr} {s t : State} (h : exec i s = .next t) (hp : i.port = .ctrl)
    (hc : commandOf i = none) : t.phase = s.phase := by
  obtain ⟨op, body, hc'⟩ | rfl | rfl | ⟨rsv, op, rfl⟩ := ctrl_cases i hp
  · rw [hc] at hc'; cases hc'
  · exact execAck_phase h
  · exact execIllegalOp_phase h
  · exact execIllegalOp_phase h

/-- Settles O29: the pieces and the host's side by `exec_changes`, the sequencer by `exec_write_step_phase`. -/
theorem commandFrame : Obligations.CommandFrame := by
  intro i s t h
  obtain ⟨⟨hpieces, htag, hinput⟩, hhost⟩ := exec_changes h
  exact ⟨hpieces, htag, hinput, (congrArg State.irqEn hhost :), (congrArg State.host hhost :),
    (congrArg State.rdata hhost :), (congrArg State.outSeen hhost :), (congrArg State.draws hhost :),
    exec_write_step_phase h⟩

end Sys2Proof.Machine
end

section
/-! The pipelines (R224, R225): what COMPRESS leaves, and how DECOMPRESS ends on a stream it can read and on one it
cannot. -/

namespace Sys2Proof.Machine

/-! ### COMPRESS -/

/-- After its tables COMPRESS changes the output and the position only (R224). -/
theorem compressed_frame (s : State) (t : Tree) : s.compressed t =
    { s.tabled t with
      output := (s.compressed t).output, outAcc := (s.compressed t).outAcc, outNbits := 0
      inPos := 8 * s.input.length } := by
  rw [compressed_eq]
  exact close_putBits_atPos ..

/-- Settles O58: the run is `exec_compress`, and what it writes is `compressed_byteBits`. -/
theorem compressResult : Obligations.CompressResult := by
  intro s hq hm
  obtain ⟨t, is, hn, hleaves, hH, hcompress⟩ := exec_compress hq hm
  have hframe := compressed_frame s t
  exact ⟨t, is, hn, hleaves, hH, hcompress, (congrArg State.treeValid hframe :), (congrArg State.codesValid hframe :),
    (congrArg State.outNbits hframe :), (congrArg State.inPos hframe :), compressed_byteBits s t⟩

/-! ### DECOMPRESS up to its tag -/

theorem decompress_start_steps (op : BitVec 4) (s : State) : Steps 2 (resume op decompressBody s)
    (resume op (rtagBody ++ (rhdrBody ++ decBody ++ closeBody)) ((clearOut s).atPos 0)) :=
  (clearOutput_step op (rewindBody ++ (rtagBody ++ (rhdrBody ++ decBody ++ closeBody))) s).trans
    (rewind_step op (rtagBody ++ (rhdrBody ++ decBody ++ closeBody)) (clearOut s))

/-- RTAG on anything but the tag it expects, with the bits it could read consumed (R183). -/
theorem rtag_raises (op : BitVec 4) (rest : List Line) {s : State} (h : s.inBits.take 32 ≠ msbBits 32 s.tag.toNat) :
    Steps 2 (resume op (rtagBody ++ rest) s)
      (raiseError .badHeaderTag (s.atPos (min (s.inPos + 32) (8 * s.input.length)))) := by
  by_cases hshort : 8 * s.input.length < s.inPos + 32
  · rw [Nat.min_eq_right hshort.le]
    exact rtag_short op rest hshort
  · have hlen : (s.inBits.take 32).length = 32 := by
      rw [List.length_take, inBits_length, State.bitsLeft]; omega
    rw [Nat.min_eq_left (Nat.le_of_not_lt hshort)]
    exact rtag_mismatch op rest (List.take_append_drop 32 s.inBits).symm hlen h

/-- DECOMPRESS ends at a tag that is wrong or short, its output empty (R225, R245). -/
theorem exec_decompress_bad_tag {s : State} (hq : s.quiet) (h : (byteBits s.input).take 32 ≠ msbBits 32 s.tag.toNat) :
    exec .decompress s = .next (((clearOut s).atPos (min 32 (8 * s.input.length))).failed .badHeaderTag) := by
  have hrun := (decompress_start_steps 0x2 (acknowledge s)).trans
    (rtag_raises 0x2 (rhdrBody ++ decBody ++ closeBody) (s := (clearOut (acknowledge s)).atPos 0) h)
  exact exec_of_raise (t := (clearOut s).atPos (min 32 (8 * s.input.length))) hq hrun (by unfold stepBound; omega) hq.1

/-! ### Errors after the tag -/

theorem rhdr_dec_ofDecoder : ∀ l ∈ rhdrBody ++ decBody, l.ofDecoder := by simp [rhdrBody, decBody, Line.ofDecoder]

theorem tag_length {s : State} (htag : (byteBits s.input).take 32 = msbBits 32 s.tag.toNat) : 32 ≤ 8 * s.input.length := by
  have hlen := congrArg List.length htag
  rw [List.length_take, byteBits_length, msbBits_length] at hlen
  exact min_eq_left_iff.mp hlen

section
variable {s : State} (hq : s.quiet) (htag : (byteBits s.input).take 32 = msbBits 32 s.tag.toNat)
include hq htag

/-- After the expected tag DECOMPRESS ends in the error that the lines of RHDR and DEC raise in any command (R225, R244). -/
theorem exec_decompress_of_raise {op : BitVec 4} {k : Nat} {e : ErrorCode} {t : State}
    (hrun : Steps k (resume op (rhdrBody ++ decBody) (acknowledge ((clearOut s).atPos 32))) (raiseError e (acknowledge t)))
    (hk : 3 + k ≤ stepBound s) (ht : t.phase = .idle) : exec .decompress s = .next (t.failed e) := by
  have hb : ((clearOut (acknowledge s)).atPos 0).inBits = msbBits 32 s.tag.toNat ++ (byteBits s.input).drop 32 :=
    htag ▸ (List.take_append_drop 32 (byteBits s.input)).symm
  have hrtag := rtag_stage 0x2 (rhdrBody ++ decBody ++ closeBody) hb
  have hdecoder := error_alike rhdr_dec_ofDecoder hrun rfl rfl 0x2 closeBody
  exact exec_of_raise hq (((decompress_start_steps 0x2 (acknowledge s)).trans hrtag).trans hdecoder) hk ht

/-- An error of RHDR ends DECOMPRESS in the same state, its output empty (R225, R246). -/
theorem exec_decompress_of_rhdrRaises {e : ErrorCode} {c p : Nat}
    (h : (acknowledge ((clearOut s).atPos 32)).RhdrRaises e c p) :
    ∃ b, exec .rhdr ((clearOut s).atPos 32) = .next b ∧ exec .decompress s = .next b ∧ b.err = true ∧
      b.errcode = e.code ∧ b.output = [] ∧ b.outNbits = 0 := by
  obtain ⟨k, hk, v, hrun⟩ := h
  have hlen := tag_length htag
  have hrhdr : k ≤ stepBound ((clearOut s).atPos 32) := by unfold stepBound; omega
  have hdecompress : 3 + k ≤ stepBound s := by unfold stepBound; omega
  have hdecoder := error_alike (fun l hl => rhdr_dec_ofDecoder l (List.mem_append_left _ hl)) hrun rfl rfl 0xA decBody
  exact ⟨(((clearOut s).atPos 32).headerCleared.withArena v (BitVec.ofNat 10 c) p).failed e,
    exec_of_raise hq hrun hrhdr hq.1, exec_decompress_of_raise hq htag hdecoder hdecompress hq.1, rfl, rfl, rfl, rfl⟩

end

/-- The state RHDR leaves in DECOMPRESS, its record apart, when it has read the header of `t` (R225). -/
def State.headerRead (s : State) (t : Tree) : State := ((clearOut s).atPos 32).withTree t t.headerBits.length

theorem decompressed_eq_decoded (s : State) (t : Tree) (xs : List Symbol) (p : Nat) (c : NodeIdx) :
    s.decompressed t xs p c = (s.headerRead t).decoded xs p c := rfl

theorem headerRead_inBits {s : State} {t : Tree} {more : List Bool}
    (hb : ((clearOut s).atPos 32).inBits = t.headerBits ++ more) : (s.headerRead t).inBits = more := by
  have hdrop : (s.headerRead t).inBits = ((clearOut s).atPos 32).inBits.drop t.headerBits.length := List.drop_drop.symm
  rw [hdrop, hb, List.drop_left]

section
variable {s : State} {t : Tree} {bits : List Bool} {xs : List Symbol} (hq : s.quiet) (hn : t.isNode = true)
  (hsize : t.size ≤ 513) (hx : t.Spells bits xs) (hne : eofSymbol ∉ xs)
include hq hn hsize hx hne

/-- Where the input ends inside a code, DEC and DECOMPRESS end in the same state, the literals before it decoded (R207,
R225, R247). -/
theorem exec_dec_decompress_truncated {q : List Bool} (hw : t.walkOpen q = true)
    (htag : (byteBits s.input).take 32 = msbBits 32 s.tag.toNat)
    (hb : ((clearOut s).atPos 32).inBits = t.headerBits ++ (bits ++ q)) :
    ∃ c, exec .dec (s.headerRead t).succeeded =
        .next ((s.decompressed t xs (8 * s.input.length) c).failed .truncatedStream) ∧
      exec .decompress s = .next ((s.decompressed t xs (8 * s.input.length) c).failed .truncatedStream) := by
  have hlen := congrArg List.length hb
  rw [inBits_length, State.bitsLeft, List.length_append, List.length_append, atPos_input, atPos_inPos,
    clearOut_input] at hlen
  have hhead := t.headerBits_length
  have hnodes := t.size_eq
  obtain ⟨c, m, -, -, hdec⟩ := dec_steps_truncated 0xB [] (s := acknowledge (s.headerRead t)) rfl
    (headerArena_holds t hsize _ rfl) hn hx hne hw (headerRead_inBits hb)
  have hend : ((afterLiterals xs bits.length { acknowledge (s.headerRead t) with decCount := 0 }).atPos
      (8 * s.input.length)).withCursor c = acknowledge (s.decompressed t xs (8 * s.input.length) c) := by
    rw [decompressed_eq_decoded, ← decoded_acknowledge]
    rfl
  have hraise := hdec.to (congrArg (raiseError .truncatedStream) hend)
  have hrhdr := rhdr_stage 0xB decBody (s := acknowledge ((clearOut s).atPos 32)) hn hb hsize
  have hidle : (s.decompressed t xs (8 * s.input.length) c).phase = .idle := (decoded_phase ..).trans hq.1
  refine ⟨c, exec_of_raise (s := (s.headerRead t).succeeded) hq hraise ?_ hidle,
    exec_decompress_of_raise hq htag (hrhdr.trans hraise) ?_ hidle⟩
  · show _ ≤ stepBound s
    unfold stepBound; omega
  · unfold stepBound; omega

end

/-! ### What DECOMPRESS leaves -/

/-- Whole bytes leave no partial byte (R31, R204). -/
theorem decompressed_outAcc (s : State) (t : Tree) (xs : List Symbol) (p : Nat) (c : NodeIdx) :
    (s.decompressed t xs p c).outAcc = 0 := by
  have hok : accOk (s.decompressed t xs p c) :=
    putBits_accOk (literalBits xs) { s.headerRead t with decCount := 0 } Nat.one_pos
  rw [accOk, decompressed_outNbits] at hok
  exact BitVec.eq_of_toNat_eq (Nat.lt_one_iff.mp hok)

theorem decompressed_frame (s : State) (t : Tree) (xs : List Symbol) (p : Nat) (c : NodeIdx) : s.decompressed t xs p c =
    { s with
      output := (s.decompressed t xs p c).output, outAcc := 0, outNbits := 0, inPos := p
      codesValid := false, treeValid := true, root := 0, node := headerArena t, nodeCount := BitVec.ofNat 10 t.size
      decCount := BitVec.ofNat 32 xs.length, cursor := c } := by
  conv_rhs => rw [← decompressed_outAcc s t xs p c]
  exact decoded_eq (s.headerRead t) xs p c

/-- The header of a tree with an internal root starts the unread input, or RHDR ends in one of four errors (R192). -/
theorem rhdr_node_or_raises {s : State} (hi : s.inPos ≤ 8 * s.input.length) :
    (∃ (t : Tree) (more : List Bool), s.inBits = t.headerBits ++ more ∧ t.isNode = true ∧ t.size ≤ 513) ∨
      ∃ e c p, e.code ∈ [2, 8, 9, 10#4] ∧ s.RhdrRaises e c p := by
  obtain ⟨t, more, hb, hsize⟩ | ⟨e, c, p, hend, hraise⟩ := rhdr_header_or_raises hi
  · cases t with
    | leaf x => exact .inr ⟨_, _, _, by decide, rhdrRaises_degenerate hb⟩
    | node l r => exact .inl ⟨_, more, hb, rfl, hsize⟩
  · exact .inr ⟨e, _, p, hend.code_mem, hraise⟩

/-- After a header DEC completes, or ends in TRUNCATED_STREAM, which ends DECOMPRESS in the same state (R207, R225). -/
theorem exec_dec_of_header {s : State} (hq : s.quiet) (htag : (byteBits s.input).take 32 = msbBits 32 s.tag.toNat) {t : Tree}
    (hn : t.isNode = true) (hsize : t.size ≤ 513) {more : List Bool}
    (hb : ((clearOut s).atPos 32).inBits = t.headerBits ++ more) :
    ∃ c, exec .dec (s.headerRead t).succeeded = .next c ∧
      (c.err = true → exec .decompress s = .next c ∧ c.errcode = 3) := by
  obtain ⟨xs, bits, r, rfl, hx, hne, hw | ⟨p, rest, rfl, hp⟩⟩ := Tree.spells_total hn more.length more le_rfl
  · obtain ⟨c, hdec, hdecompress⟩ := exec_dec_decompress_truncated hq hn hsize hx hne hw htag hb
    exact ⟨_, hdec, fun _ => ⟨hdecompress, rfl⟩⟩
  · have hH := headerArena_holds t hsize (s.headerRead t).succeeded rfl
    obtain ⟨c, m, -, -, -, hdec⟩ := exec_dec (s := (s.headerRead t).succeeded) hq rfl hH hn hx hne hp (headerRead_inBits hb)
    exact ⟨_, hdec, nofun⟩

/-- Settles O59: a stream that is read whole by `exec_decompress`, and one that is not by the stage that raises the error. -/
theorem decompressResult : Obligations.DecompressResult := by
  refine fun s hq => ⟨fun t bits p more xs hn hsize hx hne hp hb => ?_, exec_decompress_bad_tag hq, fun htag => ?_,
    fun t bits q xs hn hsize hx hne hw hb => ?_⟩
  · obtain ⟨c, hdecompress⟩ := exec_decompress hq hn hsize hx hne hp hb
    exact ⟨_, hdecompress, congrArg State.succeeded (decompressed_frame ..),
      decompressed_output s t hne (32 + t.headerBits.length + bits.length + p.length) c⟩
  · have hlen : 32 ≤ 8 * s.input.length := tag_length htag
    obtain ⟨t, more, hb, hn, hsize⟩ | ⟨e, c, p, hcode, hraise⟩ :=
      rhdr_node_or_raises (s := acknowledge ((clearOut s).atPos 32)) hlen
    · exact ⟨_, exec_rhdr (s := (clearOut s).atPos 32) hq hb hn hsize, nofun,
        fun _ => exec_dec_of_header hq htag hn hsize hb⟩
    · obtain ⟨b, hrhdr, hdecompress, herr, he, hout, hnbits⟩ := exec_decompress_of_rhdrRaises hq htag hraise
      exact ⟨b, hrhdr, fun _ => ⟨hdecompress, he ▸ hcode, hout, hnbits⟩, fun h => by rw [herr] at h; cases h⟩
  · have htag : (byteBits s.input).take 32 = msbBits 32 s.tag.toNat := by rw [hb, List.take_left' (msbBits_length 32 _)]
    have hb' : ((clearOut s).atPos 32).inBits = t.headerBits ++ (bits ++ q) := by
      rw [State.inBits, atPos_input, atPos_inPos, clearOut_input, hb, List.drop_left' (msbBits_length 32 _)]
    obtain ⟨c, -, hdecompress⟩ := exec_dec_decompress_truncated hq hn hsize hx hne hw htag hb'
    exact ⟨_, hdecompress, congrArg (State.failed .truncatedStream) (decompressed_frame ..),
      decompressed_output s t hne (8 * s.input.length) c⟩

end Sys2Proof.Machine
end

section
/-! Exceptions (R240 to R268): the errors ILLEGAL_SEQUENCE and COUNT_OVERFLOW, the interrupt level, and that no other fault
is reachable than that of a host action without a step. -/

namespace Sys2Proof.Machine

/-! ### No internal fault -/

/-- An outcome that is no refusal, and a fault only for a host access or a binding that the spec gives no step (R62, R63). -/
def NoInternal (o : Host.Outcome State Fault Refusal) : Prop :=
  (∀ f, o = .fault f → f = .accessNotAdmitted ∨ f = .bindTooLong) ∧ ∀ r, o ≠ .refused r

theorem NoInternal.of_next {o : Host.Outcome State Fault Refusal} (h : ∃ t, o = .next t) : NoInternal o := by
  obtain ⟨t, rfl⟩ := h
  exact ⟨nofun, nofun⟩

theorem NoInternal.of_fault {o : Host.Outcome State Fault Refusal} {f : Fault} (h : o = .fault f)
    (hf : f = .accessNotAdmitted ∨ f = .bindTooLong) : NoInternal o := by
  subst h
  exact ⟨fun _ e => Host.Outcome.fault.inj e ▸ hf, nofun⟩

/-- On an idle core that is settled, a CTRL write of a command has a next state, whether the command is only started or
runs to its end (R220, R221, R268). -/
theorem runCommand_next {i : Instr} {op : BitVec 4} {body : List Line} (hc : commandOf i = some (op, body)) {s : State}
    (hs : s.Settled) (hb : s.busy = false) : ∃ t, runCommand op body s = .next t := by
  cases ha : s.attended with
  | true => exact ⟨_, runCommand_attended hb ha⟩
  | false =>
    obtain ⟨t, ht, -⟩ := exec_of_command ⟨(busy_false s).mp hb, ha⟩ hs hc
    exact ⟨t, ht⟩

/-- Every CTRL word has a next state: on a busy core without effect (R222), on an idle one as a command, ACK or an illegal
word (R220, R223, R226). -/
theorem exec_decodeCtrl_next {s : State} (h : s.Inv) (v : Word) : ∃ t, exec (decodeCtrl v) s = .next t := by
  cases hb : s.busy with
  | true => exact ⟨s, exec_decodeCtrl_busy hb v⟩
  | false =>
    obtain ⟨op, body, hc⟩ | hi | hi | ⟨rsv, op, hi⟩ := ctrl_cases _ (decodeCtrl_port v)
    · rw [exec_eq_runCommand hc]
      exact runCommand_next hc (h.settled hb) hb
    · rw [hi]; exact ⟨_, execAck_idle hb⟩
    · rw [hi]; exact ⟨_, execIllegalOp_idle hb⟩
    · rw [hi]; exact ⟨_, execIllegalRsv_idle hb rsv op⟩

theorem hostRead_noInternal (off : BitVec 16) (size : Nat) (s : State) : NoInternal (hostRead off size s) := by
  by_cases ha : size = 4 ∧ off.toNat % 4 = 0
  · obtain ⟨rfl, h4⟩ := ha
    exact .of_next (hostRead_next h4 s)
  · exact .of_fault (hostRead_not_admitted ha s) (.inl rfl)

theorem hostWrite_noInternal {s : State} (h : s.Inv) (off : BitVec 16) (size : Nat) (v : Word) :
    NoInternal (hostWrite off size v s) := by
  by_cases ha : size = 4 ∧ off.toNat % 4 = 0
  · obtain ⟨rfl, h4⟩ := ha
    by_cases hctrl : off = 0x008
    · rw [hctrl, hostWrite_ctrl]
      exact .of_next (exec_decodeCtrl_next h v)
    · exact .of_next (write_next h4 hctrl v s)
  · exact .of_fault (hostWrite_not_admitted ha v s) (.inl rfl)

theorem hostBind_noInternal (bytes : List Byte) (s : State) : NoInternal (hostBind bytes s) := by
  by_cases hlen : bytes.length ≤ 2 ^ 32 - 1
  · exact .of_next ⟨_, hostBind_admitted hlen s⟩
  · exact .of_fault (hostBind_tooLong hlen s) (.inr rfl)

theorem hostObserve_next (s : State) : ∃ t, hostObserve s = .next t := by
  cases hb : s.busy with
  | true => exact ⟨_, hostObserve_busy hb⟩
  | false => exact ⟨_, hostObserve_idle hb⟩

theorem hostAct_noInternal {s : State} (h : s.Inv) (a : HostAction) : NoInternal (hostAct a s) := by
  cases a with
  | read off size => exact hostRead_noInternal off size s
  | write off size v => exact hostWrite_noInternal h off size v
  | bind bytes => exact hostBind_noInternal bytes s
  | observe => exact .of_next (hostObserve_next s)
  | reset => exact .of_next ⟨_, rfl⟩

/-- The core's step has a next state: a running command is on its way to its end, and an idle core waits (R267, R268). -/
theorem coreStep_next {s : State} (h : s.Inv) : ∃ t, coreStep s = .next t := by
  cases hb : s.busy with
  | true =>
    obtain ⟨t, ht, -⟩ := coreStep_inv h hb
    exact ⟨t, ht⟩
  | false => exact ⟨s, by rw [coreStep, (busy_false s).mp hb]⟩

/-- A step is a step of the core or a host action, from a state that differs in its pending actions only (R20, R77). -/
theorem step_eq_coreStep_or_hostAct (s : State) :
    (∃ u, step s = coreStep (s.hostOf u)) ∨ ∃ a u, step s = hostAct a (s.hostOf u) := by
  cases hh : s.host with
  | nil => exact .inl ⟨s, by rw [step, hh]; rfl⟩
  | cons e rest =>
    cases hd : e.due s with
    | true => exact .inr ⟨e.act, { s with host := rest }, step_due hh hd⟩
    | false => exact .inl ⟨{ s with host := e.nearer :: rest }, step_not_due hh hd⟩

/-- Settles O14: under the invariant a core step has a next state, and a host action has one unless the spec gives it no
step. -/
theorem noInternalFault : Obligations.NoInternalFault := by
  intro s hinv
  show NoInternal (step s)
  obtain ⟨u, hcore⟩ | ⟨a, u, hact⟩ := step_eq_coreStep_or_hostAct s
  · rw [hcore]; exact .of_next (coreStep_next (Inv_hostOf hinv u))
  · rw [hact]; exact hostAct_noInternal (Inv_hostOf hinv u) a

/-! ### The interrupt level -/

/-- With the interrupt enabled, a record with DONE or ERR raises the level (R258). -/
theorem irq_of_done_eq_not_err {s : State} (hen : s.irqEn = true) (h : s.done = !s.err) : s.irq = true := by
  rw [State.irq, hen, h, Bool.not_or_self]; rfl

/-- The step that clears BUSY raises the level: it leaves the record of a command that ended (R221, R259). -/
theorem irq_of_command_end {s t : State} (hinv : s.Inv) (hb : s.busy = true) (hen : s.irqEn = true)
    (h : coreStep s = .next t) (hidle : t.busy = false) : t.irq = true := by
  obtain ⟨u, hu, -, hrecord⟩ := coreStep_inv hinv hb
  rw [h] at hu
  cases hu
  exact irq_of_done_eq_not_err ((coreStep_irqEn h).trans hen) (hrecord hidle)

/-- Settles O27: what each event leaves in IRQ_EN, DONE and ERR. -/
theorem irqLevel : Obligations.IrqLevel := by
  refine ⟨fun s => ⟨rfl, getLsbD_status s 7⟩, fun s t hb h => ?_, fun s op body => Bool.and_false s.irqEn,
    fun s t v hv h => ?_, fun s t h => ?_, fun s t => irq_of_command_end, fun s t v hb hen hv h => ?_⟩
  · cases (execAck_idle hb).symm.trans h
    exact irq_acknowledge s
  · cases (hostWrite_irqEn v s).symm.trans h
    exact congrArg (· && (s.done || s.err)) hv
  · cases h; rfl
  · cases ((illegalCtrlWord s hb).1 v hv).symm.trans h
    exact irq_of_done_eq_not_err hen rfl

/-! ### COUNT_OVERFLOW -/

/-- More chunks than COUNT may count are those of a whole input of the greatest length (R15, R142). -/
theorem whole_input_of_overflow {s : State} (hlen : s.input.length ≤ 2 ^ 32 - 1)
    (h : 2 ^ 32 - 2 < (8 * s.input.length - s.inPos) / 8) : s.inPos = 0 ∧ s.input.length = 2 ^ 32 - 1 := by omega

/-- The state COUNT_OVERFLOW leaves, the record apart: the first `n` chunks counted and the one after them read (R142). -/
def State.countedTo (s : State) (n : Nat) : State :=
  ({ s with freq := tally (Vector.replicate 257 0) (s.chunks.take n) } : State).atPos (s.inPos + 8 * (n + 1))

theorem countedTo_acknowledge (s : State) (n : Nat) : (acknowledge s).countedTo n = acknowledge (s.countedTo n) := by
  rw [State.countedTo, chunks_acknowledge]; rfl

/-- The lines of COMPRESS after its COUNT (R224). -/
def compressTail : List Line := rewindBody ++ buildBody ++ genBody ++ wtagBody ++ whdrBody ++ encBody

/-- COMPRESS up to its COUNT: the output emptied and the input at its start (R224). -/
theorem compress_start_steps (op : BitVec 4) (s : State) : Steps 2 (resume op compressBody s)
    (resume op (countBody ++ compressTail) ((clearOut s).atPos 0)) :=
  (clearOutput_step op (rewindBody ++ (countBody ++ compressTail)) s).trans
    (rewind_step op (countBody ++ compressTail) (clearOut s))

section
variable {s : State} {n : Nat} (hq : s.quiet) (hn : n = Config.countMax.toNat)
include hq hn

/-- COUNT of more chunks than it may count (R140, R142). -/
theorem exec_count_overflow (hm : n < s.chunkCount) : exec .count s = .next ((s.countedTo n).failed .countOverflow) := by
  have hrun := (count_overflow_stage 0x3 [] (s := acknowledge s) hn hm).to
    (congrArg (raiseError .countOverflow) (countedTo_acknowledge s n))
  have hbound : n + 3 ≤ stepBound s := by
    unfold State.chunkCount at hm
    unfold stepBound; omega
  exact exec_of_raise hq hrun hbound hq.1

/-- COMPRESS stops where its COUNT does, with the output emptied and nothing written (R142, R224). -/
theorem exec_compress_overflow (hm : n < (s.atPos 0).chunkCount) :
    exec .compress s = .next ((((clearOut s).atPos 0).countedTo n).failed .countOverflow) := by
  have hcount := (count_overflow_stage 0x1 compressTail (s := acknowledge ((clearOut s).atPos 0)) hn hm).to
    (congrArg (raiseError .countOverflow) (countedTo_acknowledge ((clearOut s).atPos 0) n))
  have hbound : 2 + (n + 3) ≤ stepBound s := by
    rw [State.chunkCount, atPos_input, atPos_inPos] at hm
    unfold stepBound; omega
  exact exec_of_raise hq ((compress_start_steps 0x1 (acknowledge s)).trans hcount) hbound hq.1

end

/-- Settles O34: the table is the tally of the first `2^32 - 2` chunks, which holds no symbol 256. -/
theorem countOverflow : Obligations.CountOverflow := by
  intro s hq hlen hi hm
  obtain ⟨hpos, hwhole⟩ := whole_input_of_overflow hlen hm
  obtain ⟨n, hn⟩ : ∃ n, n = 2 ^ 32 - 2 := ⟨_, rfl⟩
  rw [← hn] at hm ⊢
  have hmax : n = Config.countMax.toNat := hn
  have hcompress : n < (s.atPos 0).chunkCount := by
    rw [State.chunkCount, atPos_input, atPos_inPos]; omega
  have hend : s.inPos + 8 * (n + 1) = 8 * (2 ^ 32 - 1) := by omega
  refine ⟨hpos, hwhole, ⟨_, exec_count_overflow hq hmax hm, ?_, tally_eofSymbol s n, fun v _ => ?_⟩,
    _, exec_compress_overflow hq hmax hcompress, rfl, rfl, rfl, rfl⟩
  · rw [← hend]; rfl
  · have hcount := tally_toNat s hm.le (by omega) v
    simp only [hpos, Nat.zero_add] at hcount
    exact hcount

/-! ### ILLEGAL_SEQUENCE -/

/-- A command whose first line raises ILLEGAL_SEQUENCE changes the record only (R227, R255). -/
theorem runCommand_illegalSequence {op : BitVec 4} {l : Line} {ls : List Line} {s : State} (hq : s.quiet)
    (h : Steps 1 (resume op (l :: ls) (acknowledge s)) (raiseError .illegalSequence (acknowledge s))) :
    runCommand op (l :: ls) s = .next (s.failed .illegalSequence) :=
  exec_of_raise hq h (by unfold stepBound; omega) hq.1

/-- Settles O43: the first line of each of the four commands is its check. -/
theorem illegalSequence : Obligations.IllegalSequence := by
  refine fun s hq => ⟨fun hv => ?_, fun hv => runCommand_illegalSequence hq (encStart_raise 0x8 [] hv)⟩
  simp only [List.forall_mem_cons, List.not_mem_nil, false_imp_iff, implies_true, and_true]
  exact ⟨runCommand_illegalSequence hq (genStart_raise 0x5 [] hv),
    runCommand_illegalSequence hq (hdrStart_raise 0x7 [] hv), runCommand_illegalSequence hq (decStart_raise 0xB [] hv)⟩

end Sys2Proof.Machine
end

section
/-! Every command ends, in one step of the host or in single steps of the machine (R281, R282), and the reset input
(R270 to R272). -/

namespace Sys2Proof.Machine

/-! ### Commands end -/

/-- Settles O9: `exec_of_command`, for the command that `exec` runs. -/
theorem commandsComplete : Obligations.CommandsComplete := by
  intro i op body hc s hq hs
  rw [exec_eq_runCommand hc]
  exact exec_of_command hq hs hc

/-- With no host action pending none is due to land during a command (R77). -/
theorem quiet_of_no_action {s : State} (hp : s.phase = .idle) (hh : s.host = []) : s.quiet :=
  ⟨hp, by rw [State.attended, hh]⟩

/-- Settles O10: one sequence of core steps gives both, the run of the command (`runCommand_of_steps`) and the steps of the
machine (`run_of_steps`). -/
theorem stepsReachTheEnd : Obligations.StepsReachTheEnd := by
  intro i op body hc s hp hh hs
  obtain ⟨k, hk, t, hsteps, hidle, -⟩ := command_ends hc hs
  refine ⟨k, hk, t, ?_, run_of_steps hsteps hh⟩
  rw [exec_eq_runCommand hc]
  exact runCommand_of_steps (quiet_of_no_action hp hh) hsteps hk hidle

/-! ### Reset -/

/-- An action that may land while a command runs is due when the core is idle or its lag has passed (R77). -/
theorem HostEvent.due_of_mayLandBusy {e : HostEvent} {s : State} (ha : e.act.mayLandBusy = true)
    (h : s.busy = false ∨ e.lag = some 0) : e.due s = true := by
  obtain hb | hl := h
  · exact e.due_idle hb
  · rw [HostEvent.due, hl, ha]; exact Bool.or_true _

/-- Settles O16: the reset input may land while a command runs, so it is due in both cases. -/
theorem resetEvent : Obligations.ResetEvent := by
  intro s e rest hh ha hland
  have hdue : e.due s = true := HostEvent.due_of_mayLandBusy (by rw [ha]; rfl) hland
  rw [step_due hh hdue, ha]
  rfl

/-- ID, VERSION, STATUS and TAG stand at one offset each (R37). -/
theorem regAt_not_constant {n : Nat} (h : n ∉ [0x000, 0x004, 0x00C, 0x014]) : regAt n ∉ [.id, .version, .status, .tag] := by
  by_cases hw : n < 0x34
  · have hlow : ∀ m < 0x34, m ∉ [0x000, 0x004, 0x00C, 0x014] → regAt m ∉ [.id, .version, .status, .tag] := by decide
    exact hlow n hw h
  · rw [regAt_window (by omega)]; exact windowAt_not_register n

/-- Settles O17: four registers read their constants, and every other offset holds 0 (`hostRead_reset`). -/
theorem resetReads : Obligations.ResetReads := by
  refine ⟨fun off h4 => ?_, rfl, rfl, rfl⟩
  split_ifs with hid hversion hstatus htag
  · rw [hid]; exact hostRead_idle rfl rfl
  · rw [hversion]; exact hostRead_idle rfl rfl
  · rw [hstatus]; exact hostRead_idle rfl rfl
  · rw [htag]; exact hostRead_idle rfl rfl
  · have hother : off.toNat ∉ [0x000, 0x004, 0x00C, 0x014] := by
      simp only [List.mem_cons, List.not_mem_nil, or_false]
      bv_omega
    exact hostRead_reset h4 (regAt_not_constant hother)

end Sys2Proof.Machine
end
